-- ==== Sys2Proof/Word.lean ====
section
/-! DEFINITION. Word types of the engine (00_scope.md R7, R8). The arithmetic helpers wrap_N, sext_N and clamp_N are
in Machine/Operands.lean. -/

namespace Sys2Proof

/-- A register byte or a byte of SPC700 RAM (20_memory.md R84). -/
abbrev Byte := BitVec 8

/-- A 32-bit operand, response word, or RT_W, TIME_W, ACCUM_W quantity (00_scope.md R7). -/
abbrev Word32 := BitVec 32

/-- One PCM sample on DIN or DOUT: OUT_W = 16 bits, signed (00_scope.md R7). -/
abbrev Sample := BitVec 16

/-- One command word of format CW96 (30_encoding.md R121). -/
abbrev CmdWord := BitVec 96

end Sys2Proof
end

