-- ==== Sys2Proof/Machine/Units.lean ====
section
/-! DEFINITION. The records of the engine's unit groups (10_state.md R20 to R47): plain data, one field per row of the
spec's tables. State (Machine/State.lean) is the product of lists of them. -/

namespace Sys2Proof.Machine

/-- Waveform family of an oscillator slot (42_oscillator_ops.md R230), the test kind TSQ among them. -/
inductive OscKind where
  | nesSquare | nesTriangle | nesNoise | vrc6Square | vrc6Saw | snSquare | snNoise | pceWave | pceNoise
  | brrVoice | opllOperator | tsq
  deriving DecidableEq, Repr, Inhabited

/-- Chip family (00_scope.md R7, `CHIP_KIND`), the test kind TCH among them. -/
inductive ChipKind where
  | nes2a03 | vrc6 | sn76489 | pcePsg | spc700Dsp | opll | tch
  deriving DecidableEq, Repr, Inhabited

/-- Envelope stage of a voice (43_brr_voice_ops.md R274); a simplified voice's On is `attack` (R292). -/
inductive EnvStage where
  | off | attack | decay | sustain | release
  deriving DecidableEq, Repr, Inhabited

/-- GAIN sub-modes (10_state.md R34); `none` of `Option GainMode` is the spec's None. -/
inductive GainMode where
  | direct | linearDec | expDec | linearInc | bentInc
  deriving DecidableEq, Repr, Inhabited

/-- A ring Buffer (10_state.md R21). `offset`, `factor` and `readerAccum` are RT_W, RT_W and ACCUM_W = 32 bits. -/
structure Buf where
  /-- RING_N cells, each stored unsigned below 2^CELL_W. -/
  cells : List Nat
  /-- Ring index of the cell that holds sample 0 of the readable region. -/
  rd : Nat
  /-- The resampled-time cursor `offset_`, measured from cell `rd`. -/
  offset : Word32
  factor : Word32
  sampleRate : Word32
  /-- The adjusted clock rate (40_buffer_ops.md R160). -/
  clockRate : Word32
  /-- Capacity in samples; 0 means not allocated. -/
  bufferSize : Nat
  bassShift : Fin 32
  /-- Signed, modular. -/
  readerAccum : Word32
  deriving DecidableEq, Repr, Inhabited

/-- A synthesizer (10_state.md R25). -/
structure Syn where
  quality : Nat
  volumeUnit : Word32
  eq : Word32
  /-- 2^PHASE_BITS rows of W taps. -/
  impulse : List (List Int)
  deriving DecidableEq, Repr, Inhabited

/-- The part of an oscillator slot its per-kind functions see and change (10_state.md R28, 42_oscillator_ops.md R231):
the register image and the derived fields, without the delay, the committed amplitude and the sink. -/
structure Tone where
  regs : List Byte
  phase : Int
  period : Int
  volume : Int
  lengthCounter : Nat
  lfsr : Int
  /-- Ordinal of the stage in the kind's enumeration; 0 is its first value. -/
  envStage : Nat
  envCounter : Int
  /-- Further per-kind state, opaque to the spec. -/
  extra : List Int
  deriving DecidableEq, Repr, Inhabited

/-- An oscillator slot (10_state.md R28). -/
structure Osc extends Tone where
  /-- Clock cycles from the end of the last OSC.RUN to the next transition. -/
  delay : Nat
  /-- The amplitude committed to the output Buffer (R29). -/
  lastAmp : Int
  /-- The sink: a BUF index, or null when muted (R30). -/
  output : Option Nat
  deriving DecidableEq, Repr, Inhabited

/-- The last four decoded samples, `h0` the newest (10_state.md R34). -/
structure Hist where
  h0 : Int
  h1 : Int
  h2 : Int
  h3 : Int
  deriving DecidableEq, Repr, Inhabited

/-- A BRR voice (10_state.md R34). -/
structure Voice where
  ramAddr : Nat
  hdrLoop : Bool
  hdrEnd : Bool
  hdrFilter : Fin 4
  hdrShift : Fin 16
  nibblesLeft : Nat
  hist : Hist
  /-- 12 fractional bits. -/
  fraction : Nat
  loopAddr : Nat
  startAddr : Nat
  envStage : EnvStage
  gainMode : Option GainMode
  envValue : Nat
  envCounter : Int
  out : Int
  deriving DecidableEq, Repr, Inhabited

/-- The enable, mode and latch state a global register write can change (10_state.md R31). -/
structure GlobalBits where
  frameMode : Byte
  oscEnables : Byte
  latch : Nat
  deriving DecidableEq, Repr, Inhabited

/-- A chip front end (10_state.md R31). `gregs` is sparse over POWER_ON (Machine/Memory.lean). -/
structure Chip extends GlobalBits where
  lastTime : Nat
  frameDelay : Nat
  frame : Nat
  variant : Bool
  gregs : List Host.Cell
  deriving DecidableEq, Repr, Inhabited

/-- The fault record (10_state.md R39). -/
structure Global where
  fault : Bool
  faultCause : Byte
  faultOp : Byte
  deriving DecidableEq, Repr, Inhabited

/-- What the OPEN remainder of GLOBAL_WRITE sees of one of the chip's oscillator slots and of the voice it wraps. Of the
tone and the delay it may change what `putSlot` takes (44_chip_sequencer_ops.md R328, log 40), of the voice nothing
(43_brr_voice_ops.md R270). -/
structure SlotView where
  tone : Tone
  delay : Nat
  voice : Option Voice
  deriving DecidableEq, Repr, Inhabited

/-- What the OPEN remainder of GLOBAL_WRITE (44_chip_sequencer_ops.md R328) sees, and its answer: the chip's bits, its frame
sequencer, and its oscillators in order. -/
structure GlobalView where
  bits : GlobalBits
  frameDelay : Nat
  frame : Nat
  slots : List SlotView
  deriving DecidableEq, Repr, Inhabited

/-- Where an address of a register window leads (44_chip_sequencer_ops.md R327). -/
inductive Target where
  /-- Register `r` of the chip's `i`-th oscillator. -/
  | osc (i r : Nat)
  /-- Global register `slot`. -/
  | global (slot : Nat)
  /-- An address of the window with no function. -/
  | none
  deriving DecidableEq, Repr, Inhabited

/-- The fields of a BRR block header (43_brr_voice_ops.md R282). -/
structure BrrHeader where
  shift : Fin 16
  filter : Fin 4
  loop : Bool
  last : Bool
  deriving DecidableEq, Repr, Inhabited

/-- The frame schedule of a chip kind (44_chip_sequencer_ops.md R329, R330). -/
inductive FrameSchedule where
  /-- NFRAMES = 0: no frame events. -/
  | silent
  /-- NFRAMES = 4 with the schedule of R330. -/
  | quad
  /-- NFRAMES = `n + 1` with a schedule the spec does not give. -/
  | other (n : Nat)
  deriving DecidableEq, Repr, Inhabited

/-- A clock command a frame event issues: OSC.CLKENV, OSC.CLKLEN, OSC.CLKSWP, OSC.CLKLIN (42_oscillator_ops.md R240 to
R243). -/
inductive FrameClock where
  | env | len | swp | lin
  deriving DecidableEq, Repr, Inhabited

/-- What one frame event of a schedule the spec does not give does. -/
structure FrameAction where
  /-- The clock commands it issues, in order, each with the position of its oscillator in the chip's list. -/
  clocks : List (Nat × FrameClock)
  /-- Cycles to the next event, less one. -/
  delayLessOne : Nat
  deriving DecidableEq, Repr, Inhabited

/-- Something the host presents to the engine between commands (30_encoding.md R120, 20_memory.md R83,
70_reset_and_hazards.md R410). -/
inductive HostEvent where
  /-- A 96-bit word on the CMD port. -/
  | command (w : CmdWord)
  /-- The host loads a byte of SPC700 RAM. -/
  | loadRam (addr : Nat) (b : Byte)
  /-- The reset input. -/
  | hardwareReset
  deriving DecidableEq, Repr, Inhabited

end Sys2Proof.Machine
end

