-- ==== Sys2Proof/Machine/Memory.lean ====
section
/-! DEFINITION. Sparse byte memory: a list of (address, byte) cells over a default, for the SPC700 RAM (20_memory.md R83)
and the global register image of a chip (10_state.md R33). One canonical form: addresses strictly rising and no cell equal
to the default at its address. -/

namespace Sys2Proof.Machine

/-- The byte at an address; an unlisted address reads as the default. -/
def Memory.read (dflt : Nat → Byte) (m : List Host.Cell) (a : Nat) : Byte :=
  match m with
  | [] => dflt a
  | (k, v) :: rest => if a = k then v else Memory.read dflt rest a

/-- Lists `v` at `a`, in address order, in place of what was listed there. -/
def Memory.insert (m : List Host.Cell) (a : Nat) (v : Byte) : List Host.Cell :=
  match m with
  | [] => [(a, v)]
  | (k, w) :: rest =>
    if a < k then (a, v) :: (k, w) :: rest
    else if a = k then (a, v) :: rest
    else (k, w) :: Memory.insert rest a v

/-- Unlists an address. -/
def Memory.erase (m : List Host.Cell) (a : Nat) : List Host.Cell := m.filter fun x => x.1 != a

/-- Stores a byte; storing the default unlists the address. -/
def Memory.write (dflt : Nat → Byte) (m : List Host.Cell) (a : Nat) (v : Byte) : List Host.Cell :=
  if v = dflt a then Memory.erase m a else Memory.insert m a v

/-- The canonical form holds. -/
abbrev Memory.wf (dflt : Nat → Byte) (m : List Host.Cell) : Prop :=
  m.Pairwise (fun x y => x.1 < y.1) ∧ ∀ x ∈ m, x.2 ≠ dflt x.1

end Sys2Proof.Machine
end

