-- ==== Sys2Proof/Config.lean ====
section
/-! DEFINITION. The numbers the document prints (00_scope.md R11); the OPEN parameters of 00_scope.md R7 and the free
values, as one structure; and the parameters `Config.given`, an opaque constant without a body, at which the engine at hand
runs (`Config.impl` of Machine/Params.lean): no proof can see a size, a table or a per-kind function. A
field whose name ends in `Raw`, `Less` or `Slack` is turned into the spec's parameter by Machine/Params.lean so that
every constraint the rules put on the parameter holds by construction. -/

namespace Sys2Proof

open Machine

/-- The numbers the document prints (00_scope.md R11), a configuration field each. -/
structure DocNumbers where
  /-- "7458 cycles/frame NTSC" (44_chip_sequencer_ops.md R320). -/
  nesNtscPeriod : Nat
  /-- "frame 1 shortened by 2 cycles" (44_chip_sequencer_ops.md R330). -/
  frame1Shortening : Nat
  /-- The unit of the sustain threshold `(sustain_level + 1) * 0x100` (43_brr_voice_ops.md R278). -/
  sustainUnit : Nat
  /-- "12 fractional bits" (43_brr_voice_ops.md R286). -/
  fractionBits : Nat
  /-- "a 14-bit pitch rate" (43_brr_voice_ops.md R286). -/
  pitchBits : Nat
  /-- "9-byte blocks" (43_brr_voice_ops.md R282). -/
  brrBlockBytes : Nat
  /-- The last shift of the "range 0-12" (43_brr_voice_ops.md R282). -/
  brrShiftMax : Nat
  /-- Entries of LENGTH_TABLE, ENVELOPE_RATES and GAUSS (10_state.md R37). -/
  lengthEntries : Nat
  rateEntries : Nat
  gaussEntries : Nat
  /-- The divisor of ENVELOPE_RANGE in a Release step (43_brr_voice_ops.md R280). -/
  releaseDivisor : Nat
  /-- "8 fixed-offset fields per voice, repeated for 8 voices" (20_memory.md R82). -/
  spcVoices : Nat
  spcFields : Nat
  /-- First and last address of the NES and PC-Engine windows (20_memory.md R82). -/
  nesFirst : Nat
  nesLast : Nat
  pceFirst : Nat
  pceLast : Nat
  /-- The NES enable and frame-mode registers (44_chip_sequencer_ops.md R327). -/
  nesEnable : Nat
  nesFrameMode : Nat
  deriving DecidableEq, Repr

/-- The document's numbers as printed; a later audit changes them here and in no rule. -/
abbrev docNumbers : DocNumbers where
  nesNtscPeriod := 7458
  frame1Shortening := 2
  sustainUnit := 0x100
  fractionBits := 12
  pitchBits := 14
  brrBlockBytes := 9
  brrShiftMax := 12
  lengthEntries := 32
  rateEntries := 32
  gaussEntries := 256
  releaseDivisor := 256
  spcVoices := 8
  spcFields := 8
  nesFirst := 0x4000
  nesLast := 0x4017
  pceFirst := 0x0800
  pceLast := 0x0809
  nesEnable := 0x4015
  nesFrameMode := 0x4017

/-- The OPEN parameters of 00_scope.md R7, then the free values. -/
structure Config where
  /-- ACC, fractional bits of resampled time. -/
  accBits : Fin 32
  /-- CELL_W less one. -/
  cellWidthLess : Nat
  /-- KERNEL_W less one. -/
  kernelWidthLess : Nat
  numBuf : Fin 256
  numSynRaw : Fin 256
  numOscRaw : Fin 256
  numChip : Fin 256
  bufferSizeRaw : Nat
  /-- BUF_EXTRA beyond the least the rules allow. -/
  bufExtraSlack : Nat
  phaseBitsRaw : Nat
  /-- QUALITY[s]. -/
  qualityOf : Nat → Nat
  /-- Width in taps of a quality level. -/
  widthRaw : Nat → Nat
  /-- An upper bound of every width. -/
  tapsBound : Nat
  /-- KGEN(quality, eq, unit)[p][k] before it is read as a KERNEL_W-bit entry. -/
  kgenTap : Nat → Word32 → Word32 → Nat → Nat → Int
  sampleShift : Nat
  bassShiftInit : Fin 32
  mixLead : Nat
  volumeInit : Word32
  eqInit : Word32
  chipKind : Nat → ChipKind
  /-- The chip that owns an oscillator, before reduction to a chip index. -/
  oscOwnerRaw : Nat → Nat
  /-- An order of the oscillators; those it leaves out follow in index order. -/
  oscOrder : List Nat
  oscKind : Nat → OscKind
  oscSynRaw : Nat → Nat
  /-- An order of the BRR_VOICE slots; those it leaves out follow in index order. -/
  voiceOrder : List Nat
  /-- CHIP_VOL_UNIT[kind](level, s). -/
  chipVolUnit : ChipKind → Word32 → Nat → Word32
  windowRaw : ChipKind → Nat → Bool
  dispatchRaw : ChipKind → Nat → Nat → Target
  /-- The PC-Engine latch address less 0x0800, before reduction modulo the window's length. -/
  pceLatchRaw : Nat
  /-- The register number behind a PC-Engine channel address, by address and latched channel. -/
  pceRegRaw : Nat → Nat → Nat
  /-- The channel number a latch byte stands for, before reduction. -/
  pceChannelRaw : Byte → Nat
  /-- Base address of the SPC700 voice blocks, distance of one block from the next, offset of a field. -/
  spcBase : Nat
  spcStride : Nat
  spcField : Fin docNumbers.spcFields → Nat
  /-- Whether an SPC700 global register is a key-on (`some true`) or a key-off (`some false`) register. -/
  spcKeyReg : Nat → Option Bool
  /-- The voices (positions in the chip's list) a key-on or key-off byte selects, in order. -/
  spcKeySelect : Byte → List (Fin docNumbers.spcVoices)
  /-- The OPEN remainder of GLOBAL_WRITE: kind, variant, the global registers before the write, register
  number, byte. -/
  globalRest : ChipKind → Bool → (Nat → Byte) → Nat → Byte → GlobalView → GlobalView
  powerOn : ChipKind → Nat → Byte
  /-- POWER_ON image of register `r` of the chip's `i`-th oscillator. -/
  powerOnReg : ChipKind → Nat → Nat → Byte
  readSupportedRaw : ChipKind → Bool
  scheduleRaw : ChipKind → FrameSchedule
  framePeriodRaw : ChipKind → Bool → Nat
  frame3Extra : Nat
  /-- The events of a schedule the spec does not give: kind, variant, mode byte, frame (log 16). -/
  frameActionRaw : ChipKind → Bool → Byte → Nat → FrameAction
  nregsRaw : OscKind → Nat
  extraInit : OscKind → List Int
  lfsrInitRaw : OscKind → Int
  lengthRegRaw : OscKind → Option Nat
  enableBitRaw : Nat → Nat
  lengthTable : Fin docNumbers.lengthEntries → Nat
  /-- Which of the bits 4, 5 and 7 of NES register 0 selects a constant level. -/
  nesConstantRaw : Fin 3
  /-- CUR_AMP, WAVE_STEP, WAVE_PERIOD less one, WRITE_EFFECT (with the delay), the four clock functions. -/
  curAmpRaw : OscKind → Tone → Int
  waveStepRaw : OscKind → Tone → Tone
  wavePeriodLess : OscKind → Tone → Nat
  writeEffectRaw : OscKind → Tone → Nat → Nat → Byte → Bool → Tone × Nat
  clockEnvRaw : OscKind → Tone → Tone
  clockLenRaw : OscKind → Tone → Tone
  clockSwpRaw : OscKind → Tone → Tone
  clockLinRaw : OscKind → Tone → Tone
  ramSizeLess : Nat
  voiceTickCyclesLess : Nat
  envelopeRates : Fin docNumbers.rateEntries → Nat
  /-- ENVELOPE_RANGE div 256, less one. -/
  envelopeQuantumLess : Nat
  envMaxRaw : Nat
  envRateInitLess : Nat
  /-- Whether a voice uses the simplified On/Release envelope. -/
  simpleEnvelope : Nat → Bool
  sampleDirRaw : List Byte → (Nat → Byte) → (Nat → Byte) → Nat × Nat
  pitchOf : List Byte → BitVec docNumbers.pitchBits
  rateOf : EnvStage → Option GainMode → List Byte → Fin docNumbers.rateEntries
  sustainLevelOf : List Byte → Nat
  attackInc : Fin docNumbers.rateEntries → Nat
  decayDecRaw : Nat → Nat
  gainSelect : List Byte → Option GainMode
  gainDirect : List Byte → Nat
  gainLinearDec : Nat
  gainLinearInc : Nat
  gainBentSmall : Nat
  /-- How much more BentInc adds below the knee, less one. -/
  gainBentMoreLess : Nat
  gainBentKnee : Nat
  /-- What becomes of an envelope value outside 0..ENV_MAX that a GAIN step of a sub-mode computes. -/
  gainClampRaw : GainMode → Int → Nat
  brrHeader : Byte → BrrHeader
  /-- NIBBLE_ORDER: the high nibble of a byte is decoded first. -/
  highNibbleFirst : Bool
  brrPreshift : Nat
  /-- BRR_SIGN_ONLY(negative). -/
  brrSignOnly : Bool → Int
  /-- The reconstruction filter (1 to 3) that uses one decoded sample, less one. -/
  brrOneTapLess : Fin 3
  brrFilterOne : Int → Int
  brrFilterTwo : Nat → Int → Int → Int
  brrClamp : Int → Int
  gauss : Fin docNumbers.gaussEntries → Int
  gaussInterp : Nat → Hist → (Fin docNumbers.gaussEntries → Int) → Int
  voiceOutRaw : Int → Nat → List Byte → Int
  period0Silence : Voice → List Byte → Bool
  earlyEnd : Voice → (Nat → Byte) → Bool
  /-- FREE VALUE: the draw alloc_ok of the n-th draw. -/
  allocOk : Nat → Bool
  /-- FREE VALUE: a RAM byte the host has not loaded, by reset and address. -/
  ramFree : Nat → Nat → Byte
  /-- FREE VALUE: the samples on DIN beyond those the host has presented, by draw and position. -/
  dinFree : Nat → Nat → Sample
  /-- FREE VALUE: what a delta beyond DELTA_W bits is injected as. -/
  deltaFree : Int → Word32
  /-- FREE VALUE: what a unit touched by a mid-command fault holds, by draw and place in the record. -/
  wreck : Nat → Nat → Int
  deriving Inhabited

/-- The parameters given to the engine at hand. No body: a statement about the engine holds for every choice of them. -/
opaque Config.given : Config

end Sys2Proof
end

