-- ==== Sys2Proof/Machine/Operands.lean ====
section
/-! DEFINITION. The arithmetic of 00_scope.md R8 (wrap, sext, clamp, arithmetic shift) on unbounded integers, and the
operand readings of 30_encoding.md R122. -/

namespace Sys2Proof.Machine

/-- `wrap_N(x) = x mod 2^N`, unsigned (00_scope.md R8). -/
def wrapN (n : Nat) (x : Int) : Nat := (x % ((2 ^ n : Nat) : Int)).toNat

/-- `sext_N(v)`: an N-bit unsigned `v` read as two's complement (00_scope.md R8). -/
def sextN (n v : Nat) : Int := if 2 ^ (n - 1) ≤ v then (v : Int) - ((2 ^ n : Nat) : Int) else (v : Int)

/-- `clamp_N(x)` (00_scope.md R8). -/
def clampN (n : Nat) (x : Int) : Int :=
  max (-((2 ^ (n - 1) : Nat) : Int)) (min (((2 ^ (n - 1) : Nat) : Int) - 1) x)

/-- `x >>a n = floor(x / 2^n)` (00_scope.md R8). -/
def sarN (x : Int) (n : Nat) : Int := x / ((2 ^ n : Nat) : Int)

/-- `x << n = x * 2^n` (00_scope.md R8). -/
def shlN (x : Int) (n : Nat) : Int := x * ((2 ^ n : Nat) : Int)

/-- `x >> n` of a non-negative `x` (00_scope.md R8). -/
def shrN (x n : Nat) : Nat := x / 2 ^ n

/-- The operand `delta` is `sext_32(b)` (30_encoding.md R122). -/
def deltaOperand (b : Word32) : Int := b.toInt

/-- A sink operand as a BUF index (30_encoding.md R123). -/
def sinkIndex (sink : Option Byte) : Option Nat := sink.map BitVec.toNat

/-- A delta of DELTA_W = 32 signed bits (00_scope.md R7). -/
def deltaFits (d : Int) : Bool := decide (-2147483648 ≤ d) && decide (d < 2147483648)

/-- The delta an emission hands to SYN.OFFSET: `d` itself where it fits DELTA_W bits, as 42_oscillator_ops.md R233
requires; where it does not, the rule gives no value and it is free (DESIGN CHOICE, log 19; safe). -/
def emittedDelta (c : Config) (d : Int) : Int := if deltaFits d then d else (c.deltaFree d).toInt

/-- The field `value[7:3]` of a register byte (42_oscillator_ops.md R238). -/
def upperFive (value : Byte) : Fin 32 := (value.extractLsb' 3 5).toFin

/-- The level field `value[3:0]` of NES register 0 (42_oscillator_ops.md R239). -/
def nesLevelField (value : Byte) : Nat := (value.extractLsb' 0 4).toNat

/-- A list cut or filled with zero bytes to length `n`. -/
def fitBytes (n : Nat) (l : List Byte) : List Byte := (List.range n).map fun i => (l[i]?).getD 0#8

end Sys2Proof.Machine
end

