-- ==== Sys2Proof/Machine/Params.lean ====
section
/-! DEFINITION. The parameters of 00_scope.md R7 as the rules use them, computed from Config so that every constraint a
rule states of a parameter holds for every Config (DEDUCED, log 2). The document's own numbers come from `docNumbers` (R11). -/

namespace Sys2Proof.Machine

/-! ## Sizes -/

/-- ACC; at most 31, so that a whole sample fits RT_W = 32 bits (40_buffer_ops.md R163). -/
def accBits (c : Config) : Nat := c.accBits.val

/-- CELL_W. -/
def cellW (c : Config) : Nat := c.cellWidthLess + 1

/-- KERNEL_W. -/
def kernelW (c : Config) : Nat := c.kernelWidthLess + 1

/-- BUFFER_SIZE: positive, and `(BUFFER_SIZE + 1) << ACC <= 2^RT_W` (40_buffer_ops.md R163). -/
def bufferSizeP (c : Config) : Nat := c.bufferSizeRaw % (2 ^ (32 - accBits c) - 1) + 1

/-- PHASE_BITS, at most ACC. -/
def phaseBits (c : Config) : Nat := min c.phaseBitsRaw (accBits c)

/-- Width in taps of a quality level (41_synth_ops.md R200). -/
def widthOf (c : Config) (quality : Nat) : Nat := min (c.widthRaw quality) c.tapsBound

/-- BUF_EXTRA, at least `max(W_MAX, MIX_LEAD + 1)`; `tapsBound` is at least W_MAX (log 26). -/
def bufExtra (c : Config) : Nat := max c.tapsBound (c.mixLead + 1) + c.bufExtraSlack

/-- RING_N = BUFFER_SIZE + BUF_EXTRA. -/
def ringN (c : Config) : Nat := bufferSizeP c + bufExtra c

/-- RAM_SIZE, positive. -/
def ramSize (c : Config) : Nat := c.ramSizeLess + 1

/-- KGEN(quality, eq, unit): 2^PHASE_BITS rows of W signed KERNEL_W-bit entries, a function of its three arguments alone
(41_synth_ops.md R200). -/
def kgen (c : Config) (quality : Nat) (eq unit : Word32) : List (List Int) :=
  (List.range (2 ^ phaseBits c)).map fun p =>
    (List.range (widthOf c quality)).map fun k =>
      sextN (kernelW c) (wrapN (kernelW c) (c.kgenTap quality eq unit p k))

/-! ## Ownership (10_state.md R36) -/

/-- The members of `l`, those `order` names first and in its order. -/
def arrange (order l : List Nat) : List Nat :=
  (order.filter fun x => l.contains x).dedup ++ l.filter fun x => !order.contains x

/-- NUM_OSC; 0 for an engine without a chip, since every oscillator belongs to one (log 27). -/
def numOsc (c : Config) : Nat := if c.numChip.val = 0 then 0 else c.numOscRaw.val

/-- Every oscillator once, in the configured order (log 27). -/
def oscSequence (c : Config) : List Nat := arrange c.oscOrder (List.range (numOsc c))

/-- owner(o), the one chip that owns oscillator `o`. -/
def ownerOf (c : Config) (o : Nat) : Nat := c.oscOwnerRaw o % max c.numChip.val 1

/-- CHIP_OSCS[c]. -/
def chipOscs (c : Config) (ci : Nat) : List Nat := (oscSequence c).filter fun o => ownerOf c o == ci

/-- Whether the configured OSC_SYN names a SYN for every oscillator and no SYN for oscillators of two chips. -/
def synsWired (c : Config) : Bool :=
  (List.range (numOsc c)).all fun o => decide (c.oscSynRaw o < c.numSynRaw.val) &&
    (List.range (numOsc c)).all fun p => c.oscSynRaw o != c.oscSynRaw p || ownerOf c o == ownerOf c p

/-- NUM_SYN: the configured one where OSC_SYN is wired as R36 asks, else one SYN for each oscillator (log 29). -/
def numSyn (c : Config) : Nat := if synsWired c then c.numSynRaw.val else numOsc c

/-- OSC_SYN[o] (log 29). -/
def oscSyn (c : Config) (o : Nat) : Nat := if synsWired c then c.oscSynRaw o else o

/-- CHIP_SYNS[c]: the OSC_SYN of the chip's oscillators, ascending (44_chip_sequencer_ops.md R334). -/
def chipSyns (c : Config) (ci : Nat) : List Nat :=
  (List.range (numSyn c)).filter fun s => (chipOscs c ci).any fun o => oscSyn c o == s

/-- W_MAX, the largest W[s]. -/
def wMax (c : Config) : Nat := (List.range (numSyn c)).foldl (fun m s => max m (widthOf c (c.qualityOf s))) 0

/-- OSC_KIND[o]. -/
def oscKind (c : Config) (o : Nat) : OscKind := c.oscKind o

/-- The slots of kind BRR_VOICE, each of which wraps one voice (10_state.md R34, 43_brr_voice_ops.md R290; log 29). -/
def voiceSlots (c : Config) : List Nat :=
  arrange c.voiceOrder ((List.range (numOsc c)).filter fun o => oscKind c o == .brrVoice)

/-- NUM_VOICE; eight for each SPC700 chip of the engine at hand (43_brr_voice_ops.md R289; `fitVoices`). -/
def numVoice (c : Config) : Nat := (voiceSlots c).length

/-- VOICE_OSC[v]; no slot of the engine for a `v` that is no voice. -/
def voiceOsc (c : Config) (v : Nat) : Nat := ((voiceSlots c)[v]?).getD (numOsc c)

/-- The voice an oscillator slot wraps: the `v` with VOICE_OSC[v] = o (10_state.md R34). -/
def voiceOf (c : Config) (o : Nat) : Option Nat := (voiceSlots c).idxOf? o

/-- The BRR_VOICE slots of a chip. -/
def chipVoices (c : Config) (ci : Nat) : List Nat := (chipOscs c ci).filter fun o => oscKind c o == .brrVoice

/-- Whether every SPC700 chip has exactly eight voices, the first eight oscillators of its list, and no other chip has one
(43_brr_voice_ops.md R289; 44_chip_sequencer_ops.md R327; log 29). -/
def eightVoices (c : Config) : Bool :=
  (List.range c.numChip.val).all fun ci =>
    if c.chipKind ci = .spc700Dsp then
      (chipVoices c ci).length == docNumbers.spcVoices && chipVoices c ci == (chipOscs c ci).take docNumbers.spcVoices
    else (chipVoices c ci).isEmpty

/-- The parameters held to R289: those that break it stand for an engine without SPC700 chips (log 29). -/
def fitVoices (c : Config) : Config :=
  { c with
    chipKind := fun ci => if eightVoices c = false ∧ c.chipKind ci = .spc700Dsp then .sn76489 else c.chipKind ci
    oscKind := fun o => if eightVoices c = false ∧ c.oscKind o = .brrVoice then .snSquare else c.oscKind o }

/-! ## Per-kind sizes and reset values -/

/-- NREGS[K]: 8 for BRR_VOICE (43_brr_voice_ops.md R289); at least the four registers of NES square 1 that R327 names
(log 24); at least one for the PC-Engine kinds. -/
def nregs (c : Config) : OscKind → Nat
  | .brrVoice => docNumbers.spcFields
  | .nesSquare => c.nregsRaw .nesSquare + 4
  | .pceWave => c.nregsRaw .pceWave + 1
  | .pceNoise => c.nregsRaw .pceNoise + 1
  | k => c.nregsRaw k

/-- The `n`-th of the integers other than 0. -/
def nonZero (n : Int) : Int := if 0 ≤ n then n + 1 else n

/-- LFSR_INIT[K]: 0 for a kind without an LFSR, not 0 for a noise kind (42_oscillator_ops.md R235; log 30). -/
def lfsrInit (c : Config) : OscKind → Int
  | .nesNoise => nonZero (c.lfsrInitRaw .nesNoise)
  | .snNoise => nonZero (c.lfsrInitRaw .snNoise)
  | .pceNoise => nonZero (c.lfsrInitRaw .pceNoise)
  | _ => 0

/-- LENGTH_REG[K]: 3 for the NES square, OPEN for the other NES kinds, absent elsewhere (42_oscillator_ops.md R238). -/
def lengthReg (c : Config) : OscKind → Option Nat
  | .nesSquare => some 3
  | .nesTriangle => c.lengthRegRaw .nesTriangle
  | .nesNoise => c.lengthRegRaw .nesNoise
  | _ => none

/-- ENABLE_BIT[o]: 0 for NES square 1, the first oscillator of an NES chip (42_oscillator_ops.md R238; log 24). -/
def enableBit (c : Config) (o : Nat) : Nat :=
  if c.chipKind (ownerOf c o) = .nes2a03 ∧ (chipOscs c (ownerOf c o)).head? = some o then 0
  else c.enableBitRaw o

/-- The bit of NES register 0 that selects a constant level: an upper bit set in `0xBF` (42_oscillator_ops.md R239;
log 43). -/
def nesConstantBit (c : Config) : Nat := if c.nesConstantRaw = 0 then 4 else if c.nesConstantRaw = 1 then 5 else 7

/-- Whether a byte of NES register 0 selects a constant level. -/
def nesConstant (c : Config) (value : Byte) : Bool := value.getLsbD (nesConstantBit c)

/-! ## The frame sequencer -/

/-- "7458 cycles/frame NTSC" (44_chip_sequencer_ops.md R320). -/
def nesNtscPeriod : Nat := docNumbers.nesNtscPeriod

/-- "frame 1 shortened by 2 cycles" (44_chip_sequencer_ops.md R330). -/
def frame1Shortening : Nat := docNumbers.frame1Shortening

/-- The frame schedule of a kind; the NES has the one of R330. -/
def frameSchedule (c : Config) : ChipKind → FrameSchedule
  | .nes2a03 => .quad
  | k => c.scheduleRaw k

/-- NFRAMES[kind]. -/
def nframes (c : Config) (k : ChipKind) : Nat :=
  match frameSchedule c k with
  | .silent => 0
  | .quad => 4
  | .other n => n + 1

/-- FRAME_PERIOD[kind][variant]: 0 for a kind without frame events (44_chip_sequencer_ops.md R320), else at least the two
cycles R330 takes off it. -/
def framePeriod (c : Config) (k : ChipKind) (variant : Bool) : Nat :=
  if nframes c k = 0 then 0
  else if k = .nes2a03 ∧ variant = false then nesNtscPeriod
  else c.framePeriodRaw k variant + frame1Shortening

/-! ## The SPC700 voice -/

/-- One step of Release, ENVELOPE_RANGE div 256, positive (43_brr_voice_ops.md R280). -/
def envelopeQuantum (c : Config) : Nat := c.envelopeQuantumLess + 1

/-- ENVELOPE_RANGE, a positive multiple of 256. -/
def envelopeRange (c : Config) : Nat := docNumbers.releaseDivisor * envelopeQuantum c

/-- ENV_MAX, at most ENVELOPE_RANGE (43_brr_voice_ops.md R277). -/
def envMax (c : Config) : Nat := min c.envMaxRaw (envelopeRange c)

/-- ENV_RATE_INIT, positive. -/
def envRateInit (c : Config) : Nat := c.envRateInitLess + 1

/-- VOICE_TICK_CYCLES, positive, as WAVE_PERIOD must be. -/
def voiceTickCycles (c : Config) : Nat := c.voiceTickCyclesLess + 1

/-- DECAY_DEC(e): 0 at 0 and between 1 and `e` above it (43_brr_voice_ops.md R278). -/
def decayDec (c : Config) (e : Nat) : Nat := if e = 0 then 0 else c.decayDecRaw e % e + 1

/-- VOICE_OUT(s, env_value, regs), 0 at envelope 0 (43_brr_voice_ops.md R291). -/
def voiceOut (c : Config) (s : Int) (env : Nat) (regs : List Byte) : Int :=
  if env = 0 then 0 else c.voiceOutRaw s env regs

/-- BRR_FILTER[f](p1, p2): filter 0 uses no history, one filter uses `p1` only (43_brr_voice_ops.md R285). -/
def brrFilter (c : Config) (f : Fin 4) (p1 p2 : Int) : Int :=
  if f.val = 0 then 0
  else if f.val = c.brrOneTapLess.val + 1 then c.brrFilterOne p1
  else c.brrFilterTwo f.val p1 p2

/-- SAMPLE_DIR(regs, gregs, RAM): start and loop address, reduced modulo RAM_SIZE (43_brr_voice_ops.md R289,
20_memory.md R83). -/
def sampleDir (c : Config) (regs : List Byte) (gregs ram : Nat → Byte) : Nat × Nat :=
  let d := c.sampleDirRaw regs gregs ram
  (d.1 % ramSize c, d.2 % ramSize c)

/-- The larger constant BentInc adds below its knee (43_brr_voice_ops.md R281). -/
def gainBentLarge (c : Config) : Nat := c.gainBentSmall + c.gainBentMoreLess + 1

/-- An envelope value a GAIN step computes: itself in 0..ENV_MAX. What each sub-mode makes of a value outside is OPEN
(43_brr_voice_ops.md R281) and kept in 0..ENVELOPE_RANGE (10_state.md R34; log 20). -/
def gainClamp (c : Config) (m : GainMode) (x : Int) : Nat :=
  if 0 ≤ x ∧ x ≤ envMax c then x.toNat else min (c.gainClampRaw m x) (envelopeRange c)

/-- One whole step of `fraction` (43_brr_voice_ops.md R286). -/
def fractionUnit : Nat := 2 ^ docNumbers.fractionBits

/-- Nibbles of a block: two a data byte (43_brr_voice_ops.md R282). -/
def blockNibbles : Nat := 2 * (docNumbers.brrBlockBytes - 1)

end Sys2Proof.Machine

namespace Sys2Proof

/-- The parameters of the engine at hand: any that hold R289. -/
def Config.impl : Config := Machine.fitVoices Config.given

end Sys2Proof
end

