-- ==== Sys2Proof/Machine/State.lean ====
section
/-! DEFINITION. The state of the engine (10_state.md R20), why a step could stop, and the state after hardware reset
(10_state.md R42 to R47, 70_reset_and_hazards.md R410). -/

namespace Sys2Proof.Machine

/-- The engine's state: the six groups of 10_state.md R20, the SPC700 RAM, the four ports (30_encoding.md R120), and the
model's two counters of free values. Plain data. -/
structure State where
  bufs : List Buf
  syns : List Syn
  oscs : List Osc
  voices : List Voice
  chips : List Chip
  global : Global
  /-- SPC700 RAM, sparse over the draws of `ramEpoch` (20_memory.md R83; log 9). -/
  ram : List Host.Cell
  /-- MODEL: which reset the unloaded RAM bytes are the draws of (log 9). -/
  ramEpoch : Nat
  /-- What the host has presented and the engine has not taken, oldest first (log 4). -/
  input : List HostEvent
  /-- The samples the host presents on DIN, oldest first (30_encoding.md R127; log 6). -/
  din : List Sample
  /-- The words sent on RSP, oldest first (30_encoding.md R126; log 5). -/
  rsp : List Word32
  /-- The samples emitted on DOUT with their slot numbers, oldest first (30_encoding.md R127; log 5). -/
  dout : List (Nat × Sample)
  /-- MODEL: how many free values have been taken (log 7). -/
  draws : Nat
  deriving DecidableEq, Repr

/-- Why the machine stops with a fault: nothing does. A fault of the spec (60_exceptions.md R371) is a NEXT state, with
the GLOBAL registers written as R378 says. No constructor. -/
inductive Fault : Type
  deriving DecidableEq, Repr

/-- Why an instruction has no meaning. -/
inductive Refusal where
  /-- Raised by an arm of exec whose instruction has no meaning yet; safe. No arm raises it in this model. -/
  | notModelled (mnemonic : String)
  deriving DecidableEq, Repr

/-- The fault causes of 60_exceptions.md R371. -/
inductive FaultCause where
  | illegalCommand | unitIndexOutOfRange | timeOrder | bufferOverrun | offsetOutOfRange | invalidRate
  | countExceedsAvail | rebaseNegative | readUnsupported
  deriving DecidableEq, Repr

/-- BUF after hardware reset (10_state.md R42). -/
def resetBuf (c : Config) : Buf where
  cells := List.replicate (ringN c) 0
  rd := 0
  offset := 0
  factor := 0
  sampleRate := 0
  clockRate := 0
  bufferSize := 0
  bassShift := c.bassShiftInit
  readerAccum := 0

/-- SYN `s` after hardware reset (10_state.md R43). -/
def resetSyn (c : Config) (s : Nat) : Syn where
  quality := c.qualityOf s
  volumeUnit := c.volumeInit
  eq := c.eqInit
  impulse := kgen c (c.qualityOf s) c.eqInit c.volumeInit

/-- OSC `o` after hardware reset (10_state.md R44). -/
def resetOsc (c : Config) (o : Nat) : Osc where
  regs := List.replicate (nregs c (oscKind c o)) 0
  phase := 0
  period := 0
  volume := 0
  lengthCounter := 0
  lfsr := 0
  envStage := 0
  envCounter := 0
  extra := c.extraInit (oscKind c o)
  delay := 0
  lastAmp := 0
  output := none

/-- VOICE after hardware reset and after CHIP.RESET (10_state.md R45). -/
def resetVoice : Voice where
  ramAddr := 0
  hdrLoop := false
  hdrEnd := false
  hdrFilter := 0
  hdrShift := 0
  nibblesLeft := 0
  hist := ⟨0, 0, 0, 0⟩
  fraction := 0
  loopAddr := 0
  startAddr := 0
  envStage := .off
  gainMode := none
  envValue := 0
  envCounter := 0
  out := 0

/-- CHIP `ci` as CHIP.RESET with `variant` leaves it (44_chip_sequencer_ops.md R320; 10_state.md R46). -/
def resetChip (c : Config) (ci : Nat) (variant : Bool) : Chip where
  lastTime := 0
  frameDelay := framePeriod c (c.chipKind ci) variant
  frame := 0
  frameMode := 0
  oscEnables := 0
  latch := 0
  variant := variant
  gregs := []

/-- GLOBAL after hardware reset (10_state.md R47). -/
def resetGlobal : Global := ⟨false, 0, 0⟩

/-- The state after the first hardware reset of an engine with parameters `c`. -/
def resetState (c : Config) : State where
  bufs := List.replicate c.numBuf.val (resetBuf c)
  syns := (List.range (numSyn c)).map (resetSyn c)
  oscs := (List.range (numOsc c)).map (resetOsc c)
  voices := List.replicate (numVoice c) resetVoice
  chips := (List.range c.numChip.val).map fun ci => resetChip c ci false
  global := resetGlobal
  ram := []
  ramEpoch := 0
  input := []
  din := []
  rsp := []
  dout := []
  draws := 0

/-- The machine right after reset. -/
def State.reset : State := resetState Config.impl

end Sys2Proof.Machine
end

