-- ==== Sys2Proof/Machine/Flags.lean ====
section
/-! DEFINITION. The engine's flags (10_state.md R40): it has no arithmetic condition codes; its flags are the fault
registers, the header flags of a voice, the enable bits and the mode bit of a chip. -/

namespace Sys2Proof.Machine

/-- FAULT_CAUSE codes (60_exceptions.md R371). -/
def faultCode : FaultCause → Byte
  | .illegalCommand => 1
  | .unitIndexOutOfRange => 2
  | .timeOrder => 3
  | .bufferOverrun => 4
  | .offsetOutOfRange => 5
  | .invalidRate => 6
  | .countExceedsAvail => 7
  | .rebaseNegative => 8
  | .readUnsupported => 9

/-- The side band FAULT, FAULT_CAUSE, FAULT_OP that the RSP port presents at all times (30_encoding.md R126), FAULT in the
high bit. -/
def sideBand (s : State) : BitVec 17 :=
  (if s.global.fault then 1#1 else 0#1) ++ (s.global.faultCause ++ s.global.faultOp)

/-- Bit 7 of `frame_mode`: set means 5-step mode (10_state.md R31, R40). -/
def fiveStep (frameMode : Byte) : Bool := frameMode.getLsbD 7

/-- An enable bit of `osc_enables` (10_state.md R31, R40). -/
def channelEnabled (oscEnables : Byte) (bit : Nat) : Bool := oscEnables.getLsbD bit

/-- The header flags a voice takes from a block header (10_state.md R40, 43_brr_voice_ops.md R283). -/
def setHeader (V : Voice) (h : BrrHeader) : Voice :=
  { V with hdrShift := h.shift, hdrFilter := h.filter, hdrLoop := h.loop, hdrEnd := h.last }

end Sys2Proof.Machine
end

