-- ==== Sys2Proof/Syntax.lean ====
section
/-! DEFINITION. The 32 commands of 30_encoding.md R124 with their operands (R122, R123), one constructor per row of the
opcode table. -/

namespace Sys2Proof

/-- A command. Unit indices are the 8-bit fields `u` and `v`; a sink is `none` for null (R123). -/
inductive Instr where
  /-- BUF.SETRATE b, rate, clock_rate (40_buffer_ops.md R161). -/
  | bufSetrate (b : Byte) (rate clockRate : Word32)
  /-- BUF.CLEAR b (R162). -/
  | bufClear (b : Byte)
  /-- BUF.ENDFRAME b, time (R163). -/
  | bufEndframe (b : Byte) (time : Word32)
  /-- BUF.READ b, stereo, max (R165). -/
  | bufRead (b : Byte) (stereo : Bool) (max : Word32)
  /-- BUF.MIX b, count, with count samples on DIN (R166). -/
  | bufMix (b : Byte) (count : Word32)
  /-- BUF.RMSIL b, count (R167). -/
  | bufRmsil (b : Byte) (count : Word32)
  /-- BUF.AVAIL b (R168). -/
  | bufAvail (b : Byte)
  /-- BUF.GETSR b (R169). -/
  | bufGetsr (b : Byte)
  /-- BUF.GETCR b (R170). -/
  | bufGetcr (b : Byte)
  /-- SYN.OFFSET s, b, time, delta; delta is read signed (41_synth_ops.md R203). -/
  | synOffset (s b : Byte) (time delta : Word32)
  /-- SYN.VOLUME s, unit (R204). -/
  | synVolume (s : Byte) (unit : Word32)
  /-- SYN.TREBLE s, eq (R205). -/
  | synTreble (s : Byte) (eq : Word32)
  /-- OSC.RESET o (42_oscillator_ops.md R235). -/
  | oscReset (o : Byte)
  /-- OSC.WRITE o, reg, value (R236). -/
  | oscWrite (o : Byte) (reg : Word32) (value : Byte)
  /-- OSC.RUN o, time_now, time_end (R232). -/
  | oscRun (o : Byte) (timeNow timeEnd : Word32)
  /-- OSC.CLKENV o (R240). -/
  | oscClkenv (o : Byte)
  /-- OSC.CLKLEN o (R241). -/
  | oscClklen (o : Byte)
  /-- OSC.CLKSWP o (R242). -/
  | oscClkswp (o : Byte)
  /-- OSC.CLKLIN o (R243). -/
  | oscClklin (o : Byte)
  /-- VOICE.KEYON v (43_brr_voice_ops.md R271). -/
  | voiceKeyon (v : Byte)
  /-- VOICE.KEYOFF v (R272). -/
  | voiceKeyoff (v : Byte)
  /-- VOICE.TICK v (R273). -/
  | voiceTick (v : Byte)
  /-- CHIP.RESET c, variant (44_chip_sequencer_ops.md R320). -/
  | chipReset (c : Byte) (variant : Bool)
  /-- CHIP.OUTPUT c, b or null (R321). -/
  | chipOutput (c : Byte) (sink : Option Byte)
  /-- CHIP.OSCOUT c, b or null, index (R322). -/
  | chipOscout (c : Byte) (sink : Option Byte) (index : Word32)
  /-- CHIP.WRITE c, time, addr, data (R323). -/
  | chipWrite (c : Byte) (time : Word32) (addr : BitVec 16) (data : Byte)
  /-- CHIP.RUNUNTIL c, end_time (R324). -/
  | chipRununtil (c : Byte) (endTime : Word32)
  /-- CHIP.ENDFRAME c, end_time (R325). -/
  | chipEndframe (c : Byte) (endTime : Word32)
  /-- CHIP.VOLUME c, level (R334). -/
  | chipVolume (c : Byte) (level : Word32)
  /-- CHIP.TREBLE c, eq (R335). -/
  | chipTreble (c : Byte) (eq : Word32)
  /-- CHIP.READ c, addr (R336). -/
  | chipRead (c : Byte) (addr : Word32)
  /-- CHIP.BUFCLR c (R337). -/
  | chipBufclr (c : Byte)
  deriving DecidableEq, Repr

end Sys2Proof
end

