-- ==== Sys2Proof/WellFormed.lean ====
section
/-! DEFINITION. Which terms of Instr an encoding stands for, and which unit indices a command may carry
(30_encoding.md R123, R125). The other field widths are in the types of Instr. -/

namespace Sys2Proof

/-- A sink operand is null or a BUF index; 0xFF is the encoding of null, so it is no BUF index (R123). -/
def sinkWellFormed : Option Byte → Bool
  | none => true
  | some b => b != 0xFF#8

/-- The terms an encoding stands for: only a sink written `some 0xFF` has none (R123). -/
def Instr.wellFormed : Instr → Bool
  | .chipOutput _ sink => sinkWellFormed sink
  | .chipOscout _ sink _ => sinkWellFormed sink
  | _ => true

/-- How many units of each group an engine has (10_state.md R20). -/
structure UnitCounts where
  bufs : Nat
  syns : Nat
  oscs : Nat
  voices : Nat
  chips : Nat
  deriving DecidableEq, Repr

/-- A sink that names a BUF of the engine, or null. -/
def sinkInRange (n : UnitCounts) : Option Byte → Bool
  | none => true
  | some b => decide (b.toNat < n.bufs)

/-- Step (3) of 60_exceptions.md R377: every unit index `u` and `v` of the command is in range (R125). SYN.OFFSET does
not admit the null Buffer. -/
def Instr.unitsInRange (n : UnitCounts) : Instr → Bool
  | .bufSetrate b _ _ | .bufClear b | .bufEndframe b _ | .bufRead b _ _ | .bufMix b _ | .bufRmsil b _
  | .bufAvail b | .bufGetsr b | .bufGetcr b => decide (b.toNat < n.bufs)
  | .synOffset s b _ _ => decide (s.toNat < n.syns) && (decide (b.toNat < n.bufs) && b != 0xFF#8)
  | .synVolume s _ | .synTreble s _ => decide (s.toNat < n.syns)
  | .oscReset o | .oscWrite o _ _ | .oscRun o _ _ | .oscClkenv o | .oscClklen o | .oscClkswp o
  | .oscClklin o => decide (o.toNat < n.oscs)
  | .voiceKeyon v | .voiceKeyoff v | .voiceTick v => decide (v.toNat < n.voices)
  | .chipReset c _ | .chipWrite c _ _ _ | .chipRununtil c _ | .chipEndframe c _ | .chipVolume c _
  | .chipTreble c _ | .chipRead c _ | .chipBufclr c => decide (c.toNat < n.chips)
  | .chipOutput c sink => decide (c.toNat < n.chips) && sinkInRange n sink
  | .chipOscout c sink _ => decide (c.toNat < n.chips) && sinkInRange n sink

end Sys2Proof
end

