-- ==== Sys2Proof/Machine/Ops.lean ====
section
/-! DEFINITION. The named operations over the engine's state: changing one unit, the ports, the RAM, taking a fault
(60_exceptions.md R378), what a mid-command fault leaves, and hardware reset (70_reset_and_hazards.md R410), the only
return from a fault (60_exceptions.md R379). -/

namespace Sys2Proof.Machine

/-! ## One unit of a group -/

/-- Changes `BUF[b]`. -/
def State.modBuf (s : State) (b : Nat) (f : Buf → Buf) : State := { s with bufs := s.bufs.modify b f }

/-- Changes `SYN[y]`. -/
def State.modSyn (s : State) (y : Nat) (f : Syn → Syn) : State := { s with syns := s.syns.modify y f }

/-- Changes `OSC[o]`. -/
def State.modOsc (s : State) (o : Nat) (f : Osc → Osc) : State := { s with oscs := s.oscs.modify o f }

/-- Changes `VOICE[v]`. -/
def State.modVoice (s : State) (v : Nat) (f : Voice → Voice) : State := { s with voices := s.voices.modify v f }

/-- Changes `CHIP[ci]`. -/
def State.modChip (s : State) (ci : Nat) (f : Chip → Chip) : State := { s with chips := s.chips.modify ci f }

/-- Changes GLOBAL. -/
def State.setGlobal (s : State) (g : Global) : State := { s with global := g }

/-- How many units of each group the engine has: NUM_BUF and the others (log 3). -/
def State.counts (s : State) : UnitCounts :=
  ⟨s.bufs.length, s.syns.length, s.oscs.length, s.voices.length, s.chips.length⟩

/-! ## The ports -/

/-- `RSP <- v` (00_scope.md R9). -/
def State.respond (s : State) (v : Word32) : State := { s with rsp := s.rsp ++ [v] }

/-- `DOUT.push` of a list of slot numbers and samples (00_scope.md R9). -/
def State.emitSamples (s : State) (l : List (Nat × Sample)) : State := { s with dout := s.dout ++ l }

/-- Takes `n` free values. -/
def State.takeDraws (s : State) (n : Nat) : State := { s with draws := s.draws + n }

/-- The next `count` words of DIN. Words beyond those the host has presented are free values (30_encoding.md R127 makes
BUF.MIX consume exactly `count`; log 6; safe). -/
def dinSamples (c : Config) (s : State) (count : Nat) : List Sample :=
  (List.range count).map fun i => (s.din[i]?).getD (c.dinFree s.draws i)

/-- Consumes `count` words of DIN (30_encoding.md R127). -/
def State.consumeDin (s : State) (count : Nat) : State := { s with din := s.din.drop count }

/-! ## SPC700 RAM (20_memory.md R83) -/

/-- What a byte the host has not loaded reads as: a draw per byte and reset. -/
def ramDefault (c : Config) (s : State) : Nat → Byte := c.ramFree s.ramEpoch

/-- One byte of RAM; the address is reduced modulo RAM_SIZE. -/
def ramRead (c : Config) (s : State) (a : Nat) : Byte := Memory.read (ramDefault c s) s.ram (a % ramSize c)

/-- The host loads one byte of RAM between commands. -/
def loadRam (c : Config) (a : Nat) (b : Byte) (s : State) : State :=
  { s with ram := Memory.write (ramDefault c s) s.ram (a % ramSize c) b }

/-! ## Global register bytes of a chip (10_state.md R31, R33) -/

/-- `C.gregs[slot]`. -/
def gregRead (c : Config) (k : ChipKind) (C : Chip) (slot : Nat) : Byte := Memory.read (c.powerOn k) C.gregs slot

/-- `C.gregs[slot] <- b`. -/
def gregWrite (c : Config) (k : ChipKind) (C : Chip) (slot : Nat) (b : Byte) : Chip :=
  { C with gregs := Memory.write (c.powerOn k) C.gregs slot b }

/-! ## Faults -/

/-- What a command or an inner CALL answers: a state, or the fault it raises. -/
abbrev Attempt := Except FaultCause State

/-- Fault entry (60_exceptions.md R378): the first fault sets FAULT, its cause and the opcode of the command word the host
issued; nothing else changes. -/
def raiseFault (op : Byte) (x : FaultCause) (s : State) : State :=
  if s.global.fault then s else s.setGlobal ⟨true, faultCode x, op⟩

/-- Ends a command whose checks precede every state change: a fault is precise (60_exceptions.md R378). -/
def settle (op : Byte) (s : State) (r : Attempt) : State :=
  match r with
  | .ok t => t
  | .error x => raiseFault op x s

/-- Step (3) of 60_exceptions.md R377: the unit indices of the command are checked before any state is read. -/
def whenInRange (op : Byte) (inRange : Bool) (s t : State) : State :=
  if inRange then t else raiseFault op .unitIndexOutOfRange s

/-! ## What a mid-command fault leaves: free values (60_exceptions.md R378, 93_implementation_defined.md U3; log 12) -/

/-- A BUF holding any value. -/
def wreckedBuf (c : Config) (n : Nat) : Buf where
  cells := (List.range (ringN c)).map fun i => wrapN (cellW c) (c.wreck n (i + 8))
  rd := (c.wreck n 0).toNat % ringN c
  offset := BitVec.ofInt 32 (c.wreck n 1)
  factor := BitVec.ofInt 32 (c.wreck n 2)
  sampleRate := BitVec.ofInt 32 (c.wreck n 3)
  clockRate := BitVec.ofInt 32 (c.wreck n 4)
  bufferSize := if c.wreck n 5 = 0 then 0 else bufferSizeP c
  bassShift := Fin.ofNat 32 (c.wreck n 6).toNat
  readerAccum := BitVec.ofInt 32 (c.wreck n 7)

/-- An oscillator slot with `nr` registers holding any value, its sink null or one of `nb` BUFs. -/
def wreckedOsc (c : Config) (n nr nb : Nat) : Osc where
  regs := (List.range nr).map fun i => BitVec.ofInt 8 (c.wreck n (2 * i + 16))
  phase := c.wreck n 0
  period := c.wreck n 1
  volume := c.wreck n 2
  lengthCounter := (c.wreck n 3).toNat
  lfsr := c.wreck n 4
  envStage := (c.wreck n 5).toNat
  envCounter := c.wreck n 6
  extra := (List.range (c.wreck n 7).toNat).map fun i => c.wreck n (2 * i + 17)
  delay := (c.wreck n 8).toNat
  lastAmp := c.wreck n 9
  output := if (c.wreck n 10).toNat < nb then some (c.wreck n 10).toNat else none

/-- An envelope stage picked by a number. -/
def stageOf (x : Int) : EnvStage :=
  if x = 0 then .off else if x = 1 then .attack else if x = 2 then .decay else if x = 3 then .sustain else .release

/-- A GAIN sub-mode, or None, picked by a number. -/
def gainModeOf (x : Int) : Option GainMode :=
  if x = 0 then none else if x = 1 then some .direct else if x = 2 then some .linearDec
  else if x = 3 then some .expDec else if x = 4 then some .linearInc else some .bentInc

/-- A voice holding any value. -/
def wreckedVoice (c : Config) (n : Nat) : Voice where
  ramAddr := (c.wreck n 0).toNat % ramSize c
  hdrLoop := decide (c.wreck n 1 = 0)
  hdrEnd := decide (c.wreck n 2 = 0)
  hdrFilter := Fin.ofNat 4 (c.wreck n 3).toNat
  hdrShift := Fin.ofNat 16 (c.wreck n 4).toNat
  nibblesLeft := (c.wreck n 5).toNat % (blockNibbles + 1)
  hist := ⟨c.wreck n 6, c.wreck n 7, c.wreck n 8, c.wreck n 9⟩
  fraction := (c.wreck n 10).toNat
  loopAddr := (c.wreck n 11).toNat % ramSize c
  startAddr := (c.wreck n 12).toNat % ramSize c
  envStage := stageOf (c.wreck n 13)
  gainMode := gainModeOf (c.wreck n 14)
  envValue := (c.wreck n 15).toNat % (envelopeRange c + 1)
  envCounter := c.wreck n 16
  out := c.wreck n 17

/-- A chip of kind `k` holding any value. -/
def wreckedChip (c : Config) (n : Nat) (k : ChipKind) : Chip where
  lastTime := (c.wreck n 0).toNat
  frameDelay := (c.wreck n 1).toNat
  frame := (c.wreck n 2).toNat % max (nframes c k) 1
  frameMode := BitVec.ofInt 8 (c.wreck n 3)
  oscEnables := BitVec.ofInt 8 (c.wreck n 4)
  latch := (c.wreck n 5).toNat
  variant := decide (c.wreck n 6 = 0)
  gregs := (List.range (c.wreck n 7).toNat).foldl
    (fun m i => Memory.write (c.powerOn k) m (c.wreck n (2 * i + 8)).toNat (BitVec.ofInt 8 (c.wreck n (2 * i + 9)))) []

/-- The BUF an oscillator slot feeds holds any value. -/
def wreckSink (c : Config) (o : Nat) (s : State) : State :=
  match (s.oscs[o]?).bind (fun O => O.output) with
  | none => s
  | some b => (s.modBuf b fun _ => wreckedBuf c s.draws).takeDraws 1

/-- The voice an oscillator slot wraps holds any value. -/
def wreckVoice (c : Config) (o : Nat) (s : State) : State :=
  match voiceOf c o with
  | none => s
  | some v => (s.modVoice v fun _ => wreckedVoice c s.draws).takeDraws 1

/-- The slot, the voice it wraps and the BUF it feeds hold any value. -/
def wreckSlot (c : Config) (s : State) (o : Nat) : State :=
  let t := wreckVoice c o (wreckSink c o s)
  (t.modOsc o fun O => wreckedOsc c t.draws O.regs.length t.bufs.length).takeDraws 1

/-- The chip, its slots, their voices and the BUFs they feed hold any value. -/
def wreckChip (c : Config) (ci : Nat) (s : State) : State :=
  let t := (chipOscs c ci).foldl (wreckSlot c) s
  (t.modChip ci fun _ => wreckedChip c t.draws (c.chipKind ci)).takeDraws 1

/-- Ends a command that has changed state before an inner CALL faults: the fault is imprecise, `wrecked` being the
starting state with the touched units holding any value (60_exceptions.md R378). -/
def settleImprecise (op : Byte) (wrecked : State) (r : Attempt) : State :=
  match r with
  | .ok t => t
  | .error x => raiseFault op x wrecked

/-! ## Hardware reset -/

/-- The reset input (70_reset_and_hazards.md R410): every unit and GLOBAL at its reset value, the RAM bytes fresh draws.
What the host has presented and what the engine has sent lie outside it and stay. -/
def hardwareReset (c : Config) (s : State) : State :=
  { resetState c with
    ramEpoch := s.ramEpoch + 1
    input := s.input
    din := s.din
    rsp := s.rsp
    dout := s.dout
    draws := s.draws }

end Sys2Proof.Machine
end

