-- ==== Sys2Proof/Machine/Buffer.lean ====
section
/-! DEFINITION. The BUF commands (40_buffer_ops.md R160 to R173). -/

namespace Sys2Proof.Machine

/-! ## Derived quantities (10_state.md R22) -/

/-- `samples_avail(b) = offset_ >> ACC`. -/
def samplesAvail (c : Config) (B : Buf) : Nat := shrN B.offset.toNat (accBits c)

/-- `resampled_time(b, t) = t * factor_ + offset_`, exact. -/
def resampledTime (B : Buf) (t : Nat) : Nat := t * B.factor.toNat + B.offset.toNat

/-- `cell_index(b, j) = (rd + j) mod RING_N`. -/
def cellIndex (c : Config) (B : Buf) (j : Nat) : Nat := (B.rd + j) % ringN c

/-- Adds `x` to a cell modulo 2^CELL_W (40_buffer_ops.md R173). -/
def addCell (c : Config) (cells : List Nat) (i : Nat) (x : Int) : List Nat :=
  cells.modify i fun v => wrapN (cellW c) ((v : Int) + x)

/-! ## BUF.SETRATE -/

/-- The result of the rate computation of R160. -/
structure RateSetting where
  cps : Nat
  clock : Nat
  factor : Nat
  deriving DecidableEq, Repr

/-- Rate adjustment (R160): whole cycles per sample, the adjusted clock rate, and the factor, rounded down. -/
def rateSetting (c : Config) (rate clockRate : Nat) : RateSetting where
  cps := clockRate / rate
  clock := clockRate / rate * rate
  factor := rate * 2 ^ accBits c / (clockRate / rate * rate)

/-- BUF.CLEAR on one Buffer (R162): cells, reader accumulator, cursor and `rd` zero. -/
def clearedBuf (c : Config) (B : Buf) : Buf :=
  { B with cells := List.replicate (ringN c) 0, readerAccum := 0, offset := 0, rd := 0 }

/-- A Buffer after a successful BUF.SETRATE (R161). -/
def ratedBuf (c : Config) (rate : Word32) (r : RateSetting) (B : Buf) : Buf :=
  clearedBuf c { B with
    bufferSize := bufferSizeP c
    sampleRate := rate
    clockRate := BitVec.ofNat 32 r.clock
    factor := BitVec.ofNat 32 r.factor }

/-- BUF.SETRATE (R161). The outcome of the allocation is the free value alloc_ok (log 8). -/
def bufSetrate (c : Config) (b : Nat) (rate clockRate : Word32) (s : State) : Attempt :=
  if rate.toNat = 0 ∨ clockRate.toNat = 0 ∨ clockRate.toNat < rate.toNat then .error .invalidRate
  else
    let r := rateSetting c rate.toNat clockRate.toNat
    if r.factor = 0 then .error .invalidRate
    else if c.allocOk s.draws then .ok (((s.modBuf b (ratedBuf c rate r)).takeDraws 1).respond 0)
    else .ok (((s.modBuf b fun B => { B with bufferSize := 0 }).takeDraws 1).respond 1)

/-! ## BUF.CLEAR and BUF.ENDFRAME -/

/-- BUF.CLEAR (R162). -/
def bufClear (c : Config) (b : Nat) (s : State) : State := s.modBuf b (clearedBuf c)

/-- BUF.ENDFRAME (R163): the check is on the exact sum, so a sum beyond RT_W bits faults too. -/
def bufEndframe (c : Config) (b : Nat) (time : Word32) (s : State) : Attempt :=
  match s.bufs[b]? with
  | none => .ok s
  | some B =>
    if B.bufferSize = 0 then .ok s
    else
      let n := resampledTime B time.toNat
      if B.bufferSize < shrN n (accBits c) ∨ 2 ^ 32 ≤ n then .error .bufferOverrun
      else .ok (s.modBuf b fun B => { B with offset := BitVec.ofNat 32 n })

/-! ## BUF.READ -/

/-- READER_STEP (R164): the sample from the accumulator first, then the cell into the accumulator with the bass leak, the
cell zeroed. -/
def readerStep (c : Config) (i : Nat) (B : Buf) : Buf × Sample :=
  let acc := B.readerAccum.toInt
  let cell := sextN (cellW c) ((B.cells[i]?).getD 0)
  ({ B with
      readerAccum := BitVec.ofInt 32 (acc + cell - sarN acc B.bassShift.val)
      cells := B.cells.set i 0 },
    BitVec.ofInt 16 (clampN 16 (sarN acc c.sampleShift)))

/-- The loop of R165: `n` reader steps from step `i` on, over the ring from cell `base`, into slots `stride` apart. -/
def readLoop (c : Config) (base stride : Nat) : Nat → Nat → Buf → Buf × List (Nat × Sample)
  | 0, _, B => (B, [])
  | n + 1, i, B =>
    let r := readerStep c ((base + i) % ringN c) B
    let rest := readLoop c base stride n (i + 1) r.1
    (rest.1, (i * stride, r.2) :: rest.2)

/-- Moves the cursor and `rd` past `n` samples (R165, R167). -/
def dropSamples (c : Config) (n : Nat) (B : Buf) : Buf :=
  { B with rd := (B.rd + n) % ringN c, offset := BitVec.ofNat 32 (B.offset.toNat - n * 2 ^ accBits c) }

/-- How many samples BUF.READ copies (R165). -/
def readCount (c : Config) (max : Word32) (B : Buf) : Nat := min max.toNat (samplesAvail c B)

/-- The slot stride of BUF.READ (R165): 2 in stereo. -/
def slotStride (stereo : Bool) : Nat := if stereo then 2 else 1

/-- BUF.READ (R165); an unallocated Buffer answers 0 (R171). -/
def bufRead (c : Config) (b : Nat) (stereo : Bool) (max : Word32) (s : State) : State :=
  match s.bufs[b]? with
  | none => s
  | some B =>
    if B.bufferSize = 0 then s.respond 0
    else
      let n := readCount c max B
      let r := readLoop c B.rd (slotStride stereo) n 0 B
      ((s.modBuf b fun _ => dropSamples c n r.1).emitSamples r.2).respond (BitVec.ofNat 32 n)

/-! ## BUF.MIX and BUF.RMSIL -/

/-- The loop of R166: each sample enters as its difference from the one before, and the last line takes the level back. -/
def mixCells (c : Config) (j : Nat) (prev : Int) : List Int → List Nat → List Nat
  | [], cells => addCell c cells (j % ringN c) (-prev)
  | x :: rest, cells => mixCells c (j + 1) x rest (addCell c cells (j % ringN c) (x - prev))

/-- The input samples scaled by 2^SAMPLE_SHIFT (R166). -/
def scaledSamples (c : Config) (l : List Sample) : List Int := l.map fun x => shlN x.toInt c.sampleShift

/-- BUF.MIX (R166); an unallocated Buffer only consumes the payload (R171). -/
def bufMix (c : Config) (b : Nat) (count : Word32) (s : State) : Attempt :=
  match s.bufs[b]? with
  | none => .ok s
  | some B =>
    if B.bufferSize = 0 then .ok (s.consumeDin count.toNat)
    else
      let base := samplesAvail c B + c.mixLead
      if ringN c < base + count.toNat + 1 then .error .offsetOutOfRange
      else
        let xs := scaledSamples c (dinSamples c s count.toNat)
        let t := s.modBuf b fun B => { B with cells := mixCells c (B.rd + base) 0 xs B.cells }
        .ok ((t.consumeDin count.toNat).takeDraws (if s.din.length < count.toNat then 1 else 0))

/-- Zeroes `n` cells of the ring from `rd` on (R167). -/
def zeroCells (c : Config) (rd n : Nat) (cells : List Nat) : List Nat :=
  (List.range n).foldl (fun l i => l.set ((rd + i) % ringN c) 0) cells

/-- BUF.RMSIL (R167). -/
def bufRmsil (c : Config) (b : Nat) (count : Word32) (s : State) : Attempt :=
  match s.bufs[b]? with
  | none => .ok s
  | some B =>
    if B.bufferSize = 0 then .ok s
    else if samplesAvail c B < count.toNat then .error .countExceedsAvail
    else .ok (s.modBuf b fun B =>
      dropSamples c count.toNat { B with cells := zeroCells c B.rd count.toNat B.cells })

/-! ## Status reads (R168 to R170) -/

/-- The response of BUF.AVAIL (R168). -/
def availResponse (c : Config) (B : Buf) : Word32 :=
  if B.bufferSize = 0 then 0 else BitVec.ofNat 32 (samplesAvail c B)

/-- Answers a word computed from `BUF[b]`. -/
def bufAnswer (b : Nat) (f : Buf → Word32) (s : State) : State :=
  match s.bufs[b]? with
  | none => s
  | some B => s.respond (f B)

/-! ## The commands -/

/-- The unit-index check of a BUF command (30_encoding.md R125). -/
def hasBuf (s : State) (b : Byte) : Bool := decide (b.toNat < s.bufs.length)

def cmdBufSetrate (c : Config) (b : Byte) (rate clockRate : Word32) (s : State) : State :=
  whenInRange 0x10 (hasBuf s b) s (settle 0x10 s (bufSetrate c b.toNat rate clockRate s))

def cmdBufClear (c : Config) (b : Byte) (s : State) : State :=
  whenInRange 0x11 (hasBuf s b) s (bufClear c b.toNat s)

def cmdBufEndframe (c : Config) (b : Byte) (time : Word32) (s : State) : State :=
  whenInRange 0x12 (hasBuf s b) s (settle 0x12 s (bufEndframe c b.toNat time s))

def cmdBufRead (c : Config) (b : Byte) (stereo : Bool) (max : Word32) (s : State) : State :=
  whenInRange 0x13 (hasBuf s b) s (bufRead c b.toNat stereo max s)

def cmdBufMix (c : Config) (b : Byte) (count : Word32) (s : State) : State :=
  whenInRange 0x14 (hasBuf s b) s (settle 0x14 s (bufMix c b.toNat count s))

def cmdBufRmsil (c : Config) (b : Byte) (count : Word32) (s : State) : State :=
  whenInRange 0x15 (hasBuf s b) s (settle 0x15 s (bufRmsil c b.toNat count s))

def cmdBufAvail (c : Config) (b : Byte) (s : State) : State :=
  whenInRange 0x16 (hasBuf s b) s (bufAnswer b.toNat (availResponse c) s)

def cmdBufGetsr (b : Byte) (s : State) : State :=
  whenInRange 0x17 (hasBuf s b) s (bufAnswer b.toNat (fun B => B.sampleRate) s)

def cmdBufGetcr (b : Byte) (s : State) : State :=
  whenInRange 0x18 (hasBuf s b) s (bufAnswer b.toNat (fun B => B.clockRate) s)

/-- BUF.SETRATE (R161) on the engine at hand. -/
def execBufSetrate (b : Byte) (rate clockRate : Word32) (s : State) : Host.Outcome State Fault Refusal :=
  .next (cmdBufSetrate Config.impl b rate clockRate s)

/-- BUF.CLEAR (R162) on the engine at hand. -/
def execBufClear (b : Byte) (s : State) : Host.Outcome State Fault Refusal :=
  .next (cmdBufClear Config.impl b s)

/-- BUF.ENDFRAME (R163) on the engine at hand. -/
def execBufEndframe (b : Byte) (time : Word32) (s : State) : Host.Outcome State Fault Refusal :=
  .next (cmdBufEndframe Config.impl b time s)

/-- BUF.READ (R165) on the engine at hand. -/
def execBufRead (b : Byte) (stereo : Bool) (max : Word32) (s : State) : Host.Outcome State Fault Refusal :=
  .next (cmdBufRead Config.impl b stereo max s)

/-- BUF.MIX (R166) on the engine at hand. -/
def execBufMix (b : Byte) (count : Word32) (s : State) : Host.Outcome State Fault Refusal :=
  .next (cmdBufMix Config.impl b count s)

/-- BUF.RMSIL (R167) on the engine at hand. -/
def execBufRmsil (b : Byte) (count : Word32) (s : State) : Host.Outcome State Fault Refusal :=
  .next (cmdBufRmsil Config.impl b count s)

/-- BUF.AVAIL (R168) on the engine at hand. -/
def execBufAvail (b : Byte) (s : State) : Host.Outcome State Fault Refusal :=
  .next (cmdBufAvail Config.impl b s)

/-- BUF.GETSR (R169) on the engine at hand. -/
def execBufGetsr (b : Byte) (s : State) : Host.Outcome State Fault Refusal :=
  .next (cmdBufGetsr b s)

/-- BUF.GETCR (R170) on the engine at hand. -/
def execBufGetcr (b : Byte) (s : State) : Host.Outcome State Fault Refusal :=
  .next (cmdBufGetcr b s)

end Sys2Proof.Machine
end

