-- ==== Sys2Proof/Machine/Synth.lean ====
section
/-! DEFINITION. The SYN commands (41_synth_ops.md R200 to R207). -/

namespace Sys2Proof.Machine

/-- Where a transition lands (R201): sample index and impulse row. -/
structure Position where
  index : Nat
  row : Nat
  deriving DecidableEq, Repr

/-- The position of source time `t` (R201): `si = rt >> ACC`, `ph` the top PHASE_BITS bits of the fraction. -/
def position (c : Config) (B : Buf) (t : Nat) : Position where
  index := shrN (resampledTime B t) (accBits c)
  row := shrN (resampledTime B t) (accBits c - phaseBits c) % 2 ^ phaseBits c

/-- `S.impulse[row][k]`. -/
def tap (S : Syn) (row k : Nat) : Int := (((S.impulse[row]?).getD [])[k]?).getD 0

/-- The loop of R203: tap `k`, scaled by `delta`, into the cell of sample index `si + k` (R202). -/
def injectTaps (c : Config) (S : Syn) (B : Buf) (p : Position) (delta : Int) : List Nat :=
  (List.range (widthOf c S.quality)).foldl
    (fun cells k => addCell c cells (cellIndex c B (p.index + k)) (delta * tap S p.row k)) B.cells

/-- SYN.OFFSET (R203), also as it is CALLed by an emission: `time` a source time of the current frame, `delta` exact. An
index that names no unit can reach it only from a state no command makes (log 33). -/
def synOffset (c : Config) (y b t : Nat) (delta : Int) (s : State) : Attempt :=
  match s.bufs[b]?, s.syns[y]? with
  | some B, some S =>
    if B.bufferSize = 0 then .ok s
    else
      let p := position c B t
      if ringN c < p.index + widthOf c S.quality then .error .offsetOutOfRange
      else .ok (s.modBuf b fun B => { B with cells := injectTaps c S B p delta })
  | _, _ => .error .unitIndexOutOfRange

/-- SYN.VOLUME on one synthesizer (R204). -/
def withVolume (c : Config) (unit : Word32) (S : Syn) : Syn :=
  { S with volumeUnit := unit, impulse := kgen c S.quality S.eq unit }

/-- SYN.TREBLE on one synthesizer (R205). -/
def withTreble (c : Config) (eq : Word32) (S : Syn) : Syn :=
  { S with eq := eq, impulse := kgen c S.quality eq S.volumeUnit }

/-- SYN.VOLUME (R204). -/
def synVolume (c : Config) (y : Nat) (unit : Word32) (s : State) : State := s.modSyn y (withVolume c unit)

/-- SYN.TREBLE (R205). -/
def synTreble (c : Config) (y : Nat) (eq : Word32) (s : State) : State := s.modSyn y (withTreble c eq)

/-! ## The commands -/

/-- The unit-index check of a SYN command (30_encoding.md R125). -/
def hasSyn (s : State) (y : Byte) : Bool := decide (y.toNat < s.syns.length)

/-- The Buffer operand of SYN.OFFSET: a BUF index, never null (30_encoding.md R123). -/
def hasSinkBuf (s : State) (b : Byte) : Bool := hasBuf s b && b != 0xFF#8

def cmdSynOffset (c : Config) (y b : Byte) (time delta : Word32) (s : State) : State :=
  whenInRange 0x20 (hasSyn s y && hasSinkBuf s b) s
    (settle 0x20 s (synOffset c y.toNat b.toNat time.toNat (deltaOperand delta) s))

def cmdSynVolume (c : Config) (y : Byte) (unit : Word32) (s : State) : State :=
  whenInRange 0x21 (hasSyn s y) s (synVolume c y.toNat unit s)

def cmdSynTreble (c : Config) (y : Byte) (eq : Word32) (s : State) : State :=
  whenInRange 0x22 (hasSyn s y) s (synTreble c y.toNat eq s)

/-- SYN.OFFSET (R203) on the engine at hand. -/
def execSynOffset (y b : Byte) (time delta : Word32) (s : State) : Host.Outcome State Fault Refusal :=
  .next (cmdSynOffset Config.impl y b time delta s)

/-- SYN.VOLUME (R204) on the engine at hand. -/
def execSynVolume (y : Byte) (unit : Word32) (s : State) : Host.Outcome State Fault Refusal :=
  .next (cmdSynVolume Config.impl y unit s)

/-- SYN.TREBLE (R205) on the engine at hand. -/
def execSynTreble (y : Byte) (eq : Word32) (s : State) : Host.Outcome State Fault Refusal :=
  .next (cmdSynTreble Config.impl y eq s)

end Sys2Proof.Machine
end

