-- ==== Sys2Proof/Machine/Voice.lean ====
section
/-! DEFINITION. The VOICE commands: the SPC700 BRR decoder and envelope generator (43_brr_voice_ops.md R270 to R292). In
this file `regs` is the register image of the slot that wraps the voice and `ram` reads the SPC700 RAM. -/

namespace Sys2Proof.Machine

/-! ## The envelope (R274 to R281) -/

/-- RATE_TICK (R276): the counter goes down by the table entry and reloads when it is not positive; answers whether the
envelope steps. -/
def rateTick (c : Config) (regs : List Byte) (V : Voice) : Voice × Bool :=
  let left := V.envCounter - (c.envelopeRates (c.rateOf V.envStage V.gainMode regs) : Int)
  if left ≤ 0 then ({ V with envCounter := (envRateInit c : Int) }, true)
  else ({ V with envCounter := left }, false)

/-- RATE_TICK, and `step` where it says so. -/
def onRateTick (c : Config) (regs : List Byte) (step : Voice → Voice) (V : Voice) : Voice :=
  let r := rateTick c regs V
  if r.2 then step r.1 else r.1

/-- ATTACK_STEP (R277); a simplified voice reaches ENV_MAX in one step and never enters Decay (R292). -/
def attackStep (c : Config) (simple : Bool) (regs : List Byte) (V : Voice) : Voice :=
  let e := V.envValue + c.attackInc (c.rateOf V.envStage V.gainMode regs)
  if simple then { V with envValue := envMax c }
  else if envMax c ≤ e then { V with envValue := envMax c, envStage := .decay }
  else { V with envValue := e }

/-- DECAY_STEP (R278, R279). -/
def decayStep (c : Config) (V : Voice) : Voice := { V with envValue := V.envValue - decayDec c V.envValue }

/-- DECAY_CHECK (R278): at every tick in Decay, against `(sustain_level + 1) * 0x100`. -/
def decayCheck (c : Config) (regs : List Byte) (V : Voice) : Voice :=
  if V.envValue ≤ (c.sustainLevelOf regs + 1) * docNumbers.sustainUnit then { V with envStage := .sustain } else V

/-- RELEASE_STEP (R280): at every tick, without the rate counter. -/
def releaseStep (c : Config) (V : Voice) : Voice :=
  if V.envValue ≤ envelopeQuantum c then { V with envValue := 0, envStage := .off }
  else { V with envValue := V.envValue - envelopeQuantum c }

/-- The value a BentInc step adds: larger below the knee, smaller above it (R281). -/
def bentIncrement (c : Config) (e : Nat) : Nat := if e < c.gainBentKnee then gainBentLarge c else c.gainBentSmall

/-- GAIN_STEP (R281). Direct sets the value from a register field; the others step at each RATE_TICK (for ExpDec and
BentInc DEDUCED, log 20). The stage stays: R281 does not say whether a voice in Attack goes to Decay when a GAIN mode takes
its envelope to ENV_MAX, and in the model it does not (DESIGN CHOICE, unsafe, log 42). -/
def gainStep (c : Config) (m : GainMode) (regs : List Byte) (V : Voice) : Voice :=
  match m with
  | .direct => { V with envValue := gainClamp c m (c.gainDirect regs) }
  | .linearDec => onRateTick c regs
      (fun W => { W with envValue := gainClamp c m ((W.envValue : Int) - c.gainLinearDec) }) V
  | .linearInc => onRateTick c regs
      (fun W => { W with envValue := gainClamp c m ((W.envValue : Int) + c.gainLinearInc) }) V
  | .expDec => onRateTick c regs (decayStep c) V
  | .bentInc => onRateTick c regs
      (fun W => { W with envValue := gainClamp c m ((W.envValue : Int) + bentIncrement c W.envValue) }) V

/-- ENVELOPE_UPDATE (R275): Release first, then GAIN, then the stage. -/
def envelopeUpdate (c : Config) (simple : Bool) (regs : List Byte) (V : Voice) : Voice :=
  match V.envStage, V.gainMode with
  | .release, _ => releaseStep c V
  | _, some m => gainStep c m regs V
  | .attack, none => onRateTick c regs (attackStep c simple regs) V
  | .decay, none => decayCheck c regs (onRateTick c regs (decayStep c) V)
  | .sustain, none => onRateTick c regs (decayStep c) V
  | .off, none => V

/-! ## BRR decoding (R282 to R285) -/

/-- ENTER_SILENCE (R288). -/
def enterSilence (V : Voice) : Voice := { V with envStage := .off, envValue := 0, out := 0 }

/-- Opens the block at `ram_addr` (R283): reads its header and moves on. -/
def openBlock (c : Config) (ram : Nat → Byte) (V : Voice) : Voice :=
  { setHeader V (c.brrHeader (ram V.ramAddr)) with
    ramAddr := (V.ramAddr + 1) % ramSize c
    nibblesLeft := blockNibbles }

/-- Makes sure a block is open (R283); `none` at the end of a stream without loop. -/
def blockOpen (c : Config) (ram : Nat → Byte) (V : Voice) : Option Voice :=
  if V.nibblesLeft ≠ 0 then some V
  else if V.hdrEnd then
    if V.hdrLoop then some (openBlock c ram { V with ramAddr := V.loopAddr }) else none
  else some (openBlock c ram V)

/-- The nibble of a data byte (R284, NIBBLE_ORDER), signed. -/
def nibbleOf (c : Config) (first : Bool) (d : Byte) : Int :=
  sextN 4 (if first = c.highNibbleFirst then (d.extractLsb' 4 4).toNat else (d.extractLsb' 0 4).toNat)

/-- The nibble shifted (R284): above 12 the sign alone. -/
def shiftedNibble (c : Config) (shift : Fin 16) (n : Int) : Int :=
  if shift.val ≤ docNumbers.brrShiftMax then sarN (shlN n shift.val) c.brrPreshift else c.brrSignOnly (decide (n < 0))

/-- One nibble extracted, filtered and entered into the history (R284, R285). -/
def takeNibble (c : Config) (ram : Nat → Byte) (V : Voice) : Voice :=
  let first := (blockNibbles - V.nibblesLeft) % 2 == 0
  let x := shiftedNibble c V.hdrShift (nibbleOf c first (ram V.ramAddr))
  let y := c.brrClamp (x + brrFilter c V.hdrFilter V.hist.h0 V.hist.h1)
  { V with
    ramAddr := if first then V.ramAddr else (V.ramAddr + 1) % ramSize c
    nibblesLeft := V.nibblesLeft - 1
    hist := ⟨y, V.hist.h0, V.hist.h1, V.hist.h2⟩ }

/-- DECODE_NIBBLE (R283 to R285), with its answer. -/
def decodeNibble (c : Config) (ram : Nat → Byte) (V : Voice) : Voice × Bool :=
  match blockOpen c ram V with
  | none => (V, false)
  | some W => if c.earlyEnd W ram then (W, false) else (takeNibble c ram W, true)

/-- `n` nibbles, up to the first that is not ok (R273). -/
def decodeNibbles (c : Config) (ram : Nat → Byte) : Nat → Voice → Voice × Bool
  | 0, V => (V, true)
  | n + 1, V =>
    let r := decodeNibble c ram V
    if r.2 then decodeNibbles c ram n r.1 else r

/-! ## One sample period, key-on, key-off -/

/-- The decoding half of a sample period (R273): pitch, whole steps, interpolation, output. -/
def decodeAndOutput (c : Config) (regs : List Byte) (ram : Nat → Byte) (V : Voice) : Voice :=
  let f := V.fraction + (c.pitchOf regs).toNat
  let r := decodeNibbles c ram (f / fractionUnit) { V with fraction := f % fractionUnit }
  if r.2 then
    { r.1 with out := voiceOut c (c.gaussInterp r.1.fraction r.1.hist c.gauss) r.1.envValue regs }
  else enterSilence r.1

/-- One sample period of a voice (R273). -/
def tickVoice (c : Config) (simple : Bool) (regs : List Byte) (ram : Nat → Byte) (V : Voice) : Voice :=
  if V.envStage = .off then { V with out := 0 }
  else if c.period0Silence V regs then enterSilence V
  else
    let W := envelopeUpdate c simple regs V
    if W.envStage = .off then { W with out := 0 } else decodeAndOutput c regs ram W

/-- A voice after key-on (R271), `dir` its start and loop address. -/
def keyedOn (c : Config) (regs : List Byte) (dir : Nat × Nat) (V : Voice) : Voice :=
  { V with
    startAddr := dir.1
    loopAddr := dir.2
    ramAddr := dir.1
    nibblesLeft := 0
    hdrEnd := false
    hdrLoop := false
    hdrFilter := 0
    hdrShift := 0
    fraction := 0
    hist := ⟨0, 0, 0, 0⟩
    envStage := .attack
    envValue := 0
    envCounter := (envRateInit c : Int)
    gainMode := c.gainSelect regs }

/-- A voice after key-off (R272). -/
def keyedOff (V : Voice) : Voice := { V with envStage := .release }

/-- The registers of voice `v`: those of the slot that wraps it (R289). -/
def voiceRegs (c : Config) (v : Nat) (s : State) : List Byte :=
  ((s.oscs[voiceOsc c v]?).map fun O => O.regs).getD []

/-- The global registers of the chip that owns voice `v`. -/
def voiceGregs (c : Config) (v : Nat) (s : State) : Nat → Byte :=
  let ci := ownerOf c (voiceOsc c v)
  match s.chips[ci]? with
  | some C => gregRead c (c.chipKind ci) C
  | none => c.powerOn (c.chipKind ci)

/-- VOICE.KEYON (R271). -/
def voiceKeyon (c : Config) (v : Nat) (s : State) : State :=
  let regs := voiceRegs c v s
  s.modVoice v (keyedOn c regs (sampleDir c regs (voiceGregs c v s) (ramRead c s)))

/-- VOICE.KEYOFF (R272). -/
def voiceKeyoff (v : Nat) (s : State) : State := s.modVoice v keyedOff

/-- VOICE.TICK without its response (R273, R290). -/
def voiceTick (c : Config) (v : Nat) (s : State) : State :=
  s.modVoice v (tickVoice c (c.simpleEnvelope v) (voiceRegs c v s) (ramRead c s))

/-- The output sample of voice `v` as a response, `wrap_32` (30_encoding.md R126). -/
def voiceResponse (v : Nat) (s : State) : Word32 :=
  BitVec.ofInt 32 (((s.voices[v]?).map fun V => V.out).getD 0)

/-! ## The commands -/

/-- The unit-index check of a VOICE command (30_encoding.md R125). -/
def hasVoice (s : State) (v : Byte) : Bool := decide (v.toNat < s.voices.length)

def cmdVoiceKeyon (c : Config) (v : Byte) (s : State) : State :=
  whenInRange 0x40 (hasVoice s v) s (voiceKeyon c v.toNat s)

def cmdVoiceKeyoff (v : Byte) (s : State) : State :=
  whenInRange 0x41 (hasVoice s v) s (voiceKeyoff v.toNat s)

def cmdVoiceTick (c : Config) (v : Byte) (s : State) : State :=
  whenInRange 0x42 (hasVoice s v) s ((voiceTick c v.toNat s).respond (voiceResponse v.toNat (voiceTick c v.toNat s)))

/-- VOICE.KEYON (R271) on the engine at hand. -/
def execVoiceKeyon (v : Byte) (s : State) : Host.Outcome State Fault Refusal :=
  .next (cmdVoiceKeyon Config.impl v s)

/-- VOICE.KEYOFF (R272) on the engine at hand. -/
def execVoiceKeyoff (v : Byte) (s : State) : Host.Outcome State Fault Refusal :=
  .next (cmdVoiceKeyoff v s)

/-- VOICE.TICK (R273) on the engine at hand. -/
def execVoiceTick (v : Byte) (s : State) : Host.Outcome State Fault Refusal :=
  .next (cmdVoiceTick Config.impl v s)

end Sys2Proof.Machine
end

