-- ==== Sys2Proof/Machine/Oscillator.lean ====
section
/-! DEFINITION. The OSC commands (42_oscillator_ops.md R230 to R247). The per-kind functions of R231 are Config's; here
each is held to what the rules say of it. -/

namespace Sys2Proof.Machine

/-! ## Per-kind functions (R231; 43_brr_voice_ops.md R290 for BRR_VOICE) -/

/-- The derived fields as OSC.RESET leaves them, over a register image (R235). -/
def resetTone (c : Config) (K : OscKind) (regs : List Byte) : Tone where
  regs := regs
  phase := 0
  period := 0
  volume := 0
  lengthCounter := 0
  lfsr := lfsrInit c K
  envStage := 0
  envCounter := 0
  extra := c.extraInit K

/-- CUR_AMP[K](O), a function of every derived field and the registers but not of `period` (R231); 0 in the reset state
(R235; log 18). -/
def curAmp (c : Config) (K : OscKind) (T : Tone) : Int :=
  let A := { T with period := 0 }
  if A = resetTone c K T.regs then 0 else c.curAmpRaw K A

/-- WAVE_STEP[K](O): new values of `phase`, `lfsr` and `extra` alone. -/
def steppedTone (c : Config) (K : OscKind) (T : Tone) : Tone :=
  let r := c.waveStepRaw K T
  { T with phase := r.phase, lfsr := r.lfsr, extra := r.extra }

/-- The level a byte of NES register 0 makes the output level: its level field, where it selects a constant level (R239;
log 43). -/
def nesRegisterLevel (c : Config) (K : OscKind) (value : Byte) : Option Int :=
  if K = .nesSquare ∧ nesConstant c value = true then some (nesLevelField value) else none

/-- WRITE_EFFECT[K](O, reg, value, enabled): new derived fields and delay, the register image kept. The length register
of an NES kind does what R238 says, register 0 of an NES square what R239 says of a constant level; BRR_VOICE does nothing
(43_brr_voice_ops.md R290). -/
def writeEffect (c : Config) (K : OscKind) (T : Tone) (delay reg : Nat) (value : Byte) (enabled : Bool) : Tone × Nat :=
  if lengthReg c K = some reg then
    (if enabled then { T with lengthCounter := c.lengthTable (upperFive value) } else T, delay)
  else if K = .brrVoice then (T, delay)
  else
    let r := c.writeEffectRaw K T delay reg value enabled
    let level := if reg = 0 then nesRegisterLevel c K value else none
    ({ r.1 with regs := T.regs, volume := level.getD r.1.volume }, r.2)

/-- CLOCK_ENV[K](O) (R240). The level of an NES square stays while its register 0 selects a constant level "in place of
the envelope" (R239; log 43). -/
def clockEnv (c : Config) (K : OscKind) (T : Tone) : Tone :=
  if K = .brrVoice then T
  else
    let r := c.clockEnvRaw K T
    let constant := (nesRegisterLevel c K ((T.regs[0]?).getD 0)).isSome
    { r with regs := T.regs, volume := if constant then T.volume else r.volume }

/-- The kinds with a length counter and a sweep: "NES-specific" (00_scope.md glossary; DEDUCED, log 22). -/
def isNesKind : OscKind → Bool
  | .nesSquare | .nesTriangle | .nesNoise => true
  | _ => false

/-- CLOCK_LEN[K](O) (R241). -/
def clockLen (c : Config) (K : OscKind) (T : Tone) : Tone :=
  if isNesKind K then { c.clockLenRaw K T with regs := T.regs } else T

/-- CLOCK_SWP[K](O) (R242): may rewrite the register image, not its length. -/
def clockSwp (c : Config) (K : OscKind) (T : Tone) : Tone :=
  if isNesKind K then { c.clockSwpRaw K T with regs := fitBytes T.regs.length (c.clockSwpRaw K T).regs } else T

/-- CLOCK_LIN[K](O): the identity for every kind but NES_TRIANGLE (R243). -/
def clockLin (c : Config) (K : OscKind) (T : Tone) : Tone :=
  if K = .nesTriangle then { c.clockLinRaw K T with regs := T.regs } else T

/-- Applies a function to the derived fields of a slot; delay, committed amplitude and sink stay. -/
def State.modTone (s : State) (o : Nat) (f : Tone → Tone) : State :=
  s.modOsc o fun O => { O with toTone := f O.toTone }

/-- The amplitude slot `o` presents now: CUR_AMP, or the output of the voice it wraps (43_brr_voice_ops.md R290). -/
def ampOf (c : Config) (o : Nat) (s : State) : Int :=
  match voiceOf c o with
  | some v => ((s.voices[v]?).map fun V => V.out).getD 0
  | none => ((s.oscs[o]?).map fun O => curAmp c (oscKind c o) O.toTone).getD 0

/-- One waveform transition of slot `o`: WAVE_STEP, or a sample period of the voice it wraps (43_brr_voice_ops.md R290). -/
def waveStep (c : Config) (o : Nat) (s : State) : State :=
  match voiceOf c o with
  | some v => voiceTick c v s
  | none => s.modTone o (steppedTone c (oscKind c o))

/-- WAVE_PERIOD of slot `o`, at least 1 (43_brr_voice_ops.md R290: VOICE_TICK_CYCLES for a voice). -/
def wavePeriod (c : Config) (o : Nat) (s : State) : Nat :=
  match voiceOf c o with
  | some _ => voiceTickCycles c
  | none => ((s.oscs[o]?).map fun O => c.wavePeriodLess (oscKind c o) O.toTone).getD 0 + 1

/-! ## OSC.RUN and emission -/

/-- EMIT (R233): the difference from the committed amplitude, where there is one and a sink. -/
def emit (c : Config) (o t : Nat) (amp : Int) (s : State) : Attempt :=
  match s.oscs[o]? with
  | none => .ok s
  | some O =>
    match O.output with
    | none => .ok s
    | some b =>
      if amp - O.lastAmp = 0 then .ok s
      else
        match synOffset c (oscSyn c o) b t (emittedDelta c (amp - O.lastAmp)) s with
        | .error x => .error x
        | .ok s' => .ok (s'.modOsc o fun O => { O with lastAmp := amp })

/-- The loop of R232 from time `t`, with the time of the first transition not performed. `fuel` bounds the passes: every
period is at least one cycle, so `timeEnd - timeNow` passes reach the end (log 36). -/
def runLoop (c : Config) (o timeEnd : Nat) : Nat → Nat → State → Except FaultCause (State × Nat)
  | 0, t, s => .ok (s, t)
  | fuel + 1, t, s =>
    if t < timeEnd then
      match emit c o t (ampOf c o (waveStep c o s)) (waveStep c o s) with
      | .error x => .error x
      | .ok s' => runLoop c o timeEnd fuel (t + wavePeriod c o s') s'
    else .ok (s, t)

/-- The transitions of `[timeNow, timeEnd)`, and the delay they leave (R232). -/
def runTransitions (c : Config) (o timeNow timeEnd : Nat) (s : State) : Attempt :=
  match s.oscs[o]? with
  | none => .ok s
  | some O =>
    match runLoop c o timeEnd (timeEnd - timeNow) (timeNow + O.delay) s with
    | .error x => .error x
    | .ok r => .ok (r.1.modOsc o fun O => { O with delay := r.2 - timeEnd })

/-- OSC.RUN (R232): the pending level change first, then the transitions. -/
def oscRun (c : Config) (o timeNow timeEnd : Nat) (s : State) : Attempt :=
  if timeEnd < timeNow then .error .timeOrder
  else
    match emit c o timeNow (ampOf c o s) s with
    | .error x => .error x
    | .ok s' => runTransitions c o timeNow timeEnd s'

/-! ## OSC.RESET, OSC.WRITE and the clock commands -/

/-- A slot after OSC.RESET: derived fields, delay and committed amplitude; registers and sink stay (R235). -/
def resetSlot (c : Config) (K : OscKind) (O : Osc) : Osc :=
  { O with toTone := resetTone c K O.regs, delay := 0, lastAmp := 0 }

/-- OSC.RESET (R235), the voice record with it (10_state.md R45). -/
def oscReset (c : Config) (o : Nat) (s : State) : State :=
  let t := s.modOsc o (resetSlot c (oscKind c o))
  match voiceOf c o with
  | none => t
  | some v => t.modVoice v fun _ => resetVoice

/-- Whether the chip that owns slot `o` enables it (R236). -/
def oscEnabled (c : Config) (o : Nat) (s : State) : Bool :=
  channelEnabled (((s.chips[ownerOf c o]?).map fun C => C.oscEnables).getD 0) (enableBit c o)

/-- A slot after a register write: the byte stored, then the side effect (R236, R237). -/
def writtenSlot (c : Config) (K : OscKind) (enabled : Bool) (reg : Nat) (value : Byte) (O : Osc) : Osc :=
  let r := writeEffect c K { O.toTone with regs := O.regs.set reg value } O.delay reg value enabled
  { O with toTone := r.1, delay := r.2 }

/-- OSC.WRITE (R236). NREGS is the length of the slot's register image (log 3). -/
def oscWrite (c : Config) (o reg : Nat) (value : Byte) (s : State) : Attempt :=
  match s.oscs[o]? with
  | none => .ok s
  | some O =>
    if O.regs.length ≤ reg then .error .unitIndexOutOfRange
    else .ok (s.modOsc o (writtenSlot c (oscKind c o) (oscEnabled c o s) reg value))

/-- OSC.CLKENV (R240). -/
def oscClkenv (c : Config) (s : State) (o : Nat) : State := s.modTone o (clockEnv c (oscKind c o))

/-- OSC.CLKLEN (R241). -/
def oscClklen (c : Config) (s : State) (o : Nat) : State := s.modTone o (clockLen c (oscKind c o))

/-- OSC.CLKSWP (R242). -/
def oscClkswp (c : Config) (s : State) (o : Nat) : State := s.modTone o (clockSwp c (oscKind c o))

/-- OSC.CLKLIN (R243). -/
def oscClklin (c : Config) (s : State) (o : Nat) : State := s.modTone o (clockLin c (oscKind c o))

/-! ## The commands -/

/-- The unit-index check of an OSC command (30_encoding.md R125). -/
def hasOsc (s : State) (o : Byte) : Bool := decide (o.toNat < s.oscs.length)

def cmdOscReset (c : Config) (o : Byte) (s : State) : State :=
  whenInRange 0x30 (hasOsc s o) s (oscReset c o.toNat s)

def cmdOscWrite (c : Config) (o : Byte) (reg : Word32) (value : Byte) (s : State) : State :=
  whenInRange 0x31 (hasOsc s o) s (settle 0x31 s (oscWrite c o.toNat reg.toNat value s))

/-- OSC.RUN as a command: a fault of the time check or of the first emission is precise, since nothing has changed; one of
a later emission is not (60_exceptions.md R378). -/
def runCommand (c : Config) (o timeNow timeEnd : Nat) (s : State) : State :=
  if timeEnd < timeNow then raiseFault 0x32 .timeOrder s
  else
    match emit c o timeNow (ampOf c o s) s with
    | .error x => raiseFault 0x32 x s
    | .ok s' => settleImprecise 0x32 (wreckSlot c s o) (runTransitions c o timeNow timeEnd s')

def cmdOscRun (c : Config) (o : Byte) (timeNow timeEnd : Word32) (s : State) : State :=
  whenInRange 0x32 (hasOsc s o) s (runCommand c o.toNat timeNow.toNat timeEnd.toNat s)

def cmdOscClkenv (c : Config) (o : Byte) (s : State) : State :=
  whenInRange 0x33 (hasOsc s o) s (oscClkenv c s o.toNat)

def cmdOscClklen (c : Config) (o : Byte) (s : State) : State :=
  whenInRange 0x34 (hasOsc s o) s (oscClklen c s o.toNat)

def cmdOscClkswp (c : Config) (o : Byte) (s : State) : State :=
  whenInRange 0x35 (hasOsc s o) s (oscClkswp c s o.toNat)

def cmdOscClklin (c : Config) (o : Byte) (s : State) : State :=
  whenInRange 0x36 (hasOsc s o) s (oscClklin c s o.toNat)

/-- OSC.RESET (R235) on the engine at hand. -/
def execOscReset (o : Byte) (s : State) : Host.Outcome State Fault Refusal :=
  .next (cmdOscReset Config.impl o s)

/-- OSC.WRITE (R236) on the engine at hand. -/
def execOscWrite (o : Byte) (reg : Word32) (value : Byte) (s : State) : Host.Outcome State Fault Refusal :=
  .next (cmdOscWrite Config.impl o reg value s)

/-- OSC.RUN (R232) on the engine at hand. -/
def execOscRun (o : Byte) (timeNow timeEnd : Word32) (s : State) : Host.Outcome State Fault Refusal :=
  .next (cmdOscRun Config.impl o timeNow timeEnd s)

/-- OSC.CLKENV (R240) on the engine at hand. -/
def execOscClkenv (o : Byte) (s : State) : Host.Outcome State Fault Refusal :=
  .next (cmdOscClkenv Config.impl o s)

/-- OSC.CLKLEN (R241) on the engine at hand. -/
def execOscClklen (o : Byte) (s : State) : Host.Outcome State Fault Refusal :=
  .next (cmdOscClklen Config.impl o s)

/-- OSC.CLKSWP (R242) on the engine at hand. -/
def execOscClkswp (o : Byte) (s : State) : Host.Outcome State Fault Refusal :=
  .next (cmdOscClkswp Config.impl o s)

/-- OSC.CLKLIN (R243) on the engine at hand. -/
def execOscClklin (o : Byte) (s : State) : Host.Outcome State Fault Refusal :=
  .next (cmdOscClklin Config.impl o s)

end Sys2Proof.Machine
end

