-- ==== Sys2Proof/Machine/Registers.lean ====
section
/-! DEFINITION. Register windows, address dispatch and global register writes of a chip (20_memory.md R82, R87;
44_chip_sequencer_ops.md R327, R328). -/

namespace Sys2Proof.Machine

/-! ## The document's addresses -/

/-- NES window `0x4000 .. 0x4017` (20_memory.md R82). -/
def nesWindow (addr : Nat) : Bool := decide (docNumbers.nesFirst ≤ addr) && decide (addr ≤ docNumbers.nesLast)

/-- PC-Engine window `0x0800 .. 0x0809` (20_memory.md R82). -/
def pceWindow (addr : Nat) : Bool := decide (docNumbers.pceFirst ≤ addr) && decide (addr ≤ docNumbers.pceLast)

/-- The NES enable register (R327). -/
def nesEnableReg : Nat := docNumbers.nesEnable

/-- The NES frame-mode register (R327). -/
def nesFrameModeReg : Nat := docNumbers.nesFrameMode

/-- The PC-Engine latch: one address of the window (R327). -/
def pceLatchReg (c : Config) : Nat :=
  docNumbers.pceFirst + c.pceLatchRaw % (docNumbers.pceLast + 1 - docNumbers.pceFirst)

/-- Eight blocks of eight voice fields from `base`, `stride` apart: each address with its voice and field. -/
def spcBlocks (base stride : Nat) (field : Fin docNumbers.spcFields → Nat) : List (Nat × Nat × Nat) :=
  (List.range docNumbers.spcVoices).flatMap fun v =>
    (List.finRange docNumbers.spcFields).map fun f => (base + v * stride + field f, v, f.val)

/-- The 64 addresses of the SPC700 voice fields: eight blocks at a fixed distance, eight fields at fixed offsets
(20_memory.md R82), no two of them the same (log 37). -/
def spcVoiceAddrs (c : Config) : List (Nat × Nat × Nat) :=
  let configured := spcBlocks c.spcBase c.spcStride c.spcField
  if (configured.map Prod.fst).Nodup then configured
  else spcBlocks c.spcBase docNumbers.spcFields fun f => f.val

/-- The voice and field behind an SPC700 address. -/
def spcVoiceField (c : Config) (addr : Nat) : Option (Nat × Nat) :=
  ((spcVoiceAddrs c).find? fun x => x.1 == addr).map fun x => x.2

/-- `addr in WINDOW[kind]` (20_memory.md R82). -/
def inWindow (c : Config) (k : ChipKind) (addr : Nat) : Bool :=
  match k with
  | .nes2a03 => nesWindow addr
  | .pcePsg => pceWindow addr
  | .spc700Dsp => (spcVoiceField c addr).isSome || c.windowRaw .spc700Dsp addr
  | k => c.windowRaw k addr

/-! ## Dispatch -/

/-- NREGS of the chip's `i`-th oscillator. -/
def slotRegs (c : Config) (ci i : Nat) : Nat := ((chipOscs c ci)[i]?).elim 0 fun o => nregs c (oscKind c o)

/-- DISPATCH[kind](addr, latch) as R327 fixes it, OPEN elsewhere. -/
def dispatchTarget (c : Config) (ci addr latch : Nat) : Target :=
  match c.chipKind ci with
  | .nes2a03 =>
    if docNumbers.nesFirst ≤ addr ∧ addr < docNumbers.nesFirst + 4 then .osc 0 (addr - docNumbers.nesFirst)
    else if addr = nesEnableReg then .global nesEnableReg
    else if addr = nesFrameModeReg then .global nesFrameModeReg
    else c.dispatchRaw .nes2a03 addr latch
  | .pcePsg =>
    if addr = pceLatchReg c then .global (pceLatchReg c)
    else .osc latch (c.pceRegRaw addr latch % max (slotRegs c ci latch) 1)
  | .spc700Dsp =>
    match spcVoiceField c addr with
    | some x => .osc x.1 x.2
    | none => c.dispatchRaw .spc700Dsp addr latch
  | k => c.dispatchRaw k addr latch

/-- "DISPATCH yields only valid numbers" (42_oscillator_ops.md R236): an oscillator or register the chip does not have is
an address with no function (log 23). -/
def validTarget (c : Config) (ci : Nat) : Target → Target
  | .osc i r => if r < slotRegs c ci i then .osc i r else .none
  | t => t

/-- DISPATCH[kind](addr, latch) (R327). -/
def dispatch (c : Config) (ci addr latch : Nat) : Target := validTarget c ci (dispatchTarget c ci addr latch)

/-! ## Global writes -/

/-- The channel a PC-Engine latch byte selects, "reduced to a channel number" (R328; log 23). -/
def pceChannel (c : Config) (ci : Nat) (data : Byte) : Nat := c.pceChannelRaw data % max (chipOscs c ci).length 1

/-- The enable, mode and latch state after a global register write, `g` before it and `rest` what the OPEN remainder makes
of it. The NES enable and mode bytes are the bytes last written to their registers. The latch is the PC-Engine's and changes
by its register alone (R328; 10_state.md R31), so a read-back finds the register the write went to (20_memory.md R86;
log 40). -/
def globalBits (c : Config) (ci slot : Nat) (data : Byte) (g rest : GlobalBits) : GlobalBits :=
  match c.chipKind ci with
  | .nes2a03 =>
    { oscEnables := if slot = nesEnableReg then data else g.oscEnables
      frameMode := if slot = nesFrameModeReg then data else g.frameMode
      latch := g.latch }
  | .pcePsg => { rest with latch := if slot = pceLatchReg c then pceChannel c ci data else g.latch }
  | _ => { rest with latch := g.latch }

/-- The chip record once `C.gregs[slot] <- data` and the table of R328 are done. -/
def globalWritten (c : Config) (ci slot : Nat) (data : Byte) (C : Chip) : Chip :=
  { gregWrite c (c.chipKind ci) C slot data with
    toGlobalBits := globalBits c ci slot data C.toGlobalBits C.toGlobalBits }

/-! ## The OPEN remainder of a global write (R328; log 40) -/

/-- An oscillator slot and its voice as the remainder sees them. -/
def viewSlot (c : Config) (s : State) (o : Nat) : SlotView :=
  let O := (s.oscs[o]?).getD default
  { tone := O.toTone, delay := O.delay, voice := (voiceOf c o).bind fun v => s.voices[v]? }

/-- What the remainder makes of slot `o`. A slot that wraps a voice stays as it is, one VOICE.TICK in every
VOICE_TICK_CYCLES (43_brr_voice_ops.md R290); elsewhere registers, which hold "the value last written" (10_state.md R28),
change only where a sweep may rewrite them (42_oscillator_ops.md R242), not in number; committed amplitude and sink stay
(10_state.md R29; 44_chip_sequencer_ops.md R320). -/
def restSlot (c : Config) (o : Nat) (r : SlotView) (O : Osc) : Osc :=
  if oscKind c o = .brrVoice then O
  else { O with
    toTone := { r.tone with regs := if isNesKind (oscKind c o) then fitBytes O.regs.length r.tone.regs else O.regs }
    delay := r.delay }

/-- Gives a slot what the remainder makes of it. No voice changes: a voice is driven by key-on, key-off and the sample
period alone (43_brr_voice_ops.md R270, R274; 10_state.md R34, R40), and a global write reaches it through `keyWrite`. -/
def putSlot (c : Config) (s : State) (x : Nat × SlotView) : State := s.modOsc x.1 (restSlot c x.1 x.2)

/-- What the remainder sees of chip `ci`, whose record is `C`. -/
def globalView (c : Config) (ci : Nat) (C : Chip) (s : State) : GlobalView :=
  { bits := C.toGlobalBits, frameDelay := C.frameDelay, frame := C.frame, slots := (chipOscs c ci).map (viewSlot c s) }

/-- The chip record with what the remainder makes of its bits and its frame sequencer; a frame index out of its cycle is
not taken, and a kind without frame events has no sequencer to change. -/
def putChip (c : Config) (ci slot : Nat) (data : Byte) (r : GlobalView) (C : Chip) : Chip :=
  let n := nframes c (c.chipKind ci)
  { C with
    toGlobalBits := globalBits c ci slot data C.toGlobalBits r.bits
    frameDelay := if n = 0 then C.frameDelay else r.frameDelay
    frame := if r.frame < n then r.frame else C.frame }

/-- The OPEN remainder of GLOBAL_WRITE, `gregs` the global registers before the write. -/
def globalRemainder (c : Config) (ci slot : Nat) (data : Byte) (gregs : Nat → Byte) (s : State) : State :=
  match s.chips[ci]? with
  | none => s
  | some C =>
    let r := c.globalRest (c.chipKind ci) C.variant gregs slot data (globalView c ci C s)
    ((chipOscs c ci).zip r.slots).foldl (putSlot c) (s.modChip ci (putChip c ci slot data r))

/-! ## Key registers -/

/-- The voices a byte written to an SPC700 key register selects (R328; log 34). -/
def selectedVoices (c : Config) (ci : Nat) (data : Byte) : List Nat :=
  (c.spcKeySelect data).filterMap fun i => ((chipOscs c ci)[i.val]?).bind (voiceOf c)

/-- Key-on and key-off by an SPC700 global register (R328). -/
def keyWrite (c : Config) (ci slot : Nat) (data : Byte) (s : State) : State :=
  if c.chipKind ci = .spc700Dsp then
    match c.spcKeyReg slot with
    | none => s
    | some true => (selectedVoices c ci data).foldl (fun t v => voiceKeyon c v t) s
    | some false => (selectedVoices c ci data).foldl (fun t v => voiceKeyoff v t) s
  else s

/-- GLOBAL_WRITE[kind](C, slot, data) (R328): the byte stored and the bits set, the OPEN remainder, then the key
register's CALLs. -/
def globalWrite (c : Config) (ci slot : Nat) (data : Byte) (s : State) : State :=
  match s.chips[ci]? with
  | none => s
  | some C =>
    keyWrite c ci slot data
      (globalRemainder c ci slot data (gregRead c (c.chipKind ci) C) (s.modChip ci (globalWritten c ci slot data)))

/-- A write by address, after time has advanced (R323). An address outside the window is ignored; one with no function
stores its byte (R327, 93_implementation_defined.md W6; log 13). -/
def registerWrite (c : Config) (ci addr : Nat) (data : Byte) (s : State) : Attempt :=
  match s.chips[ci]? with
  | none => .ok s
  | some C =>
    if inWindow c (c.chipKind ci) addr then
      match dispatch c ci addr C.latch with
      | .osc i r =>
        match (chipOscs c ci)[i]? with
        | none => .ok s
        | some o => oscWrite c o r data s
      | .global slot => .ok (globalWrite c ci slot data s)
      | .none => .ok (s.modChip ci fun C => gregWrite c (c.chipKind ci) C addr data)
    else .ok s

/-- A read by address: the raw stored byte (R336; 10_state.md R33). -/
def registerRead (c : Config) (ci addr : Nat) (C : Chip) (s : State) : Byte :=
  match dispatch c ci addr C.latch with
  | .osc i r => ((((chipOscs c ci)[i]?).bind fun o => s.oscs[o]?).bind fun O => O.regs[r]?).getD 0
  | .global slot => gregRead c (c.chipKind ci) C slot
  | .none => gregRead c (c.chipKind ci) C addr

end Sys2Proof.Machine
end

