-- ==== Sys2Proof/Machine/Chip.lean ====
section
/-! DEFINITION. The CHIP commands: register front end and frame sequencer (44_chip_sequencer_ops.md R320 to R339). -/

namespace Sys2Proof.Machine

/-! ## Reset and routing -/

/-- The register image CHIP.RESET gives the chip's `i`-th oscillator (R320). -/
def powerOnRegs (c : Config) (ci i o : Nat) : List Byte :=
  (List.range (nregs c (oscKind c o))).map fun r => c.powerOnReg (c.chipKind ci) i r

/-- What CHIP.RESET does to its `i`-th oscillator `o` (R320). -/
def resetOwned (c : Config) (ci : Nat) (s : State) (oi : Nat × Nat) : State :=
  oscReset c oi.1 (s.modOsc oi.1 fun O => { O with regs := powerOnRegs c ci oi.2 oi.1 })

/-- CHIP.RESET (R320): the chip record, then each of its oscillators. -/
def chipReset (c : Config) (ci : Nat) (variant : Bool) (s : State) : State :=
  (chipOscs c ci).zipIdx.foldl (resetOwned c ci) (s.modChip ci fun _ => resetChip c ci variant)

/-- Gives slot `o` a sink, or null. -/
def setSink (sink : Option Nat) (s : State) (o : Nat) : State := s.modOsc o fun O => { O with output := sink }

/-- CHIP.OUTPUT (R321). -/
def chipOutput (c : Config) (ci : Nat) (sink : Option Nat) (s : State) : State :=
  (chipOscs c ci).foldl (setSink sink) s

/-- CHIP.OSCOUT (R322). -/
def chipOscout (c : Config) (ci : Nat) (sink : Option Nat) (index : Nat) (s : State) : Attempt :=
  match (chipOscs c ci)[index]? with
  | none => .error .unitIndexOutOfRange
  | some o => .ok (setSink sink s o)

/-! ## The frame sequencer (R329 to R332) -/

/-- What one frame event does: the clock commands it issues, each with its oscillator, before and after the sequencer moves,
the cycles to the next event, the next frame index. -/
structure FramePlan where
  before : List (Nat × FrameClock)
  after : List (Nat × FrameClock)
  delay : Nat
  next : Nat
  deriving DecidableEq, Repr

/-- `for each o: CALL k1(o); CALL k2(o)` (R330). -/
def clockEach (k1 k2 : FrameClock) (oscs : List Nat) : List (Nat × FrameClock) := oscs.flatMap fun o => [(o, k1), (o, k2)]

/-- The event `C.frame` of the schedule of R330, on a chip that owns `oscs`. -/
def quadPlan (c : Config) (k : ChipKind) (oscs : List Nat) (C : Chip) : FramePlan where
  before := if C.frame = 0 ∨ C.frame = 2 then clockEach .len .swp oscs else []
  after := clockEach .env .lin oscs
  delay :=
    if C.frame = 1 then framePeriod c k C.variant - frame1Shortening
    else if C.frame = 3 ∧ fiveStep C.frameMode = true then framePeriod c k C.variant + c.frame3Extra
    else framePeriod c k C.variant
  next := (C.frame + 1) % 4

/-- The event `C.frame` of a schedule of `n + 1` frames the spec does not give, on a chip that owns `oscs`: which clock
commands it issues, to which oscillators and in which order, and its wait are free (log 16). -/
def otherPlan (c : Config) (k : ChipKind) (n : Nat) (oscs : List Nat) (C : Chip) : FramePlan :=
  let a := c.frameActionRaw k C.variant C.frameMode C.frame
  { before := a.clocks.filterMap fun x => (oscs[x.1]?).map fun o => (o, x.2)
    after := []
    delay := a.delayLessOne + 1
    next := (C.frame + 1) % (n + 1) }

/-- One clock command of a frame event (R330). -/
def clockOsc (c : Config) (s : State) (x : Nat × FrameClock) : State :=
  match x.2 with
  | .env => oscClkenv c s x.1
  | .len => oscClklen c s x.1
  | .swp => oscClkswp c s x.1
  | .lin => oscClklin c s x.1

/-- Performs a frame event (R330): clock commands, the sequencer, clock commands. -/
def performPlan (c : Config) (ci : Nat) (p : FramePlan) (s : State) : State :=
  p.after.foldl (clockOsc c)
    ((p.before.foldl (clockOsc c) s).modChip ci fun C => { C with frameDelay := p.delay, frame := p.next })

/-- FRAME_EVENT(c) (R329, R330). -/
def frameEvent (c : Config) (ci : Nat) (s : State) : State :=
  match s.chips[ci]? with
  | none => s
  | some C =>
    match frameSchedule c (c.chipKind ci) with
    | .silent => s
    | .quad => performPlan c ci (quadPlan c (c.chipKind ci) (chipOscs c ci) C) s
    | .other n => performPlan c ci (otherPlan c (c.chipKind ci) n (chipOscs c ci) C) s

/-! ## Time advance -/

/-- `for each o: CALL OSC.RUN(o, timeNow, timeEnd)` (R324). -/
def runOscs (c : Config) (timeNow timeEnd : Nat) : List Nat → State → Attempt
  | [], s => .ok s
  | o :: rest, s =>
    match oscRun c o timeNow timeEnd s with
    | .error x => .error x
    | .ok t => runOscs c timeNow timeEnd rest t

/-- The time the next pass of R324 runs to: the earlier of the end and the next frame event, the end for a kind without
frame events. -/
def passEnd (c : Config) (k : ChipKind) (endTime : Nat) (C : Chip) : Nat :=
  if nframes c k = 0 then endTime else min endTime (C.lastTime + C.frameDelay)

/-- One pass of the loop of R324 up to `time`. For a kind without frame events `frame_delay` stays 0 (log 15). -/
def runPass (c : Config) (ci time : Nat) (C : Chip) (s : State) : Attempt :=
  let s1 := s.modChip ci fun C => { C with frameDelay := C.frameDelay - (time - C.lastTime) }
  match runOscs c C.lastTime time (chipOscs c ci) s1 with
  | .error x => .error x
  | .ok t => .ok (t.modChip ci fun C => { C with lastTime := time })

/-- The loop of R324. `fuel` bounds the passes (log 36). -/
def runUntilLoop (c : Config) (ci endTime : Nat) : Nat → State → Attempt
  | 0, s => .ok s
  | fuel + 1, s =>
    match s.chips[ci]? with
    | none => .ok s
    | some C =>
      match runPass c ci (passEnd c (c.chipKind ci) endTime C) C s with
      | .error x => .error x
      | .ok t =>
        if passEnd c (c.chipKind ci) endTime C = endTime then .ok t
        else runUntilLoop c ci endTime fuel (frameEvent c ci t)

/-- Passes enough to advance `span` cycles: no three passes in a row are empty, since every frame event but one of the
schedule waits at least one cycle (log 36). -/
def passFuel (span : Nat) : Nat := 3 * span + 3

/-- CHIP.RUNUNTIL once time order is checked (R324). -/
def advanceChip (c : Config) (ci endTime : Nat) (s : State) : Attempt :=
  match s.chips[ci]? with
  | none => .ok s
  | some C => runUntilLoop c ci endTime (passFuel (endTime - C.lastTime)) s

/-- CHIP.WRITE once time order is checked (R323): time first, then the register. -/
def advanceAndWrite (c : Config) (ci time addr : Nat) (data : Byte) (s : State) : Attempt :=
  match advanceChip c ci time s with
  | .error x => .error x
  | .ok t => registerWrite c ci addr data t

/-- `last_time -= end_time`, with the document's check (R325). -/
def rebaseChip (ci endTime : Nat) (s : State) : Attempt :=
  match s.chips[ci]? with
  | none => .ok s
  | some C =>
    if C.lastTime < endTime then .error .rebaseNegative
    else .ok (s.modChip ci fun C => { C with lastTime := C.lastTime - endTime })

/-- CHIP.ENDFRAME once time order is checked (R325). -/
def advanceAndRebase (c : Config) (ci endTime : Nat) (s : State) : Attempt :=
  match advanceChip c ci endTime s with
  | .error x => .error x
  | .ok t => rebaseChip ci endTime t

/-- A timed command (R323 to R325): the time-order fault is precise, a fault of an inner CALL is not
(60_exceptions.md R378). -/
def timedCommand (c : Config) (op : Byte) (ci time : Nat) (body : State → Attempt) (s : State) : State :=
  match s.chips[ci]? with
  | none => s
  | some C =>
    if time < C.lastTime then raiseFault op .timeOrder s
    else settleImprecise op (wreckChip c ci s) (body s)

/-! ## Calibration, read-back, buffer-cleared -/

/-- CHIP.VOLUME (R334). -/
def chipVolume (c : Config) (ci : Nat) (level : Word32) (s : State) : State :=
  (chipSyns c ci).foldl (fun t y => synVolume c y (c.chipVolUnit (c.chipKind ci) level y) t) s

/-- CHIP.TREBLE (R335). -/
def chipTreble (c : Config) (ci : Nat) (eq : Word32) (s : State) : State :=
  (chipSyns c ci).foldl (fun t y => synTreble c y eq t) s

/-- READ_SUPPORTED[kind]: true for the SPC700 (R336). -/
def readSupported (c : Config) : ChipKind → Bool
  | .spc700Dsp => true
  | k => c.readSupportedRaw k

/-- CHIP.READ (R336). -/
def chipRead (c : Config) (ci addr : Nat) (s : State) : Attempt :=
  match s.chips[ci]? with
  | none => .ok s
  | some C =>
    if readSupported c (c.chipKind ci) && inWindow c (c.chipKind ci) addr then
      .ok (s.respond ((registerRead c ci addr C s).setWidth 32))
    else .error .readUnsupported

/-- `last_amp <- 0` on one oscillator. -/
def clearAmp (s : State) (o : Nat) : State := s.modOsc o fun O => { O with lastAmp := 0 }

/-- CHIP.BUFCLR (R337). -/
def chipBufclr (c : Config) (ci : Nat) (s : State) : State := (chipOscs c ci).foldl clearAmp s

/-! ## The commands -/

/-- The unit-index check of a CHIP command (30_encoding.md R125). -/
def hasChip (s : State) (ci : Byte) : Bool := decide (ci.toNat < s.chips.length)

/-- A sink operand: null, or a BUF index (30_encoding.md R123). -/
def hasSink (s : State) (sink : Option Byte) : Bool := sink.all fun b => decide (b.toNat < s.bufs.length)

def cmdChipReset (c : Config) (ci : Byte) (variant : Bool) (s : State) : State :=
  whenInRange 0x50 (hasChip s ci) s (chipReset c ci.toNat variant s)

def cmdChipOutput (c : Config) (ci : Byte) (sink : Option Byte) (s : State) : State :=
  whenInRange 0x51 (hasChip s ci && hasSink s sink) s (chipOutput c ci.toNat (sinkIndex sink) s)

def cmdChipOscout (c : Config) (ci : Byte) (sink : Option Byte) (index : Word32) (s : State) : State :=
  whenInRange 0x52 (hasChip s ci && hasSink s sink) s
    (settle 0x52 s (chipOscout c ci.toNat (sinkIndex sink) index.toNat s))

def cmdChipWrite (c : Config) (ci : Byte) (time : Word32) (addr : BitVec 16) (data : Byte) (s : State) : State :=
  whenInRange 0x53 (hasChip s ci) s
    (timedCommand c 0x53 ci.toNat time.toNat (advanceAndWrite c ci.toNat time.toNat addr.toNat data) s)

def cmdChipRununtil (c : Config) (ci : Byte) (endTime : Word32) (s : State) : State :=
  whenInRange 0x54 (hasChip s ci) s
    (timedCommand c 0x54 ci.toNat endTime.toNat (advanceChip c ci.toNat endTime.toNat) s)

def cmdChipEndframe (c : Config) (ci : Byte) (endTime : Word32) (s : State) : State :=
  whenInRange 0x55 (hasChip s ci) s
    (timedCommand c 0x55 ci.toNat endTime.toNat (advanceAndRebase c ci.toNat endTime.toNat) s)

def cmdChipVolume (c : Config) (ci : Byte) (level : Word32) (s : State) : State :=
  whenInRange 0x56 (hasChip s ci) s (chipVolume c ci.toNat level s)

def cmdChipTreble (c : Config) (ci : Byte) (eq : Word32) (s : State) : State :=
  whenInRange 0x57 (hasChip s ci) s (chipTreble c ci.toNat eq s)

def cmdChipRead (c : Config) (ci : Byte) (addr : Word32) (s : State) : State :=
  whenInRange 0x58 (hasChip s ci) s (settle 0x58 s (chipRead c ci.toNat addr.toNat s))

def cmdChipBufclr (c : Config) (ci : Byte) (s : State) : State :=
  whenInRange 0x59 (hasChip s ci) s (chipBufclr c ci.toNat s)

/-- CHIP.RESET (R320) on the engine at hand. -/
def execChipReset (ci : Byte) (variant : Bool) (s : State) : Host.Outcome State Fault Refusal :=
  .next (cmdChipReset Config.impl ci variant s)

/-- CHIP.OUTPUT (R321) on the engine at hand. -/
def execChipOutput (ci : Byte) (sink : Option Byte) (s : State) : Host.Outcome State Fault Refusal :=
  .next (cmdChipOutput Config.impl ci sink s)

/-- CHIP.OSCOUT (R322) on the engine at hand. -/
def execChipOscout (ci : Byte) (sink : Option Byte) (index : Word32) (s : State) :
    Host.Outcome State Fault Refusal :=
  .next (cmdChipOscout Config.impl ci sink index s)

/-- CHIP.WRITE (R323) on the engine at hand. -/
def execChipWrite (ci : Byte) (time : Word32) (addr : BitVec 16) (data : Byte) (s : State) :
    Host.Outcome State Fault Refusal :=
  .next (cmdChipWrite Config.impl ci time addr data s)

/-- CHIP.RUNUNTIL (R324) on the engine at hand. -/
def execChipRununtil (ci : Byte) (endTime : Word32) (s : State) : Host.Outcome State Fault Refusal :=
  .next (cmdChipRununtil Config.impl ci endTime s)

/-- CHIP.ENDFRAME (R325) on the engine at hand. -/
def execChipEndframe (ci : Byte) (endTime : Word32) (s : State) : Host.Outcome State Fault Refusal :=
  .next (cmdChipEndframe Config.impl ci endTime s)

/-- CHIP.VOLUME (R334) on the engine at hand. -/
def execChipVolume (ci : Byte) (level : Word32) (s : State) : Host.Outcome State Fault Refusal :=
  .next (cmdChipVolume Config.impl ci level s)

/-- CHIP.TREBLE (R335) on the engine at hand. -/
def execChipTreble (ci : Byte) (eq : Word32) (s : State) : Host.Outcome State Fault Refusal :=
  .next (cmdChipTreble Config.impl ci eq s)

/-- CHIP.READ (R336) on the engine at hand. -/
def execChipRead (ci : Byte) (addr : Word32) (s : State) : Host.Outcome State Fault Refusal :=
  .next (cmdChipRead Config.impl ci addr s)

/-- CHIP.BUFCLR (R337) on the engine at hand. -/
def execChipBufclr (ci : Byte) (s : State) : Host.Outcome State Fault Refusal :=
  .next (cmdChipBufclr Config.impl ci s)

end Sys2Proof.Machine
end

