-- ==== Sys2Proof/Machine/Dispatch.lean ====
section
/-! DEFINITION. The meaning of each command (30_encoding.md R124): one direct call an arm. -/

namespace Sys2Proof.Machine

def exec (i : Instr) (s : State) : Host.Outcome State Fault Refusal :=
  match i with
  | .bufSetrate b rate clockRate => Sys2Proof.Machine.execBufSetrate b rate clockRate s
  | .bufClear b => Sys2Proof.Machine.execBufClear b s
  | .bufEndframe b time => Sys2Proof.Machine.execBufEndframe b time s
  | .bufRead b stereo max => Sys2Proof.Machine.execBufRead b stereo max s
  | .bufMix b count => Sys2Proof.Machine.execBufMix b count s
  | .bufRmsil b count => Sys2Proof.Machine.execBufRmsil b count s
  | .bufAvail b => Sys2Proof.Machine.execBufAvail b s
  | .bufGetsr b => Sys2Proof.Machine.execBufGetsr b s
  | .bufGetcr b => Sys2Proof.Machine.execBufGetcr b s
  | .synOffset y b time delta => Sys2Proof.Machine.execSynOffset y b time delta s
  | .synVolume y unit => Sys2Proof.Machine.execSynVolume y unit s
  | .synTreble y eq => Sys2Proof.Machine.execSynTreble y eq s
  | .oscReset o => Sys2Proof.Machine.execOscReset o s
  | .oscWrite o reg value => Sys2Proof.Machine.execOscWrite o reg value s
  | .oscRun o timeNow timeEnd => Sys2Proof.Machine.execOscRun o timeNow timeEnd s
  | .oscClkenv o => Sys2Proof.Machine.execOscClkenv o s
  | .oscClklen o => Sys2Proof.Machine.execOscClklen o s
  | .oscClkswp o => Sys2Proof.Machine.execOscClkswp o s
  | .oscClklin o => Sys2Proof.Machine.execOscClklin o s
  | .voiceKeyon v => Sys2Proof.Machine.execVoiceKeyon v s
  | .voiceKeyoff v => Sys2Proof.Machine.execVoiceKeyoff v s
  | .voiceTick v => Sys2Proof.Machine.execVoiceTick v s
  | .chipReset ci variant => Sys2Proof.Machine.execChipReset ci variant s
  | .chipOutput ci sink => Sys2Proof.Machine.execChipOutput ci sink s
  | .chipOscout ci sink index => Sys2Proof.Machine.execChipOscout ci sink index s
  | .chipWrite ci time addr data => Sys2Proof.Machine.execChipWrite ci time addr data s
  | .chipRununtil ci endTime => Sys2Proof.Machine.execChipRununtil ci endTime s
  | .chipEndframe ci endTime => Sys2Proof.Machine.execChipEndframe ci endTime s
  | .chipVolume ci level => Sys2Proof.Machine.execChipVolume ci level s
  | .chipTreble ci eq => Sys2Proof.Machine.execChipTreble ci eq s
  | .chipRead ci addr => Sys2Proof.Machine.execChipRead ci addr s
  | .chipBufclr ci => Sys2Proof.Machine.execChipBufclr ci s

end Sys2Proof.Machine
end

