-- ==== Sys2Proof/Decode.lean ====
section
/-! DEFINITION. The command word CW96 (30_encoding.md R121 to R125): its fields, the decoder, total on every 96-bit
word and rejecting by name, and after it the encoder. The unit-index check of R125 needs the engine's unit counts; it
is the first thing each command's meaning does (60_exceptions.md R377 puts it after every check made here). -/

namespace Sys2Proof

/-- The six fields of a command word (30_encoding.md R121). -/
structure CmdFields where
  op : Byte
  u : Byte
  v : Byte
  z : Byte
  a : Word32
  b : Word32
  deriving DecidableEq, Repr

/-- Splits a command word: op 95:88, u 87:80, v 79:72, z 71:64, a 63:32, b 31:0 (R121). -/
def splitWord (w : CmdWord) : CmdFields where
  op := w.extractLsb' 88 8
  u := w.extractLsb' 80 8
  v := w.extractLsb' 72 8
  z := w.extractLsb' 64 8
  a := w.extractLsb' 32 32
  b := w.extractLsb' 0 32

/-- Puts the six fields together, `op` in the high part (R121). -/
def joinWord (f : CmdFields) : CmdWord :=
  f.op ++ (f.u ++ (f.v ++ (f.z ++ (f.a ++ f.b))))

/-- Why a word is not a command. Both are IllegalCommand (30_encoding.md R125). -/
inductive DecodeError where
  /-- `op` is not one of the 32 values of R124. -/
  | reservedOpcode (op : Byte)
  /-- `z`, a field the command does not use, or a must-be-zero sub-field is not zero. -/
  | nonZeroField (op : Byte)
  deriving DecidableEq, Repr

/-- The one-bit flag operand `v[0]` (R122). -/
def flagOperand (v : Byte) : Bool := v.getLsbD 0

/-- The must-be-zero part `v[7:1]` of a flag operand (R122). -/
def flagRestZero (v : Byte) : Bool := v.extractLsb' 1 7 == 0#7

/-- The sink operand: `0xFF` is null (R123). -/
def sinkOperand (v : Byte) : Option Byte := if v = 0xFF#8 then none else some v

/-- The command when the fields that must be zero are. -/
def whenZero (f : CmdFields) (zero : Bool) (i : Instr) : Except DecodeError Instr :=
  if f.z == 0#8 && zero then .ok i else .error (.nonZeroField f.op)

/-- The opcode map (30_encoding.md R124) with the legality rule of R125. -/
def decodeFields (f : CmdFields) : Except DecodeError Instr :=
  match f.op with
  | 0x10#8 => whenZero f (f.v == 0#8) (.bufSetrate f.u f.a f.b)
  | 0x11#8 => whenZero f (f.v == 0#8 && f.a == 0#32 && f.b == 0#32) (.bufClear f.u)
  | 0x12#8 => whenZero f (f.v == 0#8 && f.b == 0#32) (.bufEndframe f.u f.a)
  | 0x13#8 => whenZero f (flagRestZero f.v && f.b == 0#32) (.bufRead f.u (flagOperand f.v) f.a)
  | 0x14#8 => whenZero f (f.v == 0#8 && f.b == 0#32) (.bufMix f.u f.a)
  | 0x15#8 => whenZero f (f.v == 0#8 && f.b == 0#32) (.bufRmsil f.u f.a)
  | 0x16#8 => whenZero f (f.v == 0#8 && f.a == 0#32 && f.b == 0#32) (.bufAvail f.u)
  | 0x17#8 => whenZero f (f.v == 0#8 && f.a == 0#32 && f.b == 0#32) (.bufGetsr f.u)
  | 0x18#8 => whenZero f (f.v == 0#8 && f.a == 0#32 && f.b == 0#32) (.bufGetcr f.u)
  | 0x20#8 => whenZero f true (.synOffset f.u f.v f.a f.b)
  | 0x21#8 => whenZero f (f.v == 0#8 && f.b == 0#32) (.synVolume f.u f.a)
  | 0x22#8 => whenZero f (f.v == 0#8 && f.b == 0#32) (.synTreble f.u f.a)
  | 0x30#8 => whenZero f (f.v == 0#8 && f.a == 0#32 && f.b == 0#32) (.oscReset f.u)
  | 0x31#8 => whenZero f (f.v == 0#8 && f.b.extractLsb' 8 24 == 0#24)
      (.oscWrite f.u f.a (f.b.extractLsb' 0 8))
  | 0x32#8 => whenZero f (f.v == 0#8) (.oscRun f.u f.a f.b)
  | 0x33#8 => whenZero f (f.v == 0#8 && f.a == 0#32 && f.b == 0#32) (.oscClkenv f.u)
  | 0x34#8 => whenZero f (f.v == 0#8 && f.a == 0#32 && f.b == 0#32) (.oscClklen f.u)
  | 0x35#8 => whenZero f (f.v == 0#8 && f.a == 0#32 && f.b == 0#32) (.oscClkswp f.u)
  | 0x36#8 => whenZero f (f.v == 0#8 && f.a == 0#32 && f.b == 0#32) (.oscClklin f.u)
  | 0x40#8 => whenZero f (f.v == 0#8 && f.a == 0#32 && f.b == 0#32) (.voiceKeyon f.u)
  | 0x41#8 => whenZero f (f.v == 0#8 && f.a == 0#32 && f.b == 0#32) (.voiceKeyoff f.u)
  | 0x42#8 => whenZero f (f.v == 0#8 && f.a == 0#32 && f.b == 0#32) (.voiceTick f.u)
  | 0x50#8 => whenZero f (flagRestZero f.v && f.a == 0#32 && f.b == 0#32)
      (.chipReset f.u (flagOperand f.v))
  | 0x51#8 => whenZero f (f.a == 0#32 && f.b == 0#32) (.chipOutput f.u (sinkOperand f.v))
  | 0x52#8 => whenZero f (f.b == 0#32) (.chipOscout f.u (sinkOperand f.v) f.a)
  | 0x53#8 => whenZero f (f.v == 0#8 && f.b.extractLsb' 24 8 == 0#8)
      (.chipWrite f.u f.a (f.b.extractLsb' 8 16) (f.b.extractLsb' 0 8))
  | 0x54#8 => whenZero f (f.v == 0#8 && f.b == 0#32) (.chipRununtil f.u f.a)
  | 0x55#8 => whenZero f (f.v == 0#8 && f.b == 0#32) (.chipEndframe f.u f.a)
  | 0x56#8 => whenZero f (f.v == 0#8 && f.b == 0#32) (.chipVolume f.u f.a)
  | 0x57#8 => whenZero f (f.v == 0#8 && f.b == 0#32) (.chipTreble f.u f.a)
  | 0x58#8 => whenZero f (f.v == 0#8 && f.b == 0#32) (.chipRead f.u f.a)
  | 0x59#8 => whenZero f (f.v == 0#8 && f.a == 0#32 && f.b == 0#32) (.chipBufclr f.u)
  | op => .error (.reservedOpcode op)

/-- The decoder: total on every 96-bit word. -/
def decode (w : CmdWord) : Except DecodeError Instr := decodeFields (splitWord w)

/-- The `op` field of a command word, which FAULT_OP records (10_state.md R39). -/
def wordOpcode (w : CmdWord) : Byte := (splitWord w).op

/-- The instruction the decoder reads from a row's bits `w`, bit 0 the least significant bit of the one 96-bit word; the
bits at and above `nbits` are zero. -/
def decodeTableWord (nbits w : Nat) : Option Instr :=
  match decode (BitVec.ofNat 96 (w % 2 ^ nbits)) with
  | .ok i => some i
  | .error _ => none

/-! ## The encoder -/

/-- The opcode of each command (30_encoding.md R124). -/
def Instr.opcode : Instr → Byte
  | .bufSetrate _ _ _ => 0x10#8
  | .bufClear _ => 0x11#8
  | .bufEndframe _ _ => 0x12#8
  | .bufRead _ _ _ => 0x13#8
  | .bufMix _ _ => 0x14#8
  | .bufRmsil _ _ => 0x15#8
  | .bufAvail _ => 0x16#8
  | .bufGetsr _ => 0x17#8
  | .bufGetcr _ => 0x18#8
  | .synOffset _ _ _ _ => 0x20#8
  | .synVolume _ _ => 0x21#8
  | .synTreble _ _ => 0x22#8
  | .oscReset _ => 0x30#8
  | .oscWrite _ _ _ => 0x31#8
  | .oscRun _ _ _ => 0x32#8
  | .oscClkenv _ => 0x33#8
  | .oscClklen _ => 0x34#8
  | .oscClkswp _ => 0x35#8
  | .oscClklin _ => 0x36#8
  | .voiceKeyon _ => 0x40#8
  | .voiceKeyoff _ => 0x41#8
  | .voiceTick _ => 0x42#8
  | .chipReset _ _ => 0x50#8
  | .chipOutput _ _ => 0x51#8
  | .chipOscout _ _ _ => 0x52#8
  | .chipWrite _ _ _ _ => 0x53#8
  | .chipRununtil _ _ => 0x54#8
  | .chipEndframe _ _ => 0x55#8
  | .chipVolume _ _ => 0x56#8
  | .chipTreble _ _ => 0x57#8
  | .chipRead _ _ => 0x58#8
  | .chipBufclr _ => 0x59#8

/-- A flag operand in field `v`: `v[0]`, the rest zero (R122). -/
def flagField (f : Bool) : Byte := if f then 1#8 else 0#8

/-- A sink operand in field `v`: `0xFF` is null (R123). -/
def sinkField : Option Byte → Byte
  | none => 0xFF#8
  | some b => b

/-- The fields of a command (the "uses" column of R124), every field it does not use zero. -/
def encodeFields (i : Instr) : CmdFields :=
  match i with
  | .bufSetrate b rate clk => ⟨i.opcode, b, 0, 0, rate, clk⟩
  | .bufClear b => ⟨i.opcode, b, 0, 0, 0, 0⟩
  | .bufEndframe b time => ⟨i.opcode, b, 0, 0, time, 0⟩
  | .bufRead b stereo max => ⟨i.opcode, b, flagField stereo, 0, max, 0⟩
  | .bufMix b count => ⟨i.opcode, b, 0, 0, count, 0⟩
  | .bufRmsil b count => ⟨i.opcode, b, 0, 0, count, 0⟩
  | .bufAvail b => ⟨i.opcode, b, 0, 0, 0, 0⟩
  | .bufGetsr b => ⟨i.opcode, b, 0, 0, 0, 0⟩
  | .bufGetcr b => ⟨i.opcode, b, 0, 0, 0, 0⟩
  | .synOffset s b time delta => ⟨i.opcode, s, b, 0, time, delta⟩
  | .synVolume s unit => ⟨i.opcode, s, 0, 0, unit, 0⟩
  | .synTreble s eq => ⟨i.opcode, s, 0, 0, eq, 0⟩
  | .oscReset o => ⟨i.opcode, o, 0, 0, 0, 0⟩
  | .oscWrite o reg value => ⟨i.opcode, o, 0, 0, reg, 0#24 ++ value⟩
  | .oscRun o timeNow timeEnd => ⟨i.opcode, o, 0, 0, timeNow, timeEnd⟩
  | .oscClkenv o => ⟨i.opcode, o, 0, 0, 0, 0⟩
  | .oscClklen o => ⟨i.opcode, o, 0, 0, 0, 0⟩
  | .oscClkswp o => ⟨i.opcode, o, 0, 0, 0, 0⟩
  | .oscClklin o => ⟨i.opcode, o, 0, 0, 0, 0⟩
  | .voiceKeyon v => ⟨i.opcode, v, 0, 0, 0, 0⟩
  | .voiceKeyoff v => ⟨i.opcode, v, 0, 0, 0, 0⟩
  | .voiceTick v => ⟨i.opcode, v, 0, 0, 0, 0⟩
  | .chipReset c variant => ⟨i.opcode, c, flagField variant, 0, 0, 0⟩
  | .chipOutput c sink => ⟨i.opcode, c, sinkField sink, 0, 0, 0⟩
  | .chipOscout c sink index => ⟨i.opcode, c, sinkField sink, 0, index, 0⟩
  | .chipWrite c time addr data => ⟨i.opcode, c, 0, 0, time, 0#8 ++ (addr ++ data)⟩
  | .chipRununtil c endTime => ⟨i.opcode, c, 0, 0, endTime, 0⟩
  | .chipEndframe c endTime => ⟨i.opcode, c, 0, 0, endTime, 0⟩
  | .chipVolume c level => ⟨i.opcode, c, 0, 0, level, 0⟩
  | .chipTreble c eq => ⟨i.opcode, c, 0, 0, eq, 0⟩
  | .chipRead c addr => ⟨i.opcode, c, 0, 0, addr, 0⟩
  | .chipBufclr c => ⟨i.opcode, c, 0, 0, 0, 0⟩

/-- The word of a command. -/
def encode (i : Instr) : CmdWord := joinWord (encodeFields i)

/-- The opcode table as mask and match words: a word is the row's command when `w &&& mask = bits`
(30_encoding.md, opening; opcode_table.json). -/
structure TableRow where
  bits : CmdWord
  mask : CmdWord
  deriving DecidableEq, Repr

/-- The 32 rows. -/
def opcodeRows : List TableRow := [
  ⟨0x100000000000000000000000#96, 0xFF00FFFF0000000000000000#96⟩,
  ⟨0x110000000000000000000000#96, 0xFF00FFFFFFFFFFFFFFFFFFFF#96⟩,
  ⟨0x120000000000000000000000#96, 0xFF00FFFF00000000FFFFFFFF#96⟩,
  ⟨0x130000000000000000000000#96, 0xFF00FEFF00000000FFFFFFFF#96⟩,
  ⟨0x140000000000000000000000#96, 0xFF00FFFF00000000FFFFFFFF#96⟩,
  ⟨0x150000000000000000000000#96, 0xFF00FFFF00000000FFFFFFFF#96⟩,
  ⟨0x160000000000000000000000#96, 0xFF00FFFFFFFFFFFFFFFFFFFF#96⟩,
  ⟨0x170000000000000000000000#96, 0xFF00FFFFFFFFFFFFFFFFFFFF#96⟩,
  ⟨0x180000000000000000000000#96, 0xFF00FFFFFFFFFFFFFFFFFFFF#96⟩,
  ⟨0x200000000000000000000000#96, 0xFF0000FF0000000000000000#96⟩,
  ⟨0x210000000000000000000000#96, 0xFF00FFFF00000000FFFFFFFF#96⟩,
  ⟨0x220000000000000000000000#96, 0xFF00FFFF00000000FFFFFFFF#96⟩,
  ⟨0x300000000000000000000000#96, 0xFF00FFFFFFFFFFFFFFFFFFFF#96⟩,
  ⟨0x310000000000000000000000#96, 0xFF00FFFF00000000FFFFFF00#96⟩,
  ⟨0x320000000000000000000000#96, 0xFF00FFFF0000000000000000#96⟩,
  ⟨0x330000000000000000000000#96, 0xFF00FFFFFFFFFFFFFFFFFFFF#96⟩,
  ⟨0x340000000000000000000000#96, 0xFF00FFFFFFFFFFFFFFFFFFFF#96⟩,
  ⟨0x350000000000000000000000#96, 0xFF00FFFFFFFFFFFFFFFFFFFF#96⟩,
  ⟨0x360000000000000000000000#96, 0xFF00FFFFFFFFFFFFFFFFFFFF#96⟩,
  ⟨0x400000000000000000000000#96, 0xFF00FFFFFFFFFFFFFFFFFFFF#96⟩,
  ⟨0x410000000000000000000000#96, 0xFF00FFFFFFFFFFFFFFFFFFFF#96⟩,
  ⟨0x420000000000000000000000#96, 0xFF00FFFFFFFFFFFFFFFFFFFF#96⟩,
  ⟨0x500000000000000000000000#96, 0xFF00FEFFFFFFFFFFFFFFFFFF#96⟩,
  ⟨0x510000000000000000000000#96, 0xFF0000FFFFFFFFFFFFFFFFFF#96⟩,
  ⟨0x520000000000000000000000#96, 0xFF0000FF00000000FFFFFFFF#96⟩,
  ⟨0x530000000000000000000000#96, 0xFF00FFFF00000000FF000000#96⟩,
  ⟨0x540000000000000000000000#96, 0xFF00FFFF00000000FFFFFFFF#96⟩,
  ⟨0x550000000000000000000000#96, 0xFF00FFFF00000000FFFFFFFF#96⟩,
  ⟨0x560000000000000000000000#96, 0xFF00FFFF00000000FFFFFFFF#96⟩,
  ⟨0x570000000000000000000000#96, 0xFF00FFFF00000000FFFFFFFF#96⟩,
  ⟨0x580000000000000000000000#96, 0xFF00FFFF00000000FFFFFFFF#96⟩,
  ⟨0x590000000000000000000000#96, 0xFF00FFFFFFFFFFFFFFFFFFFF#96⟩]

end Sys2Proof
end

