-- ==== Sys2Proof/Machine/Engine.lean ====
section
/-! DEFINITION. The commands on an engine with any parameters `c`: `exec` (Machine/Dispatch.lean) is this at
`Config.impl`. The spec's test vectors (95_test_vectors.md) are checked on it at test configuration T0. -/

namespace Sys2Proof.Machine

/-- The state after command `i` on an engine with parameters `c`. -/
def execWith (c : Config) (i : Instr) (s : State) : State :=
  match i with
  | .bufSetrate b rate clockRate => cmdBufSetrate c b rate clockRate s
  | .bufClear b => cmdBufClear c b s
  | .bufEndframe b time => cmdBufEndframe c b time s
  | .bufRead b stereo max => cmdBufRead c b stereo max s
  | .bufMix b count => cmdBufMix c b count s
  | .bufRmsil b count => cmdBufRmsil c b count s
  | .bufAvail b => cmdBufAvail c b s
  | .bufGetsr b => cmdBufGetsr b s
  | .bufGetcr b => cmdBufGetcr b s
  | .synOffset y b time delta => cmdSynOffset c y b time delta s
  | .synVolume y unit => cmdSynVolume c y unit s
  | .synTreble y eq => cmdSynTreble c y eq s
  | .oscReset o => cmdOscReset c o s
  | .oscWrite o reg value => cmdOscWrite c o reg value s
  | .oscRun o timeNow timeEnd => cmdOscRun c o timeNow timeEnd s
  | .oscClkenv o => cmdOscClkenv c o s
  | .oscClklen o => cmdOscClklen c o s
  | .oscClkswp o => cmdOscClkswp c o s
  | .oscClklin o => cmdOscClklin c o s
  | .voiceKeyon v => cmdVoiceKeyon c v s
  | .voiceKeyoff v => cmdVoiceKeyoff v s
  | .voiceTick v => cmdVoiceTick c v s
  | .chipReset ci variant => cmdChipReset c ci variant s
  | .chipOutput ci sink => cmdChipOutput c ci sink s
  | .chipOscout ci sink index => cmdChipOscout c ci sink index s
  | .chipWrite ci time addr data => cmdChipWrite c ci time addr data s
  | .chipRununtil ci endTime => cmdChipRununtil c ci endTime s
  | .chipEndframe ci endTime => cmdChipEndframe c ci endTime s
  | .chipVolume ci level => cmdChipVolume c ci level s
  | .chipTreble ci eq => cmdChipTreble c ci eq s
  | .chipRead ci addr => cmdChipRead c ci addr s
  | .chipBufclr ci => cmdChipBufclr c ci s

end Sys2Proof.Machine
end

