-- ==== Sys2Proof/Machine/Fetch.lean ====
section
/-! DEFINITION. How the engine takes what the host presents (00_scope.md R5, 30_encoding.md R120, 60_exceptions.md R377 to
R379): there is no program counter and no fetch (10_state.md R38); the next command is the next event of `input`
(log 4). -/

namespace Sys2Proof.Machine

/-- The engine takes a command word: refused after a fault (60_exceptions.md R378: nothing changes and nothing is sent),
IllegalCommand if it is no command, else the command's meaning. -/
def takeCommand (run : Instr → State → Host.Outcome State Fault Refusal) (w : CmdWord) (s : State) :
    Host.Outcome State Fault Refusal :=
  if s.global.fault then .next s
  else
    match decode w with
    | .error _ => .next (raiseFault (wordOpcode w) .illegalCommand s)
    | .ok i => run i s

/-- One step of an engine with parameters `c` whose commands mean `run`: it takes the oldest event. With no event it
stays as it is (60_exceptions.md R382). -/
def stepBy (c : Config) (run : Instr → State → Host.Outcome State Fault Refusal) (s : State) :
    Host.Outcome State Fault Refusal :=
  match s.input with
  | [] => .next s
  | .hardwareReset :: rest => .next (hardwareReset c { s with input := rest })
  | .loadRam a b :: rest => .next (loadRam c a b { s with input := rest })
  | .command w :: rest => takeCommand run w { s with input := rest }

/-- One step of an engine with parameters `c`. -/
def stepWith (c : Config) : State → Host.Outcome State Fault Refusal :=
  stepBy c fun i s => .next (execWith c i s)

/-- The host puts a command word on the CMD port, before anything else it has presented. -/
def presentWord (w : CmdWord) (s : State) : State := { s with input := .command w :: s.input }

end Sys2Proof.Machine
end

