-- ==== Sys2Proof/Machine/Step.lean ====
section
/-! DEFINITION. One step of the engine at hand, and where the next step takes its command from. -/

namespace Sys2Proof.Machine

/-- One step: the engine takes the oldest event the host has presented (Machine/Fetch.lean). -/
def step (s : State) : Host.Outcome State Fault Refusal := stepBy Config.impl exec s

/-- `s` with the command word whose bits below `nbits` are those of `w`, the rest zero, on the CMD port, so that the next
step runs it. -/
def State.withFetchWord (s : State) (nbits w : Nat) : State := presentWord (BitVec.ofNat 96 (w % 2 ^ nbits)) s

end Sys2Proof.Machine
end

