-- ==== Sys2Proof/Safety.lean ====
section
/-! DEFINITION. What the spec promises of every state (10_state.md R21 to R36, 41_synth_ops.md R200), and when a timed
command cannot run out of ring (41_synth_ops.md R203). -/

namespace Sys2Proof.Machine

/-! ## Well-formed units -/

/-- A BUF's fields are in their ranges (10_state.md R21). -/
structure BufOk (c : Config) (B : Buf) : Prop where
  cells_length : B.cells.length = ringN c
  cells_width : ∀ x ∈ B.cells, x < 2 ^ cellW c
  rd_range : B.rd < ringN c
  size : B.bufferSize = 0 ∨ B.bufferSize = bufferSizeP c

/-- A SYN's table is the one of its parameters (41_synth_ops.md R200). -/
def SynOk (c : Config) (S : Syn) : Prop := S.impulse = kgen c S.quality S.eq S.volumeUnit

/-- A slot's register image has its kind's length and its sink names a BUF (10_state.md R28, R36). -/
structure OscOk (c : Config) (bufCount o : Nat) (O : Osc) : Prop where
  regs_length : O.regs.length = nregs c (oscKind c o)
  sink : ∀ b, O.output = some b → b < bufCount

/-- A voice's fields are in their ranges (10_state.md R34). -/
structure VoiceOk (c : Config) (V : Voice) : Prop where
  ram_addr : V.ramAddr < ramSize c
  loop_addr : V.loopAddr < ramSize c
  start_addr : V.startAddr < ramSize c
  nibbles : V.nibblesLeft ≤ blockNibbles
  env_value : V.envValue ≤ envelopeRange c

/-- A chip's frame index is in its cycle and its register image is in canonical form (10_state.md R31). -/
structure ChipOk (c : Config) (ci : Nat) (C : Chip) : Prop where
  frame_range : C.frame < max (nframes c (c.chipKind ci)) 1
  gregs_wf : Memory.wf (c.powerOn (c.chipKind ci)) C.gregs

/-- Every unit of the engine is well formed, there are as many as the parameters say, and the RAM is in canonical
form. -/
structure EngineOk (c : Config) (s : State) : Prop where
  counts : s.counts = ⟨c.numBuf.val, numSyn c, numOsc c, numVoice c, c.numChip.val⟩
  bufs : ∀ B ∈ s.bufs, BufOk c B
  syns : ∀ S ∈ s.syns, SynOk c S
  oscs : ∀ o O, s.oscs[o]? = some O → OscOk c s.bufs.length o O
  voices : ∀ V ∈ s.voices, VoiceOk c V
  chips : ∀ ci C, s.chips[ci]? = some C → ChipOk c ci C
  ram : Memory.wf (ramDefault c s) s.ram

/-! ## No overrun (10_state.md R23), and chip time in its width (44_chip_sequencer_ops.md R326) -/

/-- In an engine without a fault, every allocated Buffer holds at most its capacity and every chip's `last_time` fits
TIME_W bits. After a mid-command fault the touched units hold any value (60_exceptions.md R378). -/
structure NoOverrun (c : Config) (s : State) : Prop where
  bufs : s.global.fault = false → ∀ B ∈ s.bufs, B.bufferSize ≠ 0 → samplesAvail c B ≤ B.bufferSize
  chips : s.global.fault = false → ∀ C ∈ s.chips, C.lastTime < 2 ^ 32

/-! ## When a run cannot leave the ring (41_synth_ops.md R203) -/

/-- The Buffer is unallocated, or source time `t` is at or before a frame end BUF.ENDFRAME can accept. -/
def BufAdmits (c : Config) (t : Nat) (B : Buf) : Prop :=
  B.bufferSize = 0 ∨ shrN (resampledTime B t) (accBits c) ≤ bufferSizeP c

/-- Slot `o` can emit at any time up to `t`: it is muted, or its SYN exists and its Buffer admits `t`. -/
def SlotReady (c : Config) (s : State) (t o : Nat) : Prop :=
  ∀ O b, s.oscs[o]? = some O → O.output = some b →
    oscSyn c o < s.syns.length ∧ ∃ B, s.bufs[b]? = some B ∧ BufAdmits c t B

/-- Chip `ci` can be advanced to `t`: time does not go back and every oscillator it owns is ready. -/
structure ChipReady (c : Config) (s : State) (ci t : Nat) (C : Chip) : Prop where
  here : s.chips[ci]? = some C
  order : C.lastTime ≤ t
  slots : ∀ o ∈ chipOscs c ci, SlotReady c s t o

/-- The register images of the chip's oscillators have their kinds' lengths. -/
def RegsReady (c : Config) (s : State) (ci : Nat) : Prop :=
  ∀ o ∈ chipOscs c ci, ∀ O, s.oscs[o]? = some O → O.regs.length = nregs c (oscKind c o)

/-! ## Which commands answer, and which may fault in the middle -/

/-- The commands with a response (30_encoding.md R124, R126). -/
def hasResponse : Instr → Bool
  | .bufSetrate _ _ _ | .bufRead _ _ _ | .bufAvail _ | .bufGetsr _ | .bufGetcr _ | .voiceTick _ | .chipRead _ _ => true
  | _ => false

/-- The commands whose faults may be imprecise (60_exceptions.md R378). -/
def mayFaultInside : Instr → Bool
  | .oscRun _ _ _ | .chipWrite _ _ _ _ | .chipRununtil _ _ | .chipEndframe _ _ => true
  | _ => false

/-- The commands that may write `last_amp`: an emission, OSC.RESET and CHIP.BUFCLR, by themselves or CALLed
(10_state.md R29). -/
def mayCommitAmp : Instr → Bool
  | .oscRun _ _ _ | .oscReset _ | .chipReset _ _ | .chipWrite _ _ _ _ | .chipRununtil _ _ | .chipEndframe _ _
  | .chipBufclr _ => true
  | _ => false

/-- The GLOBAL registers after a first fault `x` of the command with opcode `op` (60_exceptions.md R378). -/
def faulted (op : Byte) (x : FaultCause) : Global := ⟨true, faultCode x, op⟩

/-! ## What a frame leaves alone -/

/-- Two lists agree at every index outside `p`. -/
structure OnlyAt {α : Type} (p : Nat → Prop) (l l' : List α) : Prop where
  length : l'.length = l.length
  others : ∀ i, ¬ p i → l'[i]? = l[i]?

/-- A BUF keeps everything but its cells. -/
def SameButCells (B B' : Buf) : Prop := ∃ cells, B' = { B with cells := cells }

/-- What advancing or writing chip `ci` leaves alone: every other chip, the oscillators other chips own, the voices they
wrap, every SYN, the BUFs the chip's oscillators do not feed, all of the fed BUFs but their cells, GLOBAL, the RAM, the
ports; and the routing. -/
structure ChipFrame (c : Config) (ci : Nat) (s t : State) : Prop where
  rest : t = { s with bufs := t.bufs, oscs := t.oscs, voices := t.voices, chips := t.chips }
  chips : OnlyAt (fun k => k = ci) s.chips t.chips
  oscs : OnlyAt (fun o => o ∈ chipOscs c ci) s.oscs t.oscs
  voices : OnlyAt (fun v => ∃ o ∈ chipOscs c ci, voiceOf c o = some v) s.voices t.voices
  bufs : OnlyAt (fun b => ∃ o ∈ chipOscs c ci, ∃ O, s.oscs[o]? = some O ∧ O.output = some b) s.bufs t.bufs
  cells : ∀ (b : Nat) B B', s.bufs[b]? = some B → t.bufs[b]? = some B' → SameButCells B B'
  sinks : ∀ (o : Nat) O O', s.oscs[o]? = some O → t.oscs[o]? = some O' → O'.output = O.output

/-- What a global write's remainder keeps beside the chip's frame: every BUF and voice, every committed amplitude, the
registers of a slot without a sweep, and a slot that wraps a voice (the model's bounds on it: log 40). -/
structure RestFrame (c : Config) (s t : State) : Prop where
  bufs : t.bufs = s.bufs
  voices : t.voices = s.voices
  lastAmp : ∀ o : Nat, (t.oscs[o]?).map (fun O => O.lastAmp) = (s.oscs[o]?).map fun O => O.lastAmp
  regs : ∀ o : Nat, isNesKind (oscKind c o) = false →
    (t.oscs[o]?).map (fun O => O.regs) = (s.oscs[o]?).map fun O => O.regs
  wrapped : ∀ o : Nat, oscKind c o = .brrVoice → t.oscs[o]? = s.oscs[o]?

/-! ## The reader, sample by sample (40_buffer_ops.md R164, R165) -/

/-- The reader accumulator before sample `i` of a read. -/
def accumBefore (c : Config) (B : Buf) : Nat → Word32
  | 0 => B.readerAccum
  | i + 1 =>
    BitVec.ofInt 32 ((accumBefore c B i).toInt + sextN (cellW c) ((B.cells[cellIndex c B i]?).getD 0)
      - sarN (accumBefore c B i).toInt B.bassShift.val)

/-- Sample `i` of a read. -/
def readSample (c : Config) (B : Buf) (i : Nat) : Sample :=
  BitVec.ofInt 16 (clampN 16 (sarN (accumBefore c B i).toInt c.sampleShift))

/-- The cells of the first `n` samples are zero, the others as they were. -/
def cellsAfterRead (c : Config) (B : Buf) (n : Nat) : List Nat :=
  B.cells.mapIdx fun j x => if (List.range n).any (fun i => cellIndex c B i == j) then 0 else x

/-! ## The levels BUF.MIX adds (40_buffer_ops.md R166) -/

/-- The level of mixed sample `i` of `count`, 0 from `count` on. -/
def mixLevel (c : Config) (din : List Sample) (count i : Nat) : Int :=
  if i < count then shlN (((din[i]?).getD 0).toInt) c.sampleShift else 0

/-- What BUF.MIX adds to its cell `i`, for `i` from 0 to `count`: the difference to the level before. -/
def mixDifference (c : Config) (din : List Sample) (count : Nat) : Nat → Int
  | 0 => mixLevel c din count 0
  | i + 1 => mixLevel c din count (i + 1) - mixLevel c din count i

/-- The content of the cell with sample index `j` (10_state.md R22). -/
def cellAt (c : Config) (B : Buf) (j : Nat) : Nat := (B.cells[cellIndex c B j]?).getD 0

/-! ## Writers into a Buffer (20_memory.md R90) -/

/-- A command that adds into a BUF, with its payload. -/
inductive Writer where
  | offset (y : Byte) (time delta : Word32)
  | mix (samples : List Sample)
  deriving DecidableEq, Repr

/-- The payload can be counted in a 32-bit operand. -/
def Writer.countable : Writer → Prop
  | .offset _ _ _ => True
  | .mix samples => samples.length < 2 ^ 32

/-- The engine performs a writer on BUF `b`, the host presenting its payload on DIN. -/
def Writer.run (b : Byte) (w : Writer) (s : State) : Host.Outcome State Fault Refusal :=
  match w with
  | .offset y time delta => exec (.synOffset y b time delta) s
  | .mix samples => exec (.bufMix b (BitVec.ofNat 32 samples.length)) { s with din := samples ++ s.din }

/-! ## Frames read dry (40_buffer_ops.md R172) -/

/-- Ends a frame of each length in turn and reads the Buffer dry after it: the state reached and the sum of the counts
BUF.READ answered, or nothing if a command faults. -/
def drainFrames (b : Byte) : List Word32 → State → Option (State × Nat)
  | [], s => some (s, 0)
  | time :: rest, s =>
    match exec (.bufEndframe b time) s with
    | .next s1 =>
      if s1.global.fault then none
      else
        match exec (.bufRead b false 0xFFFFFFFF#32) s1 with
        | .next s2 => (drainFrames b rest s2).map fun r => (r.1, ((s2.rsp.getLast?).getD 0).toNat + r.2)
        | _ => none
    | _ => none

/-! ## One transition of a slot (42_oscillator_ops.md R232) -/

/-- WAVE_STEP of slot `o`: VOICE.TICK of the voice it wraps, without the response (43_brr_voice_ops.md R290), else new
`phase`, `lfsr` and `extra` (42_oscillator_ops.md R231). -/
def stepSlot (c : Config) (o : Nat) (s : State) : State :=
  match voiceOf c o with
  | some v => { execWith c (.voiceTick (BitVec.ofNat 8 v)) s with rsp := s.rsp }
  | none =>
    { s with oscs := s.oscs.modify o fun O =>
        { O with
          phase := (c.waveStepRaw (oscKind c o) O.toTone).phase
          lfsr := (c.waveStepRaw (oscKind c o) O.toTone).lfsr
          extra := (c.waveStepRaw (oscKind c o) O.toTone).extra } }

/-- WAVE_PERIOD of slot `o`: VOICE_TICK_CYCLES, or the kind's. -/
def slotPeriod (c : Config) (o : Nat) (s : State) : Nat :=
  match voiceOf c o with
  | some _ => c.voiceTickCyclesLess + 1
  | none => ((s.oscs[o]?).map fun O => c.wavePeriodLess (oscKind c o) O.toTone).getD 0 + 1

/-- A slot's delay changed. -/
def setDelay (o : Nat) (d : Osc → Nat) (s : State) : State :=
  { s with oscs := s.oscs.modify o fun O => { O with delay := d O } }

/-! ## The commands a chip issues to its oscillators (44_chip_sequencer_ops.md R324, R330) -/

/-- Performs commands on each oscillator of chip `ci`, in list order. -/
def eachOsc (c : Config) (ci : Nat) (commands : Byte → List Instr) (s : State) : State :=
  (chipOscs c ci).foldl (fun u o => (commands (BitVec.ofNat 8 o)).foldl (fun w i => execWith c i w) u) s

/-! ## BRR decoding (43_brr_voice_ops.md R283 to R285) -/

/-- A block is open in `B`, opened from `V` if it had none left: at the loop address after a block with the end flag,
which then had the loop flag, else at the read address (R283). -/
def BlockOpened (c : Config) (ram : Nat → Byte) (V B : Voice) : Prop :=
  (V.nibblesLeft ≠ 0 → B = V) ∧
  (V.nibblesLeft = 0 →
    (V.hdrEnd = true → V.hdrLoop = true) ∧
    ∃ a, a = (if V.hdrEnd = true then V.loopAddr else V.ramAddr) ∧
      B = { V with
        hdrShift := (c.brrHeader (ram a)).shift
        hdrFilter := (c.brrHeader (ram a)).filter
        hdrLoop := (c.brrHeader (ram a)).loop
        hdrEnd := (c.brrHeader (ram a)).last
        ramAddr := (a + 1) % ramSize c
        nibblesLeft := 16 })

/-- One nibble decoded, from `V` to `W`: the block `B` it comes from, the signed nibble `n`, its shifted value `x` and the
filtered and clamped sample `y` (R283 to R285). -/
def NibbleDecoded (c : Config) (ram : Nat → Byte) (V W : Voice) : Prop :=
  ∃ (B : Voice) (first : Bool) (n : BitVec 4) (x y : Int), BlockOpened c ram V B ∧ c.earlyEnd B ram = false ∧
    first = decide ((16 - B.nibblesLeft) % 2 = 0) ∧
    n = (if first = c.highNibbleFirst then (ram B.ramAddr).extractLsb' 4 4 else (ram B.ramAddr).extractLsb' 0 4) ∧
    x = (if B.hdrShift.val ≤ 12 then n.toInt * 2 ^ B.hdrShift.val / 2 ^ c.brrPreshift
      else c.brrSignOnly (decide (n.toInt < 0))) ∧
    y = c.brrClamp (x +
      if B.hdrFilter = 0 then 0
      else if B.hdrFilter.val = c.brrOneTapLess.val + 1 then c.brrFilterOne B.hist.h0
      else c.brrFilterTwo B.hdrFilter.val B.hist.h0 B.hist.h1) ∧
    W = { B with
      ramAddr := if first = true then B.ramAddr else (B.ramAddr + 1) % ramSize c
      nibblesLeft := B.nibblesLeft - 1
      hist := ⟨y, B.hist.h0, B.hist.h1, B.hist.h2⟩ }

/-- `n` nibbles decoded in turn. -/
def NibblesDecoded (c : Config) (ram : Nat → Byte) : Nat → Voice → Voice → Prop
  | 0, V, W => W = V
  | n + 1, V, W => ∃ U, NibbleDecoded c ram V U ∧ NibblesDecoded c ram n U W

/-! ## Runs of one command -/

/-- The state after `n` VOICE.TICK commands. -/
def afterTicks (c : Config) (v : Byte) : Nat → State → State
  | 0, s => s
  | n + 1, s => afterTicks c v n (execWith c (.voiceTick v) s)

/-- Where the frame sequencer of an NES chip in 4-step mode stands at time `t` of its first `4 * 7458` cycles after reset:
the index of the next event and the cycles to it (44_chip_sequencer_ops.md R331). An event at `t` itself is pending. -/
def nesFramePosition (t : Nat) : Nat × Nat :=
  if t ≤ 7458 then (0, 7458 - t)
  else if t ≤ 14916 then (1, 14916 - t)
  else if t ≤ 22372 then (2, 22372 - t)
  else if t ≤ 29830 then (3, 29830 - t)
  else (0, 37288 - t)

end Sys2Proof.Machine
end

