-- ==== Sys2Proof/Certificates/Slice0/Obligations.lean ====
section
/-! DEFINITION. The statements for the provers. `exec` is the engine at hand, whose OPEN parameters are the opaque
`Config.impl`; a statement whose hypotheses pick a kind of chip or oscillator is about `execWith c` for every choice `c` of
the parameters, and `ExecIsEngineWithImpl` carries it to `exec`. -/

open Sys2Proof Sys2Proof.Machine

/-! ## The command word (30_encoding.md) -/

/-- R121 to R124: decoding the word of a well-formed command gives the command back. -/
def Obligations.DecodeOfEncode : Prop :=
  ∀ i : Instr, i.wellFormed = true → decode (encode i) = .ok i

/-- R124, R125: a word that decodes is the word of its command, so no two words mean one command, and the command is
well formed. -/
def Obligations.EncodeOfDecode : Prop :=
  ∀ (w : CmdWord) (i : Instr), decode w = .ok i → encode i = w ∧ i.wellFormed = true

/-- R124, R125: the decoder accepts exactly the words of the opcode table, a word being a row's command when
`w & mask = match`. -/
def Obligations.DecoderAcceptsExactlyTheTable : Prop :=
  ∀ w : CmdWord, (∃ i, decode w = .ok i) ↔ ∃ r ∈ opcodeRows, w &&& r.mask = r.bits

/-- R121: the three worked words, written out, decode to the commands they stand for. -/
def Obligations.WorkedWordsDecode : Prop :=
  decode 0x2001020000000030FFFFFFF6#96 = .ok (.synOffset 1 2 48 0xFFFFFFF6) ∧
  decode 0x530000000000748800401780#96 = .ok (.chipWrite 0 29832 0x4017 0x80) ∧
  decode 0x130001000000001000000000#96 = .ok (.bufRead 0 true 16) ∧
  deltaOperand 0xFFFFFFF6#32 = -10

/-! ## One step (00_scope.md R5, 60_exceptions.md) -/

/-- R5, R120: in an engine without a fault, a step whose next word decodes runs the command on the state without that
word. The queue is the model's (log 4). -/
def Obligations.StepRunsDecodedCommand : Prop :=
  ∀ (s : State) (w : CmdWord) (rest : List HostEvent) (i : Instr), s.global.fault = false →
    s.input = .command w :: rest → decode w = .ok i → step s = exec i { s with input := rest }

/-- R125, R371: a word of no row of the table raises IllegalCommand, FAULT_OP its bits 95:88, and changes nothing else. -/
def Obligations.IllegalWordFaults : Prop :=
  ∀ (s : State) (w : CmdWord) (rest : List HostEvent), s.global.fault = false → s.input = .command w :: rest →
    (∀ r ∈ opcodeRows, w &&& r.mask ≠ r.bits) →
    step s = .next { s with input := rest, global := ⟨true, 1, w.extractLsb' 88 8⟩ }

/-- R378, R379: after a fault every command word is refused, and only hardware reset changes GLOBAL. -/
def Obligations.FaultIsSticky : Prop :=
  ∀ s : State, s.global.fault = true →
    (∀ w rest, s.input = .command w :: rest → step s = .next { s with input := rest }) ∧
    ∀ t, step s = .next t → t.global ≠ s.global → (∃ rest, s.input = .hardwareReset :: rest) ∧ t.global = ⟨false, 0, 0⟩

/-- R410: hardware reset puts every unit and GLOBAL at its reset value and redraws the RAM; the queue, the ports and the
counter of free values stay (log 10). -/
def Obligations.HardwareResetStep : Prop :=
  ∀ (s : State) (rest : List HostEvent), s.input = .hardwareReset :: rest →
    ∃ t, step s = .next t ∧
      t = { State.reset with ramEpoch := s.ramEpoch + 1, input := rest, din := s.din, rsp := s.rsp, dout := s.dout,
                             draws := s.draws }

/-- R382, R83: an engine the host drives nothing into stays as it is; a byte the host loads into the RAM reads back at
every address equal to it modulo RAM_SIZE, no other byte changes, and nothing else does. -/
def Obligations.IdleAndRamLoad : Prop :=
  (∀ s : State, s.input = [] → step s = .next s) ∧
  ∀ (s : State) (a : Nat) (v : Byte) (rest : List HostEvent), s.input = .loadRam a v :: rest →
    ∃ ram, step s = .next { s with input := rest, ram := ram } ∧
      ∀ x, ramRead Config.impl { s with input := rest, ram := ram } x =
        if x % ramSize Config.impl = a % ramSize Config.impl then v else ramRead Config.impl s x

/-- R42 to R47: the state after hardware reset, for every choice of the parameters. -/
def Obligations.ResetValues : Prop :=
  State.reset = resetState Config.impl ∧ ∀ c : Config,
  (∀ B ∈ (resetState c).bufs, B.cells = List.replicate (ringN c) 0 ∧ B.rd = 0 ∧ B.offset = 0 ∧ B.factor = 0 ∧
    B.sampleRate = 0 ∧ B.clockRate = 0 ∧ B.bufferSize = 0 ∧ B.bassShift = c.bassShiftInit ∧ B.readerAccum = 0) ∧
  (∀ y S, (resetState c).syns[y]? = some S → S.volumeUnit = c.volumeInit ∧ S.eq = c.eqInit ∧
    S.impulse = kgen c (c.qualityOf y) c.eqInit c.volumeInit) ∧
  (∀ o O, (resetState c).oscs[o]? = some O → (∀ r ∈ O.regs, r = 0) ∧ O.phase = 0 ∧ O.period = 0 ∧ O.delay = 0 ∧
    O.lastAmp = 0 ∧ O.volume = 0 ∧ O.lengthCounter = 0 ∧ O.lfsr = 0 ∧ O.envStage = 0 ∧ O.envCounter = 0 ∧
    O.extra = c.extraInit (oscKind c o) ∧ O.output = none) ∧
  (∀ V ∈ (resetState c).voices, V.envStage = .off ∧ V.envValue = 0 ∧ V.envCounter = 0 ∧ V.gainMode = none ∧
    V.out = 0 ∧ V.hist = ⟨0, 0, 0, 0⟩ ∧ V.fraction = 0 ∧ V.nibblesLeft = 0 ∧ V.ramAddr = 0 ∧ V.loopAddr = 0 ∧
    V.startAddr = 0 ∧ V.hdrLoop = false ∧ V.hdrEnd = false ∧ V.hdrFilter = 0 ∧ V.hdrShift = 0) ∧
  (∀ ci C, (resetState c).chips[ci]? = some C → C.lastTime = 0 ∧ C.frame = 0 ∧
    C.frameDelay = framePeriod c (c.chipKind ci) false ∧ C.frameMode = 0 ∧ C.oscEnables = 0 ∧ C.latch = 0 ∧
    C.variant = false ∧ ∀ slot, gregRead c (c.chipKind ci) C slot = c.powerOn (c.chipKind ci) slot) ∧
  (resetState c).global = ⟨false, 0, 0⟩

/-! ## Every command -/

/-- A command of the engine at hand is the command of the engine with parameters `Config.impl`, and always ends in a next
state. Those parameters hold R289, as all that `fitVoices` gives do: an SPC700 chip has eight voices, no other chip has one,
and NUM_VOICE counts them. That the eight are the first of the chip's list is the model's reading (log 29). -/
def Obligations.ExecIsEngineWithImpl : Prop :=
  (∀ (i : Instr) (s : State), exec i s = .next (execWith Config.impl i s)) ∧ (∃ g, Config.impl = fitVoices g) ∧
  ∀ g c : Config, c = fitVoices g →
    (∀ ci < c.numChip.val, ∀ voices, voices = (chipOscs c ci).filter (fun o => oscKind c o == .brrVoice) →
      if c.chipKind ci = .spc700Dsp then voices.length = 8 ∧ voices = (chipOscs c ci).take 8 else voices = []) ∧
    (resetState c).voices.length = 8 * ((List.range c.numChip.val).filter fun ci => c.chipKind ci == .spc700Dsp).length

/-- R20 to R36, R83, R200: every unit stays well formed and every sparse memory canonical, step by step. -/
def Obligations.StepKeepsEngineOk : Prop :=
  ∀ s t : State, EngineOk Config.impl s → step s = .next t → EngineOk Config.impl t

/-- R23, R326: without a fault, no allocated Buffer holds more than its capacity and every `last_time` fits 32 bits, step
by step. "Allocated" is the model's reading (log 17): a failed allocation leaves a stale cursor behind. -/
def Obligations.StepKeepsNoOverrun : Prop :=
  ∀ s t : State, NoOverrun Config.impl s → step s = .next t → NoOverrun Config.impl t

/-- The state after reset meets both invariants. -/
def Obligations.ResetMeetsInvariants : Prop :=
  EngineOk Config.impl State.reset ∧ NoOverrun Config.impl State.reset

/-- R125, R377: a unit index out of range raises UnitIndexOutOfRange before anything else, and changes nothing else. -/
def Obligations.UnitIndexFaults : Prop :=
  ∀ (i : Instr) (s : State), s.global.fault = false → i.unitsInRange s.counts = false →
    exec i s = .next { s with global := ⟨true, 2, i.opcode⟩ }

/-- R378: a command that faults records its own opcode, sends no response and no payload, and, unless it is one of the four
whose inner emissions may fault, changes nothing but GLOBAL. -/
def Obligations.FaultEntryIsPrecise : Prop :=
  ∀ (i : Instr) (s t : State), s.global.fault = false → exec i s = .next t → t.global.fault = true →
    t.global.faultOp = i.opcode ∧ t.rsp = s.rsp ∧ t.dout = s.dout ∧ t.din = s.din ∧
    (mayFaultInside i = false → t = { s with global := t.global })

/-- R126: a command with a response sends exactly one word when it completes without fault; every other command, and every
command that faults, sends none. -/
def Obligations.OneResponseWord : Prop :=
  ∀ (i : Instr) (s t : State), s.global.fault = false → exec i s = .next t →
    (hasResponse i = true ∧ t.global.fault = false → ∃ v, t.rsp = s.rsp ++ [v]) ∧
    (hasResponse i = false ∨ t.global.fault = true → t.rsp = s.rsp)

/-- R80, R83, R93: no command writes the RAM or the host's queue, only BUF.MIX takes samples from DIN and only BUF.READ
puts samples on DOUT. -/
def Obligations.SpacesReachedOnlyAsListed : Prop :=
  ∀ (i : Instr) (s t : State), exec i s = .next t →
    t.ram = s.ram ∧ t.ramEpoch = s.ramEpoch ∧ t.input = s.input ∧
    ((∀ b n, i ≠ .bufMix b n) → t.din = s.din) ∧ ((∀ b st m, i ≠ .bufRead b st m) → t.dout = s.dout)

/-- R29: only an emission, OSC.RESET and CHIP.BUFCLR, by themselves or CALLed, write `last_amp`. -/
def Obligations.LastAmpWriters : Prop :=
  ∀ (i : Instr) (s t : State), mayCommitAmp i = false → exec i s = .next t →
    ∀ o : Nat, (t.oscs[o]?).map (fun O => O.lastAmp) = (s.oscs[o]?).map (fun O => O.lastAmp)

/-! ## BUF (40_buffer_ops.md) -/

/-- R160, R161, R371: BUF.SETRATE with a valid pair allocates, or fails, as the free value alloc_ok says (log 8); any other
pair raises InvalidRate. -/
def Obligations.SetrateRule : Prop :=
  ∀ (b : Byte) (rate clk : Word32) (s : State), b.toNat < s.bufs.length →
    (0 < rate.toNat → rate.toNat ≤ clk.toNat → clk.toNat / rate.toNat ≤ 2 ^ accBits Config.impl →
      exec (.bufSetrate b rate clk) s = .next (
        if Config.impl.allocOk s.draws then
          { s with
            bufs := s.bufs.modify b.toNat fun B =>
              { B with
                bufferSize := bufferSizeP Config.impl
                sampleRate := rate
                clockRate := BitVec.ofNat 32 (clk.toNat / rate.toNat * rate.toNat)
                factor := BitVec.ofNat 32 (2 ^ accBits Config.impl / (clk.toNat / rate.toNat))
                cells := List.replicate (ringN Config.impl) 0
                readerAccum := 0
                offset := 0
                rd := 0 }
            rsp := s.rsp ++ [0]
            draws := s.draws + 1 }
        else
          { s with
            bufs := s.bufs.modify b.toNat fun B => { B with bufferSize := 0 }
            rsp := s.rsp ++ [1]
            draws := s.draws + 1 })) ∧
    (s.global.fault = false →
      rate.toNat = 0 ∨ clk.toNat = 0 ∨ clk.toNat < rate.toNat ∨ 2 ^ accBits Config.impl < clk.toNat / rate.toNat →
      exec (.bufSetrate b rate clk) s = .next { s with global := ⟨true, 6, 0x10⟩ })

/-- R162: BUF.CLEAR zeroes the cells, the reader accumulator, the cursor and `rd` of its Buffer, allocated or not, and
changes nothing else. -/
def Obligations.ClearRule : Prop :=
  ∀ (b : Byte) (s : State), decode (0x11#8 ++ (b ++ 0#80)) = .ok (.bufClear b) ∧
    (b.toNat < s.bufs.length →
      exec (.bufClear b) s = .next { s with
        bufs := s.bufs.modify b.toNat fun B =>
          { B with cells := List.replicate (ringN Config.impl) 0, readerAccum := 0, offset := 0, rd := 0 } })

/-- R163: BUF.ENDFRAME advances the cursor by `time * factor_`, exactly, or raises BufferOverrun with nothing changed; an
unallocated Buffer stays. `time = 0` changes nothing. -/
def Obligations.EndframeRule : Prop :=
  ∀ (b : Byte) (time : Word32) (s : State) (B : Buf), s.bufs[b.toNat]? = some B →
    B.bufferSize = 0 ∨ B.bufferSize = bufferSizeP Config.impl →
    decode (0x12#8 ++ (b ++ (0#16 ++ (time ++ 0#32)))) = .ok (.bufEndframe b time) ∧
    (B.bufferSize = 0 → exec (.bufEndframe b time) s = .next s) ∧
    (B.bufferSize ≠ 0 →
      (B.offset.toNat + time.toNat * B.factor.toNat) / 2 ^ accBits Config.impl ≤ B.bufferSize →
      ∃ offset : Word32, offset.toNat = B.offset.toNat + time.toNat * B.factor.toNat ∧
        exec (.bufEndframe b time) s = .next { s with bufs := s.bufs.set b.toNat { B with offset := offset } } ∧
        (time = 0 → exec (.bufEndframe b time) s = .next s)) ∧
    (s.global.fault = false → B.bufferSize ≠ 0 →
      B.bufferSize < (B.offset.toNat + time.toNat * B.factor.toNat) / 2 ^ accBits Config.impl →
      exec (.bufEndframe b time) s = .next { s with global := ⟨true, 4, 0x12⟩ })

/-- R164, R165: BUF.READ emits `min(max, samples_avail)` samples, each from the accumulator before its cell is taken in, in
slots 1 or 2 apart, zeroes the cells it consumes, moves `rd` and the cursor past them, and answers the count. -/
def Obligations.ReadRule : Prop :=
  ∀ (b : Byte) (stereo : Bool) (max : Word32) (s : State) (B : Buf) (n : Nat), s.bufs[b.toNat]? = some B →
    B.bufferSize ≠ 0 → n = min max.toNat (B.offset.toNat / 2 ^ accBits Config.impl) → n ≤ ringN Config.impl →
    exec (.bufRead b stereo max) s = .next { s with
      bufs := s.bufs.set b.toNat { B with
        cells := cellsAfterRead Config.impl B n
        readerAccum := accumBefore Config.impl B n
        rd := (B.rd + n) % ringN Config.impl
        offset := BitVec.ofNat 32 (B.offset.toNat - n * 2 ^ accBits Config.impl) }
      dout := s.dout ++ (List.range n).map fun i => (i * (if stereo then 2 else 1), readSample Config.impl B i)
      rsp := s.rsp ++ [BitVec.ofNat 32 n] }

/-- R165: two reads of `m` and `n` samples leave the Buffer as one read of `m + n` does and give the same samples. -/
def Obligations.SplitReadsAgree : Prop :=
  ∀ (b : Byte) (stereo : Bool) (m n : Word32) (s t1 t2 t : State) (B : Buf), s.bufs[b.toNat]? = some B →
    B.bufferSize ≠ 0 → m.toNat + n.toNat ≤ B.offset.toNat / 2 ^ accBits Config.impl →
    exec (.bufRead b stereo m) s = .next t1 → exec (.bufRead b stereo n) t1 = .next t2 →
    exec (.bufRead b stereo (m + n)) s = .next t →
    t2.bufs = t.bufs ∧
    (t2.dout.drop s.dout.length).map Prod.snd = (t.dout.drop s.dout.length).map Prod.snd

/-- R166: BUF.MIX adds the input samples as successive differences to the `count + 1` cells from
`samples_avail + MIX_LEAD` on, takes `count` samples from DIN, and changes nothing else; where they would pass the end of
the ring it raises OffsetOutOfRange. -/
def Obligations.MixRule : Prop :=
  (∀ (b : Byte) (count : Word32) (s : State) (B : Buf) (base : Nat), s.bufs[b.toNat]? = some B →
    B.bufferSize ≠ 0 → base = B.offset.toNat / 2 ^ accBits Config.impl + Config.impl.mixLead →
    (B.cells.length = ringN Config.impl → count.toNat ≤ s.din.length →
      base + count.toNat + 1 ≤ ringN Config.impl →
      ∃ B', exec (.bufMix b count) s = .next { s with
          bufs := s.bufs.set b.toNat B', din := s.din.drop count.toNat } ∧
        SameButCells B B' ∧ B'.cells.length = B.cells.length ∧
        ∀ j < ringN Config.impl, cellAt Config.impl B' j =
          if base ≤ j ∧ j ≤ base + count.toNat then
            wrapN (cellW Config.impl)
              ((cellAt Config.impl B j : Int) + mixDifference Config.impl s.din count.toNat (j - base))
          else cellAt Config.impl B j)) ∧
  ∀ (c : Config) (b : Byte) (count : Word32) (s : State) (B : Buf), s.bufs[b.toNat]? = some B → B.bufferSize ≠ 0 →
    s.global.fault = false → ringN c < B.offset.toNat / 2 ^ accBits c + c.mixLead + count.toNat + 1 →
    execWith c (.bufMix b count) s = { s with global := ⟨true, 5, 0x14⟩ }

/-- R167: BUF.RMSIL drops `count` samples from the front of the readable region, zeroing their cells, and leaves the
filter state; above `samples_avail` it raises CountExceedsAvail; an unallocated Buffer stays. -/
def Obligations.RmsilRule : Prop :=
  ∀ (b : Byte) (count : Word32) (s : State) (B : Buf), s.bufs[b.toNat]? = some B →
    decode (0x15#8 ++ (b ++ (0#16 ++ (count ++ 0#32)))) = .ok (.bufRmsil b count) ∧
    (B.bufferSize = 0 → exec (.bufRmsil b count) s = .next s) ∧
    (B.bufferSize ≠ 0 → count.toNat ≤ B.offset.toNat / 2 ^ accBits Config.impl →
      exec (.bufRmsil b count) s = .next { s with
        bufs := s.bufs.set b.toNat { B with
          cells := cellsAfterRead Config.impl B count.toNat
          rd := (B.rd + count.toNat) % ringN Config.impl
          offset := BitVec.ofNat 32 (B.offset.toNat - count.toNat * 2 ^ accBits Config.impl) } } ∧
      (count = 0 → B.rd < ringN Config.impl → exec (.bufRmsil b count) s = .next s)) ∧
    (s.global.fault = false → B.bufferSize ≠ 0 → B.offset.toNat / 2 ^ accBits Config.impl < count.toNat →
      exec (.bufRmsil b count) s = .next { s with global := ⟨true, 7, 0x15⟩ })

/-- R168: BUF.AVAIL answers `offset_ >> ACC`, or 0 for an unallocated Buffer, and changes nothing. -/
def Obligations.AvailRule : Prop :=
  ∀ (b : Byte) (s : State) (B : Buf), s.bufs[b.toNat]? = some B →
    decode (0x16#8 ++ (b ++ 0#80)) = .ok (.bufAvail b) ∧
    exec (.bufAvail b) s = .next { s with
      rsp := s.rsp ++ [if B.bufferSize > 0 then B.offset >>> accBits Config.impl else 0] }

/-- R169, R170: BUF.GETSR and BUF.GETCR answer the sample rate and the adjusted clock rate and change nothing; after a
successful BUF.SETRATE these are its `rate` and its `clock_rate` rounded down to a multiple of `rate`, after reset 0. -/
def Obligations.RateReadsRule : Prop :=
  (∀ (b : Byte) (s : State) (B : Buf), s.bufs[b.toNat]? = some B →
    decode (0x17#8 ++ (b ++ 0#80)) = .ok (.bufGetsr b) ∧ decode (0x18#8 ++ (b ++ 0#80)) = .ok (.bufGetcr b) ∧
    exec (.bufGetsr b) s = .next { s with rsp := s.rsp ++ [B.sampleRate] } ∧
    exec (.bufGetcr b) s = .next { s with rsp := s.rsp ++ [B.clockRate] }) ∧
  ∀ c : Config,
  (∀ (b : Byte) (rate clk : Word32) (s t : State), b.toNat < s.bufs.length →
    execWith c (.bufSetrate b rate clk) s = t → t.rsp = s.rsp ++ [0] →
    execWith c (.bufGetsr b) t = { t with rsp := t.rsp ++ [rate] } ∧
    execWith c (.bufGetcr b) t = { t with
      rsp := t.rsp ++ [BitVec.ofNat 32 (clk.toNat / rate.toNat * rate.toNat)] }) ∧
  ∀ B ∈ (resetState c).bufs, B.sampleRate = 0 ∧ B.clockRate = 0

/-- R171: into an unallocated Buffer BUF.ENDFRAME, BUF.MIX, BUF.RMSIL and SYN.OFFSET change nothing (BUF.MIX still takes
its payload), BUF.READ and BUF.AVAIL answer 0, and none of them faults. Every Buffer is unallocated after reset, and one
whose allocation failed is. -/
def Obligations.UnallocatedBufferIsInert : Prop :=
  (∀ (b : Byte) (s : State) (B : Buf), s.bufs[b.toNat]? = some B → B.bufferSize = 0 →
    (∀ time, exec (.bufEndframe b time) s = .next s) ∧
    (∀ count, exec (.bufMix b count) s = .next { s with din := s.din.drop count.toNat }) ∧
    (∀ count, exec (.bufRmsil b count) s = .next s) ∧
    (∀ y time delta, y.toNat < s.syns.length → b ≠ 0xFF → exec (.synOffset y b time delta) s = .next s) ∧
    (∀ stereo max, exec (.bufRead b stereo max) s = .next { s with rsp := s.rsp ++ [0] }) ∧
    exec (.bufAvail b) s = .next { s with rsp := s.rsp ++ [0] }) ∧
  ∀ c : Config,
  (∀ B ∈ (resetState c).bufs, B.bufferSize = 0) ∧
  ∀ (b : Byte) (rate clk : Word32) (s t : State) (B : Buf), execWith c (.bufSetrate b rate clk) s = t →
    t.rsp = s.rsp ++ [1] → t.bufs[b.toNat]? = some B → B.bufferSize = 0

/-- R172, R339: frames ended with times `T1, ..., Tk`, each read dry, give `(O + (T1 + ... + Tk) * factor_) >> ACC`
samples in all, a count that does not fall as frames are added. R172 takes off the `O >> ACC` samples available at the
start; they are read with the first frame (log 41). -/
def Obligations.SampleCountLaw : Prop :=
  (∀ (b : Byte) (times : List Word32) (s t : State) (n : Nat) (B : Buf), s.bufs[b.toNat]? = some B →
    B.bufferSize ≠ 0 → times ≠ [] → drainFrames b times s = some (t, n) →
    n = (B.offset.toNat + (times.map BitVec.toNat).sum * B.factor.toNat) / 2 ^ accBits Config.impl) ∧
  ∀ (b : Byte) (times more : List Word32) (s t t' : State) (n n' : Nat),
    drainFrames b times s = some (t, n) → drainFrames b (times ++ more) s = some (t', n') → n ≤ n'

/-! ## SYN (41_synth_ops.md) -/

/-- R201 to R203: SYN.OFFSET adds `delta * impulse[ph][k]` to the cell of sample index `si + k` for each of the W taps and
changes nothing else, or raises OffsetOutOfRange with nothing changed. -/
def Obligations.OffsetRule : Prop :=
  (∀ (y b : Byte) (time delta : Word32) (s : State) (S : Syn) (B : Buf) (rt si : Nat), s.syns[y.toNat]? = some S →
    s.bufs[b.toNat]? = some B → b ≠ 0xFF → B.bufferSize ≠ 0 → rt = time.toNat * B.factor.toNat + B.offset.toNat →
    si = rt / 2 ^ accBits Config.impl →
    (B.cells.length = ringN Config.impl → si + widthOf Config.impl S.quality ≤ ringN Config.impl →
      ∃ B', exec (.synOffset y b time delta) s = .next { s with bufs := s.bufs.set b.toNat B' } ∧
        SameButCells B B' ∧ B'.cells.length = B.cells.length ∧
        ∀ j < ringN Config.impl, cellAt Config.impl B' j =
          if si ≤ j ∧ j < si + widthOf Config.impl S.quality then
            wrapN (cellW Config.impl) ((cellAt Config.impl B j : Int) + delta.toInt *
              tap S (rt / 2 ^ (accBits Config.impl - phaseBits Config.impl) % 2 ^ phaseBits Config.impl) (j - si))
          else cellAt Config.impl B j)) ∧
  ∀ (c : Config) (y b : Byte) (time delta : Word32) (s : State) (S : Syn) (B : Buf), s.syns[y.toNat]? = some S →
    s.bufs[b.toNat]? = some B → b ≠ 0xFF → B.bufferSize ≠ 0 → s.global.fault = false →
    ringN c < (time.toNat * B.factor.toNat + B.offset.toNat) / 2 ^ accBits c + widthOf c S.quality →
    execWith c (.synOffset y b time delta) s = { s with global := ⟨true, 5, 0x20⟩ }

/-- R90: two commands of SYN.OFFSET and BUF.MIX into one Buffer, each with its own payload, leave the same state in either
order, when neither faults. -/
def Obligations.WritersCommute : Prop :=
  ∀ (b : Byte) (x y : Writer) (s s1 s2 : State), x.countable → y.countable → s.global.fault = false →
    x.run b s = .next s1 → y.run b s1 = .next s2 → s2.global.fault = false →
    ∃ t1, y.run b s = .next t1 ∧ x.run b t1 = .next s2

/-- R204, R205: SYN.VOLUME and SYN.TREBLE set their code and put KGEN's table in place; with the code already set, a
synthesizer whose table is KGEN's stays as it is. -/
def Obligations.VolumeAndTrebleRule : Prop :=
  ∀ (y : Byte) (code : Word32) (s : State) (S : Syn), s.syns[y.toNat]? = some S →
    decode (0x21#8 ++ (y ++ (0#16 ++ (code ++ 0#32)))) = .ok (.synVolume y code) ∧
    decode (0x22#8 ++ (y ++ (0#16 ++ (code ++ 0#32)))) = .ok (.synTreble y code) ∧
    exec (.synVolume y code) s = .next { s with
      syns := s.syns.set y.toNat { S with volumeUnit := code, impulse := kgen Config.impl S.quality S.eq code } } ∧
    exec (.synTreble y code) s = .next { s with
      syns := s.syns.set y.toNat { S with eq := code, impulse := kgen Config.impl S.quality code S.volumeUnit } } ∧
    (S.impulse = kgen Config.impl S.quality S.eq S.volumeUnit → exec (.synVolume y S.volumeUnit) s = .next s ∧
      exec (.synTreble y S.eq) s = .next s)

/-! ## OSC (42_oscillator_ops.md) -/

/-- R235: OSC.RESET zeroes the derived fields, the delay and the committed amplitude, puts `lfsr` and `extra` at their
initial values and the voice the slot wraps at its reset value, keeps registers and sink, and presents amplitude 0; the
latter holds by the model's own construction for the kinds whose CUR_AMP is OPEN (log 18). -/
def Obligations.OscResetRule : Prop :=
  ∀ (o : Byte) (s : State) (O : Osc), s.oscs[o.toNat]? = some O →
    ∃ t, exec (.oscReset o) s = .next t ∧
      t = { s with
        oscs := s.oscs.set o.toNat { O with
          phase := 0, period := 0, delay := 0, lastAmp := 0, volume := 0, lengthCounter := 0, envStage := 0,
          envCounter := 0, lfsr := lfsrInit Config.impl (oscKind Config.impl o.toNat)
          extra := Config.impl.extraInit (oscKind Config.impl o.toNat) }
        voices := s.voices.mapIdx fun v V =>
          if voiceOf Config.impl o.toNat = some v then resetVoice else V } ∧
      ampOf Config.impl o.toNat t = 0

/-- R236, R237: OSC.WRITE stores the byte whatever its side effect does, takes no time, emits nothing and touches no other
slot; on a voice's slot it does nothing more (43_brr_voice_ops.md R290); a register number outside the image raises
UnitIndexOutOfRange. -/
def Obligations.OscWriteRule : Prop :=
  (∀ (o : Byte) (reg : Word32) (value : Byte) (s : State) (O : Osc), s.oscs[o.toNat]? = some O →
    (reg.toNat < O.regs.length →
      ∃ O', exec (.oscWrite o reg value) s = .next { s with oscs := s.oscs.set o.toNat O' } ∧
        O'.regs = O.regs.set reg.toNat value ∧ O'.lastAmp = O.lastAmp ∧ O'.output = O.output) ∧
    (s.global.fault = false → O.regs.length ≤ reg.toNat →
      exec (.oscWrite o reg value) s = .next { s with global := ⟨true, 2, 0x31⟩ })) ∧
  ∀ (c : Config) (o : Byte) (reg : Word32) (value : Byte) (s : State) (O : Osc), s.oscs[o.toNat]? = some O →
    oscKind c o.toNat = .brrVoice → reg.toNat < O.regs.length →
    execWith c (.oscWrite o reg value) s =
      { s with oscs := s.oscs.set o.toNat { O with regs := O.regs.set reg.toNat value } }

/-- R238: on the length register LENGTH_REG[K] of an NES kind with a length counter, the byte is stored, and `length_counter`
is reloaded with the table entry of its upper five bits exactly when the chip enables the channel; nothing else changes. The
NES kinds alone have a length register; the square's is register 3, and bit 0 enables the first oscillator of an NES chip
(for others than square 1 the model's reading: log 24). -/
def Obligations.NesLengthRegisterEffect : Prop :=
  (∀ (c : Config) (o : Byte) (reg : Word32) (value : Byte) (s : State) (O : Osc) (C : Chip),
    lengthReg c (oscKind c o.toNat) = some reg.toNat → s.oscs[o.toNat]? = some O → reg.toNat < O.regs.length →
    s.chips[ownerOf c o.toNat]? = some C →
    execWith c (.oscWrite o reg value) s = { s with
      oscs := s.oscs.set o.toNat { O with
        regs := O.regs.set reg.toNat value
        lengthCounter :=
          if C.oscEnables.getLsbD (enableBit c o.toNat) = true then c.lengthTable (value.extractLsb' 3 5).toFin
          else O.lengthCounter } }) ∧
  ∀ c : Config, lengthReg c .nesSquare = some 3 ∧
    (∀ K r, lengthReg c K = some r → K = .nesSquare ∨ K = .nesTriangle ∨ K = .nesNoise) ∧
    ∀ ci o, c.chipKind ci = .nes2a03 → (chipOscs c ci).head? = some o → enableBit c o = 0

/-- R240 to R244: the four clock commands change derived fields of their slot, and OSC.CLKSWP its registers, never their
number; the delay, the committed amplitude, the sink and every other part of the engine stay. OSC.CLKLIN is the identity
for every kind but the NES triangle. -/
def Obligations.ClockCommandsRule : Prop :=
  (∀ (o : Byte) (s : State) (O : Osc), s.oscs[o.toNat]? = some O →
    ∀ i ∈ [Instr.oscClkenv o, .oscClklen o, .oscClkswp o, .oscClklin o],
      ∃ O', exec i s = .next { s with oscs := s.oscs.set o.toNat O' } ∧ O'.delay = O.delay ∧ O'.lastAmp = O.lastAmp ∧
        O'.output = O.output ∧ O'.regs.length = O.regs.length ∧ (i ≠ .oscClkswp o → O'.regs = O.regs)) ∧
  ∀ (c : Config) (o : Byte) (s : State), o.toNat < s.oscs.length →
    (oscKind c o.toNat ≠ .nesTriangle → execWith c (.oscClklin o) s = s) ∧
    (oscKind c o.toNat = .brrVoice →
      execWith c (.oscClkenv o) s = s ∧ execWith c (.oscClklen o) s = s ∧ execWith c (.oscClkswp o) s = s)

/-- R232, R233: OSC.RUN completes, without a fault, when its slot is muted or its Buffer admits `time_end`; it then leaves
the committed amplitude equal to what the slot presents, if it has a sink, and changes only the slot, the voice it wraps and
the cells of the Buffer it feeds. A run that does not fault is its first EMIT, which OSC.RUN over the empty interval is,
and then, while the next transition lies before `time_end`, that transition, its EMIT and WAVE_PERIOD; an EMIT is SYN.OFFSET
with the difference from the committed amplitude. -/
def Obligations.OscRunCompletes : Prop :=
  (∀ (o : Byte) (timeNow timeEnd : Word32) (s : State) (O : Osc), s.oscs[o.toNat]? = some O → timeNow ≤ timeEnd →
    SlotReady Config.impl s timeEnd.toNat o.toNat →
    ∃ t O', exec (.oscRun o timeNow timeEnd) s = .next t ∧
      t = { s with oscs := s.oscs.set o.toNat O', voices := t.voices, bufs := t.bufs } ∧
      O'.regs = O.regs ∧ O'.output = O.output ∧
      (O.output = none → O'.lastAmp = O.lastAmp ∧ t.bufs = s.bufs) ∧
      (O.output ≠ none → O'.lastAmp = ampOf Config.impl o.toNat t) ∧
      OnlyAt (fun v => voiceOf Config.impl o.toNat = some v) s.voices t.voices ∧
      OnlyAt (fun b => O.output = some b) s.bufs t.bufs ∧
      ∀ (b : Nat) B B', s.bufs[b]? = some B → t.bufs[b]? = some B' → SameButCells B B') ∧
  ∀ (c : Config) (o : Byte) (timeNow timeEnd : Word32) (s r t : State) (O : Osc) (amp : Int),
    s.oscs[o.toNat]? = some O → o.toNat < numOsc c → s.bufs.length ≤ 255 → numVoice c ≤ s.voices.length →
    timeNow ≤ timeEnd → execWith c (.oscRun o timeNow timeNow) s = r → execWith c (.oscRun o timeNow timeEnd) s = t →
    t.global.fault = false → amp = ampOf c o.toNat s →
    (∀ v V, voiceOf c o.toNat = some v → s.voices[v]? = some V → amp = V.out) ∧
    (voiceOf c o.toNat = none → amp =
      if { O.toTone with period := 0 } = resetTone c (oscKind c o.toNat) O.regs then 0
      else c.curAmpRaw (oscKind c o.toNat) { O.toTone with period := 0 }) ∧
    (O.output = none ∨ amp = O.lastAmp → r = s) ∧
    (∀ b, O.output = some b → amp ≠ O.lastAmp → -2147483648 ≤ amp - O.lastAmp → amp - O.lastAmp < 2147483648 →
      ∃ u, execWith c (.synOffset (BitVec.ofNat 8 (oscSyn c o.toNat)) (BitVec.ofNat 8 b) timeNow
          (BitVec.ofInt 32 (amp - O.lastAmp))) s = u ∧
        r = { u with oscs := u.oscs.set o.toNat { O with lastAmp := amp } }) ∧
    (timeEnd.toNat ≤ timeNow.toNat + O.delay →
      t = setDelay o.toNat (fun O => O.delay - (timeEnd.toNat - timeNow.toNat)) r) ∧
    ∀ m : Word32, m.toNat = timeNow.toNat + O.delay → m < timeEnd →
      ∃ u, execWith c (.oscRun o m m) (stepSlot c o.toNat r) = u ∧
        t = execWith c (.oscRun o m timeEnd) (setDelay o.toNat (fun _ => slotPeriod c o.toNat u) u)

/-- R232: two runs over adjacent intervals do what one run over both does. -/
def Obligations.SplitRunsAgree : Prop :=
  ∀ (o : Byte) (a m e : Word32) (s t : State), a ≤ m → m ≤ e → o.toNat < s.oscs.length →
    exec (.oscRun o a e) s = .next t → t.global.fault = false →
    ∃ s1, exec (.oscRun o a m) s = .next s1 ∧ s1.global.fault = false ∧ exec (.oscRun o m e) s1 = .next t

/-- R234: a muted slot is run exactly as a connected one, but emits nothing: no Buffer changes, and the committed amplitude
stays. -/
def Obligations.MutedRunKeepsCounting : Prop :=
  ∀ (o : Byte) (a e : Word32) (s t : State) (O P : Osc), s.oscs[o.toNat]? = some O → t.oscs[o.toNat]? = some P →
    exec (.oscRun o a e) s = .next t → t.global.fault = false →
    exec (.oscRun o a e) { s with oscs := s.oscs.set o.toNat { O with output := none } } =
      .next { t with
        bufs := s.bufs, oscs := s.oscs.set o.toNat { P with output := none, lastAmp := O.lastAmp } }

/-- R232, R323 to R325, R371: a time that goes back raises TimeOrder, with nothing but GLOBAL changed. -/
def Obligations.TimeOrderFaults : Prop :=
  (∀ (o : Byte) (a e : Word32) (s : State), o.toNat < s.oscs.length → s.global.fault = false → e < a →
    exec (.oscRun o a e) s = .next { s with global := ⟨true, 3, 0x32⟩ }) ∧
  ∀ (ci : Byte) (time : Word32) (s : State) (C : Chip), s.chips[ci.toNat]? = some C → s.global.fault = false →
    time.toNat < C.lastTime →
    (∀ addr data, exec (.chipWrite ci time addr data) s = .next { s with global := ⟨true, 3, 0x53⟩ }) ∧
    exec (.chipRununtil ci time) s = .next { s with global := ⟨true, 3, 0x54⟩ } ∧
    exec (.chipEndframe ci time) s = .next { s with global := ⟨true, 3, 0x55⟩ }

/-! ## VOICE (43_brr_voice_ops.md) -/

/-- R271: VOICE.KEYON restarts the voice at the address SAMPLE_DIR gives, from envelope 0 in Attack, and keeps only its
last output sample. -/
def Obligations.KeyonRule : Prop :=
  ∀ (v : Byte) (s : State) (V : Voice), s.voices[v.toNat]? = some V →
    ∃ start loop, start < ramSize Config.impl ∧ loop < ramSize Config.impl ∧
      (start, loop) = sampleDir Config.impl (voiceRegs Config.impl v.toNat s) (voiceGregs Config.impl v.toNat s)
        (ramRead Config.impl s) ∧
      exec (.voiceKeyon v) s = .next { s with
        voices := s.voices.set v.toNat
          { startAddr := start, loopAddr := loop, ramAddr := start, nibblesLeft := 0, hdrEnd := false, hdrLoop := false,
            hdrFilter := 0, hdrShift := 0, fraction := 0, hist := ⟨0, 0, 0, 0⟩, envStage := .attack, envValue := 0,
            envCounter := (envRateInit Config.impl : Int),
            gainMode := Config.impl.gainSelect (voiceRegs Config.impl v.toNat s), out := V.out } }

/-- R272: VOICE.KEYOFF puts the voice in Release from any stage, Off included, and changes nothing else. -/
def Obligations.KeyoffRule : Prop :=
  ∀ (v : Byte) (s : State) (V : Voice), s.voices[v.toNat]? = some V →
    decode (0x41#8 ++ (v ++ 0#80)) = .ok (.voiceKeyoff v) ∧
    exec (.voiceKeyoff v) s = .next { s with voices := s.voices.set v.toNat { V with envStage := .release } }

/-- R273, R282 to R287, R291: VOICE.TICK changes only its voice and answers its new output sample. A voice in Off only
reports 0; one that ends the tick in Off outputs 0. A voice that ends it sounding has decoded as many nibbles as whole steps
of its fraction, each as R283 to R285 say, and gives VOICE_OUT of its interpolated history. A voice that neither quirk
silences and whose stream goes on ends sounding from Attack, Decay and Sustain. -/
def Obligations.TickRule : Prop :=
  (∀ (v : Byte) (s : State) (V : Voice), s.voices[v.toNat]? = some V →
    ∃ W, exec (.voiceTick v) s = .next { s with
        voices := s.voices.set v.toNat W, rsp := s.rsp ++ [BitVec.ofInt 32 W.out] } ∧
      (V.envStage = .off → W = { V with out := 0 }) ∧
      W.startAddr = V.startAddr ∧ W.loopAddr = V.loopAddr ∧ W.gainMode = V.gainMode) ∧
  ∀ (c : Config) (v : Byte) (s : State) (V W : Voice) (regs : List Byte) (f : Nat), s.voices[v.toNat]? = some V →
    regs = voiceRegs c v.toNat s → f = V.fraction + (c.pitchOf regs).toNat →
    (execWith c (.voiceTick v) s).voices[v.toNat]? = some W →
    (W.envStage = .off → W.out = 0) ∧
    (W.envStage ≠ .off →
      ∃ D, NibblesDecoded c (ramRead c s) (f / 4096)
          { V with envStage := W.envStage, envValue := W.envValue, envCounter := W.envCounter, fraction := f % 4096 } D ∧
        W = { D with out :=
          if D.envValue = 0 then 0 else c.voiceOutRaw (c.gaussInterp D.fraction D.hist c.gauss) D.envValue regs }) ∧
    ((∀ U, c.period0Silence U regs = false) → (∀ U, c.earlyEnd U (ramRead c s) = false) → V.envStage ≠ .off →
      V.envStage ≠ .release → f / 4096 ≤ 16 → (f / 4096 ≤ V.nibblesLeft ∨ V.hdrEnd = false ∨ V.hdrLoop = true) →
      W.envStage ≠ .off)

/-- R274 to R281: a tick makes no transition of the envelope stage but those of the table: Attack to Decay at the maximum,
Decay to Sustain at or below the threshold, and any stage to Off. In a voice that ends the tick sounding, the rate counter
has gone down by the table entry or reloaded, and the envelope has made the step of its stage, or of its GAIN mode, exactly
where the counter reloaded; that a GAIN mode leaves the stage is the model's choice (log 42), and that ExpDec and BentInc
step at the counter's pace its reading (log 20). -/
def Obligations.EnvelopeTransitions : Prop :=
  ∀ (c : Config) (v : Byte) (s : State) (V W : Voice), s.voices[v.toNat]? = some V →
    (execWith c (.voiceTick v) s).voices[v.toNat]? = some W →
    (W.envStage = V.envStage ∨ W.envStage = .off ∨
      (V.envStage = .attack ∧ W.envStage = .decay ∧ W.envValue = envMax c) ∨
      (V.envStage = .decay ∧ W.envStage = .sustain ∧
        W.envValue ≤ (c.sustainLevelOf (voiceRegs c v.toNat s) + 1) * 0x100)) ∧
    ∀ (regs : List Byte) (rate : Fin 32) (left : Int), regs = voiceRegs c v.toNat s →
      rate = c.rateOf V.envStage V.gainMode regs → left = V.envCounter - (c.envelopeRates rate : Int) →
      W.envStage ≠ .off →
      (V.envStage = .release → W.envStage = .release ∧ W.envCounter = V.envCounter ∧
        W.envValue + envelopeQuantum c = V.envValue) ∧
      (V.envStage ≠ .release → V.gainMode = some .direct → W.envStage = V.envStage ∧ W.envCounter = V.envCounter ∧
        (c.gainDirect regs ≤ envMax c → W.envValue = c.gainDirect regs)) ∧
      (V.envStage ≠ .release → V.gainMode ≠ some .direct →
        (V.gainMode ≠ none → W.envStage = V.envStage) ∧
        (0 < left → W.envCounter = left ∧ W.envValue = V.envValue) ∧
        (left ≤ 0 → W.envCounter = envRateInit c ∧
          (V.gainMode = some .linearDec → c.gainLinearDec ≤ V.envValue → V.envValue - c.gainLinearDec ≤ envMax c →
            W.envValue = V.envValue - c.gainLinearDec) ∧
          (V.gainMode = some .linearInc → V.envValue + c.gainLinearInc ≤ envMax c →
            W.envValue = V.envValue + c.gainLinearInc) ∧
          (V.gainMode = some .expDec → W.envValue = V.envValue - decayDec c V.envValue) ∧
          (V.gainMode = some .bentInc → ∀ more, more = (if V.envValue < c.gainBentKnee then gainBentLarge c
              else c.gainBentSmall) → V.envValue + more ≤ envMax c → W.envValue = V.envValue + more) ∧
          (V.gainMode = none → V.envStage = .attack →
            (c.simpleEnvelope v.toNat = true → W.envStage = .attack ∧ W.envValue = envMax c) ∧
            (c.simpleEnvelope v.toNat = false → V.envValue + c.attackInc rate < envMax c →
              W.envStage = .attack ∧ W.envValue = V.envValue + c.attackInc rate) ∧
            (c.simpleEnvelope v.toNat = false → envMax c ≤ V.envValue + c.attackInc rate →
              W.envStage = .decay ∧ W.envValue = envMax c)) ∧
          (V.gainMode = none → V.envStage = .decay ∨ V.envStage = .sustain →
            W.envValue = V.envValue - decayDec c V.envValue)) ∧
        (V.gainMode = none → V.envStage = .decay →
          W.envStage = if W.envValue ≤ (c.sustainLevelOf regs + 1) * 0x100 then .sustain else .decay))

/-- R280: a voice in Release with envelope `E >= 1` loses `q = ENVELOPE_RANGE div 256` a tick: while `n * q < E` it is in
Release with `E - n * q` after `n` ticks, unless the end of its stream has silenced it before, and from `n * q >= E` on it
is Off and outputs 0. Where nothing can silence it (no period-0 quirk, pitch 0) it is in Release until then. -/
def Obligations.ReleaseLaw : Prop :=
  ∀ (c : Config) (v : Byte) (n : Nat) (s : State) (V W : Voice), s.voices[v.toNat]? = some V →
    V.envStage = .release → 1 ≤ V.envValue → (afterTicks c v n s).voices[v.toNat]? = some W →
    (n * envelopeQuantum c < V.envValue →
      (W.envStage = .release ∧ W.envValue = V.envValue - n * envelopeQuantum c) ∨ (W.envStage = .off ∧ W.out = 0)) ∧
    (V.envValue ≤ n * envelopeQuantum c → W.envStage = .off ∧ W.out = 0) ∧
    ((∀ U regs, c.period0Silence U regs = false) → c.pitchOf (voiceRegs c v.toNat s) = 0 → V.fraction < 4096 →
      n * envelopeQuantum c < V.envValue → W.envStage = .release)

/-- R273, R283, R288: what silences a voice that is not in Off: the tick puts it in Off with envelope 0 and output 0, answers
0 and changes nothing outside the voice. It does so where the OPEN predicate PERIOD0_SILENCE holds of the voice, which then
changes in nothing else; and when a nibble is asked for after a block with the end flag and without the loop flag, or under
the OPEN predicate EARLY_END. -/
def Obligations.EndOfStreamSilences : Prop :=
  ∀ (c : Config) (v : Byte) (s : State) (V : Voice) (regs : List Byte), s.voices[v.toNat]? = some V → V.envStage ≠ .off →
    regs = voiceRegs c v.toNat s →
    (c.period0Silence V regs = true → execWith c (.voiceTick v) s = { s with
      voices := s.voices.set v.toNat { V with envStage := .off, envValue := 0, out := 0 }, rsp := s.rsp ++ [0] }) ∧
    (4096 ≤ V.fraction + (c.pitchOf regs).toNat →
      (V.nibblesLeft = 0 ∧ V.hdrEnd = true ∧ V.hdrLoop = false) ∨
        (∀ U : Voice, U.hist = V.hist → c.earlyEnd U (ramRead c s) = true) →
      ∃ W, execWith c (.voiceTick v) s = { s with voices := s.voices.set v.toNat W, rsp := s.rsp ++ [0] } ∧
        W.envStage = .off ∧ W.envValue = 0 ∧ W.out = 0)

/-! ## CHIP (44_chip_sequencer_ops.md) -/

/-- R320: CHIP.RESET puts the chip at its power-on values, its oscillators' registers at the power-on image and the rest of
them as OSC.RESET does, and their voices at reset; sinks, other units, Buffers, SYNs, RAM and GLOBAL stay. -/
def Obligations.ChipResetRule : Prop :=
  ∀ (ci : Byte) (variant : Bool) (s : State), ci.toNat < s.chips.length →
    exec (.chipReset ci variant) s = .next { s with
      chips := s.chips.set ci.toNat
        { variant := variant, lastTime := 0, frame := 0
          frameDelay := framePeriod Config.impl (Config.impl.chipKind ci.toNat) variant
          frameMode := 0, oscEnables := 0, latch := 0, gregs := [] }
      oscs := s.oscs.mapIdx fun o O =>
        if o ∈ chipOscs Config.impl ci.toNat then
          { O with
            regs := (List.range (nregs Config.impl (oscKind Config.impl o))).map
              (Config.impl.powerOnReg (Config.impl.chipKind ci.toNat) ((chipOscs Config.impl ci.toNat).idxOf o))
            phase := 0, period := 0, delay := 0, lastAmp := 0, volume := 0, lengthCounter := 0, envStage := 0
            envCounter := 0, lfsr := lfsrInit Config.impl (oscKind Config.impl o)
            extra := Config.impl.extraInit (oscKind Config.impl o) }
        else O
      voices := s.voices.mapIdx fun v V =>
        if (chipOscs Config.impl ci.toNat).any (fun o => voiceOf Config.impl o == some v) then resetVoice else V }

/-- R48: OSC.RESET twice is OSC.RESET once, and CHIP.RESET twice is CHIP.RESET once. -/
def Obligations.ResetIsIdempotent : Prop :=
  (∀ (o : Byte) (s t : State), o.toNat < s.oscs.length → exec (.oscReset o) s = .next t →
    exec (.oscReset o) t = .next t) ∧
  ∀ (ci : Byte) (variant : Bool) (s t : State), ci.toNat < s.chips.length → exec (.chipReset ci variant) s = .next t →
    exec (.chipReset ci variant) t = .next t

/-- R321: CHIP.OUTPUT gives every oscillator of the chip the sink, or null for 0xFF, and changes nothing else, `last_amp`
included; a sink that is neither null nor a BUF index raises UnitIndexOutOfRange. -/
def Obligations.OutputRule : Prop :=
  ∀ (ci v : Byte) (s : State), ci.toNat < s.chips.length →
    decode (0x51#8 ++ (ci ++ (v ++ 0#72))) = .ok (.chipOutput ci (if v = 0xFF then none else some v)) ∧
    (v = 0xFF ∨ v.toNat < s.bufs.length →
      exec (.chipOutput ci (if v = 0xFF then none else some v)) s = .next { s with
        oscs := s.oscs.mapIdx fun o O =>
          if o ∈ chipOscs Config.impl ci.toNat then { O with output := if v = 0xFF then none else some v.toNat }
          else O }) ∧
    (s.global.fault = false → v ≠ 0xFF → s.bufs.length ≤ v.toNat →
      exec (.chipOutput ci (some v)) s = .next { s with global := ⟨true, 2, 0x51⟩ })

/-- R322: CHIP.OSCOUT gives the chip's oscillator number `index` the sink and changes nothing else; an index not below the
count of the chip's oscillators raises UnitIndexOutOfRange. -/
def Obligations.OscoutRule : Prop :=
  ∀ (ci v : Byte) (index : Word32) (s : State), ci.toNat < s.chips.length → s.global.fault = false →
    decode (0x52#8 ++ (ci ++ (v ++ (0#8 ++ (index ++ 0#32))))) =
      .ok (.chipOscout ci (if v = 0xFF then none else some v) index) ∧
    (v = 0xFF ∨ v.toNat < s.bufs.length →
      exec (.chipOscout ci (if v = 0xFF then none else some v) index) s = .next (
        match (chipOscs Config.impl ci.toNat)[index.toNat]? with
        | some o =>
          { s with oscs := s.oscs.modify o fun O => { O with output := if v = 0xFF then none else some v.toNat } }
        | none => { s with global := ⟨true, 2, 0x52⟩ }))

/-- R323 to R325, R236: when time does not go back and no oscillator of the chip can run out of ring, CHIP.RUNUNTIL,
CHIP.WRITE and CHIP.ENDFRAME complete without a fault, with `last_time` at the operand, and at 0 after CHIP.ENDFRAME, and
change only the chip, its oscillators and their voices, and the cells of the Buffers they feed. For CHIP.WRITE to a global
register the frame, the sinks, `last_time` and the variant rest on the model's bounds on the OPEN remainder of GLOBAL_WRITE,
log 40 (unsafe), not on a rule. -/
def Obligations.TimedCommandsComplete : Prop :=
  ∀ (ci : Byte) (time : Word32) (s : State) (C : Chip), ChipReady Config.impl s ci.toNat time.toNat C →
    (∃ t C', exec (.chipRununtil ci time) s = .next t ∧ ChipFrame Config.impl ci.toNat s t ∧
      t.chips[ci.toNat]? = some C' ∧ C'.lastTime = time.toNat ∧ C'.variant = C.variant ∧ C'.gregs = C.gregs ∧
      C'.toGlobalBits = C.toGlobalBits) ∧
    (∃ t C', exec (.chipEndframe ci time) s = .next t ∧ ChipFrame Config.impl ci.toNat s t ∧
      t.chips[ci.toNat]? = some C' ∧ C'.lastTime = 0 ∧ C'.variant = C.variant ∧ C'.gregs = C.gregs ∧
      C'.toGlobalBits = C.toGlobalBits) ∧
    (RegsReady Config.impl s ci.toNat → ∀ addr data,
      ∃ t C', exec (.chipWrite ci time addr data) s = .next t ∧ ChipFrame Config.impl ci.toNat s t ∧
        t.chips[ci.toNat]? = some C' ∧ C'.lastTime = time.toNat ∧ C'.variant = C.variant)

/-- R325: CHIP.ENDFRAME is CHIP.RUNUNTIL and then `last_time = 0`, `frame_delay` and `frame` as CHIP.RUNUNTIL leaves them;
RebaseNegative cannot occur. -/
def Obligations.EndframeRebases : Prop :=
  ∀ (ci : Byte) (time : Word32) (s t : State) (C : Chip), exec (.chipRununtil ci time) s = .next t →
    t.global.fault = false → t.chips[ci.toNat]? = some C →
    exec (.chipEndframe ci time) s = .next { t with chips := t.chips.set ci.toNat { C with lastTime := 0 } }

/-- R323, R327, R328: a timed write is CHIP.RUNUNTIL, then the register write: nothing outside the window; OSC.WRITE of the
register of the oscillator DISPATCH gives; the byte alone where it gives none; and for a global register the byte, the
printed effects and an OPEN remainder, then the key-on and key-off commands of an SPC700. By the model's bounds on
it (log 40) the remainder stays within the chip's record and its oscillators, changes no latch, Buffer or voice, no slot that
wraps a voice, no committed amplitude, and no register of a kind without a sweep; where it is the document's default it is
nothing.
The windows and DISPATCH are as printed; which numbers are valid, and what is OPEN about the PC-Engine and SPC700 maps, is
read as logs 13, 23, 34, 37 and 40 say. -/
def Obligations.WriteAfterRun : Prop :=
  (∀ (c : Config) (ci : Byte) (time : Word32) (addr : BitVec 16) (data : Byte) (s t u : State) (C : Chip) (k : ChipKind)
      (target : Target),
    execWith c (.chipRununtil ci time) s = t → t.global.fault = false → t.chips[ci.toNat]? = some C →
    k = c.chipKind ci.toNat → target = dispatch c ci.toNat addr.toNat C.latch → numVoice c ≤ t.voices.length →
    execWith c (.chipWrite ci time addr data) s = u →
    (inWindow c k addr.toNat = false → u = t) ∧
    (inWindow c k addr.toNat = true →
      (∀ i r o O, target = .osc i r → (chipOscs c ci.toNat)[i]? = some o → t.oscs[o]? = some O → r < O.regs.length →
        r < 2 ^ 32 → u = execWith c (.oscWrite (BitVec.ofNat 8 o) (BitVec.ofNat 32 r) data) t) ∧
      (target = .none → u = { t with
        chips := t.chips.set ci.toNat { C with gregs := Memory.write (c.powerOn k) C.gregs addr.toNat data } }) ∧
      ∀ slot, target = .global slot → ∀ D : Chip,
        D = { C with
          gregs := Memory.write (c.powerOn k) C.gregs slot data
          oscEnables := if k = .nes2a03 ∧ slot = 0x4015 then data else C.oscEnables
          frameMode := if k = .nes2a03 ∧ slot = 0x4017 then data else C.frameMode
          latch :=
            if k = .pcePsg ∧ slot = pceLatchReg c then c.pceChannelRaw data % max (chipOscs c ci.toNat).length 1
            else C.latch } →
        ∃ w E, w.chips[ci.toNat]? = some E ∧ E.gregs = D.gregs ∧ E.lastTime = D.lastTime ∧ E.variant = D.variant ∧
          (k = .nes2a03 → E.oscEnables = D.oscEnables ∧ E.frameMode = D.frameMode) ∧
          E.latch = D.latch ∧
          ChipFrame c ci.toNat t w ∧ RestFrame c t w ∧
          ((∀ variant gregs F, c.globalRest k variant gregs slot data F = F) →
            w = { t with chips := t.chips.set ci.toNat D }) ∧
          ∀ voices, voices = ((c.spcKeySelect data).filterMap fun i =>
              ((chipOscs c ci.toNat)[i.val]?).bind (voiceOf c)).map (BitVec.ofNat 8) →
            u = match if k = .spc700Dsp then c.spcKeyReg slot else none with
              | none => w
              | some true => voices.foldl (fun w v => execWith c (.voiceKeyon v) w) w
              | some false => voices.foldl (fun w v => execWith c (.voiceKeyoff v) w) w)) ∧
  ∀ (c : Config) (ci : Nat),
    (∀ a latch i r, dispatch c ci a latch = .osc i r →
      ∃ o, (chipOscs c ci)[i]? = some o ∧ r < nregs c (oscKind c o)) ∧
    (c.chipKind ci = .nes2a03 →
      (∀ a, inWindow c .nes2a03 a = true ↔ 0x4000 ≤ a ∧ a ≤ 0x4017) ∧
      ∀ latch, (∀ r < 4, ∀ o, (chipOscs c ci)[0]? = some o → oscKind c o = .nesSquare →
          dispatch c ci (0x4000 + r) latch = .osc 0 r) ∧
        dispatch c ci 0x4015 latch = .global 0x4015 ∧ dispatch c ci 0x4017 latch = .global 0x4017) ∧
    (c.chipKind ci = .pcePsg →
      (∀ a, inWindow c .pcePsg a = true ↔ 0x0800 ≤ a ∧ a ≤ 0x0809) ∧ 0x0800 ≤ pceLatchReg c ∧ pceLatchReg c ≤ 0x0809 ∧
      ∀ latch, dispatch c ci (pceLatchReg c) latch = .global (pceLatchReg c) ∧
        ∀ a o n, a ≠ pceLatchReg c → (chipOscs c ci)[latch]? = some o → n = nregs c (oscKind c o) → 1 ≤ n →
          dispatch c ci a latch = .osc latch (c.pceRegRaw a latch % n)) ∧
    (c.chipKind ci = .spc700Dsp →
      ∃ (base stride : Nat) (field : Fin 8 → Nat),
        (∀ (v v' : Fin 8) (f f' : Fin 8), base + v.val * stride + field f = base + v'.val * stride + field f' →
          v = v' ∧ f = f') ∧
        ∀ (v f : Fin 8), inWindow c .spc700Dsp (base + v.val * stride + field f) = true ∧
          ∀ latch o, (chipOscs c ci)[v.val]? = some o → oscKind c o = .brrVoice →
            dispatch c ci (base + v.val * stride + field f) latch = .osc v.val f.val)

/-- R331: an NES chip in 4-step mode, run from reset to any time within `4 * 7458` cycles, stands where four events at 7458,
14916, 22372 and 29830 put it: the interval after the frame-1 event is 2 cycles shorter. -/
def Obligations.NesFrameCount : Prop :=
  ∀ (c : Config) (ci : Byte) (time : Word32) (s t : State) (C D : Chip), c.chipKind ci.toNat = .nes2a03 →
    s.chips[ci.toNat]? = some C → C.lastTime = 0 → C.frame = 0 → C.frameDelay = 7458 → C.variant = false →
    C.frameMode.getLsbD 7 = false → time.toNat ≤ 4 * 7458 → execWith c (.chipRununtil ci time) s = t →
    t.global.fault = false → t.chips[ci.toNat]? = some D →
    D.lastTime = time.toNat ∧ (D.frame, D.frameDelay) = nesFramePosition time.toNat

/-- R334, R335: CHIP.VOLUME gives every Synthesizer of the chip's oscillators its share of the level, CHIP.TREBLE its `eq`,
each with KGEN's table, and they change nothing else. -/
def Obligations.CalibrationRule : Prop :=
  ∀ (ci : Byte) (code : Word32) (s : State), ci.toNat < s.chips.length →
    (∀ y S, s.syns[y]? = some S → y < numSyn Config.impl) →
    decode (0x56#8 ++ (ci ++ (0#16 ++ (code ++ 0#32)))) = .ok (.chipVolume ci code) ∧
    decode (0x57#8 ++ (ci ++ (0#16 ++ (code ++ 0#32)))) = .ok (.chipTreble ci code) ∧
    exec (.chipVolume ci code) s = .next { s with
      syns := s.syns.mapIdx fun y S =>
        if (chipOscs Config.impl ci.toNat).any (fun o => oscSyn Config.impl o == y) then
          { S with
            volumeUnit := Config.impl.chipVolUnit (Config.impl.chipKind ci.toNat) code y
            impulse := kgen Config.impl S.quality S.eq
              (Config.impl.chipVolUnit (Config.impl.chipKind ci.toNat) code y) }
        else S } ∧
    exec (.chipTreble ci code) s = .next { s with
      syns := s.syns.mapIdx fun y S =>
        if (chipOscs Config.impl ci.toNat).any (fun o => oscSyn Config.impl o == y) then
          { S with eq := code, impulse := kgen Config.impl S.quality code S.volumeUnit }
        else S }

/-- R336: CHIP.READ answers the raw stored byte, zero-extended, and changes nothing else, where the kind supports reads and
the address is in the window: the register of the oscillator DISPATCH gives, else the byte `gregs` keeps for the address.
Elsewhere it raises ReadUnsupported. The SPC700 supports reads. R336 says only "gregs[addr's slot]": that a global register
reads the byte under its slot number, and an address with no function the byte under the address itself, is the model's own
keying of `gregs`, log 14 (with log 13, for what such an address stores). -/
def Obligations.ReadBackRule : Prop :=
  (∀ (ci : Byte) (addr : Word32) (s : State) (C : Chip) (k : ChipKind) (byte : Byte), s.chips[ci.toNat]? = some C →
    s.global.fault = false → k = Config.impl.chipKind ci.toNat →
    byte = (match dispatch Config.impl ci.toNat addr.toNat C.latch with
      | .osc i r => ((((chipOscs Config.impl ci.toNat)[i]?).bind fun o => s.oscs[o]?).bind fun O => O.regs[r]?).getD 0
      | .global slot => Memory.read (Config.impl.powerOn k) C.gregs slot
      | .none => Memory.read (Config.impl.powerOn k) C.gregs addr.toNat) →
    exec (.chipRead ci addr) s = .next (
      if readSupported Config.impl k = true ∧ inWindow Config.impl k addr.toNat = true then
        { s with rsp := s.rsp ++ [BitVec.setWidth 32 byte] }
      else { s with global := ⟨true, 9, 0x58⟩ })) ∧
  readSupported Config.impl .spc700Dsp = true

/-- R86, R336: on a chip whose kind supports reads, a register write that completes and an immediate read of the same
address, anywhere in the window, give the exact byte written. For a global register this rests on the latch staying as the
write found it (log 40), for an address with no function on its byte being stored (logs 13, 14). -/
def Obligations.WriteReadRoundTrip : Prop :=
  ∀ (c : Config) (ci : Byte) (time : Word32) (addr : BitVec 16) (data : Byte) (s t : State) (k : ChipKind),
    EngineOk c s → ci.toNat < s.chips.length → k = c.chipKind ci.toNat → readSupported c k = true →
    inWindow c k addr.toNat = true →
    execWith c (.chipWrite ci time addr data) s = t → t.global.fault = false →
    execWith c (.chipRead ci (BitVec.setWidth 32 addr)) t = { t with rsp := t.rsp ++ [BitVec.setWidth 32 data] }

/-- R337: CHIP.BUFCLR zeroes the committed amplitude of every oscillator of the chip and changes nothing else. -/
def Obligations.BufclrRule : Prop :=
  ∀ (ci : Byte) (s : State), ci.toNat < s.chips.length →
    decode (0x59#8 ++ (ci ++ 0#80)) = .ok (.chipBufclr ci) ∧
    exec (.chipBufclr ci) s = .next { s with
      oscs := s.oscs.mapIdx fun o O =>
        if o ∈ chipOscs Config.impl ci.toNat then { O with lastAmp := 0 } else O }

/-- R324, R330: a CHIP.RUNUNTIL without a fault that reaches no frame event is OSC.RUN of each oscillator of the chip in
list order, from `last_time` to its end; one that passes a frame event of the printed schedule is CHIP.RUNUNTIL to the time
of the event, the event, and CHIP.RUNUNTIL to its end. The event issues OSC.CLKLEN and OSC.CLKSWP on frames 0 and 2 and
OSC.CLKENV and OSC.CLKLIN on every frame, and waits the frame period, two cycles less after frame 1, FRAME3_EXTRA more after
frame 3 in 5-step mode. On a kind without frame events (NFRAMES = 0) that `frame_delay` is lowered to no less than 0, and so
stays 0, is the model's reading, log 15: R324 subtracts without a bound. Events of a schedule the spec does not give are left
out. -/
def Obligations.RununtilRule : Prop :=
  ∀ (c : Config) (ci : Byte) (endTime : Word32) (s t : State) (C : Chip) (k : ChipKind), s.chips[ci.toNat]? = some C →
    k = c.chipKind ci.toNat → numOsc c ≤ s.oscs.length → C.lastTime ≤ endTime.toNat →
    execWith c (.chipRununtil ci endTime) s = t → t.global.fault = false →
    (nframes c k = 0 ∨ endTime.toNat ≤ C.lastTime + C.frameDelay →
      ∃ u, eachOsc c ci.toNat (fun o => [.oscRun o (BitVec.ofNat 32 C.lastTime) endTime]) s = u ∧
        t = { u with chips := s.chips.set ci.toNat { C with
          lastTime := endTime.toNat, frameDelay := C.frameDelay - (endTime.toNat - C.lastTime) } }) ∧
    (frameSchedule c k = .quad → ∀ m : Word32, m.toNat = C.lastTime + C.frameDelay → m < endTime →
      ∃ u v, execWith c (.chipRununtil ci m) s = u ∧
        v = (if C.frame = 0 ∨ C.frame = 2 then eachOsc c ci.toNat (fun o => [.oscClklen o, .oscClkswp o]) u else u) ∧
        t = execWith c (.chipRununtil ci endTime) (eachOsc c ci.toNat (fun o => [.oscClkenv o, .oscClklin o])
          { v with chips := s.chips.set ci.toNat { C with
            lastTime := m.toNat
            frameDelay :=
              if C.frame = 1 then framePeriod c k C.variant - 2
              else if C.frame = 3 ∧ C.frameMode.getLsbD 7 = true then framePeriod c k C.variant + c.frame3Extra
              else framePeriod c k C.variant
            frame := (C.frame + 1) % 4 } }))
end

