-- ==== Sys2Proof/Laws/Memory.lean ====
section
/-! SUPPORT. Sparse byte memory (Machine/Memory.lean): reading after writing, and the canonical form. -/

namespace Sys2Proof.Machine

variable (dflt : Nat → Byte)

theorem Memory.read_insert (m : List Host.Cell) (a x : Nat) (v : Byte) :
    Memory.read dflt (Memory.insert m a v) x = if x = a then v else Memory.read dflt m x := by
  induction m with
  | nil => simp [Memory.insert, Memory.read]
  | cons h t ih =>
    obtain ⟨k, w⟩ := h
    simp only [Memory.insert]
    split
    · simp [Memory.read]
    · split
      · subst_vars
        by_cases hx : x = k <;> simp [Memory.read, hx]
      · by_cases hk : x = k
        · subst hk
          have : ¬ x = a := fun e => ‹¬ a = x› e.symm
          simp [Memory.read, this]
        · simp [Memory.read, hk, ih]

theorem Memory.read_erase (m : List Host.Cell) (a x : Nat) :
    Memory.read dflt (Memory.erase m a) x = if x = a then dflt a else Memory.read dflt m x := by
  induction m with
  | nil => by_cases hx : x = a <;> simp [Memory.erase, Memory.read, hx]
  | cons h t ih =>
    obtain ⟨k, w⟩ := h
    simp only [Memory.erase] at ih
    by_cases hk : k = a
    · subst hk
      by_cases hx : x = k <;> simp_all [Memory.erase, Memory.read]
    · by_cases hx : x = k
      · subst hx
        simp [Memory.erase, Memory.read, hk]
      · simp [Memory.erase, Memory.read, hk, hx, ih]

/-- What a write does to every read, whatever list it writes to. -/
theorem Memory.read_write (m : List Host.Cell) (a x : Nat) (v : Byte) :
    Memory.read dflt (Memory.write dflt m a v) x = if x = a then v else Memory.read dflt m x := by
  unfold Memory.write
  split
  · subst_vars; exact Memory.read_erase dflt m a x
  · exact Memory.read_insert dflt m a x v

@[simp] theorem Memory.read_write_same (m : List Host.Cell) (a : Nat) (v : Byte) :
    Memory.read dflt (Memory.write dflt m a v) a = v := by simp [Memory.read_write]

theorem Memory.read_write_other (m : List Host.Cell) {a x : Nat} (v : Byte) (h : x ≠ a) :
    Memory.read dflt (Memory.write dflt m a v) x = Memory.read dflt m x := by simp [Memory.read_write, h]

theorem Memory.mem_insert (m : List Host.Cell) (a : Nat) (v : Byte) (y : Host.Cell)
    (h : y ∈ Memory.insert m a v) : y = (a, v) ∨ y ∈ m := by
  induction m with
  | nil => simpa [Memory.insert] using h
  | cons hd t ih =>
    obtain ⟨k, w⟩ := hd
    simp only [Memory.insert] at h
    split at h
    · simpa using h
    · split at h
      · rcases List.mem_cons.mp h with h | h
        · exact .inl h
        · exact .inr (List.mem_cons_of_mem _ h)
      · rcases List.mem_cons.mp h with h | h
        · exact .inr (by simp [h])
        · exact (ih h).imp id (List.mem_cons_of_mem _)

theorem Memory.insert_sorted (m : List Host.Cell) (a : Nat) (v : Byte)
    (h : m.Pairwise (fun x y => x.1 < y.1)) : (Memory.insert m a v).Pairwise (fun x y => x.1 < y.1) := by
  induction m with
  | nil => simp [Memory.insert]
  | cons hd t ih =>
    obtain ⟨k, w⟩ := hd
    have h' := List.pairwise_cons.mp h
    simp only [Memory.insert]
    split
    · refine List.pairwise_cons.mpr ⟨fun y hy => ?_, h⟩
      rcases List.mem_cons.mp hy with rfl | hy
      · assumption
      · exact Nat.lt_trans ‹a < k› (h'.1 y hy)
    · split
      · subst_vars; exact List.pairwise_cons.mpr ⟨h'.1, h'.2⟩
      · refine List.pairwise_cons.mpr ⟨fun y hy => ?_, ih h'.2⟩
        rcases Memory.mem_insert t a v y hy with rfl | hy
        · show k < a
          omega
        · exact h'.1 y hy

/-- A write keeps the canonical form. -/
theorem Memory.write_wf (m : List Host.Cell) (a : Nat) (v : Byte) (h : Memory.wf dflt m) :
    Memory.wf dflt (Memory.write dflt m a v) := by
  unfold Memory.write
  split
  · exact ⟨h.1.filter _, fun x hx => h.2 x (List.mem_of_mem_filter hx)⟩
  · refine ⟨Memory.insert_sorted m a v h.1, fun x hx => ?_⟩
    rcases Memory.mem_insert m a v x hx with rfl | hx
    · assumption
    · exact h.2 x hx

/-- The empty memory is in canonical form. -/
theorem Memory.nil_wf : Memory.wf dflt [] := ⟨List.Pairwise.nil, by simp⟩

end Sys2Proof.Machine
end

