-- ==== Sys2Proof/Laws/State.lean ====
section
/-! SUPPORT. One lemma per field of State per update of it (Machine/Ops.lean), true by unfolding. -/

namespace Sys2Proof.Machine

variable (s : State)

/-! ## State.modBuf -/

@[simp] theorem State.modBuf_bufs (b : Nat) (f : Buf → Buf) : (s.modBuf b f).bufs = s.bufs.modify b f := rfl
@[simp] theorem State.modBuf_syns (b : Nat) (f : Buf → Buf) : (s.modBuf b f).syns = s.syns := rfl
@[simp] theorem State.modBuf_oscs (b : Nat) (f : Buf → Buf) : (s.modBuf b f).oscs = s.oscs := rfl
@[simp] theorem State.modBuf_voices (b : Nat) (f : Buf → Buf) : (s.modBuf b f).voices = s.voices := rfl
@[simp] theorem State.modBuf_chips (b : Nat) (f : Buf → Buf) : (s.modBuf b f).chips = s.chips := rfl
@[simp] theorem State.modBuf_global (b : Nat) (f : Buf → Buf) : (s.modBuf b f).global = s.global := rfl
@[simp] theorem State.modBuf_ram (b : Nat) (f : Buf → Buf) : (s.modBuf b f).ram = s.ram := rfl
@[simp] theorem State.modBuf_ramEpoch (b : Nat) (f : Buf → Buf) : (s.modBuf b f).ramEpoch = s.ramEpoch := rfl
@[simp] theorem State.modBuf_input (b : Nat) (f : Buf → Buf) : (s.modBuf b f).input = s.input := rfl
@[simp] theorem State.modBuf_din (b : Nat) (f : Buf → Buf) : (s.modBuf b f).din = s.din := rfl
@[simp] theorem State.modBuf_rsp (b : Nat) (f : Buf → Buf) : (s.modBuf b f).rsp = s.rsp := rfl
@[simp] theorem State.modBuf_dout (b : Nat) (f : Buf → Buf) : (s.modBuf b f).dout = s.dout := rfl
@[simp] theorem State.modBuf_draws (b : Nat) (f : Buf → Buf) : (s.modBuf b f).draws = s.draws := rfl

/-! ## State.modSyn -/

@[simp] theorem State.modSyn_bufs (y : Nat) (f : Syn → Syn) : (s.modSyn y f).bufs = s.bufs := rfl
@[simp] theorem State.modSyn_syns (y : Nat) (f : Syn → Syn) : (s.modSyn y f).syns = s.syns.modify y f := rfl
@[simp] theorem State.modSyn_oscs (y : Nat) (f : Syn → Syn) : (s.modSyn y f).oscs = s.oscs := rfl
@[simp] theorem State.modSyn_voices (y : Nat) (f : Syn → Syn) : (s.modSyn y f).voices = s.voices := rfl
@[simp] theorem State.modSyn_chips (y : Nat) (f : Syn → Syn) : (s.modSyn y f).chips = s.chips := rfl
@[simp] theorem State.modSyn_global (y : Nat) (f : Syn → Syn) : (s.modSyn y f).global = s.global := rfl
@[simp] theorem State.modSyn_ram (y : Nat) (f : Syn → Syn) : (s.modSyn y f).ram = s.ram := rfl
@[simp] theorem State.modSyn_ramEpoch (y : Nat) (f : Syn → Syn) : (s.modSyn y f).ramEpoch = s.ramEpoch := rfl
@[simp] theorem State.modSyn_input (y : Nat) (f : Syn → Syn) : (s.modSyn y f).input = s.input := rfl
@[simp] theorem State.modSyn_din (y : Nat) (f : Syn → Syn) : (s.modSyn y f).din = s.din := rfl
@[simp] theorem State.modSyn_rsp (y : Nat) (f : Syn → Syn) : (s.modSyn y f).rsp = s.rsp := rfl
@[simp] theorem State.modSyn_dout (y : Nat) (f : Syn → Syn) : (s.modSyn y f).dout = s.dout := rfl
@[simp] theorem State.modSyn_draws (y : Nat) (f : Syn → Syn) : (s.modSyn y f).draws = s.draws := rfl

/-! ## State.modOsc -/

@[simp] theorem State.modOsc_bufs (o : Nat) (f : Osc → Osc) : (s.modOsc o f).bufs = s.bufs := rfl
@[simp] theorem State.modOsc_syns (o : Nat) (f : Osc → Osc) : (s.modOsc o f).syns = s.syns := rfl
@[simp] theorem State.modOsc_oscs (o : Nat) (f : Osc → Osc) : (s.modOsc o f).oscs = s.oscs.modify o f := rfl
@[simp] theorem State.modOsc_voices (o : Nat) (f : Osc → Osc) : (s.modOsc o f).voices = s.voices := rfl
@[simp] theorem State.modOsc_chips (o : Nat) (f : Osc → Osc) : (s.modOsc o f).chips = s.chips := rfl
@[simp] theorem State.modOsc_global (o : Nat) (f : Osc → Osc) : (s.modOsc o f).global = s.global := rfl
@[simp] theorem State.modOsc_ram (o : Nat) (f : Osc → Osc) : (s.modOsc o f).ram = s.ram := rfl
@[simp] theorem State.modOsc_ramEpoch (o : Nat) (f : Osc → Osc) : (s.modOsc o f).ramEpoch = s.ramEpoch := rfl
@[simp] theorem State.modOsc_input (o : Nat) (f : Osc → Osc) : (s.modOsc o f).input = s.input := rfl
@[simp] theorem State.modOsc_din (o : Nat) (f : Osc → Osc) : (s.modOsc o f).din = s.din := rfl
@[simp] theorem State.modOsc_rsp (o : Nat) (f : Osc → Osc) : (s.modOsc o f).rsp = s.rsp := rfl
@[simp] theorem State.modOsc_dout (o : Nat) (f : Osc → Osc) : (s.modOsc o f).dout = s.dout := rfl
@[simp] theorem State.modOsc_draws (o : Nat) (f : Osc → Osc) : (s.modOsc o f).draws = s.draws := rfl

/-! ## State.modTone -/

@[simp] theorem State.modTone_bufs (o : Nat) (f : Tone → Tone) : (s.modTone o f).bufs = s.bufs := rfl
@[simp] theorem State.modTone_syns (o : Nat) (f : Tone → Tone) : (s.modTone o f).syns = s.syns := rfl
@[simp] theorem State.modTone_oscs (o : Nat) (f : Tone → Tone) : (s.modTone o f).oscs = s.oscs.modify o fun O => { O with toTone := f O.toTone } := rfl
@[simp] theorem State.modTone_voices (o : Nat) (f : Tone → Tone) : (s.modTone o f).voices = s.voices := rfl
@[simp] theorem State.modTone_chips (o : Nat) (f : Tone → Tone) : (s.modTone o f).chips = s.chips := rfl
@[simp] theorem State.modTone_global (o : Nat) (f : Tone → Tone) : (s.modTone o f).global = s.global := rfl
@[simp] theorem State.modTone_ram (o : Nat) (f : Tone → Tone) : (s.modTone o f).ram = s.ram := rfl
@[simp] theorem State.modTone_ramEpoch (o : Nat) (f : Tone → Tone) : (s.modTone o f).ramEpoch = s.ramEpoch := rfl
@[simp] theorem State.modTone_input (o : Nat) (f : Tone → Tone) : (s.modTone o f).input = s.input := rfl
@[simp] theorem State.modTone_din (o : Nat) (f : Tone → Tone) : (s.modTone o f).din = s.din := rfl
@[simp] theorem State.modTone_rsp (o : Nat) (f : Tone → Tone) : (s.modTone o f).rsp = s.rsp := rfl
@[simp] theorem State.modTone_dout (o : Nat) (f : Tone → Tone) : (s.modTone o f).dout = s.dout := rfl
@[simp] theorem State.modTone_draws (o : Nat) (f : Tone → Tone) : (s.modTone o f).draws = s.draws := rfl

/-! ## State.modVoice -/

@[simp] theorem State.modVoice_bufs (v : Nat) (f : Voice → Voice) : (s.modVoice v f).bufs = s.bufs := rfl
@[simp] theorem State.modVoice_syns (v : Nat) (f : Voice → Voice) : (s.modVoice v f).syns = s.syns := rfl
@[simp] theorem State.modVoice_oscs (v : Nat) (f : Voice → Voice) : (s.modVoice v f).oscs = s.oscs := rfl
@[simp] theorem State.modVoice_voices (v : Nat) (f : Voice → Voice) : (s.modVoice v f).voices = s.voices.modify v f := rfl
@[simp] theorem State.modVoice_chips (v : Nat) (f : Voice → Voice) : (s.modVoice v f).chips = s.chips := rfl
@[simp] theorem State.modVoice_global (v : Nat) (f : Voice → Voice) : (s.modVoice v f).global = s.global := rfl
@[simp] theorem State.modVoice_ram (v : Nat) (f : Voice → Voice) : (s.modVoice v f).ram = s.ram := rfl
@[simp] theorem State.modVoice_ramEpoch (v : Nat) (f : Voice → Voice) : (s.modVoice v f).ramEpoch = s.ramEpoch := rfl
@[simp] theorem State.modVoice_input (v : Nat) (f : Voice → Voice) : (s.modVoice v f).input = s.input := rfl
@[simp] theorem State.modVoice_din (v : Nat) (f : Voice → Voice) : (s.modVoice v f).din = s.din := rfl
@[simp] theorem State.modVoice_rsp (v : Nat) (f : Voice → Voice) : (s.modVoice v f).rsp = s.rsp := rfl
@[simp] theorem State.modVoice_dout (v : Nat) (f : Voice → Voice) : (s.modVoice v f).dout = s.dout := rfl
@[simp] theorem State.modVoice_draws (v : Nat) (f : Voice → Voice) : (s.modVoice v f).draws = s.draws := rfl

/-! ## State.modChip -/

@[simp] theorem State.modChip_bufs (ci : Nat) (f : Chip → Chip) : (s.modChip ci f).bufs = s.bufs := rfl
@[simp] theorem State.modChip_syns (ci : Nat) (f : Chip → Chip) : (s.modChip ci f).syns = s.syns := rfl
@[simp] theorem State.modChip_oscs (ci : Nat) (f : Chip → Chip) : (s.modChip ci f).oscs = s.oscs := rfl
@[simp] theorem State.modChip_voices (ci : Nat) (f : Chip → Chip) : (s.modChip ci f).voices = s.voices := rfl
@[simp] theorem State.modChip_chips (ci : Nat) (f : Chip → Chip) : (s.modChip ci f).chips = s.chips.modify ci f := rfl
@[simp] theorem State.modChip_global (ci : Nat) (f : Chip → Chip) : (s.modChip ci f).global = s.global := rfl
@[simp] theorem State.modChip_ram (ci : Nat) (f : Chip → Chip) : (s.modChip ci f).ram = s.ram := rfl
@[simp] theorem State.modChip_ramEpoch (ci : Nat) (f : Chip → Chip) : (s.modChip ci f).ramEpoch = s.ramEpoch := rfl
@[simp] theorem State.modChip_input (ci : Nat) (f : Chip → Chip) : (s.modChip ci f).input = s.input := rfl
@[simp] theorem State.modChip_din (ci : Nat) (f : Chip → Chip) : (s.modChip ci f).din = s.din := rfl
@[simp] theorem State.modChip_rsp (ci : Nat) (f : Chip → Chip) : (s.modChip ci f).rsp = s.rsp := rfl
@[simp] theorem State.modChip_dout (ci : Nat) (f : Chip → Chip) : (s.modChip ci f).dout = s.dout := rfl
@[simp] theorem State.modChip_draws (ci : Nat) (f : Chip → Chip) : (s.modChip ci f).draws = s.draws := rfl

/-! ## State.setGlobal -/

@[simp] theorem State.setGlobal_bufs (g : Global) : (s.setGlobal g).bufs = s.bufs := rfl
@[simp] theorem State.setGlobal_syns (g : Global) : (s.setGlobal g).syns = s.syns := rfl
@[simp] theorem State.setGlobal_oscs (g : Global) : (s.setGlobal g).oscs = s.oscs := rfl
@[simp] theorem State.setGlobal_voices (g : Global) : (s.setGlobal g).voices = s.voices := rfl
@[simp] theorem State.setGlobal_chips (g : Global) : (s.setGlobal g).chips = s.chips := rfl
@[simp] theorem State.setGlobal_global (g : Global) : (s.setGlobal g).global = g := rfl
@[simp] theorem State.setGlobal_ram (g : Global) : (s.setGlobal g).ram = s.ram := rfl
@[simp] theorem State.setGlobal_ramEpoch (g : Global) : (s.setGlobal g).ramEpoch = s.ramEpoch := rfl
@[simp] theorem State.setGlobal_input (g : Global) : (s.setGlobal g).input = s.input := rfl
@[simp] theorem State.setGlobal_din (g : Global) : (s.setGlobal g).din = s.din := rfl
@[simp] theorem State.setGlobal_rsp (g : Global) : (s.setGlobal g).rsp = s.rsp := rfl
@[simp] theorem State.setGlobal_dout (g : Global) : (s.setGlobal g).dout = s.dout := rfl
@[simp] theorem State.setGlobal_draws (g : Global) : (s.setGlobal g).draws = s.draws := rfl

/-! ## State.respond -/

@[simp] theorem State.respond_bufs (v : Word32) : (s.respond v).bufs = s.bufs := rfl
@[simp] theorem State.respond_syns (v : Word32) : (s.respond v).syns = s.syns := rfl
@[simp] theorem State.respond_oscs (v : Word32) : (s.respond v).oscs = s.oscs := rfl
@[simp] theorem State.respond_voices (v : Word32) : (s.respond v).voices = s.voices := rfl
@[simp] theorem State.respond_chips (v : Word32) : (s.respond v).chips = s.chips := rfl
@[simp] theorem State.respond_global (v : Word32) : (s.respond v).global = s.global := rfl
@[simp] theorem State.respond_ram (v : Word32) : (s.respond v).ram = s.ram := rfl
@[simp] theorem State.respond_ramEpoch (v : Word32) : (s.respond v).ramEpoch = s.ramEpoch := rfl
@[simp] theorem State.respond_input (v : Word32) : (s.respond v).input = s.input := rfl
@[simp] theorem State.respond_din (v : Word32) : (s.respond v).din = s.din := rfl
@[simp] theorem State.respond_rsp (v : Word32) : (s.respond v).rsp = s.rsp ++ [v] := rfl
@[simp] theorem State.respond_dout (v : Word32) : (s.respond v).dout = s.dout := rfl
@[simp] theorem State.respond_draws (v : Word32) : (s.respond v).draws = s.draws := rfl

/-! ## State.emitSamples -/

@[simp] theorem State.emitSamples_bufs (l : List (Nat × Sample)) : (s.emitSamples l).bufs = s.bufs := rfl
@[simp] theorem State.emitSamples_syns (l : List (Nat × Sample)) : (s.emitSamples l).syns = s.syns := rfl
@[simp] theorem State.emitSamples_oscs (l : List (Nat × Sample)) : (s.emitSamples l).oscs = s.oscs := rfl
@[simp] theorem State.emitSamples_voices (l : List (Nat × Sample)) : (s.emitSamples l).voices = s.voices := rfl
@[simp] theorem State.emitSamples_chips (l : List (Nat × Sample)) : (s.emitSamples l).chips = s.chips := rfl
@[simp] theorem State.emitSamples_global (l : List (Nat × Sample)) : (s.emitSamples l).global = s.global := rfl
@[simp] theorem State.emitSamples_ram (l : List (Nat × Sample)) : (s.emitSamples l).ram = s.ram := rfl
@[simp] theorem State.emitSamples_ramEpoch (l : List (Nat × Sample)) : (s.emitSamples l).ramEpoch = s.ramEpoch := rfl
@[simp] theorem State.emitSamples_input (l : List (Nat × Sample)) : (s.emitSamples l).input = s.input := rfl
@[simp] theorem State.emitSamples_din (l : List (Nat × Sample)) : (s.emitSamples l).din = s.din := rfl
@[simp] theorem State.emitSamples_rsp (l : List (Nat × Sample)) : (s.emitSamples l).rsp = s.rsp := rfl
@[simp] theorem State.emitSamples_dout (l : List (Nat × Sample)) : (s.emitSamples l).dout = s.dout ++ l := rfl
@[simp] theorem State.emitSamples_draws (l : List (Nat × Sample)) : (s.emitSamples l).draws = s.draws := rfl

/-! ## State.takeDraws -/

@[simp] theorem State.takeDraws_bufs (n : Nat) : (s.takeDraws n).bufs = s.bufs := rfl
@[simp] theorem State.takeDraws_syns (n : Nat) : (s.takeDraws n).syns = s.syns := rfl
@[simp] theorem State.takeDraws_oscs (n : Nat) : (s.takeDraws n).oscs = s.oscs := rfl
@[simp] theorem State.takeDraws_voices (n : Nat) : (s.takeDraws n).voices = s.voices := rfl
@[simp] theorem State.takeDraws_chips (n : Nat) : (s.takeDraws n).chips = s.chips := rfl
@[simp] theorem State.takeDraws_global (n : Nat) : (s.takeDraws n).global = s.global := rfl
@[simp] theorem State.takeDraws_ram (n : Nat) : (s.takeDraws n).ram = s.ram := rfl
@[simp] theorem State.takeDraws_ramEpoch (n : Nat) : (s.takeDraws n).ramEpoch = s.ramEpoch := rfl
@[simp] theorem State.takeDraws_input (n : Nat) : (s.takeDraws n).input = s.input := rfl
@[simp] theorem State.takeDraws_din (n : Nat) : (s.takeDraws n).din = s.din := rfl
@[simp] theorem State.takeDraws_rsp (n : Nat) : (s.takeDraws n).rsp = s.rsp := rfl
@[simp] theorem State.takeDraws_dout (n : Nat) : (s.takeDraws n).dout = s.dout := rfl
@[simp] theorem State.takeDraws_draws (n : Nat) : (s.takeDraws n).draws = s.draws + n := rfl

/-! ## State.consumeDin -/

@[simp] theorem State.consumeDin_bufs (n : Nat) : (s.consumeDin n).bufs = s.bufs := rfl
@[simp] theorem State.consumeDin_syns (n : Nat) : (s.consumeDin n).syns = s.syns := rfl
@[simp] theorem State.consumeDin_oscs (n : Nat) : (s.consumeDin n).oscs = s.oscs := rfl
@[simp] theorem State.consumeDin_voices (n : Nat) : (s.consumeDin n).voices = s.voices := rfl
@[simp] theorem State.consumeDin_chips (n : Nat) : (s.consumeDin n).chips = s.chips := rfl
@[simp] theorem State.consumeDin_global (n : Nat) : (s.consumeDin n).global = s.global := rfl
@[simp] theorem State.consumeDin_ram (n : Nat) : (s.consumeDin n).ram = s.ram := rfl
@[simp] theorem State.consumeDin_ramEpoch (n : Nat) : (s.consumeDin n).ramEpoch = s.ramEpoch := rfl
@[simp] theorem State.consumeDin_input (n : Nat) : (s.consumeDin n).input = s.input := rfl
@[simp] theorem State.consumeDin_din (n : Nat) : (s.consumeDin n).din = s.din.drop n := rfl
@[simp] theorem State.consumeDin_rsp (n : Nat) : (s.consumeDin n).rsp = s.rsp := rfl
@[simp] theorem State.consumeDin_dout (n : Nat) : (s.consumeDin n).dout = s.dout := rfl
@[simp] theorem State.consumeDin_draws (n : Nat) : (s.consumeDin n).draws = s.draws := rfl

/-! ## State.reset, a chip's and a slot's own updates -/

@[simp] theorem reset_global : State.reset.global = ⟨false, 0, 0⟩ := rfl
@[simp] theorem reset_ram : State.reset.ram = [] := rfl
@[simp] theorem reset_input : State.reset.input = [] := rfl
@[simp] theorem reset_rsp : State.reset.rsp = [] := rfl
@[simp] theorem reset_dout : State.reset.dout = [] := rfl
@[simp] theorem reset_din : State.reset.din = [] := rfl
@[simp] theorem reset_draws : State.reset.draws = 0 := rfl

@[simp] theorem hardwareReset_global (c : Config) : (hardwareReset c s).global = ⟨false, 0, 0⟩ := rfl
@[simp] theorem hardwareReset_ram (c : Config) : (hardwareReset c s).ram = [] := rfl
@[simp] theorem hardwareReset_ramEpoch (c : Config) : (hardwareReset c s).ramEpoch = s.ramEpoch + 1 := rfl
@[simp] theorem hardwareReset_input (c : Config) : (hardwareReset c s).input = s.input := rfl
@[simp] theorem hardwareReset_din (c : Config) : (hardwareReset c s).din = s.din := rfl
@[simp] theorem hardwareReset_rsp (c : Config) : (hardwareReset c s).rsp = s.rsp := rfl
@[simp] theorem hardwareReset_dout (c : Config) : (hardwareReset c s).dout = s.dout := rfl
@[simp] theorem hardwareReset_draws (c : Config) : (hardwareReset c s).draws = s.draws := rfl
@[simp] theorem hardwareReset_bufs (c : Config) : (hardwareReset c s).bufs = (resetState c).bufs := rfl
@[simp] theorem hardwareReset_syns (c : Config) : (hardwareReset c s).syns = (resetState c).syns := rfl
@[simp] theorem hardwareReset_oscs (c : Config) : (hardwareReset c s).oscs = (resetState c).oscs := rfl
@[simp] theorem hardwareReset_voices (c : Config) : (hardwareReset c s).voices = (resetState c).voices := rfl
@[simp] theorem hardwareReset_chips (c : Config) : (hardwareReset c s).chips = (resetState c).chips := rfl

@[simp] theorem presentWord_global (w : CmdWord) : (presentWord w s).global = s.global := rfl
@[simp] theorem presentWord_input (w : CmdWord) : (presentWord w s).input = .command w :: s.input := rfl

end Sys2Proof.Machine
end

