-- ==== Sys2Proof/Laws/Ops.lean ====
section
/-! SUPPORT. What each shared operation of Machine/Ops.lean can do, said once. -/

namespace Sys2Proof.Machine

/-! ## Taking a fault -/

theorem raiseFault_of_clear (op : Byte) (x : FaultCause) (s : State) (h : s.global.fault = false) :
    raiseFault op x s = { s with global := faulted op x } := by
  simp [raiseFault, h, State.setGlobal, faulted]

theorem raiseFault_of_set (op : Byte) (x : FaultCause) (s : State) (h : s.global.fault = true) :
    raiseFault op x s = s := by simp [raiseFault, h]

/-- Taking a fault changes GLOBAL alone. -/
theorem raiseFault_eq (op : Byte) (x : FaultCause) (s : State) :
    raiseFault op x s = { s with global := (raiseFault op x s).global } := by
  unfold raiseFault; split <;> rfl

@[simp] theorem raiseFault_fault (op : Byte) (x : FaultCause) (s : State) :
    (raiseFault op x s).global.fault = true := by
  unfold raiseFault; split <;> simp_all

section
variable (op : Byte) (x : FaultCause) (s : State)
@[simp] theorem raiseFault_bufs : (raiseFault op x s).bufs = s.bufs := by rw [raiseFault_eq]
@[simp] theorem raiseFault_syns : (raiseFault op x s).syns = s.syns := by rw [raiseFault_eq]
@[simp] theorem raiseFault_oscs : (raiseFault op x s).oscs = s.oscs := by rw [raiseFault_eq]
@[simp] theorem raiseFault_voices : (raiseFault op x s).voices = s.voices := by rw [raiseFault_eq]
@[simp] theorem raiseFault_chips : (raiseFault op x s).chips = s.chips := by rw [raiseFault_eq]
@[simp] theorem raiseFault_ram : (raiseFault op x s).ram = s.ram := by rw [raiseFault_eq]
@[simp] theorem raiseFault_ramEpoch : (raiseFault op x s).ramEpoch = s.ramEpoch := by rw [raiseFault_eq]
@[simp] theorem raiseFault_input : (raiseFault op x s).input = s.input := by rw [raiseFault_eq]
@[simp] theorem raiseFault_din : (raiseFault op x s).din = s.din := by rw [raiseFault_eq]
@[simp] theorem raiseFault_rsp : (raiseFault op x s).rsp = s.rsp := by rw [raiseFault_eq]
@[simp] theorem raiseFault_dout : (raiseFault op x s).dout = s.dout := by rw [raiseFault_eq]
@[simp] theorem raiseFault_draws : (raiseFault op x s).draws = s.draws := by rw [raiseFault_eq]
end

@[simp] theorem settle_ok (op : Byte) (s t : State) : settle op s (.ok t) = t := rfl
@[simp] theorem settle_error (op : Byte) (s : State) (x : FaultCause) :
    settle op s (.error x) = raiseFault op x s := rfl
@[simp] theorem settleImprecise_ok (op : Byte) (w t : State) : settleImprecise op w (.ok t) = t := rfl
@[simp] theorem settleImprecise_error (op : Byte) (w : State) (x : FaultCause) :
    settleImprecise op w (.error x) = raiseFault op x w := rfl
@[simp] theorem whenInRange_true (op : Byte) (s t : State) : whenInRange op true s t = t := rfl
@[simp] theorem whenInRange_false (op : Byte) (s t : State) :
    whenInRange op false s t = raiseFault op .unitIndexOutOfRange s := rfl

/-- A command ends without a fault only where its unit indices are in range. -/
theorem whenInRange_no_fault {op : Byte} {b : Bool} {s t : State} (h : (whenInRange op b s t).global.fault = false) :
    b = true := by
  cases b with
  | true => rfl
  | false => simp at h

/-- A command whose faults are precise ends without a fault only by its own effect. -/
theorem settle_cases (op : Byte) (s : State) (r : Attempt) :
    (∃ t, r = .ok t ∧ settle op s r = t) ∨ ∃ x, r = .error x ∧ settle op s r = raiseFault op x s := by
  cases r with
  | ok t => exact .inl ⟨t, rfl, rfl⟩
  | error x => exact .inr ⟨x, rfl, rfl⟩

theorem settle_no_fault (op : Byte) (s : State) (r : Attempt) (h : (settle op s r).global.fault = false) :
    r = .ok (settle op s r) := by
  cases r with
  | ok t => rfl
  | error x => simp at h

theorem settleImprecise_no_fault (op : Byte) (w : State) (r : Attempt)
    (h : (settleImprecise op w r).global.fault = false) : r = .ok (settleImprecise op w r) := by
  cases r with
  | ok t => rfl
  | error x => simp at h

/-! ## Changing a unit that is there, or is not -/

theorem modify_eq_set {α : Type} (l : List α) (i : Nat) (f : α → α) (a : α) (h : l[i]? = some a) :
    l.modify i f = l.set i (f a) := by
  apply List.ext_getElem?
  intro j
  rw [List.getElem?_modify, List.getElem?_set]
  obtain ⟨hi, ha⟩ := List.getElem?_eq_some_iff.mp h
  by_cases e : i = j
  · subst e; simp [hi, ha]
  · simp [e]

/-- Putting back what is there changes nothing. -/
theorem set_self {α : Type} (l : List α) (i : Nat) (a : α) (h : l[i]? = some a) : l.set i a = l := by
  apply List.ext_getElem?
  intro j
  rw [List.getElem?_set]
  by_cases e : i = j
  · subst e
    obtain ⟨hi, ha⟩ := List.getElem?_eq_some_iff.mp h
    simp [hi, ha]
  · simp [e]

theorem modify_of_none {α : Type} (l : List α) (i : Nat) (f : α → α) (h : l[i]? = none) : l.modify i f = l := by
  apply List.ext_getElem?
  intro j
  rw [List.getElem?_modify]
  by_cases e : i = j
  · subst e; simp [h]
  · simp [e]

/-- Changing a unit to itself changes nothing. -/
theorem modify_id_at {α : Type} (l : List α) (i : Nat) (f : α → α) (h : ∀ a, l[i]? = some a → f a = a) :
    l.modify i f = l := by
  cases hl : l[i]? with
  | none => exact modify_of_none l i f hl
  | some a => rw [modify_eq_set l i f a hl, h a hl]; exact set_self l i a hl

theorem mem_modify {α : Type} (l : List α) (i : Nat) (f : α → α) (P : α → Prop) (hl : ∀ a ∈ l, P a)
    (hf : ∀ a, l[i]? = some a → P a → P (f a)) : ∀ a ∈ l.modify i f, P a := by
  intro a ha
  obtain ⟨j, hj⟩ := List.mem_iff_getElem?.mp ha
  rw [List.getElem?_modify] at hj
  by_cases e : i = j
  · subst e
    cases hx : l[i]? with
    | none => simp [hx] at hj
    | some x =>
      simp [hx] at hj
      subst hj
      exact hf x hx (hl x (List.mem_of_getElem? hx))
  · simp [e] at hj
    exact hl a (List.mem_of_getElem? hj)

/-! ## What a mid-command fault leaves -/

/-- A wrecked slot leaves everything but BUFs, slots, voices and the counter of free values. -/
theorem wreckSlot_frame (c : Config) (s : State) (o : Nat) :
    wreckSlot c s o = { s with
      bufs := (wreckSlot c s o).bufs, oscs := (wreckSlot c s o).oscs, voices := (wreckSlot c s o).voices,
      draws := (wreckSlot c s o).draws } := by
  unfold wreckSlot wreckVoice wreckSink
  split <;> split <;> rfl

/-- A wrecked chip leaves the SYNs, GLOBAL, the RAM and the ports. -/
theorem wreckChip_frame (c : Config) (ci : Nat) (s : State) :
    wreckChip c ci s = { s with
      bufs := (wreckChip c ci s).bufs, oscs := (wreckChip c ci s).oscs, voices := (wreckChip c ci s).voices,
      chips := (wreckChip c ci s).chips, draws := (wreckChip c ci s).draws } := by
  have key : ∀ (l : List Nat) (s : State), l.foldl (wreckSlot c) s = { s with
      bufs := (l.foldl (wreckSlot c) s).bufs, oscs := (l.foldl (wreckSlot c) s).oscs
      voices := (l.foldl (wreckSlot c) s).voices, draws := (l.foldl (wreckSlot c) s).draws } := by
    intro l
    induction l with
    | nil => intro s; rfl
    | cons o l ih => intro s; rw [List.foldl_cons, ih, wreckSlot_frame]
  unfold wreckChip
  rw [key]
  rfl

/-! ## The RAM -/

/-- The host's load seen by every read, addresses reduced modulo RAM_SIZE (20_memory.md R83). -/
theorem ramRead_loadRam (c : Config) (a x : Nat) (b : Byte) (s : State) :
    ramRead c (loadRam c a b s) x = if x % ramSize c = a % ramSize c then b else ramRead c s x := by
  show Memory.read _ (Memory.write _ _ _ _) _ = _
  exact Memory.read_write (ramDefault c s) s.ram _ _ b

/-! ## Two updates of one unit -/

theorem modify_modify {α : Type} (l : List α) (i : Nat) (f g : α → α) :
    (l.modify i f).modify i g = l.modify i fun a => g (f a) := by
  apply List.ext_getElem?
  intro j
  simp only [List.getElem?_modify]
  by_cases e : i = j <;> simp [e, Function.comp_def]

/-! ## Sizes -/

@[simp] theorem ramSize_pos (c : Config) : 0 < ramSize c := Nat.succ_pos _

@[simp] theorem ringN_pos (c : Config) : 0 < ringN c := by
  unfold ringN bufferSizeP; omega

end Sys2Proof.Machine
end

