-- ==== Sys2Proof/Laws/Invariant.lean ====
section
/-! SUPPORT. The updates of State.lean's groups keep EngineOk (Safety.lean) when they keep the unit they change well
formed. -/

namespace Sys2Proof.Machine

variable {c : Config} {s : State}

/-- EngineOk depends on GLOBAL, the ports, the queue and the counter of free values not at all. -/
theorem EngineOk.congr {t : State} (h : EngineOk c s) (hb : t.bufs = s.bufs) (hy : t.syns = s.syns)
    (ho : t.oscs = s.oscs) (hv : t.voices = s.voices) (hc : t.chips = s.chips) (hr : t.ram = s.ram)
    (he : t.ramEpoch = s.ramEpoch) : EngineOk c t where
  counts := by rw [← h.counts]; simp [State.counts, hb, hy, ho, hv, hc]
  bufs := by rw [hb]; exact h.bufs
  syns := by rw [hy]; exact h.syns
  oscs := by rw [ho, hb]; exact h.oscs
  voices := by rw [hv]; exact h.voices
  chips := by rw [hc]; exact h.chips
  ram := by simpa [ramDefault, hr, he] using h.ram

theorem EngineOk.respond (h : EngineOk c s) (v : Word32) : EngineOk c (s.respond v) :=
  h.congr rfl rfl rfl rfl rfl rfl rfl

theorem EngineOk.emitSamples (h : EngineOk c s) (l : List (Nat × Sample)) : EngineOk c (s.emitSamples l) :=
  h.congr rfl rfl rfl rfl rfl rfl rfl

theorem EngineOk.takeDraws (h : EngineOk c s) (n : Nat) : EngineOk c (s.takeDraws n) :=
  h.congr rfl rfl rfl rfl rfl rfl rfl

theorem EngineOk.consumeDin (h : EngineOk c s) (n : Nat) : EngineOk c (s.consumeDin n) :=
  h.congr rfl rfl rfl rfl rfl rfl rfl

theorem EngineOk.withInput (h : EngineOk c s) (l : List HostEvent) : EngineOk c { s with input := l } :=
  h.congr rfl rfl rfl rfl rfl rfl rfl

theorem EngineOk.raiseFault (h : EngineOk c s) (op : Byte) (x : FaultCause) : EngineOk c (raiseFault op x s) :=
  h.congr (by simp) (by simp) (by simp) (by simp) (by simp) (by simp) (by simp)

theorem EngineOk.whenInRange {t : State} (op : Byte) (b : Bool) (h : EngineOk c s) (ht : b = true → EngineOk c t) :
    EngineOk c (whenInRange op b s t) := by
  cases b with
  | true => exact ht rfl
  | false => exact h.raiseFault _ _

theorem EngineOk.settle (op : Byte) (r : Attempt) (h : EngineOk c s) (ht : ∀ t, r = .ok t → EngineOk c t) :
    EngineOk c (settle op s r) := by
  cases r with
  | ok t => exact ht t rfl
  | error x => exact h.raiseFault _ _

theorem EngineOk.settleImprecise {w : State} (op : Byte) (r : Attempt) (h : EngineOk c w)
    (ht : ∀ t, r = .ok t → EngineOk c t) : EngineOk c (settleImprecise op w r) := by
  cases r with
  | ok t => exact ht t rfl
  | error x => exact h.raiseFault _ _

theorem EngineOk.modBuf (h : EngineOk c s) (b : Nat) (f : Buf → Buf) (hf : ∀ B, s.bufs[b]? = some B → BufOk c B → BufOk c (f B)) :
    EngineOk c (s.modBuf b f) where
  counts := by rw [← h.counts]; simp [State.counts]
  bufs := mem_modify _ _ _ _ h.bufs hf
  syns := h.syns
  oscs := by simpa using h.oscs
  voices := h.voices
  chips := h.chips
  ram := h.ram

theorem EngineOk.modSyn (h : EngineOk c s) (y : Nat) (f : Syn → Syn) (hf : ∀ S, SynOk c S → SynOk c (f S)) :
    EngineOk c (s.modSyn y f) where
  counts := by rw [← h.counts]; simp [State.counts]
  bufs := h.bufs
  syns := mem_modify _ _ _ _ h.syns fun S _ hS => hf S hS
  oscs := h.oscs
  voices := h.voices
  chips := h.chips
  ram := h.ram

theorem EngineOk.modOsc (h : EngineOk c s) (o : Nat) (f : Osc → Osc)
    (hf : ∀ O, OscOk c s.bufs.length o O → OscOk c s.bufs.length o (f O)) : EngineOk c (s.modOsc o f) where
  counts := by rw [← h.counts]; simp [State.counts]
  bufs := h.bufs
  syns := h.syns
  oscs := by
    intro p O hO
    simp only [State.modOsc_oscs, List.getElem?_modify, State.modOsc_bufs] at hO ⊢
    by_cases e : o = p
    · subst e
      cases hx : s.oscs[o]? with
      | none => simp [hx] at hO
      | some x => simp [hx] at hO; subst hO; exact hf x (h.oscs o x hx)
    · simp [e] at hO; exact h.oscs p O hO
  voices := h.voices
  chips := h.chips
  ram := h.ram

theorem EngineOk.modTone (h : EngineOk c s) (o : Nat) (f : Tone → Tone)
    (hf : ∀ T, (f T).regs.length = T.regs.length) : EngineOk c (s.modTone o f) :=
  h.modOsc o _ fun O hO => ⟨by simpa [hf] using hO.regs_length, hO.sink⟩

theorem EngineOk.modVoice (h : EngineOk c s) (v : Nat) (f : Voice → Voice) (hf : ∀ V, VoiceOk c V → VoiceOk c (f V)) :
    EngineOk c (s.modVoice v f) where
  counts := by rw [← h.counts]; simp [State.counts]
  bufs := h.bufs
  syns := h.syns
  oscs := h.oscs
  voices := mem_modify _ _ _ _ h.voices fun V _ hV => hf V hV
  chips := h.chips
  ram := h.ram

theorem EngineOk.modChip (h : EngineOk c s) (ci : Nat) (f : Chip → Chip) (hf : ∀ C, ChipOk c ci C → ChipOk c ci (f C)) :
    EngineOk c (s.modChip ci f) where
  counts := by rw [← h.counts]; simp [State.counts]
  bufs := h.bufs
  syns := h.syns
  oscs := h.oscs
  voices := h.voices
  chips := by
    intro k C hC
    simp only [State.modChip_chips, List.getElem?_modify] at hC
    by_cases e : ci = k
    · subst e
      cases hx : s.chips[ci]? with
      | none => simp [hx] at hC
      | some x => simp [hx] at hC; subst hC; exact hf x (h.chips ci x hx)
    · simp [e] at hC; exact h.chips k C hC
  ram := h.ram

/-- A fold over a list keeps what each of its steps keeps. -/
theorem foldl_keeps {α β : Type} (P : β → Prop) (f : β → α → β) (l : List α) (b : β) (hb : P b)
    (hf : ∀ b a, a ∈ l → P b → P (f b a)) : P (l.foldl f b) := by
  induction l generalizing b with
  | nil => exact hb
  | cons a l ih =>
    exact ih (f b a) (hf b a (by simp) hb) fun b' a' ha' => hf b' a' (List.mem_cons_of_mem _ ha')

end Sys2Proof.Machine
end

