-- ==== Sys2Proof/Laws/Buffer.lean ====
section
/-! SUPPORT. The operations of Machine/Buffer.lean and Machine/Synth.lean: what each can answer, what it leaves alone, and
that it keeps a well-formed BUF well formed. -/

namespace Sys2Proof.Machine

/-! ## Sizes -/

theorem bufferSizeP_pos (c : Config) : 0 < bufferSizeP c := Nat.succ_pos _

theorem bufferSizeP_lt_ringN (c : Config) : bufferSizeP c + c.mixLead + 1 ≤ ringN c := by
  unfold ringN bufExtra; omega

theorem accBits_le (c : Config) : accBits c ≤ 31 := by unfold accBits; have := c.accBits.isLt; omega

theorem phaseBits_le (c : Config) : phaseBits c ≤ accBits c := Nat.min_le_right _ _

/-- A cursor with at most BUFFER_SIZE whole samples fits RT_W = 32 bits (40_buffer_ops.md R163). -/
theorem cursor_fits (c : Config) (n : Nat) (h : shrN n (accBits c) ≤ bufferSizeP c) : n < 2 ^ 32 := by
  unfold shrN at h
  have hacc := accBits_le c
  have hp : 0 < 2 ^ accBits c := Nat.two_pow_pos _
  have hsz : bufferSizeP c ≤ 2 ^ (32 - accBits c) - 1 := by
    unfold bufferSizeP
    have h2 : 2 ^ 1 ≤ 2 ^ (32 - accBits c) := Nat.pow_le_pow_right (by decide) (by omega)
    have := Nat.mod_lt c.bufferSizeRaw (show 0 < 2 ^ (32 - accBits c) - 1 by omega)
    omega
  have hn : n < (bufferSizeP c + 1) * 2 ^ accBits c := by
    have := (Nat.div_lt_iff_lt_mul hp).mp (Nat.lt_succ_of_le h)
    simpa using this
  have hle : (bufferSizeP c + 1) * 2 ^ accBits c ≤ 2 ^ (32 - accBits c) * 2 ^ accBits c := by
    apply Nat.mul_le_mul_right
    have : 0 < 2 ^ (32 - accBits c) := Nat.two_pow_pos _
    omega
  rw [← Nat.pow_add, show 32 - accBits c + accBits c = 32 by omega] at hle
  omega

theorem widthOf_le (c : Config) (q : Nat) : widthOf c q ≤ bufExtra c := by
  unfold widthOf bufExtra; omega

/-! ## Cells -/

theorem wrapN_lt (n : Nat) (x : Int) : wrapN n x < 2 ^ n := by
  unfold wrapN
  have hp : (0 : Int) < ((2 ^ n : Nat) : Int) := by exact_mod_cast Nat.two_pow_pos n
  have h1 := Int.emod_nonneg x (Int.ne_of_gt hp)
  have h2 := Int.emod_lt_of_pos x hp
  omega

/-- Adding twice to a cell wraps once. -/
theorem wrapN_wrapN_add (n : Nat) (x y : Int) : wrapN n ((wrapN n x : Int) + y) = wrapN n (x + y) := by
  unfold wrapN
  have hp : (0 : Int) < ((2 ^ n : Nat) : Int) := by exact_mod_cast Nat.two_pow_pos n
  rw [Int.toNat_of_nonneg (Int.emod_nonneg x (Int.ne_of_gt hp)), Int.emod_add_emod]

@[simp] theorem addCell_length (c : Config) (l : List Nat) (i : Nat) (x : Int) : (addCell c l i x).length = l.length := by
  simp [addCell]

theorem addCell_width (c : Config) (l : List Nat) (i : Nat) (x : Int) (h : ∀ v ∈ l, v < 2 ^ cellW c) :
    ∀ v ∈ addCell c l i x, v < 2 ^ cellW c :=
  mem_modify _ _ _ _ h fun _ _ _ => wrapN_lt _ _

/-- Two additions to cells, the same or not, commute. -/
theorem addCell_comm (c : Config) (l : List Nat) (i j : Nat) (x y : Int) :
    addCell c (addCell c l i x) j y = addCell c (addCell c l j y) i x := by
  unfold addCell
  apply List.ext_getElem?
  intro k
  simp only [List.getElem?_modify]
  by_cases hi : i = k <;> by_cases hj : j = k <;> simp [hi, hj]
  all_goals cases l[k]? <;> simp
  · rename_i v
    rw [wrapN_wrapN_add, wrapN_wrapN_add]
    congr 1; ring

theorem cellIndex_lt (c : Config) (B : Buf) (j : Nat) : cellIndex c B j < ringN c := Nat.mod_lt _ (ringN_pos c)

/-- Within one turn of the ring, different sample indices name different cells (20_memory.md R81). -/
theorem cellIndex_inj (c : Config) (B : Buf) {i j : Nat} (hi : i < ringN c) (hj : j < ringN c)
    (h : cellIndex c B i = cellIndex c B j) : i = j := by
  unfold cellIndex at h
  have h' : i % ringN c = j % ringN c := Nat.ModEq.add_left_cancel' B.rd h
  rwa [Nat.mod_eq_of_lt hi, Nat.mod_eq_of_lt hj] at h'

/-! ## Well-formed BUFs -/

theorem BufOk.clearedBuf {c : Config} {B : Buf} (h : BufOk c B) : BufOk c (clearedBuf c B) where
  cells_length := by simp [Machine.clearedBuf]
  cells_width := by
    intro x hx
    have : x = 0 := by simpa [Machine.clearedBuf] using (List.eq_of_mem_replicate hx)
    subst this; exact Nat.two_pow_pos _
  rd_range := ringN_pos c
  size := h.size

theorem BufOk.withCells {c : Config} {B : Buf} (h : BufOk c B) (cells : List Nat) (hl : cells.length = B.cells.length)
    (hw : ∀ x ∈ cells, x < 2 ^ cellW c) : BufOk c { B with cells := cells } where
  cells_length := by simpa [hl] using h.cells_length
  cells_width := hw
  rd_range := h.rd_range
  size := h.size

theorem BufOk.readerStep {c : Config} {B : Buf} (h : BufOk c B) (i : Nat) : BufOk c (readerStep c i B).1 where
  cells_length := by simpa [Machine.readerStep] using h.cells_length
  cells_width := by
    intro x hx
    rcases List.mem_or_eq_of_mem_set hx with hx | rfl
    · exact h.cells_width x hx
    · exact Nat.two_pow_pos _
  rd_range := h.rd_range
  size := h.size

theorem BufOk.readLoop {c : Config} (base stride n : Nat) :
    ∀ (i : Nat) {B : Buf}, BufOk c B → BufOk c (readLoop c base stride n i B).1 := by
  induction n with
  | zero => intro i B h; exact h
  | succ n ih => intro i B h; exact ih (i + 1) (h.readerStep _)

theorem BufOk.dropSamples {c : Config} {B : Buf} (h : BufOk c B) (n : Nat) : BufOk c (dropSamples c n B) where
  cells_length := h.cells_length
  cells_width := h.cells_width
  rd_range := Nat.mod_lt _ (ringN_pos c)
  size := h.size

theorem mixCells_length (c : Config) (l : List Int) :
    ∀ (j : Nat) (prev : Int) (cells : List Nat), (mixCells c j prev l cells).length = cells.length := by
  induction l with
  | nil => intro j prev cells; simp [mixCells]
  | cons x l ih => intro j prev cells; simp [mixCells, ih]

theorem mixCells_width (c : Config) (l : List Int) :
    ∀ (j : Nat) (prev : Int) (cells : List Nat), (∀ v ∈ cells, v < 2 ^ cellW c) →
      ∀ v ∈ mixCells c j prev l cells, v < 2 ^ cellW c := by
  induction l with
  | nil => intro j prev cells h; exact addCell_width _ _ _ _ h
  | cons x l ih => intro j prev cells h; exact ih _ _ _ (addCell_width _ _ _ _ h)

theorem zeroCells_length (c : Config) (rd n : Nat) (cells : List Nat) :
    (zeroCells c rd n cells).length = cells.length :=
  foldl_keeps (fun l : List Nat => l.length = cells.length) _ _ _ rfl fun l i _ h => by simpa using h

theorem zeroCells_width (c : Config) (rd n : Nat) (cells : List Nat) (h : ∀ v ∈ cells, v < 2 ^ cellW c) :
    ∀ v ∈ zeroCells c rd n cells, v < 2 ^ cellW c :=
  foldl_keeps (fun l : List Nat => ∀ v ∈ l, v < 2 ^ cellW c) _ _ _ h fun l i _ hl v hv => by
    rcases List.mem_or_eq_of_mem_set hv with hv | rfl
    · exact hl v hv
    · exact Nat.two_pow_pos _

theorem injectTaps_length (c : Config) (S : Syn) (B : Buf) (p : Position) (d : Int) :
    (injectTaps c S B p d).length = B.cells.length :=
  foldl_keeps (fun l : List Nat => l.length = B.cells.length) _ _ _ rfl fun l i _ h => by simpa using h

theorem injectTaps_width (c : Config) (S : Syn) (B : Buf) (p : Position) (d : Int)
    (h : ∀ v ∈ B.cells, v < 2 ^ cellW c) : ∀ v ∈ injectTaps c S B p d, v < 2 ^ cellW c :=
  foldl_keeps (fun l : List Nat => ∀ v ∈ l, v < 2 ^ cellW c) _ _ _ h fun _ _ _ hl => addCell_width _ _ _ _ hl

/-! ## What each operation can answer -/

/-- SYN.OFFSET, if it completes, changes the cells of its BUF alone, or nothing. -/
theorem synOffset_ok {c : Config} {y b t : Nat} {d : Int} {s s' : State} (h : synOffset c y b t d s = .ok s') :
    ∃ B S, s.bufs[b]? = some B ∧ s.syns[y]? = some S ∧
      ((B.bufferSize = 0 ∧ s' = s) ∨
        (B.bufferSize ≠ 0 ∧ (position c B t).index + widthOf c S.quality ≤ ringN c ∧
          s' = { s with bufs := s.bufs.set b { B with cells := injectTaps c S B (position c B t) d } })) := by
  unfold synOffset at h
  split at h
  · rename_i B S hB hS
    refine ⟨B, S, hB, hS, ?_⟩
    split at h
    · exact .inl ⟨‹_›, by injection h with h; exact h.symm⟩
    · dsimp only at h
      split at h
      · cases h
      · refine .inr ⟨‹_›, by omega, ?_⟩
        injection h with h
        rw [← h, State.modBuf, modify_eq_set _ _ _ B hB]
  · cases h

/-- SYN.OFFSET completes where its units exist and the taps stay in the ring. -/
theorem synOffset_completes (c : Config) (y b t : Nat) (d : Int) (s : State) (B : Buf) (S : Syn)
    (hB : s.bufs[b]? = some B) (hS : s.syns[y]? = some S) (h : BufAdmits c t B) :
    ∃ s', synOffset c y b t d s = .ok s' := by
  unfold synOffset
  simp only [hB, hS]
  split
  · exact ⟨_, rfl⟩
  · have hw := widthOf_le c S.quality
    have : (position c B t).index + widthOf c S.quality ≤ ringN c := by
      rcases h with h | h
      · exact absurd h ‹_›
      · show shrN (resampledTime B t) (accBits c) + _ ≤ _
        unfold ringN; omega
    rw [if_neg (by omega)]
    exact ⟨_, rfl⟩

/-- BUF.SETRATE: InvalidRate, an allocation or a failed allocation. -/
theorem bufSetrate_cases (c : Config) (b : Nat) (rate clk : Word32) (s : State) :
    bufSetrate c b rate clk s = .error .invalidRate ∨
    bufSetrate c b rate clk s =
      .ok (((s.modBuf b (ratedBuf c rate (rateSetting c rate.toNat clk.toNat))).takeDraws 1).respond 0) ∨
    bufSetrate c b rate clk s = .ok (((s.modBuf b fun B => { B with bufferSize := 0 }).takeDraws 1).respond 1) := by
  unfold bufSetrate
  split
  · exact .inl rfl
  · dsimp only
    split
    · exact .inl rfl
    · split
      · exact .inr (.inl rfl)
      · exact .inr (.inr rfl)

/-- BUF.ENDFRAME, if it completes, moves the cursor of its BUF alone, or changes nothing. -/
theorem bufEndframe_ok {c : Config} {b : Nat} {time : Word32} {s s' : State} (h : bufEndframe c b time s = .ok s') :
    s' = s ∨ ∃ B, s.bufs[b]? = some B ∧ B.bufferSize ≠ 0 ∧
      shrN (resampledTime B time.toNat) (accBits c) ≤ B.bufferSize ∧ resampledTime B time.toNat < 2 ^ 32 ∧
      s' = { s with bufs := s.bufs.set b { B with offset := BitVec.ofNat 32 (resampledTime B time.toNat) } } := by
  unfold bufEndframe at h
  split at h
  · injection h with h; exact .inl h.symm
  · rename_i B hB
    split at h
    · injection h with h; exact .inl h.symm
    · dsimp only at h
      split at h
      · cases h
      · refine .inr ⟨B, hB, ‹_›, by omega, by omega, ?_⟩
        injection h with h
        rw [← h, State.modBuf, modify_eq_set _ _ _ B hB]

/-- BUF.MIX, if it completes, changes the cells of its BUF, DIN and the counter of free values alone, or nothing. -/
theorem bufMix_ok {c : Config} {b : Nat} {count : Word32} {s s' : State} (h : bufMix c b count s = .ok s') :
    s' = s ∨ (∃ B, s.bufs[b]? = some B ∧ B.bufferSize = 0 ∧ s' = s.consumeDin count.toNat) ∨
      ∃ B, s.bufs[b]? = some B ∧ B.bufferSize ≠ 0 ∧ samplesAvail c B + c.mixLead + count.toNat + 1 ≤ ringN c ∧
        s' = { s with
          bufs := s.bufs.set b { B with
            cells := mixCells c (B.rd + (samplesAvail c B + c.mixLead)) 0
              (scaledSamples c (dinSamples c s count.toNat)) B.cells }
          din := s.din.drop count.toNat
          draws := s.draws + if s.din.length < count.toNat then 1 else 0 } := by
  unfold bufMix at h
  split at h
  · injection h with h; exact .inl h.symm
  · rename_i B hB
    split at h
    · injection h with h; exact .inr (.inl ⟨B, hB, ‹_›, h.symm⟩)
    · dsimp only at h
      split at h
      · cases h
      · refine .inr (.inr ⟨B, hB, ‹_›, by omega, ?_⟩)
        injection h with h
        rw [← h, State.modBuf, modify_eq_set _ _ _ B hB]
        rfl

/-- BUF.RMSIL, if it completes, changes its BUF alone. -/
theorem bufRmsil_ok {c : Config} {b : Nat} {count : Word32} {s s' : State} (h : bufRmsil c b count s = .ok s') :
    s' = s ∨ ∃ B, s.bufs[b]? = some B ∧ B.bufferSize ≠ 0 ∧ count.toNat ≤ samplesAvail c B ∧
      s' = { s with
        bufs := s.bufs.set b (dropSamples c count.toNat { B with cells := zeroCells c B.rd count.toNat B.cells }) } := by
  unfold bufRmsil at h
  split at h
  · injection h with h; exact .inl h.symm
  · rename_i B hB
    split at h
    · injection h with h; exact .inl h.symm
    · split at h
      · cases h
      · refine .inr ⟨B, hB, ‹_›, by omega, ?_⟩
        injection h with h
        rw [← h, State.modBuf, modify_eq_set _ _ _ B hB]

/-! ## The commands keep EngineOk -/

theorem EngineOk.setBuf {c : Config} {s : State} (h : EngineOk c s) (b : Nat) (B B' : Buf) (hB : s.bufs[b]? = some B)
    (hok : BufOk c B') : EngineOk c { s with bufs := s.bufs.set b B' } := by
  have := h.modBuf b (fun _ => B') fun _ _ _ => hok
  rwa [State.modBuf, modify_eq_set _ _ _ B hB] at this

theorem EngineOk.buf {c : Config} {s : State} (h : EngineOk c s) {b : Nat} {B : Buf} (hB : s.bufs[b]? = some B) :
    BufOk c B := h.bufs B (List.mem_of_getElem? hB)

theorem EngineOk.synOffset {c : Config} {y b t : Nat} {d : Int} {s s' : State} (h : EngineOk c s)
    (hr : Machine.synOffset c y b t d s = .ok s') : EngineOk c s' := by
  obtain ⟨B, S, hB, -, ⟨-, rfl⟩ | ⟨-, -, rfl⟩⟩ := synOffset_ok hr
  · exact h
  · exact h.setBuf b B _ hB ((h.buf hB).withCells _ (injectTaps_length _ _ _ _ _)
      (injectTaps_width _ _ _ _ _ (h.buf hB).cells_width))

theorem EngineOk.bufSetrate {c : Config} {b : Nat} {rate clk : Word32} {s s' : State} (h : EngineOk c s)
    (hr : Machine.bufSetrate c b rate clk s = .ok s') : EngineOk c s' := by
  rcases bufSetrate_cases c b rate clk s with e | e | e
  · rw [e] at hr; cases hr
  · rw [e] at hr; injection hr with hr; subst hr
    refine ((h.modBuf b _ fun B _ hB => ?_).takeDraws 1).respond 0
    exact BufOk.clearedBuf (B := { B with bufferSize := _, sampleRate := _, clockRate := _, factor := _ })
      ⟨hB.cells_length, hB.cells_width, hB.rd_range, .inr rfl⟩
  · rw [e] at hr; injection hr with hr; subst hr
    refine ((h.modBuf b _ fun B _ hB => ?_).takeDraws 1).respond 1
    exact ⟨hB.cells_length, hB.cells_width, hB.rd_range, .inl rfl⟩

theorem EngineOk.bufEndframe {c : Config} {b : Nat} {time : Word32} {s s' : State} (h : EngineOk c s)
    (hr : Machine.bufEndframe c b time s = .ok s') : EngineOk c s' := by
  obtain rfl | ⟨B, hB, -, -, -, rfl⟩ := bufEndframe_ok hr
  · exact h
  · have hb := h.buf hB
    exact h.setBuf b B _ hB ⟨hb.cells_length, hb.cells_width, hb.rd_range, hb.size⟩

theorem EngineOk.bufMix {c : Config} {b : Nat} {count : Word32} {s s' : State} (h : EngineOk c s)
    (hr : Machine.bufMix c b count s = .ok s') : EngineOk c s' := by
  obtain rfl | ⟨-, -, -, rfl⟩ | ⟨B, hB, -, -, rfl⟩ := bufMix_ok hr
  · exact h
  · exact h.consumeDin _
  · exact (h.setBuf b B _ hB ((h.buf hB).withCells _ (mixCells_length _ _ _ _ _)
      (mixCells_width _ _ _ _ _ (h.buf hB).cells_width))).congr rfl rfl rfl rfl rfl rfl rfl

theorem EngineOk.bufRmsil {c : Config} {b : Nat} {count : Word32} {s s' : State} (h : EngineOk c s)
    (hr : Machine.bufRmsil c b count s = .ok s') : EngineOk c s' := by
  obtain rfl | ⟨B, hB, -, -, rfl⟩ := bufRmsil_ok hr
  · exact h
  · exact h.setBuf b B _ hB (((h.buf hB).withCells _ (zeroCells_length _ _ _ _)
      (zeroCells_width _ _ _ _ (h.buf hB).cells_width)).dropSamples _)

theorem EngineOk.bufRead {c : Config} {s : State} (h : EngineOk c s) (b : Nat) (stereo : Bool) (max : Word32) :
    EngineOk c (bufRead c b stereo max s) := by
  unfold Machine.bufRead
  split
  · exact h
  · rename_i B hB
    split
    · exact h.respond 0
    · exact ((h.modBuf b _ fun _ _ _ => ((h.buf hB).readLoop _ _ _ _).dropSamples _).emitSamples _).respond _

theorem EngineOk.bufAnswer {c : Config} {s : State} (h : EngineOk c s) (b : Nat) (f : Buf → Word32) :
    EngineOk c (bufAnswer b f s) := by
  unfold Machine.bufAnswer
  split
  · exact h
  · exact h.respond _

theorem EngineOk.bufClear {c : Config} {s : State} (h : EngineOk c s) (b : Nat) : EngineOk c (bufClear c b s) :=
  h.modBuf b _ fun _ _ hB => hB.clearedBuf

theorem EngineOk.synVolume {c : Config} {s : State} (h : EngineOk c s) (y : Nat) (unit : Word32) :
    EngineOk c (synVolume c y unit s) := h.modSyn y _ fun _ _ => rfl

theorem EngineOk.synTreble {c : Config} {s : State} (h : EngineOk c s) (y : Nat) (eq : Word32) :
    EngineOk c (synTreble c y eq s) := h.modSyn y _ fun _ _ => rfl

end Sys2Proof.Machine
end

