-- ==== Sys2Proof/Laws/Params.lean ====
section
/-! SUPPORT. What Machine/Params.lean and the register maps of Machine/Registers.lean make true of every Config: the
document's numbers as numerals, exclusive ownership (10_state.md R36), and the 64 SPC700 addresses (20_memory.md R82). -/

namespace Sys2Proof.Machine

/-! ## The document's numbers -/

@[simp] theorem fractionUnit_eq : fractionUnit = 4096 := rfl

@[simp] theorem blockNibbles_eq : blockNibbles = 16 := rfl

@[simp] theorem nesNtscPeriod_eq : nesNtscPeriod = 7458 := rfl

@[simp] theorem frame1Shortening_eq : frame1Shortening = 2 := rfl

/-! ## Lists in a configured order -/

theorem mem_arrange {order l : List Nat} {x : Nat} : x ∈ arrange order l ↔ x ∈ l := by
  simp only [arrange, List.mem_append, List.mem_dedup, List.mem_filter, Bool.not_eq_true',
    List.contains_eq_mem, decide_eq_false_iff_not, decide_eq_true_eq]
  tauto

theorem arrange_nodup {order l : List Nat} (h : l.Nodup) : (arrange order l).Nodup := by
  unfold arrange
  refine List.Nodup.append (List.nodup_dedup _) (h.filter _) ?_
  intro x hx hx'
  simp only [List.mem_dedup, List.mem_filter] at hx hx'
  simp_all

/-! ## Oscillators -/

theorem oscSequence_nodup (c : Config) : (oscSequence c).Nodup := arrange_nodup List.nodup_range

theorem mem_oscSequence (c : Config) (o : Nat) : o ∈ oscSequence c ↔ o < numOsc c := by
  simp [oscSequence, mem_arrange]

/-- The oscillators of a chip are listed once each (10_state.md R36). -/
theorem chipOscs_nodup (c : Config) (ci : Nat) : (chipOscs c ci).Nodup := (oscSequence_nodup c).filter _

theorem mem_chipOscs (c : Config) (ci o : Nat) : o ∈ chipOscs c ci ↔ o < numOsc c ∧ ownerOf c o = ci := by
  simp [chipOscs, List.mem_filter, mem_oscSequence]

/-- The chip that owns an oscillator of the engine is a chip of the engine (10_state.md R36). -/
theorem ownerOf_lt (c : Config) {o : Nat} (h : o < numOsc c) : ownerOf c o < c.numChip.val := by
  have hc : c.numChip.val ≠ 0 := by intro h0; simp [numOsc, h0] at h
  have := Nat.mod_lt (c.oscOwnerRaw o) (show 0 < max c.numChip.val 1 by omega)
  unfold ownerOf; omega

/-- NUM_OSC fits the unit field of a command word. -/
theorem numOsc_lt (c : Config) : numOsc c < 256 := by
  unfold numOsc; split
  · omega
  · exact c.numOscRaw.isLt

/-! ## Voices -/

theorem voiceSlots_nodup (c : Config) : (voiceSlots c).Nodup := arrange_nodup (List.nodup_range.filter _)

theorem mem_voiceSlots (c : Config) (o : Nat) : o ∈ voiceSlots c ↔ o < numOsc c ∧ oscKind c o = .brrVoice := by
  simp [voiceSlots, mem_arrange]

/-- VOICE_OSC is one-to-one, and `voiceOf` its inverse. -/
theorem voiceOf_eq_some {c : Config} {o v : Nat} : voiceOf c o = some v ↔ (voiceSlots c)[v]? = some o := by
  have hn := voiceSlots_nodup c
  unfold voiceOf
  constructor
  · intro h
    obtain ⟨hv, hb, -⟩ := List.findIdx?_eq_some_iff_getElem.mp h
    rw [List.getElem?_eq_getElem hv]
    simpa using hb
  · intro h
    obtain ⟨hv, ho⟩ := List.getElem?_eq_some_iff.mp h
    refine List.findIdx?_eq_some_iff_getElem.mpr ⟨hv, by simpa using ho, fun j hj => ?_⟩
    have hne : (voiceSlots c)[j] ≠ (voiceSlots c)[v] := by
      intro he
      exact absurd ((List.Nodup.getElem_inj_iff hn).mp he) (by omega)
    simpa [ho] using hne

theorem voiceOsc_of_voiceOf {c : Config} {o v : Nat} (h : voiceOf c o = some v) : voiceOsc c v = o := by
  simp [voiceOsc, voiceOf_eq_some.mp h]

theorem voiceOf_lt {c : Config} {o v : Nat} (h : voiceOf c o = some v) : v < numVoice c :=
  (List.getElem?_eq_some_iff.mp (voiceOf_eq_some.mp h)).1

/-- A slot of the engine wraps a voice exactly when it is a BRR_VOICE (43_brr_voice_ops.md R290). -/
theorem voiceOf_isSome {c : Config} {o : Nat} : (voiceOf c o).isSome = true ↔ o < numOsc c ∧ oscKind c o = .brrVoice := by
  rw [← mem_voiceSlots, Option.isSome_iff_exists]
  simp only [voiceOf_eq_some]
  exact List.mem_iff_getElem?.symm

/-- Every voice is in exactly one slot, and so in exactly one CHIP_OSCS (10_state.md R36). -/
theorem voiceOsc_lt {c : Config} {v : Nat} (h : v < numVoice c) : voiceOsc c v < numOsc c := by
  have : (voiceSlots c)[v]? = some (voiceSlots c)[v] := List.getElem?_eq_getElem h
  simp only [voiceOsc, this, Option.getD_some]
  exact ((mem_voiceSlots c _).mp (List.getElem_mem h)).1

theorem numVoice_le (c : Config) : numVoice c ≤ numOsc c := by
  have : (voiceSlots c).length ≤ (List.range (numOsc c)).length :=
    ((voiceSlots_nodup c).subperm fun o ho => List.mem_range.mpr ((mem_voiceSlots c o).mp ho).1).length_le
  simpa [numVoice] using this

/-- What `fitVoices` gives meets `eightVoices`, and parameters that meet it stay as they are. -/
theorem fitVoices_of_eightVoices {c : Config} (h : eightVoices c = true) : fitVoices c = c := by simp [fitVoices, h]

theorem eightVoices_fitVoices (c : Config) : eightVoices (fitVoices c) = true := by
  cases h : eightVoices c with
  | true => rw [fitVoices_of_eightVoices h, h]
  | false =>
    have hk : ∀ ci, (fitVoices c).chipKind ci ≠ .spc700Dsp := fun ci => by
      simp only [fitVoices, h, true_and]; split <;> simp_all
    have ho : ∀ o, oscKind (fitVoices c) o ≠ .brrVoice := fun o => by
      simp only [oscKind, fitVoices, h, true_and]; split <;> simp_all
    simp [eightVoices, chipVoices, hk, ho]

theorem eightVoices_impl : eightVoices Config.impl = true := eightVoices_fitVoices _

/-! ## Synthesizers -/

/-- Every oscillator has a SYN of the engine. -/
theorem oscSyn_lt (c : Config) {o : Nat} (h : o < numOsc c) : oscSyn c o < numSyn c := by
  unfold oscSyn numSyn
  by_cases hw : synsWired c = true
  · rw [if_pos hw, if_pos hw]
    simp only [synsWired, List.all_eq_true, List.mem_range, Bool.and_eq_true, decide_eq_true_eq] at hw
    exact (hw o h).1
  · rw [if_neg hw, if_neg hw]; exact h

/-- NUM_SYN fits the unit field of a command word. -/
theorem numSyn_lt (c : Config) : numSyn c < 256 := by
  unfold numSyn; split
  · exact c.numSynRaw.isLt
  · exact numOsc_lt c

/-- Oscillators that share a SYN belong to one chip (10_state.md R36). -/
theorem oscSyn_shared (c : Config) {o p : Nat} (ho : o < numOsc c) (hp : p < numOsc c) (h : oscSyn c o = oscSyn c p) :
    ownerOf c o = ownerOf c p := by
  unfold oscSyn at h
  by_cases hw : synsWired c = true
  · rw [if_pos hw, if_pos hw] at h
    simp only [synsWired, List.all_eq_true, List.mem_range, Bool.and_eq_true, decide_eq_true_eq, Bool.or_eq_true,
      bne_iff_ne, beq_iff_eq] at hw
    exact ((hw o ho).2 p hp).resolve_left fun hne => hne h
  · rw [if_neg hw, if_neg hw] at h; rw [h]

/-! ## SPC700 addresses -/

/-- The base, the stride and the offsets of the SPC700 voice blocks, which give 64 addresses, no two the same
(20_memory.md R82). -/
theorem spcVoiceAddrs_spaced (c : Config) : ∃ (base stride : Nat) (field : Fin docNumbers.spcFields → Nat),
    spcVoiceAddrs c = spcBlocks base stride field ∧ ((spcVoiceAddrs c).map Prod.fst).Nodup := by
  unfold spcVoiceAddrs
  dsimp only
  split
  · exact ⟨_, _, _, rfl, ‹_›⟩
  · refine ⟨_, _, _, rfl, ?_⟩
    have h : (spcBlocks c.spcBase docNumbers.spcFields fun f => f.val).map Prod.fst =
        (List.range 64).map fun i => c.spcBase + i := by
      rfl
    rw [h]
    exact List.Nodup.map (fun a b hab => by simpa using hab) List.nodup_range

end Sys2Proof.Machine
end

