-- ==== Sys2Proof/Laws/Voice.lean ====
section
/-! SUPPORT. The operations of Machine/Voice.lean keep a voice well formed, and what each leaves alone. -/

namespace Sys2Proof.Machine

variable {c : Config}

/-! ## Parameters -/

theorem envMax_le (c : Config) : envMax c ≤ envelopeRange c := Nat.min_le_right _ _

/-- A GAIN step keeps the envelope in 0..ENVELOPE_RANGE (10_state.md R34). -/
theorem gainClamp_le (c : Config) (m : GainMode) (x : Int) : gainClamp c m x ≤ envelopeRange c := by
  have := envMax_le c
  unfold gainClamp; split
  · omega
  · exact Nat.min_le_right _ _

/-- A value a GAIN step computes inside 0..ENV_MAX is taken as it is (43_brr_voice_ops.md R281). -/
theorem gainClamp_of_mem (c : Config) (m : GainMode) (x : Int) (h : 0 ≤ x) (h' : x ≤ envMax c) :
    (gainClamp c m x : Int) = x := by
  unfold gainClamp; rw [if_pos ⟨h, h'⟩]; omega

theorem envelopeQuantum_pos (c : Config) : 0 < envelopeQuantum c := Nat.succ_pos _

/-- DECAY_DEC never takes more than there is (43_brr_voice_ops.md R278). -/
theorem decayDec_le (c : Config) (e : Nat) : decayDec c e ≤ e := by
  unfold decayDec
  split
  · omega
  · have := Nat.mod_lt (c.decayDecRaw e) (show 0 < e by omega)
    omega

/-! ## The envelope -/

/-- The fields an envelope update does not touch. -/
structure SameButEnvelope (V W : Voice) : Prop where
  rest : W = { V with envStage := W.envStage, envValue := W.envValue, envCounter := W.envCounter }

theorem SameButEnvelope.refl (V : Voice) : SameButEnvelope V V := ⟨rfl⟩

theorem SameButEnvelope.trans {U V W : Voice} (h : SameButEnvelope U V) (k : SameButEnvelope V W) :
    SameButEnvelope U W := ⟨by rw [k.rest, h.rest]⟩

theorem rateTick_frame (c : Config) (regs : List Byte) (V : Voice) :
    (rateTick c regs V).1 = { V with envCounter := (rateTick c regs V).1.envCounter } := by
  unfold rateTick; dsimp only; split <;> rfl

/-- A RATE_TICK changes the counter, then its step may do its work. -/
theorem onRateTick_cases (c : Config) (regs : List Byte) (step : Voice → Voice) (V : Voice) :
    ∃ n, onRateTick c regs step V = { V with envCounter := n } ∨
      onRateTick c regs step V = step { V with envCounter := n } := by
  refine ⟨(rateTick c regs V).1.envCounter, ?_⟩
  unfold onRateTick
  dsimp only
  split
  · right; rw [← rateTick_frame]
  · left; exact rateTick_frame c regs V

/-- What a RATE_TICK does (43_brr_voice_ops.md R276): the counter down by the table entry, or reloaded and the step done. -/
theorem onRateTick_eq {c : Config} {regs : List Byte} {V : Voice} {step : Voice → Voice} {left : Int}
    (h : left = V.envCounter - (c.envelopeRates (c.rateOf V.envStage V.gainMode regs) : Int)) :
    onRateTick c regs step V =
      if left ≤ 0 then step { V with envCounter := (envRateInit c : Int) } else { V with envCounter := left } := by
  unfold onRateTick rateTick
  dsimp only
  rw [← h]
  split <;> rfl

theorem envelopeUpdate_frame (c : Config) (simple : Bool) (regs : List Byte) (V : Voice) :
    SameButEnvelope V (envelopeUpdate c simple regs V) := by
  have tick : ∀ (step : Voice → Voice) (V : Voice), (∀ U, SameButEnvelope U (step U)) →
      SameButEnvelope V (onRateTick c regs step V) := by
    intro step V hs
    obtain ⟨n, h | h⟩ := onRateTick_cases c regs step V
    · rw [h]; exact ⟨rfl⟩
    · rw [h]; exact (SameButEnvelope.mk rfl).trans (hs _)
  unfold envelopeUpdate
  split
  · unfold releaseStep; split <;> exact ⟨rfl⟩
  · unfold gainStep
    split
    · exact ⟨rfl⟩
    all_goals exact tick _ _ fun U => ⟨rfl⟩
  · apply tick; intro U; unfold attackStep; dsimp only; split
    · exact ⟨rfl⟩
    · split <;> exact ⟨rfl⟩
  · have := tick (decayStep c) V fun U => ⟨rfl⟩
    refine this.trans ?_
    unfold decayCheck; split <;> exact ⟨rfl⟩
  · exact tick _ _ fun U => ⟨rfl⟩
  · exact .refl V

/-- The envelope value stays in 0..ENVELOPE_RANGE (10_state.md R34). -/
theorem envelopeUpdate_range (c : Config) (simple : Bool) (regs : List Byte) (V : Voice)
    (h : V.envValue ≤ envelopeRange c) : (envelopeUpdate c simple regs V).envValue ≤ envelopeRange c := by
  have tick : ∀ (step : Voice → Voice) (V : Voice), V.envValue ≤ envelopeRange c →
      (∀ U, U.envValue ≤ envelopeRange c → (step U).envValue ≤ envelopeRange c) →
      (onRateTick c regs step V).envValue ≤ envelopeRange c := by
    intro step V hV hs
    obtain ⟨n, h | h⟩ := onRateTick_cases c regs step V
    · rw [h]; exact hV
    · rw [h]; exact hs _ hV
  have decay : ∀ U : Voice, U.envValue ≤ envelopeRange c → (decayStep c U).envValue ≤ envelopeRange c :=
    fun U hU => Nat.le_trans (Nat.sub_le _ _) hU
  unfold envelopeUpdate
  split
  · unfold releaseStep; split
    · exact Nat.zero_le _
    · exact Nat.le_trans (Nat.sub_le _ _) h
  · unfold gainStep
    split
    · exact gainClamp_le c _ _
    · exact tick _ _ h fun U _ => gainClamp_le c _ _
    · exact tick _ _ h fun U _ => gainClamp_le c _ _
    · exact tick _ _ h decay
    · exact tick _ _ h fun U _ => gainClamp_le c _ _
  · refine tick _ _ h fun U hU => ?_
    have hm := envMax_le c
    unfold attackStep; dsimp only; split
    · exact hm
    · split
      · exact hm
      · show U.envValue + _ ≤ _; omega
  · have := tick (decayStep c) V h decay
    unfold decayCheck; split <;> exact this
  · exact tick _ _ h decay
  · exact h

/-! ## Decoding -/

/-- The fields decoding does not touch. -/
structure SameButDecode (V W : Voice) : Prop where
  rest : W = { V with
    ramAddr := W.ramAddr, hdrLoop := W.hdrLoop, hdrEnd := W.hdrEnd, hdrFilter := W.hdrFilter, hdrShift := W.hdrShift
    nibblesLeft := W.nibblesLeft, hist := W.hist }

theorem SameButDecode.trans {U V W : Voice} (h : SameButDecode U V) (k : SameButDecode V W) : SameButDecode U W :=
  ⟨by rw [k.rest, h.rest]⟩

theorem decodeNibble_frame (c : Config) (ram : Nat → Byte) (V : Voice) :
    SameButDecode V (decodeNibble c ram V).1 := by
  unfold decodeNibble
  split
  · exact ⟨rfl⟩
  · rename_i W hW
    have hVW : SameButDecode V W := by
      unfold blockOpen at hW
      split at hW
      · injection hW with hW; subst hW; exact ⟨rfl⟩
      · split at hW
        · split at hW
          · injection hW with hW; subst hW; exact ⟨rfl⟩
          · cases hW
        · injection hW with hW; subst hW; exact ⟨rfl⟩
    split
    · exact hVW
    · exact hVW.trans ⟨rfl⟩

theorem decodeNibbles_frame (c : Config) (ram : Nat → Byte) (n : Nat) :
    ∀ V, SameButDecode V (decodeNibbles c ram n V).1 := by
  induction n with
  | zero => intro V; exact ⟨rfl⟩
  | succ n ih =>
    intro V
    simp only [decodeNibbles]
    split
    · exact (decodeNibble_frame c ram V).trans (ih _)
    · exact decodeNibble_frame c ram V

theorem VoiceOk.takeNibble {V : Voice} (h : VoiceOk c V) (ram : Nat → Byte) : VoiceOk c (takeNibble c ram V) where
  ram_addr := by
    simp only [Machine.takeNibble]
    split
    · exact h.ram_addr
    · exact Nat.mod_lt _ (ramSize_pos c)
  loop_addr := h.loop_addr
  start_addr := h.start_addr
  nibbles := Nat.le_trans (Nat.sub_le _ _) h.nibbles
  env_value := h.env_value

theorem VoiceOk.openBlock {V : Voice} (h : VoiceOk c V) (ram : Nat → Byte) : VoiceOk c (openBlock c ram V) where
  ram_addr := Nat.mod_lt _ (ramSize_pos c)
  loop_addr := h.loop_addr
  start_addr := h.start_addr
  nibbles := Nat.le_refl _
  env_value := h.env_value

theorem VoiceOk.decodeNibble {V : Voice} (h : VoiceOk c V) (ram : Nat → Byte) : VoiceOk c (decodeNibble c ram V).1 := by
  unfold Machine.decodeNibble
  split
  · exact h
  · rename_i W hW
    have hok : VoiceOk c W := by
      unfold blockOpen at hW
      split at hW
      · injection hW with hW; subst hW; exact h
      · split at hW
        · split at hW
          · injection hW with hW; subst hW
            exact VoiceOk.openBlock (V := { V with ramAddr := V.loopAddr })
              ⟨h.loop_addr, h.loop_addr, h.start_addr, h.nibbles, h.env_value⟩ ram
          · cases hW
        · injection hW with hW; subst hW; exact h.openBlock ram
    split
    · exact hok
    · exact hok.takeNibble ram

theorem VoiceOk.decodeNibbles (ram : Nat → Byte) (n : Nat) :
    ∀ {V : Voice}, VoiceOk c V → VoiceOk c (decodeNibbles c ram n V).1 := by
  induction n with
  | zero => intro V h; exact h
  | succ n ih =>
    intro V h
    simp only [Machine.decodeNibbles]
    split
    · exact ih (h.decodeNibble ram)
    · exact h.decodeNibble ram

/-! ## Ticks that leave the voice sounding (43_brr_voice_ops.md R273) -/

theorem tickVoice_sounding {simple : Bool} {regs : List Byte} {ram : Nat → Byte} {V : Voice}
    (h : (tickVoice c simple regs ram V).envStage ≠ .off) :
    V.envStage ≠ .off ∧ c.period0Silence V regs = false ∧ (envelopeUpdate c simple regs V).envStage ≠ .off ∧
      tickVoice c simple regs ram V = decodeAndOutput c regs ram (envelopeUpdate c simple regs V) := by
  unfold tickVoice at h ⊢
  split at h
  · exact absurd ‹V.envStage = .off› h
  · rename_i h1
    split at h
    · exact absurd rfl h
    · rename_i h2
      dsimp only at h
      split at h
      · exact absurd ‹_› h
      · rename_i h3
        rw [if_neg h1, if_neg h2, if_neg h3]
        exact ⟨h1, by simpa using h2, h3, rfl⟩

/-! ## Sample periods, key-on, key-off -/

theorem VoiceOk.enterSilence {V : Voice} (h : VoiceOk c V) : VoiceOk c (enterSilence V) :=
  ⟨h.ram_addr, h.loop_addr, h.start_addr, h.nibbles, Nat.zero_le _⟩

theorem VoiceOk.withOut {V : Voice} (h : VoiceOk c V) (x : Int) : VoiceOk c { V with out := x } :=
  ⟨h.ram_addr, h.loop_addr, h.start_addr, h.nibbles, h.env_value⟩

theorem VoiceOk.withFraction {V : Voice} (h : VoiceOk c V) (f : Nat) : VoiceOk c { V with fraction := f } :=
  ⟨h.ram_addr, h.loop_addr, h.start_addr, h.nibbles, h.env_value⟩

theorem VoiceOk.envelopeUpdate {V : Voice} (h : VoiceOk c V) (simple : Bool) (regs : List Byte) :
    VoiceOk c (envelopeUpdate c simple regs V) := by
  have hf := (envelopeUpdate_frame c simple regs V).rest
  have hr := envelopeUpdate_range c simple regs V h.env_value
  refine ⟨?_, ?_, ?_, ?_, hr⟩ <;> rw [hf]
  exacts [h.ram_addr, h.loop_addr, h.start_addr, h.nibbles]

theorem VoiceOk.decodeAndOutput {V : Voice} (h : VoiceOk c V) (regs : List Byte) (ram : Nat → Byte) :
    VoiceOk c (decodeAndOutput c regs ram V) := by
  unfold Machine.decodeAndOutput
  dsimp only
  have := VoiceOk.decodeNibbles ram ((V.fraction + (c.pitchOf regs).toNat) / fractionUnit)
    (h.withFraction ((V.fraction + (c.pitchOf regs).toNat) % fractionUnit))
  split
  · exact this.withOut _
  · exact this.enterSilence

/-- One sample period keeps a voice well formed. -/
theorem VoiceOk.tickVoice {V : Voice} (h : VoiceOk c V) (simple : Bool) (regs : List Byte) (ram : Nat → Byte) :
    VoiceOk c (tickVoice c simple regs ram V) := by
  unfold Machine.tickVoice
  split
  · exact h.withOut 0
  · split
    · exact h.enterSilence
    · dsimp only
      split
      · exact (h.envelopeUpdate simple regs).withOut 0
      · exact (h.envelopeUpdate simple regs).decodeAndOutput regs ram

theorem VoiceOk.keyedOn (V : Voice) (regs : List Byte) (gregs ram : Nat → Byte) :
    VoiceOk c (keyedOn c regs (sampleDir c regs gregs ram) V) :=
  ⟨Nat.mod_lt _ (ramSize_pos c), Nat.mod_lt _ (ramSize_pos c), Nat.mod_lt _ (ramSize_pos c), Nat.zero_le _,
    Nat.zero_le _⟩

theorem VoiceOk.reset : VoiceOk c resetVoice :=
  ⟨ramSize_pos c, ramSize_pos c, ramSize_pos c, Nat.zero_le _, Nat.zero_le _⟩

/-! ## The operations on the engine -/

theorem EngineOk.voiceTick {s : State} (h : EngineOk c s) (v : Nat) : EngineOk c (voiceTick c v s) :=
  h.modVoice v _ fun _ hV => hV.tickVoice _ _ _

theorem EngineOk.voiceKeyon {s : State} (h : EngineOk c s) (v : Nat) : EngineOk c (voiceKeyon c v s) :=
  h.modVoice v _ fun V _ => VoiceOk.keyedOn V _ _ _

theorem EngineOk.voiceKeyoff {s : State} (h : EngineOk c s) (v : Nat) : EngineOk c (voiceKeyoff v s) :=
  h.modVoice v _ fun _ hV => ⟨hV.ram_addr, hV.loop_addr, hV.start_addr, hV.nibbles, hV.env_value⟩

end Sys2Proof.Machine
end

