-- ==== Sys2Proof/Laws/Oscillator.lean ====
section
/-! SUPPORT. The operations of Machine/Oscillator.lean: what running a slot leaves alone, when it completes, and that every
one of them keeps EngineOk. -/

namespace Sys2Proof.Machine

/-! ## Frames -/

theorem OnlyAt.refl {α : Type} (p : Nat → Prop) (l : List α) : OnlyAt p l l := ⟨rfl, fun _ _ => rfl⟩

theorem OnlyAt.trans {α : Type} {p : Nat → Prop} {l m n : List α} (h : OnlyAt p l m) (k : OnlyAt p m n) :
    OnlyAt p l n := ⟨k.length.trans h.length, fun i hi => (k.others i hi).trans (h.others i hi)⟩

theorem OnlyAt.mono {α : Type} {p q : Nat → Prop} {l m : List α} (h : OnlyAt p l m) (hpq : ∀ i, p i → q i) :
    OnlyAt q l m := ⟨h.length, fun i hi => h.others i fun hp => hi (hpq i hp)⟩

theorem OnlyAt.modify {α : Type} {p : Nat → Prop} (l : List α) (i : Nat) (f : α → α) (h : p i) :
    OnlyAt p l (l.modify i f) := by
  refine ⟨by simp, fun j hj => ?_⟩
  rw [List.getElem?_modify]
  by_cases e : i = j
  · subst e; exact absurd h hj
  · simp [e]

theorem OnlyAt.set {α : Type} {p : Nat → Prop} (l : List α) (i : Nat) (a : α) (h : p i) : OnlyAt p l (l.set i a) := by
  refine ⟨by simp, fun j hj => ?_⟩
  rw [List.getElem?_set]
  by_cases e : i = j
  · subst e; exact absurd h hj
  · simp [e]

theorem SameButCells.refl (B : Buf) : SameButCells B B := ⟨B.cells, rfl⟩

theorem SameButCells.trans {A B C : Buf} (h : SameButCells A B) (k : SameButCells B C) : SameButCells A C := by
  obtain ⟨x, rfl⟩ := h; obtain ⟨y, rfl⟩ := k; exact ⟨y, rfl⟩

/-- What running or clocking slot `o` leaves alone: every other slot, every voice but the one it wraps, every BUF but its
sink, of the sink all but the cells; its own registers' number and its sink. -/
structure SlotFrame (c : Config) (o : Nat) (s t : State) : Prop where
  rest : t = { s with bufs := t.bufs, oscs := t.oscs, voices := t.voices }
  oscs : OnlyAt (fun p => p = o) s.oscs t.oscs
  slot : ∀ O, s.oscs[o]? = some O → ∃ P, t.oscs[o]? = some P ∧ P.regs.length = O.regs.length ∧ P.output = O.output
  voices : OnlyAt (fun v => voiceOf c o = some v) s.voices t.voices
  bufs : OnlyAt (fun b => ∃ O, s.oscs[o]? = some O ∧ O.output = some b) s.bufs t.bufs
  cells : ∀ (b : Nat) B B', s.bufs[b]? = some B → t.bufs[b]? = some B' → SameButCells B B'

theorem SlotFrame.refl (c : Config) (o : Nat) (s : State) : SlotFrame c o s s where
  rest := rfl
  oscs := .refl _ _
  slot := fun O h => ⟨O, h, rfl, rfl⟩
  voices := .refl _ _
  bufs := .refl _ _
  cells := fun b B B' h h' => by rw [h] at h'; injection h' with h'; subst h'; exact .refl B

theorem getElem?_of_length {α : Type} {l m : List α} (h : m.length = l.length) {i : Nat} {a : α} (ha : m[i]? = some a) :
    ∃ b, l[i]? = some b := by
  have : i < l.length := by rw [← h]; exact (List.getElem?_eq_some_iff.mp ha).1
  exact ⟨_, List.getElem?_eq_getElem this⟩

theorem SlotFrame.trans {c : Config} {o : Nat} {r s t : State} (h : SlotFrame c o r s) (k : SlotFrame c o s t) :
    SlotFrame c o r t where
  rest := by rw [k.rest, h.rest]
  oscs := h.oscs.trans k.oscs
  slot := by
    intro O hO
    obtain ⟨P, hP, hr, ho⟩ := h.slot O hO
    obtain ⟨Q, hQ, hr', ho'⟩ := k.slot P hP
    exact ⟨Q, hQ, hr'.trans hr, ho'.trans ho⟩
  voices := h.voices.trans k.voices
  bufs := by
    refine h.bufs.trans (k.bufs.mono ?_)
    rintro b ⟨P, hP, hb⟩
    obtain ⟨O, hO⟩ := getElem?_of_length h.oscs.length hP
    obtain ⟨P', hP', -, ho⟩ := h.slot O hO
    rw [hP] at hP'; injection hP' with hP'; subst hP'
    exact ⟨O, hO, by rw [← ho, hb]⟩
  cells := by
    intro b B B' hB hB'
    obtain ⟨M, hM⟩ := getElem?_of_length k.bufs.length hB'
    exact (h.cells b B M hB hM).trans (k.cells b M B' hM hB')

/-- A change of the slot that keeps its registers' number and its sink. -/
theorem SlotFrame.modOsc (c : Config) (o : Nat) (s : State) (f : Osc → Osc)
    (h : ∀ O, (f O).regs.length = O.regs.length ∧ (f O).output = O.output) : SlotFrame c o s (s.modOsc o f) where
  rest := rfl
  oscs := .modify _ _ _ rfl
  slot := fun O hO => ⟨f O, by simp [hO], (h O).1, (h O).2⟩
  voices := .refl _ _
  bufs := .refl _ _
  cells := fun b B B' h h' => by
    rw [State.modOsc_bufs, h] at h'; injection h' with h'; subst h'; exact .refl B

/-- A change of the voice the slot wraps. -/
theorem SlotFrame.modVoice (c : Config) (o v : Nat) (s : State) (f : Voice → Voice) (hv : voiceOf c o = some v) :
    SlotFrame c o s (s.modVoice v f) where
  rest := rfl
  oscs := .refl _ _
  slot := fun O h => ⟨O, h, rfl, rfl⟩
  voices := .modify _ _ _ hv
  bufs := .refl _ _
  cells := fun b B B' h h' => by
    rw [State.modVoice_bufs, h] at h'; injection h' with h'; subst h'; exact .refl B

theorem SlotFrame.voiceTick (c : Config) (o v : Nat) (s : State) (hv : voiceOf c o = some v) :
    SlotFrame c o s (voiceTick c v s) := .modVoice c o v s _ hv

theorem SlotFrame.waveStep (c : Config) (o : Nat) (s : State) : SlotFrame c o s (waveStep c o s) := by
  unfold Machine.waveStep
  split
  · exact .voiceTick c o _ s ‹_›
  · exact .modOsc c o s _ fun O => ⟨rfl, rfl⟩

/-! ## Emission -/

/-- EMIT, if it completes: nothing changes, or SYN.OFFSET into the sink and then `last_amp` (R233). -/
theorem emit_ok {c : Config} {o t : Nat} {amp : Int} {s s' : State} (h : emit c o t amp s = .ok s') :
    (s' = s ∧ ∀ O, s.oscs[o]? = some O → O.output = none ∨ O.lastAmp = amp) ∨
    ∃ O b r, s.oscs[o]? = some O ∧ O.output = some b ∧ O.lastAmp ≠ amp ∧
      synOffset c (oscSyn c o) b t (emittedDelta c (amp - O.lastAmp)) s = .ok r ∧
      s' = r.modOsc o fun O => { O with lastAmp := amp } := by
  unfold emit at h
  split at h
  · injection h with h; exact .inl ⟨h.symm, fun O hO => by simp_all⟩
  · rename_i O hO
    split at h
    · injection h with h
      exact .inl ⟨h.symm, fun P hP => by rw [hO] at hP; injection hP with hP; subst hP; exact .inl ‹_›⟩
    · rename_i b hb
      split at h
      · injection h with h
        refine .inl ⟨h.symm, fun P hP => ?_⟩
        rw [hO] at hP; injection hP with hP; subst hP
        exact .inr (by omega)
      · split at h
        · cases h
        · rename_i r hr
          injection h with h
          exact .inr ⟨O, b, r, hO, hb, by omega, hr, h.symm⟩

theorem SlotFrame.emit {c : Config} {o t : Nat} {amp : Int} {s s' : State} (h : emit c o t amp s = .ok s') :
    SlotFrame c o s s' := by
  obtain ⟨rfl, -⟩ | ⟨O, b, r, hO, hb, -, hr, rfl⟩ := emit_ok h
  · exact .refl c o s'
  · have hsr : SlotFrame c o s r := by
      obtain ⟨B, S, hB, -, ⟨-, rfl⟩ | ⟨-, -, rfl⟩⟩ := synOffset_ok hr
      · exact .refl c o r
      · exact
          { rest := rfl
            oscs := .refl _ _
            slot := fun O h => ⟨O, h, rfl, rfl⟩
            voices := .refl _ _
            bufs := .set _ _ _ ⟨O, hO, hb⟩
            cells := by
              intro k A A' hA hA'
              simp only [List.getElem?_set] at hA'
              by_cases e : b = k
              · subst e
                rw [hB] at hA; injection hA with hA; subst hA
                have : b < s.bufs.length := (List.getElem?_eq_some_iff.mp hB).1
                simp [this] at hA'
                subst hA'
                exact ⟨_, rfl⟩
              · simp [e, hA] at hA'
                subst hA'; exact .refl A }
    exact hsr.trans (.modOsc c o r _ fun O => ⟨rfl, rfl⟩)

/-- EMIT completes where the slot is ready (R203). -/
theorem emit_completes (c : Config) (o t e : Nat) (amp : Int) (s : State) (h : SlotReady c s e o) (hte : t ≤ e) :
    ∃ s', emit c o t amp s = .ok s' := by
  unfold emit
  split
  · exact ⟨_, rfl⟩
  · rename_i O hO
    split
    · exact ⟨_, rfl⟩
    · rename_i b hb
      split
      · exact ⟨_, rfl⟩
      · obtain ⟨hy, B, hB, hadm⟩ := h O b hO hb
        have hadm' : BufAdmits c t B := by
          refine hadm.imp id fun hle => Nat.le_trans ?_ hle
          exact Nat.div_le_div_right (Nat.add_le_add_right (Nat.mul_le_mul_right _ hte) _)
        obtain ⟨r, hr⟩ := synOffset_completes c (oscSyn c o) b t (emittedDelta c (amp - O.lastAmp)) s B _ hB
          (List.getElem?_eq_getElem hy) hadm'
        rw [hr]
        exact ⟨_, rfl⟩

/-- A slot ready at one state is ready at any state its own running reaches. -/
theorem SlotReady.frame {c : Config} {o p e : Nat} {s t : State} (h : SlotReady c s e p) (f : SlotFrame c o s t) :
    SlotReady c t e p := by
  intro P b hP hb
  obtain ⟨O, hO⟩ := getElem?_of_length f.oscs.length hP
  have hout : O.output = some b := by
    by_cases e : p = o
    · subst e
      obtain ⟨P', hP', -, ho⟩ := f.slot O hO
      rw [hP] at hP'; injection hP' with hP'; subst hP'
      rw [← ho, hb]
    · have := f.oscs.others p e
      rw [hO, hP] at this; injection this with this; subst this; exact hb
  obtain ⟨hy, B, hB, hadm⟩ := h O b hO hout
  have hsyn : t.syns = s.syns := by rw [f.rest]
  refine ⟨by rw [hsyn]; exact hy, ?_⟩
  obtain ⟨B', hB'⟩ := getElem?_of_length f.bufs.length.symm hB
  refine ⟨B', hB', ?_⟩
  obtain ⟨cells, rfl⟩ := f.cells b B B' hB hB'
  exact hadm

/-! ## The loop of OSC.RUN -/

theorem wavePeriod_pos (c : Config) (o : Nat) (s : State) : 0 < wavePeriod c o s := by
  unfold wavePeriod; split <;> exact Nat.succ_pos _

/-- What a loop that completes does: the slot's frame, and its end time is at or past the end if the fuel covers it. -/
theorem runLoop_ok (c : Config) (o e : Nat) : ∀ (fuel t : Nat) (s : State) (r : State × Nat),
    runLoop c o e fuel t s = .ok r → SlotFrame c o s r.1 ∧ t ≤ r.2 ∧ (e - t ≤ fuel → e ≤ r.2) := by
  intro fuel
  induction fuel with
  | zero =>
    intro t s r h
    simp only [runLoop] at h
    injection h with h; subst h
    exact ⟨.refl c o s, Nat.le_refl _, fun _ => by omega⟩
  | succ fuel ih =>
    intro t s r h
    simp only [runLoop] at h
    split at h
    · split at h
      · cases h
      · rename_i s' hs'
        obtain ⟨hf, hle, hend⟩ := ih _ _ _ h
        have hp := wavePeriod_pos c o s'
        exact ⟨((SlotFrame.waveStep c o s).trans (.emit hs')).trans hf, by omega, fun _ => hend (by omega)⟩
    · injection h with h; subst h
      exact ⟨.refl c o s, Nat.le_refl _, fun _ => by omega⟩

/-- The loop completes where the slot is ready. -/
theorem runLoop_completes (c : Config) (o e : Nat) : ∀ (fuel t : Nat) (s : State), SlotReady c s e o →
    ∃ r, runLoop c o e fuel t s = .ok r := by
  intro fuel
  induction fuel with
  | zero => intro t s _; exact ⟨_, rfl⟩
  | succ fuel ih =>
    intro t s h
    simp only [runLoop]
    split
    · have hw := h.frame (SlotFrame.waveStep c o s)
      obtain ⟨s', hs'⟩ := emit_completes c o t e (ampOf c o (waveStep c o s)) (waveStep c o s) hw (by omega)
      rw [hs']
      exact ih _ _ (hw.frame (.emit hs'))
    · exact ⟨_, rfl⟩

theorem SlotFrame.runTransitions {c : Config} {o a e : Nat} {s t : State} (h : runTransitions c o a e s = .ok t) :
    SlotFrame c o s t := by
  unfold Machine.runTransitions at h
  split at h
  · injection h with h; subst h; exact .refl c o _
  · split at h
    · cases h
    · rename_i r hr
      injection h with h; subst h
      exact (runLoop_ok c o e _ _ _ _ hr).1.trans (.modOsc c o _ _ fun O => ⟨rfl, rfl⟩)

theorem runTransitions_completes (c : Config) (o a e : Nat) (s : State) (h : SlotReady c s e o) :
    ∃ t, runTransitions c o a e s = .ok t := by
  unfold runTransitions
  split
  · exact ⟨_, rfl⟩
  · obtain ⟨r, hr⟩ := runLoop_completes c o e (e - a) (a + _) s h
    rw [hr]; exact ⟨_, rfl⟩

theorem SlotFrame.oscRun {c : Config} {o a e : Nat} {s t : State} (h : oscRun c o a e s = .ok t) :
    SlotFrame c o s t := by
  unfold Machine.oscRun at h
  split at h
  · cases h
  · split at h
    · cases h
    · exact (SlotFrame.emit ‹_›).trans (.runTransitions h)

theorem oscRun_completes (c : Config) (o a e : Nat) (s : State) (h : SlotReady c s e o) (hae : a ≤ e) :
    ∃ t, oscRun c o a e s = .ok t := by
  unfold oscRun
  rw [if_neg (by omega)]
  obtain ⟨s', hs'⟩ := emit_completes c o a e (ampOf c o s) s h hae
  rw [hs']
  exact runTransitions_completes c o a e s' (h.frame (.emit hs'))

/-- OSC.RUN as a command is the inner operation, where it completes. -/
theorem runCommand_of_ok {c : Config} {o a e : Nat} {s t : State} (h : oscRun c o a e s = .ok t) :
    runCommand c o a e s = t := by
  unfold oscRun at h; unfold runCommand
  split at h
  · cases h
  · rename_i hlt
    rw [if_neg hlt]
    cases he : emit c o a (ampOf c o s) s with
    | error x => simp [he] at h
    | ok s' => simp only [he] at h ⊢; rw [h]; rfl

/-- OSC.RUN as a command ends without a fault only where the inner operation completes. -/
theorem runCommand_no_fault {c : Config} {o a e : Nat} {s : State}
    (h : (runCommand c o a e s).global.fault = false) : oscRun c o a e s = .ok (runCommand c o a e s) := by
  unfold runCommand at h ⊢; unfold oscRun
  split at h
  · simp at h
  · rename_i hlt
    rw [if_neg hlt, if_neg hlt]
    cases he : emit c o a (ampOf c o s) s with
    | error x => simp [he] at h
    | ok s' => simp only [he] at h ⊢; exact settleImprecise_no_fault _ _ _ h

/-! ## The other commands -/

@[simp] theorem clockEnv_length (c : Config) (K : OscKind) (T : Tone) : (clockEnv c K T).regs.length = T.regs.length := by
  unfold clockEnv; split <;> rfl

@[simp] theorem clockLen_length (c : Config) (K : OscKind) (T : Tone) : (clockLen c K T).regs.length = T.regs.length := by
  unfold clockLen; split <;> rfl

@[simp] theorem clockSwp_length (c : Config) (K : OscKind) (T : Tone) : (clockSwp c K T).regs.length = T.regs.length := by
  unfold clockSwp; split
  · simp [fitBytes]
  · rfl

@[simp] theorem clockLin_length (c : Config) (K : OscKind) (T : Tone) : (clockLin c K T).regs.length = T.regs.length := by
  unfold clockLin; split <;> rfl

/-- A register write keeps the image but for the byte written (R237). -/
@[simp] theorem writeEffect_regs (c : Config) (K : OscKind) (T : Tone) (d reg : Nat) (value : Byte) (en : Bool) :
    (writeEffect c K T d reg value en).1.regs = T.regs := by
  unfold writeEffect
  split
  · dsimp only; split <;> rfl
  · split <;> rfl

@[simp] theorem writtenSlot_regs (c : Config) (K : OscKind) (en : Bool) (reg : Nat) (value : Byte) (O : Osc) :
    (writtenSlot c K en reg value O).regs = O.regs.set reg value := by simp [writtenSlot]

@[simp] theorem writtenSlot_lastAmp (c : Config) (K : OscKind) (en : Bool) (reg : Nat) (value : Byte) (O : Osc) :
    (writtenSlot c K en reg value O).lastAmp = O.lastAmp := rfl

@[simp] theorem writtenSlot_output (c : Config) (K : OscKind) (en : Bool) (reg : Nat) (value : Byte) (O : Osc) :
    (writtenSlot c K en reg value O).output = O.output := rfl

/-- OSC.WRITE: UnitIndexOutOfRange, nothing, or its slot written. -/
theorem oscWrite_ok {c : Config} {o reg : Nat} {value : Byte} {s t : State} (h : oscWrite c o reg value s = .ok t) :
    (s.oscs[o]? = none ∧ t = s) ∨ ∃ O, s.oscs[o]? = some O ∧ reg < O.regs.length ∧
      t = { s with oscs := s.oscs.set o (writtenSlot c (oscKind c o) (oscEnabled c o s) reg value O) } := by
  unfold oscWrite at h
  split at h
  · injection h with h; exact .inl ⟨‹_›, h.symm⟩
  · rename_i O hO
    split at h
    · cases h
    · injection h with h
      exact .inr ⟨O, hO, by omega, by rw [← h, State.modOsc, modify_eq_set _ _ _ O hO]⟩

theorem SlotFrame.oscWrite {c : Config} {o reg : Nat} {value : Byte} {s t : State}
    (h : oscWrite c o reg value s = .ok t) : SlotFrame c o s t := by
  unfold Machine.oscWrite at h
  split at h
  · injection h with h; subst h; exact .refl c o _
  · split at h
    · cases h
    · injection h with h; subst h
      exact .modOsc c o s _ fun O => ⟨by simp, rfl⟩

theorem SlotFrame.oscClkenv (c : Config) (s : State) (o : Nat) : SlotFrame c o s (oscClkenv c s o) :=
  .modOsc c o s _ fun _ => ⟨clockEnv_length _ _ _, rfl⟩

theorem SlotFrame.oscClklen (c : Config) (s : State) (o : Nat) : SlotFrame c o s (oscClklen c s o) :=
  .modOsc c o s _ fun _ => ⟨clockLen_length _ _ _, rfl⟩

theorem SlotFrame.oscClkswp (c : Config) (s : State) (o : Nat) : SlotFrame c o s (oscClkswp c s o) :=
  .modOsc c o s _ fun _ => ⟨clockSwp_length _ _ _, rfl⟩

theorem SlotFrame.oscClklin (c : Config) (s : State) (o : Nat) : SlotFrame c o s (oscClklin c s o) :=
  .modOsc c o s _ fun _ => ⟨clockLin_length _ _ _, rfl⟩

/-! ## EngineOk -/

theorem EngineOk.waveStep {c : Config} {s : State} (h : EngineOk c s) (o : Nat) : EngineOk c (waveStep c o s) := by
  unfold Machine.waveStep
  split
  · exact h.voiceTick _
  · exact h.modTone o _ fun _ => rfl

theorem EngineOk.emit {c : Config} {o t : Nat} {amp : Int} {s s' : State} (h : EngineOk c s)
    (he : emit c o t amp s = .ok s') : EngineOk c s' := by
  obtain ⟨rfl, -⟩ | ⟨O, b, r, -, -, -, hr, rfl⟩ := emit_ok he
  · exact h
  · exact (h.synOffset hr).modOsc o _ fun O hO => ⟨hO.regs_length, hO.sink⟩

theorem EngineOk.runLoop {c : Config} (o e : Nat) : ∀ (fuel t : Nat) {s : State} {r : State × Nat}, EngineOk c s →
    runLoop c o e fuel t s = .ok r → EngineOk c r.1 := by
  intro fuel
  induction fuel with
  | zero =>
    intro t s r h hr
    simp only [Machine.runLoop] at hr
    injection hr with hr; subst hr; exact h
  | succ fuel ih =>
    intro t s r h hr
    simp only [Machine.runLoop] at hr
    split at hr
    · split at hr
      · cases hr
      · exact ih _ ((h.waveStep o).emit ‹_›) hr
    · injection hr with hr; subst hr; exact h

theorem EngineOk.runTransitions {c : Config} {o a e : Nat} {s t : State} (h : EngineOk c s)
    (hr : runTransitions c o a e s = .ok t) : EngineOk c t := by
  unfold Machine.runTransitions at hr
  split at hr
  · injection hr with hr; subst hr; exact h
  · split at hr
    · cases hr
    · rename_i r hl
      injection hr with hr; subst hr
      exact (EngineOk.runLoop o e _ _ h hl).modOsc o _ fun O hO => ⟨hO.regs_length, hO.sink⟩

theorem EngineOk.oscRun {c : Config} {o a e : Nat} {s t : State} (h : EngineOk c s)
    (hr : oscRun c o a e s = .ok t) : EngineOk c t := by
  unfold Machine.oscRun at hr
  split at hr
  · cases hr
  · split at hr
    · cases hr
    · exact (h.emit ‹_›).runTransitions hr

theorem EngineOk.oscReset {c : Config} {s : State} (h : EngineOk c s) (o : Nat) : EngineOk c (oscReset c o s) := by
  have h1 : EngineOk c (s.modOsc o (resetSlot c (oscKind c o))) :=
    h.modOsc o _ fun O hO => ⟨hO.regs_length, hO.sink⟩
  unfold Machine.oscReset
  dsimp only
  split
  · exact h1
  · exact h1.modVoice _ _ fun _ _ => VoiceOk.reset

theorem EngineOk.oscWrite {c : Config} {o reg : Nat} {value : Byte} {s t : State} (h : EngineOk c s)
    (hr : oscWrite c o reg value s = .ok t) : EngineOk c t := by
  unfold Machine.oscWrite at hr
  split at hr
  · injection hr with hr; subst hr; exact h
  · split at hr
    · cases hr
    · injection hr with hr; subst hr
      exact h.modOsc o _ fun O hO => ⟨by simpa using hO.regs_length, hO.sink⟩

theorem EngineOk.oscClkenv {c : Config} {s : State} (h : EngineOk c s) (o : Nat) : EngineOk c (oscClkenv c s o) :=
  h.modTone o _ fun _ => clockEnv_length _ _ _

theorem EngineOk.oscClklen {c : Config} {s : State} (h : EngineOk c s) (o : Nat) : EngineOk c (oscClklen c s o) :=
  h.modTone o _ fun _ => clockLen_length _ _ _

theorem EngineOk.oscClkswp {c : Config} {s : State} (h : EngineOk c s) (o : Nat) : EngineOk c (oscClkswp c s o) :=
  h.modTone o _ fun _ => clockSwp_length _ _ _

theorem EngineOk.oscClklin {c : Config} {s : State} (h : EngineOk c s) (o : Nat) : EngineOk c (oscClklin c s o) :=
  h.modTone o _ fun _ => clockLin_length _ _ _

/-! ## Wrecked units -/

theorem BufOk.wrecked (c : Config) (n : Nat) : BufOk c (wreckedBuf c n) where
  cells_length := by simp [wreckedBuf]
  cells_width := by
    intro x hx
    simp only [wreckedBuf, List.mem_map] at hx
    obtain ⟨i, -, rfl⟩ := hx
    exact wrapN_lt _ _
  rd_range := Nat.mod_lt _ (ringN_pos c)
  size := by simp only [wreckedBuf]; split <;> simp

theorem VoiceOk.wrecked (c : Config) (n : Nat) : VoiceOk c (wreckedVoice c n) :=
  ⟨Nat.mod_lt _ (ramSize_pos c), Nat.mod_lt _ (ramSize_pos c), Nat.mod_lt _ (ramSize_pos c),
    Nat.le_of_lt_succ (Nat.mod_lt _ (by decide)), Nat.le_of_lt_succ (Nat.mod_lt _ (Nat.succ_pos _))⟩

theorem EngineOk.wreckSlot {c : Config} {s : State} (h : EngineOk c s) (o : Nat) : EngineOk c (wreckSlot c s o) := by
  have h1 : EngineOk c (wreckSink c o s) := by
    unfold wreckSink; split
    · exact h
    · exact (h.modBuf _ _ fun _ _ _ => BufOk.wrecked c _).takeDraws 1
  have h2 : EngineOk c (wreckVoice c o (wreckSink c o s)) := by
    unfold wreckVoice; split
    · exact h1
    · exact (h1.modVoice _ _ fun _ _ => VoiceOk.wrecked c _).takeDraws 1
  unfold Machine.wreckSlot
  dsimp only
  refine (h2.modOsc o _ fun O hO => ⟨?_, ?_⟩).takeDraws 1
  · simpa [wreckedOsc] using hO.regs_length
  · intro b hb
    simp only [wreckedOsc] at hb
    split at hb
    · injection hb with hb; omega
    · cases hb

theorem EngineOk.runCommand {c : Config} {o a e : Nat} {s : State} (h : EngineOk c s) :
    EngineOk c (runCommand c o a e s) := by
  unfold Machine.runCommand
  split
  · exact h.raiseFault _ _
  · split
    · exact h.raiseFault _ _
    · exact EngineOk.settleImprecise _ _ (h.wreckSlot o) fun t ht => (h.emit ‹_›).runTransitions ht

end Sys2Proof.Machine
end

