-- ==== Sys2Proof/Laws/Chip.lean ====
section
/-! SUPPORT. The operations of Machine/Registers.lean and Machine/Chip.lean: what advancing and writing a chip leaves alone,
when it completes, and that every operation keeps EngineOk. -/

namespace Sys2Proof.Machine

/-! ## Frames -/

theorem ChipFrame.refl (c : Config) (ci : Nat) (s : State) : ChipFrame c ci s s where
  rest := rfl
  chips := .refl _ _
  oscs := .refl _ _
  voices := .refl _ _
  bufs := .refl _ _
  cells := (SlotFrame.refl c 0 s).cells
  sinks := fun o O O' h h' => by rw [h] at h'; injection h' with h'; rw [h']

theorem ChipFrame.trans {c : Config} {ci : Nat} {r s t : State} (h : ChipFrame c ci r s) (k : ChipFrame c ci s t) :
    ChipFrame c ci r t where
  rest := by rw [k.rest, h.rest]
  chips := h.chips.trans k.chips
  oscs := h.oscs.trans k.oscs
  voices := h.voices.trans k.voices
  bufs := by
    refine h.bufs.trans (k.bufs.mono ?_)
    rintro b ⟨o, ho, P, hP, hb⟩
    obtain ⟨O, hO⟩ := getElem?_of_length h.oscs.length hP
    exact ⟨o, ho, O, hO, by rw [← h.sinks o O P hO hP, hb]⟩
  cells := by
    intro b B B' hB hB'
    obtain ⟨M, hM⟩ := getElem?_of_length k.bufs.length hB'
    exact (h.cells b B M hB hM).trans (k.cells b M B' hM hB')
  sinks := by
    intro o O P hO hP
    obtain ⟨M, hM⟩ := getElem?_of_length k.oscs.length hP
    exact (k.sinks o M P hM hP).trans (h.sinks o O M hO hM)

theorem SlotFrame.toChip {c : Config} {ci o : Nat} {s t : State} (h : SlotFrame c o s t) (ho : o ∈ chipOscs c ci) :
    ChipFrame c ci s t where
  rest := by rw [h.rest]
  chips := by rw [h.rest]; exact .refl _ _
  oscs := h.oscs.mono fun p hp => by rw [hp]; exact ho
  voices := h.voices.mono fun v hv => ⟨o, ho, hv⟩
  bufs := h.bufs.mono fun b ⟨O, hO, hb⟩ => ⟨o, ho, O, hO, hb⟩
  cells := h.cells
  sinks := by
    intro p O P hO hP
    by_cases e : p = o
    · subst e
      obtain ⟨P', hP', -, hout⟩ := h.slot O hO
      rw [hP] at hP'; injection hP' with hP'; subst hP'; exact hout
    · have := h.oscs.others p e
      rw [hO, hP] at this; injection this with this; rw [this]

/-- A change of the chip's own record. -/
theorem ChipFrame.modChip (c : Config) (ci : Nat) (s : State) (f : Chip → Chip) : ChipFrame c ci s (s.modChip ci f) where
  rest := rfl
  chips := .modify _ _ _ rfl
  oscs := .refl _ _
  voices := .refl _ _
  bufs := .refl _ _
  cells := (SlotFrame.refl c 0 s).cells
  sinks := (ChipFrame.refl c ci s).sinks

/-- A change of a voice one of the chip's oscillators wraps. -/
theorem ChipFrame.modVoice (c : Config) (ci v : Nat) (s : State) (f : Voice → Voice)
    (h : ∃ o ∈ chipOscs c ci, voiceOf c o = some v) : ChipFrame c ci s (s.modVoice v f) where
  rest := rfl
  chips := .refl _ _
  oscs := .refl _ _
  voices := .modify _ _ _ h
  bufs := .refl _ _
  cells := (SlotFrame.refl c 0 s).cells
  sinks := (ChipFrame.refl c ci s).sinks

theorem ChipFrame.foldl {α : Type} {c : Config} {ci : Nat} (f : State → α → State) (l : List α)
    (h : ∀ a ∈ l, ∀ s, ChipFrame c ci s (f s a)) (s : State) : ChipFrame c ci s (l.foldl f s) :=
  foldl_keeps (fun t => ChipFrame c ci s t) f l s (.refl c ci s) fun t a ha ht => ht.trans (h a ha t)

/-- A slot's register image keeps its number of registers as its chip is advanced. -/
theorem SlotReady.chipFrame {c : Config} {ci p e : Nat} {s t : State} (h : SlotReady c s e p) (f : ChipFrame c ci s t) :
    SlotReady c t e p := by
  intro P b hP hb
  obtain ⟨O, hO⟩ := getElem?_of_length f.oscs.length hP
  obtain ⟨hy, B, hB, hadm⟩ := h O b hO (by rw [← f.sinks p O P hO hP, hb])
  have hsyn : t.syns = s.syns := by rw [f.rest]
  refine ⟨by rw [hsyn]; exact hy, ?_⟩
  obtain ⟨B', hB'⟩ := getElem?_of_length f.bufs.length.symm hB
  refine ⟨B', hB', ?_⟩
  obtain ⟨cells, rfl⟩ := f.cells b B B' hB hB'
  exact hadm

/-! ## The frame sequencer -/

theorem clockOsc_frame (c : Config) (s : State) (x : Nat × FrameClock) : SlotFrame c x.1 s (clockOsc c s x) := by
  unfold clockOsc
  split
  · exact .oscClkenv c s x.1
  · exact .oscClklen c s x.1
  · exact .oscClkswp c s x.1
  · exact .oscClklin c s x.1

/-- Clock commands change no chip record. -/
theorem foldl_clockOsc_chips (c : Config) (l : List (Nat × FrameClock)) (s : State) :
    (l.foldl (clockOsc c) s).chips = s.chips :=
  foldl_keeps (fun t => t.chips = s.chips) _ l s rfl fun t x _ ht => by rw [(clockOsc_frame c t x).rest]; exact ht

/-- A frame event sets the sequencer as its plan says and changes nothing else of the chip's record. -/
theorem performPlan_chips (c : Config) (ci : Nat) (p : FramePlan) (s : State) :
    (performPlan c ci p s).chips = s.chips.modify ci fun C => { C with frameDelay := p.delay, frame := p.next } := by
  simp [performPlan, foldl_clockOsc_chips]

/-- The plan's clock commands go to oscillators of the list. -/
def FramePlan.within (p : FramePlan) (oscs : List Nat) : Prop := ∀ x ∈ p.before ++ p.after, x.1 ∈ oscs

theorem clockEach_within {k1 k2 : FrameClock} {oscs : List Nat} {x : Nat × FrameClock} (h : x ∈ clockEach k1 k2 oscs) :
    x.1 ∈ oscs := by
  simp only [clockEach, List.mem_flatMap, List.mem_cons, List.not_mem_nil, or_false] at h
  obtain ⟨o, ho, rfl | rfl⟩ := h <;> exact ho

theorem quadPlan_within (c : Config) (k : ChipKind) (oscs : List Nat) (C : Chip) :
    (quadPlan c k oscs C).within oscs := by
  intro x hx
  rcases List.mem_append.mp hx with h | h
  · simp only [quadPlan] at h
    split at h
    · exact clockEach_within h
    · cases h
  · exact clockEach_within h

theorem otherPlan_within (c : Config) (k : ChipKind) (n : Nat) (oscs : List Nat) (C : Chip) :
    (otherPlan c k n oscs C).within oscs := by
  intro x hx
  simp only [otherPlan, List.append_nil, List.mem_filterMap, Option.map_eq_some_iff] at hx
  obtain ⟨y, -, o, ho, rfl⟩ := hx
  exact List.mem_of_getElem? ho

theorem performPlan_frame {c : Config} {ci : Nat} {p : FramePlan} (hp : p.within (chipOscs c ci)) (s : State) :
    ChipFrame c ci s (performPlan c ci p s) := by
  have key : ∀ l : List (Nat × FrameClock), (∀ x ∈ l, x.1 ∈ chipOscs c ci) → ∀ s,
      ChipFrame c ci s (l.foldl (clockOsc c) s) := fun l hl =>
    ChipFrame.foldl _ _ fun x hx s => (clockOsc_frame c s x).toChip (hl x hx)
  exact (key _ (fun x hx => hp x (List.mem_append_left _ hx)) s).trans
    ((ChipFrame.modChip c ci _ _).trans (key _ (fun x hx => hp x (List.mem_append_right _ hx)) _))

theorem frameEvent_frame (c : Config) (ci : Nat) (s : State) : ChipFrame c ci s (frameEvent c ci s) := by
  unfold frameEvent
  split
  · exact .refl c ci s
  · split
    · exact .refl c ci s
    · exact performPlan_frame (quadPlan_within _ _ _ _) s
    · exact performPlan_frame (otherPlan_within _ _ _ _ _) s

/-! ## Time advance -/

theorem runOscs_frame {c : Config} {ci a e : Nat} : ∀ (l : List Nat) {s t : State}, (∀ o ∈ l, o ∈ chipOscs c ci) →
    runOscs c a e l s = .ok t → ChipFrame c ci s t ∧ t.chips = s.chips := by
  intro l
  induction l with
  | nil =>
    intro s t _ h
    simp only [runOscs] at h
    injection h with h; subst h; exact ⟨.refl c ci _, rfl⟩
  | cons o l ih =>
    intro s t hl h
    simp only [runOscs] at h
    split at h
    · cases h
    · rename_i r hr
      have hf := SlotFrame.oscRun hr
      obtain ⟨h2, hc⟩ := ih (fun p hp => hl p (List.mem_cons_of_mem _ hp)) h
      exact ⟨(hf.toChip (hl o (by simp))).trans h2, by rw [hc, hf.rest]⟩

theorem runOscs_completes {c : Config} {a e : Nat} : ∀ (l : List Nat) (s : State), a ≤ e → (∀ o ∈ l, SlotReady c s e o) →
    ∃ t, runOscs c a e l s = .ok t := by
  intro l
  induction l with
  | nil => intro s _ _; exact ⟨s, rfl⟩
  | cons o l ih =>
    intro s hae h
    obtain ⟨r, hr⟩ := oscRun_completes c o a e s (h o (by simp)) hae
    simp only [runOscs, hr]
    exact ih r hae fun p hp => (h p (List.mem_cons_of_mem _ hp)).frame (.oscRun hr)

/-- One pass that completes: the chip's frame, and its record with the time moved on (R324). -/
theorem runPass_ok {c : Config} {ci time : Nat} {C : Chip} {s t : State} (h : runPass c ci time C s = .ok t) :
    ChipFrame c ci s t ∧ t.chips = s.chips.modify ci fun D =>
      { D with frameDelay := D.frameDelay - (time - D.lastTime), lastTime := time } := by
  unfold runPass at h
  dsimp only at h
  split at h
  · cases h
  · rename_i r hr
    injection h with h; subst h
    obtain ⟨hf, hc⟩ := runOscs_frame (ci := ci) _ (fun o ho => ho) hr
    exact ⟨((ChipFrame.modChip c ci s _).trans hf).trans (.modChip c ci _ _), by
      rw [State.modChip_chips, hc, State.modChip_chips, modify_modify]⟩

/-- What a frame event does to the chip's record: the sequencer alone, if that. -/
theorem frameEvent_chip (c : Config) (ci : Nat) (s : State) :
    ∃ g : Chip → Chip, (frameEvent c ci s).chips = s.chips.modify ci g ∧
      ∀ D, g D = { D with frameDelay := (g D).frameDelay, frame := (g D).frame } := by
  unfold frameEvent
  split
  · exact ⟨id, (modify_id_at _ _ _ fun _ _ => rfl).symm, fun D => rfl⟩
  · split
    · exact ⟨id, (modify_id_at _ _ _ fun _ _ => rfl).symm, fun D => rfl⟩
    · exact ⟨_, performPlan_chips c ci _ s, fun D => rfl⟩
    · exact ⟨_, performPlan_chips c ci _ s, fun D => rfl⟩

theorem passEnd_le (c : Config) (k : ChipKind) (e : Nat) (C : Chip) : passEnd c k e C ≤ e := by
  unfold passEnd; split
  · exact Nat.le_refl _
  · exact Nat.min_le_left _ _

theorem le_passEnd (c : Config) (k : ChipKind) (e : Nat) (C : Chip) (h : C.lastTime ≤ e) :
    C.lastTime ≤ passEnd c k e C := by
  unfold passEnd; split
  · exact h
  · omega

/-- The part of a chip's record that advancing it keeps. -/
def SameButTime (C D : Chip) : Prop :=
  D = { C with lastTime := D.lastTime, frameDelay := D.frameDelay, frame := D.frame }

theorem SameButTime.trans {C D E : Chip} (h : SameButTime C D) (k : SameButTime D E) : SameButTime C E := by
  unfold SameButTime at *; rw [k, h]

/-- The chip's record after a pass that does not end the command, and the frame event after it. -/
theorem runPass_frameEvent {c : Config} {ci time : Nat} {C : Chip} {s t : State} (hC : s.chips[ci]? = some C)
    (h : runPass c ci time C s = .ok t) :
    ∃ D, (frameEvent c ci t).chips[ci]? = some D ∧ SameButTime C D ∧ D.lastTime = time := by
  obtain ⟨g, hg, hgD⟩ := frameEvent_chip c ci t
  have hc := (runPass_ok h).2
  refine ⟨g { C with frameDelay := C.frameDelay - (time - C.lastTime), lastTime := time }, ?_, ?_, ?_⟩
  · rw [hg, hc]; simp [hC]
  · rw [hgD]; rfl
  · rw [hgD]

/-- What a loop that completes does (R324): the chip's frame; the record but for its time and sequencer; and a time not
past the end. -/
theorem runUntilLoop_ok {c : Config} {ci e : Nat} : ∀ (fuel : Nat) {s t : State} {C : Chip}, s.chips[ci]? = some C →
    C.lastTime ≤ e → runUntilLoop c ci e fuel s = .ok t →
    ChipFrame c ci s t ∧ ∃ D, t.chips[ci]? = some D ∧ SameButTime C D ∧ C.lastTime ≤ D.lastTime ∧ D.lastTime ≤ e := by
  intro fuel
  induction fuel with
  | zero =>
    intro s t C hC hle h
    simp only [runUntilLoop] at h
    injection h with h; subst h
    exact ⟨.refl c ci s, C, hC, rfl, Nat.le_refl _, hle⟩
  | succ fuel ih =>
    intro s t C hC hle h
    simp only [runUntilLoop, hC] at h
    split at h
    · cases h
    · rename_i r hr
      have hpass := runPass_ok hr
      have h1 := le_passEnd c (c.chipKind ci) e C hle
      have h2 := passEnd_le c (c.chipKind ci) e C
      split at h
      · injection h with h; subst h
        exact ⟨hpass.1, { C with
          frameDelay := C.frameDelay - (passEnd c (c.chipKind ci) e C - C.lastTime)
          lastTime := passEnd c (c.chipKind ci) e C }, by rw [hpass.2]; simp [hC], rfl, h1, h2⟩
      · obtain ⟨D, hD, hsame, hlast⟩ := runPass_frameEvent hC hr
        obtain ⟨hf, E, hE, hsame', hle', hend⟩ := ih hD (by omega) h
        exact ⟨(hpass.1.trans (frameEvent_frame c ci r)).trans hf, E, hE, hsame.trans hsame', by omega, hend⟩

/-- The loop completes where the chip's oscillators are ready. -/
theorem runUntilLoop_completes {c : Config} {ci e : Nat} : ∀ (fuel : Nat) (s : State) (C : Chip), s.chips[ci]? = some C →
    C.lastTime ≤ e → (∀ o ∈ chipOscs c ci, SlotReady c s e o) → ∃ t, runUntilLoop c ci e fuel s = .ok t := by
  intro fuel
  induction fuel with
  | zero => intro s C _ _ _; exact ⟨s, rfl⟩
  | succ fuel ih =>
    intro s C hC hle hready
    simp only [runUntilLoop, hC]
    have h1 := le_passEnd c (c.chipKind ci) e C hle
    have h2 := passEnd_le c (c.chipKind ci) e C
    have hpass : ∃ r, runPass c ci (passEnd c (c.chipKind ci) e C) C s = .ok r := by
      unfold runPass
      dsimp only
      obtain ⟨t, ht⟩ := runOscs_completes (c := c) (a := C.lastTime) (e := passEnd c (c.chipKind ci) e C)
        (chipOscs c ci) (s.modChip ci fun D => { D with
          frameDelay := D.frameDelay - (passEnd c (c.chipKind ci) e C - D.lastTime) }) h1 (by
          intro o ho O b hO hb
          obtain ⟨hy, B, hB, hadm⟩ := hready o ho O b hO hb
          refine ⟨hy, B, hB, hadm.imp id fun hle => Nat.le_trans ?_ hle⟩
          exact Nat.div_le_div_right (Nat.add_le_add_right (Nat.mul_le_mul_right _ h2) _))
      rw [ht]
      exact ⟨_, rfl⟩
    obtain ⟨r, hr⟩ := hpass
    rw [hr]
    dsimp only
    split
    · exact ⟨r, rfl⟩
    · obtain ⟨D, hD, -, hlast⟩ := runPass_frameEvent hC hr
      have hf := (runPass_ok hr).1.trans (frameEvent_frame c ci r)
      exact ih _ D hD (by omega) fun o ho => (hready o ho).chipFrame hf

/-! ## The fuel of the loop (log 36) -/

/-- A frame event that waits no time is the frame-1 event, and the next one does wait. -/
theorem quadPlan_zero (c : Config) (k : ChipKind) (oscs : List Nat) (C : Chip) (hn : nframes c k ≠ 0)
    (h : (quadPlan c k oscs C).delay = 0) : (quadPlan c k oscs C).next = 2 ∧ C.frame = 1 := by
  have hp : 2 ≤ framePeriod c k C.variant := by
    unfold framePeriod
    rw [if_neg hn]
    split
    · decide
    · rw [frame1Shortening_eq]; omega
  simp only [quadPlan] at h ⊢
  split at h
  · exact ⟨by omega, ‹_›⟩
  · split at h <;> omega

theorem frameEvent_wait {c : Config} {ci : Nat} {s : State} {C D : Chip} (hC : s.chips[ci]? = some C)
    (hD : (frameEvent c ci s).chips[ci]? = some D) (hn : nframes c (c.chipKind ci) ≠ 0) (h : D.frameDelay = 0) :
    D.frame = 2 ∧ C.frame = 1 := by
  unfold frameEvent at hD
  simp only [hC] at hD
  split at hD
  · rename_i hs; simp [nframes, hs] at hn
  · rw [performPlan_chips] at hD
    simp [hC] at hD
    subst hD
    exact quadPlan_zero c _ (chipOscs c ci) C hn h
  · rw [performPlan_chips] at hD
    simp [hC] at hD
    subst hD
    simp [otherPlan] at h

/-- How many passes a chip's record can still take up to time `e`. -/
def passesLeft (e : Nat) (C : Chip) : Nat :=
  3 * (e - C.lastTime) + if C.frameDelay = 0 then (if C.frame = 1 then 3 else 2) else 1

theorem passesLeft_le (e : Nat) (C : Chip) : passesLeft e C ≤ passFuel (e - C.lastTime) := by
  unfold passesLeft passFuel; split
  · split <;> omega
  · omega

/-- The loop does not run out of fuel: it reaches its end time (R324). -/
theorem runUntilLoop_reaches {c : Config} {ci e : Nat} : ∀ (fuel : Nat) {s t : State} {C : Chip},
    s.chips[ci]? = some C → C.lastTime ≤ e → passesLeft e C ≤ fuel → runUntilLoop c ci e fuel s = .ok t →
    ∃ D, t.chips[ci]? = some D ∧ SameButTime C D ∧ D.lastTime = e := by
  intro fuel
  induction fuel with
  | zero =>
    intro s t C _ _ hf _
    unfold passesLeft at hf
    split at hf
    · split at hf <;> omega
    · omega
  | succ fuel ih =>
    intro s t C hC hle hf h
    simp only [runUntilLoop, hC] at h
    split at h
    · cases h
    · rename_i r hr
      have hpass := runPass_ok hr
      split at h
      · rename_i hend
        injection h with h; subst h
        exact ⟨{ C with
          frameDelay := C.frameDelay - (passEnd c (c.chipKind ci) e C - C.lastTime)
          lastTime := passEnd c (c.chipKind ci) e C }, by rw [hpass.2]; simp [hC], rfl, hend⟩
      · rename_i hend
        obtain ⟨D, hD, hsame, hlast⟩ := runPass_frameEvent hC hr
        have hr' : r.chips[ci]? = some { C with
            frameDelay := C.frameDelay - (passEnd c (c.chipKind ci) e C - C.lastTime)
            lastTime := passEnd c (c.chipKind ci) e C } := by rw [hpass.2]; simp [hC]
        have hn : nframes c (c.chipKind ci) ≠ 0 := by
          intro h0; exact hend (by simp [passEnd, h0])
        have hpe : passEnd c (c.chipKind ci) e C = min e (C.lastTime + C.frameDelay) := by simp [passEnd, hn]
        have hz : D.frameDelay = 0 → D.frame = 2 ∧ C.frame = 1 := by
          intro h0
          have := frameEvent_wait hr' hD hn h0
          exact this
        have hmu : passesLeft e D ≤ fuel := by
          unfold passesLeft at hf ⊢
          rw [hlast, hpe]
          rw [hpe] at hend
          by_cases hd : D.frameDelay = 0
          · obtain ⟨h2, h1⟩ := hz hd
            rw [if_pos hd, if_neg (by omega)]
            rw [if_pos h1] at hf
            split at hf <;> omega
          · rw [if_neg hd]
            split at hf
            · split at hf <;> omega
            · omega
        obtain ⟨E, hE, hs', hl'⟩ := ih hD (by omega) hmu h
        exact ⟨E, hE, hsame.trans hs', hl'⟩

/-- Once the fuel covers the passes left, its amount does not matter (log 36). -/
theorem runUntilLoop_fuel {c : Config} {ci e : Nat} : ∀ (f1 f2 : Nat) {s : State} {C : Chip},
    s.chips[ci]? = some C → C.lastTime ≤ e → passesLeft e C ≤ f1 → passesLeft e C ≤ f2 →
    runUntilLoop c ci e f1 s = runUntilLoop c ci e f2 s := by
  intro f1
  induction f1 with
  | zero =>
    intro f2 s C _ _ hf _
    unfold passesLeft at hf
    split at hf
    · split at hf <;> omega
    · omega
  | succ f1 ih =>
    intro f2 s C hC hle hf hf2
    cases f2 with
    | zero =>
      unfold passesLeft at hf2
      split at hf2
      · split at hf2 <;> omega
      · omega
    | succ f2 =>
    simp only [runUntilLoop, hC]
    split
    · rfl
    · rename_i r hr
      have hpass := runPass_ok hr
      split
      · rfl
      · rename_i hend
        obtain ⟨D, hD, hsame, hlast⟩ := runPass_frameEvent hC hr
        have hr' : r.chips[ci]? = some { C with
            frameDelay := C.frameDelay - (passEnd c (c.chipKind ci) e C - C.lastTime)
            lastTime := passEnd c (c.chipKind ci) e C } := by rw [hpass.2]; simp [hC]
        have hn : nframes c (c.chipKind ci) ≠ 0 := by
          intro h0; exact hend (by simp [passEnd, h0])
        have hpe : passEnd c (c.chipKind ci) e C = min e (C.lastTime + C.frameDelay) := by simp [passEnd, hn]
        have hz : D.frameDelay = 0 → D.frame = 2 ∧ C.frame = 1 := by
          intro h0
          have := frameEvent_wait hr' hD hn h0
          exact this
        have hmu : passesLeft e D + 1 ≤ passesLeft e C := by
          unfold passesLeft
          rw [hlast, hpe]
          rw [hpe] at hend
          by_cases hd : D.frameDelay = 0
          · obtain ⟨h2, h1⟩ := hz hd
            rw [if_pos hd, if_neg (by omega)]
            rw [if_pos h1]
            split <;> omega
          · rw [if_neg hd]
            split
            · split <;> omega
            · omega
        exact ih _ hD (by omega) (by omega) (by omega)

/-- CHIP.RUNUNTIL, where it completes (R324): the chip's frame, and its time at the operand. -/
theorem advanceChip_ok {c : Config} {ci e : Nat} {s t : State} {C : Chip} (hC : s.chips[ci]? = some C)
    (hle : C.lastTime ≤ e) (h : advanceChip c ci e s = .ok t) :
    ChipFrame c ci s t ∧ ∃ D, t.chips[ci]? = some D ∧ SameButTime C D ∧ D.lastTime = e := by
  unfold advanceChip at h
  simp only [hC] at h
  exact ⟨(runUntilLoop_ok _ hC hle h).1, runUntilLoop_reaches _ hC hle (passesLeft_le e C) h⟩

theorem advanceChip_completes {c : Config} {ci e : Nat} {s : State} {C : Chip} (h : ChipReady c s ci e C) :
    ∃ t, advanceChip c ci e s = .ok t := by
  unfold advanceChip
  simp only [h.here]
  exact runUntilLoop_completes _ s C h.here h.order h.slots

/-! ## Register writes -/

theorem oscReset_frame_regs (c : Config) (o : Nat) (s : State) :
    (oscReset c o s).oscs = s.oscs.modify o (resetSlot c (oscKind c o)) := by
  unfold oscReset; dsimp only; split <;> rfl

/-- Key-on and key-off by a register change voices of the chip alone. -/
theorem keyWrite_frame (c : Config) (ci slot : Nat) (data : Byte) (s : State) :
    ChipFrame c ci s (keyWrite c ci slot data s) := by
  have hsel : ∀ v ∈ selectedVoices c ci data, ∃ o ∈ chipOscs c ci, voiceOf c o = some v := by
    intro v hv
    simp only [selectedVoices, List.mem_filterMap] at hv
    obtain ⟨i, -, hi⟩ := hv
    obtain ⟨o, ho, hov⟩ := Option.bind_eq_some_iff.mp hi
    exact ⟨o, List.mem_of_getElem? ho, hov⟩
  unfold keyWrite
  split
  · split
    · exact .refl c ci s
    · exact ChipFrame.foldl _ _ (fun v hv s => .modVoice c ci v s _ (hsel v hv)) s
    · exact ChipFrame.foldl _ _ (fun v hv s => .modVoice c ci v s _ (hsel v hv)) s
  · exact .refl c ci s

theorem keyWrite_chips (c : Config) (ci slot : Nat) (data : Byte) (s : State) :
    (keyWrite c ci slot data s).chips = s.chips := by
  unfold keyWrite
  split
  · split
    · rfl
    · exact foldl_keeps (fun t : State => t.chips = s.chips) _ _ _ rfl fun t v _ ht => ht
    · exact foldl_keeps (fun t : State => t.chips = s.chips) _ _ _ rfl fun t v _ ht => ht
  · rfl

/-! ## The OPEN remainder of a global write (R328) -/

@[simp] theorem fitBytes_length (n : Nat) (l : List Byte) : (fitBytes n l).length = n := by simp [fitBytes]

@[simp] theorem fitBytes_self (l : List Byte) : fitBytes l.length l = l := by
  refine List.ext_getElem (by simp) fun i h1 h2 => ?_
  simp [fitBytes, List.getElem?_eq_getElem h2]

/-- What the remainder keeps of a slot: its registers' number, its committed amplitude and its sink, and its registers
where no sweep is; of a slot that wraps a voice, all. -/
theorem restSlot_keeps (c : Config) (o : Nat) (r : SlotView) (O : Osc) :
    (restSlot c o r O).regs.length = O.regs.length ∧ (restSlot c o r O).output = O.output ∧
    (restSlot c o r O).lastAmp = O.lastAmp ∧ (isNesKind (oscKind c o) = false → (restSlot c o r O).regs = O.regs) ∧
    (oscKind c o = .brrVoice → restSlot c o r O = O) := by
  unfold restSlot
  split
  · simp
  · rename_i hk
    refine ⟨?_, rfl, rfl, fun h => by simp [h], fun h => absurd h hk⟩
    cases h : isNesKind (oscKind c o) <;> simp

/-- A slot given what it holds stays. -/
theorem restSlot_self (c : Config) (o : Nat) (v : Option Voice) (O : Osc) :
    restSlot c o { tone := O.toTone, delay := O.delay, voice := v } O = O := by
  unfold restSlot
  split
  · rfl
  · simp

theorem putSlot_frame (c : Config) (s : State) (x : Nat × SlotView) : SlotFrame c x.1 s (putSlot c s x) :=
  .modOsc c x.1 s _ fun O => ⟨(restSlot_keeps c x.1 x.2 O).1, (restSlot_keeps c x.1 x.2 O).2.1⟩

theorem globalRemainder_frame (c : Config) (ci slot : Nat) (data : Byte) (gregs : Nat → Byte) (s : State) :
    ChipFrame c ci s (globalRemainder c ci slot data gregs s) := by
  unfold globalRemainder
  split
  · exact .refl c ci s
  · exact (ChipFrame.modChip c ci s _).trans (ChipFrame.foldl _ _ (fun x hx s =>
      (putSlot_frame c s x).toChip (List.of_mem_zip hx).1) _)

/-- The chip's record after the remainder. -/
theorem globalRemainder_chips {c : Config} {ci slot : Nat} {data : Byte} {gregs : Nat → Byte} {s : State} {C : Chip}
    (hC : s.chips[ci]? = some C) : ∃ r, (globalRemainder c ci slot data gregs s).chips =
      s.chips.modify ci (putChip c ci slot data r) := by
  refine ⟨c.globalRest (c.chipKind ci) C.variant gregs slot data (globalView c ci C s), ?_⟩
  unfold globalRemainder
  simp only [hC]
  exact foldl_keeps (fun t : State => t.chips = s.chips.modify ci _) _ _ _ rfl fun t x _ ht => by
    rw [(putSlot_frame c t x).rest]; exact ht

theorem RestFrame.refl (c : Config) (s : State) : RestFrame c s s :=
  ⟨rfl, rfl, fun _ => rfl, fun _ _ => rfl, fun _ _ => rfl⟩

theorem RestFrame.trans {c : Config} {s t u : State} (h : RestFrame c s t) (h' : RestFrame c t u) : RestFrame c s u :=
  ⟨h'.bufs.trans h.bufs, h'.voices.trans h.voices, fun o => (h'.lastAmp o).trans (h.lastAmp o),
    fun o ho => (h'.regs o ho).trans (h.regs o ho), fun o ho => (h'.wrapped o ho).trans (h.wrapped o ho)⟩

theorem putSlot_rest (c : Config) (s : State) (x : Nat × SlotView) : RestFrame c s (putSlot c s x) := by
  have key : ∀ {α : Type} (f : Osc → α) (o : Nat), (∀ O, x.1 = o → f (restSlot c x.1 x.2 O) = f O) →
      ((putSlot c s x).oscs[o]?).map f = (s.oscs[o]?).map f := by
    intro α f o h
    simp only [putSlot, State.modOsc_oscs, List.getElem?_modify]
    cases s.oscs[o]? with
    | none => rfl
    | some O => by_cases e : x.1 = o <;> simp [e, ← h O]
  refine ⟨rfl, rfl, fun o => key _ o fun O _ => (restSlot_keeps c x.1 x.2 O).2.2.1,
    fun o ho => key _ o fun O e => (restSlot_keeps c x.1 x.2 O).2.2.2.1 (e ▸ ho), fun o ho => ?_⟩
  simpa using key id o fun O e => (restSlot_keeps c x.1 x.2 O).2.2.2.2 (e ▸ ho)

theorem globalRemainder_rest (c : Config) (ci slot : Nat) (data : Byte) (gregs : Nat → Byte) (s : State) :
    RestFrame c s (globalRemainder c ci slot data gregs s) := by
  unfold globalRemainder
  split
  · exact .refl c s
  · exact foldl_keeps (fun t : State => RestFrame c s t) _ _ _ ⟨rfl, rfl, fun _ => rfl, fun _ _ => rfl, fun _ _ => rfl⟩
      fun t x _ ht => ht.trans (putSlot_rest c t x)

/-- Giving a slot what it holds changes nothing. -/
theorem putSlot_view (c : Config) (s : State) (o : Nat) : putSlot c s (o, viewSlot c s o) = s := by
  have : s.oscs.modify o (restSlot c o (viewSlot c s o)) = s.oscs :=
    modify_id_at _ _ _ fun O hO => by simp only [viewSlot, hO, Option.getD_some, restSlot_self]
  simp only [putSlot, State.modOsc, this]

theorem globalBits_self (c : Config) (ci slot : Nat) (data : Byte) (g : GlobalBits) :
    globalBits c ci slot data (globalBits c ci slot data g g) (globalBits c ci slot data g g) =
      globalBits c ci slot data g g := by
  unfold globalBits
  split <;> simp <;> tauto

/-- With no remainder (the document's default, R328) the byte and the printed bits are all that is written. -/
theorem globalRemainder_default {c : Config} {ci slot : Nat} {data : Byte} {gregs : Nat → Byte} {s : State} {C : Chip}
    (hC : s.chips[ci]? = some C) (h : ∀ variant gregs F, c.globalRest (c.chipKind ci) variant gregs slot data F = F) :
    globalRemainder c ci slot data gregs (s.modChip ci (globalWritten c ci slot data)) =
      s.modChip ci (globalWritten c ci slot data) := by
  unfold globalRemainder
  simp only [hC, State.modChip_chips, List.getElem?_modify_eq, Option.map_eq_map, Option.map_some, h]
  generalize hs : s.modChip ci (globalWritten c ci slot data) = t
  have htC : t.chips[ci]? = some (globalWritten c ci slot data C) := by subst hs; simp [hC]
  have hput : t.modChip ci (putChip c ci slot data (globalView c ci (globalWritten c ci slot data C) t)) = t := by
    have : t.chips.modify ci (putChip c ci slot data (globalView c ci (globalWritten c ci slot data C) t)) = t.chips :=
      modify_id_at _ _ _ fun D hD => by
        rw [htC] at hD; injection hD with hD; subst hD
        simp [putChip, globalView, globalWritten, globalBits_self]
        exact ite_self _
    simp only [State.modChip, this]
  rw [hput]
  have key : ∀ l : List Nat, (l.zip (l.map (viewSlot c t))).foldl (putSlot c) t = t := by
    intro l
    induction l with
    | nil => rfl
    | cons o l ih => simp only [List.map_cons, List.zip_cons_cons, List.foldl_cons, putSlot_view, ih]
  exact key _

/-- What a global write does (R328): the byte, the printed bits and the remainder, which leave the chip's frame and its
record as `putChip` says and keep what `RestFrame` says; then the key register. -/
theorem globalWrite_eq {c : Config} {ci slot : Nat} {data : Byte} {s : State} {C : Chip} (hC : s.chips[ci]? = some C) :
    ∃ w r, globalWrite c ci slot data s = keyWrite c ci slot data w ∧ ChipFrame c ci s w ∧
      w.chips[ci]? = some (putChip c ci slot data r (globalWritten c ci slot data C)) ∧ RestFrame c s w ∧
      ((∀ variant gregs F, c.globalRest (c.chipKind ci) variant gregs slot data F = F) →
        w = s.modChip ci (globalWritten c ci slot data)) := by
  obtain ⟨r, hr⟩ := globalRemainder_chips (c := c) (ci := ci) (slot := slot) (data := data)
    (gregs := gregRead c (c.chipKind ci) C) (s := s.modChip ci (globalWritten c ci slot data))
    (C := globalWritten c ci slot data C) (by simp [hC])
  have hk := globalRemainder_rest c ci slot data (gregRead c (c.chipKind ci) C)
    (s.modChip ci (globalWritten c ci slot data))
  refine ⟨_, r, ?_, (ChipFrame.modChip c ci s _).trans (globalRemainder_frame c ci slot data _ _), ?_,
    ⟨hk.bufs, hk.voices, hk.lastAmp, hk.regs, hk.wrapped⟩, globalRemainder_default hC⟩
  · unfold globalWrite; simp only [hC]
  · rw [hr]; simp [hC]

/-- What a global write leaves of the chip's record: the byte stored, time, variant and the printed bits (R328). -/
theorem globalWrite_ok {c : Config} {ci slot : Nat} {data : Byte} {s : State} {C : Chip} (hC : s.chips[ci]? = some C) :
    ChipFrame c ci s (globalWrite c ci slot data s) ∧
    ∃ r, (globalWrite c ci slot data s).chips[ci]? = some (putChip c ci slot data r (globalWritten c ci slot data C)) := by
  obtain ⟨w, r, h, hf, hw, -⟩ := globalWrite_eq (c := c) (slot := slot) (data := data) hC
  rw [h]
  exact ⟨hf.trans (keyWrite_frame c ci slot data w), r, by rw [keyWrite_chips, hw]⟩

/-- A register write, where it completes: the chip's frame, and its time and variant kept (R323, R327, R328). -/
theorem registerWrite_ok {c : Config} {ci addr : Nat} {data : Byte} {s t : State} {C : Chip}
    (hC : s.chips[ci]? = some C) (h : registerWrite c ci addr data s = .ok t) :
    ChipFrame c ci s t ∧ ∃ D, t.chips[ci]? = some D ∧ D.lastTime = C.lastTime ∧ D.variant = C.variant := by
  unfold registerWrite at h
  simp only [hC] at h
  split at h
  · split at h
    · split at h
      · injection h with h; subst h; exact ⟨.refl c ci _, C, hC, rfl, rfl⟩
      · rename_i o ho
        have hf := SlotFrame.oscWrite h
        exact ⟨hf.toChip (List.mem_of_getElem? ho), C, by rw [hf.rest]; exact hC, rfl, rfl⟩
    · rename_i slot _
      injection h with h; subst h
      obtain ⟨hf, r, hr⟩ := globalWrite_ok (c := c) (slot := slot) (data := data) hC
      exact ⟨hf, _, hr, rfl, rfl⟩
    · injection h with h; subst h
      exact ⟨.modChip c ci s _, gregWrite c (c.chipKind ci) C addr data, by simp [hC], rfl, rfl⟩
  · injection h with h; subst h; exact ⟨.refl c ci _, C, hC, rfl, rfl⟩

/-- A register write completes where the register images have their kinds' lengths: DISPATCH yields only valid numbers
(42_oscillator_ops.md R236). -/
theorem registerWrite_completes (c : Config) (ci addr : Nat) (data : Byte) (s : State) (h : RegsReady c s ci) :
    ∃ t, registerWrite c ci addr data s = .ok t := by
  unfold registerWrite
  split
  · exact ⟨_, rfl⟩
  · rename_i C hC
    split
    · split
      · rename_i i r hd
        split
        · exact ⟨_, rfl⟩
        · rename_i o ho
          unfold oscWrite
          split
          · exact ⟨_, rfl⟩
          · rename_i O hO
            have hreg := h o (List.mem_of_getElem? ho) O hO
            have hr : r < slotRegs c ci i := by
              unfold dispatch validTarget at hd
              split at hd
              · split at hd
                · injection hd with h1 h2; subst h1; subst h2; assumption
                · cases hd
              · simp_all
            simp only [slotRegs, ho, Option.elim] at hr
            rw [if_neg (by omega)]
            exact ⟨_, rfl⟩
      · exact ⟨_, rfl⟩
      · exact ⟨_, rfl⟩
    · exact ⟨_, rfl⟩

/-! ## EngineOk -/

theorem EngineOk.foldl {α : Type} {c : Config} (f : State → α → State) (l : List α)
    (h : ∀ s a, a ∈ l → EngineOk c s → EngineOk c (f s a)) {s : State} (hs : EngineOk c s) : EngineOk c (l.foldl f s) :=
  foldl_keeps _ f l s hs h

theorem EngineOk.clockOsc {c : Config} {s : State} (h : EngineOk c s) (x : Nat × FrameClock) :
    EngineOk c (clockOsc c s x) := by
  unfold Machine.clockOsc
  split
  · exact h.oscClkenv x.1
  · exact h.oscClklen x.1
  · exact h.oscClkswp x.1
  · exact h.oscClklin x.1

theorem EngineOk.performPlan {c : Config} {s : State} (h : EngineOk c s) (ci : Nat) (p : FramePlan)
    (hp : p.next < max (nframes c (c.chipKind ci)) 1) : EngineOk c (performPlan c ci p s) := by
  have key : ∀ (l : List (Nat × FrameClock)) {s}, EngineOk c s → EngineOk c (l.foldl (Machine.clockOsc c) s) := fun l _ =>
    EngineOk.foldl _ l fun s x _ hs => hs.clockOsc x
  exact key _ ((key _ h).modChip ci _ fun C hC => ⟨hp, hC.gregs_wf⟩)

theorem EngineOk.frameEvent {c : Config} {s : State} (h : EngineOk c s) (ci : Nat) : EngineOk c (frameEvent c ci s) := by
  unfold Machine.frameEvent
  split
  · exact h
  · split
    · exact h
    · rename_i hs
      refine h.performPlan ci _ ?_
      simp only [nframes, hs, quadPlan]; omega
    · rename_i n hs
      refine h.performPlan ci _ ?_
      have hn : nframes c (c.chipKind ci) = n + 1 := by simp [nframes, hs]
      rw [hn]
      exact Nat.lt_of_lt_of_le (Nat.mod_lt _ (Nat.succ_pos n)) (Nat.le_max_left _ _)

theorem EngineOk.runOscs {c : Config} {a e : Nat} : ∀ (l : List Nat) {s t : State}, EngineOk c s →
    runOscs c a e l s = .ok t → EngineOk c t := by
  intro l
  induction l with
  | nil =>
    intro s t h hr
    simp only [Machine.runOscs] at hr
    injection hr with hr; subst hr; exact h
  | cons o l ih =>
    intro s t h hr
    simp only [Machine.runOscs] at hr
    split at hr
    · cases hr
    · exact ih (h.oscRun ‹_›) hr

theorem EngineOk.runPass {c : Config} {ci time : Nat} {C : Chip} {s t : State} (h : EngineOk c s)
    (hr : runPass c ci time C s = .ok t) : EngineOk c t := by
  unfold Machine.runPass at hr
  dsimp only at hr
  split at hr
  · cases hr
  · rename_i r hrun
    injection hr with hr; subst hr
    have h1 : EngineOk c (s.modChip ci fun C => { C with frameDelay := C.frameDelay - (time - C.lastTime) }) :=
      h.modChip ci _ fun D hD => ⟨hD.frame_range, hD.gregs_wf⟩
    exact (EngineOk.runOscs _ h1 hrun).modChip ci _ fun D hD => ⟨hD.frame_range, hD.gregs_wf⟩

theorem EngineOk.runUntilLoop {c : Config} {ci e : Nat} : ∀ (fuel : Nat) {s t : State}, EngineOk c s →
    runUntilLoop c ci e fuel s = .ok t → EngineOk c t := by
  intro fuel
  induction fuel with
  | zero =>
    intro s t h hr
    simp only [Machine.runUntilLoop] at hr
    injection hr with hr; subst hr; exact h
  | succ fuel ih =>
    intro s t h hr
    simp only [Machine.runUntilLoop] at hr
    split at hr
    · injection hr with hr; subst hr; exact h
    · split at hr
      · cases hr
      · rename_i r hp
        split at hr
        · injection hr with hr; subst hr; exact h.runPass hp
        · exact ih ((h.runPass hp).frameEvent ci) hr

theorem EngineOk.advanceChip {c : Config} {ci e : Nat} {s t : State} (h : EngineOk c s)
    (hr : advanceChip c ci e s = .ok t) : EngineOk c t := by
  unfold Machine.advanceChip at hr
  split at hr
  · injection hr with hr; subst hr; exact h
  · exact EngineOk.runUntilLoop _ h hr

theorem ChipOk.globalWritten {c : Config} {ci : Nat} {C : Chip} (h : ChipOk c ci C) (slot : Nat) (data : Byte) :
    ChipOk c ci (globalWritten c ci slot data C) := ⟨h.frame_range, Memory.write_wf _ _ _ _ h.gregs_wf⟩

theorem EngineOk.keyWrite {c : Config} {s : State} (h : EngineOk c s) (ci slot : Nat) (data : Byte) :
    EngineOk c (keyWrite c ci slot data s) := by
  unfold Machine.keyWrite
  split
  · split
    · exact h
    · exact EngineOk.foldl _ _ (fun s v _ hs => hs.voiceKeyon v) h
    · exact EngineOk.foldl _ _ (fun s v _ hs => hs.voiceKeyoff v) h
  · exact h

theorem EngineOk.putSlot {c : Config} {s : State} (h : EngineOk c s) (x : Nat × SlotView) :
    EngineOk c (putSlot c s x) :=
  h.modOsc _ _ fun O hO => by
    obtain ⟨h1, h2, -⟩ := restSlot_keeps c x.1 x.2 O
    exact ⟨h1.trans hO.regs_length, h2 ▸ hO.sink⟩

theorem ChipOk.putChip {c : Config} {ci : Nat} {C : Chip} (h : ChipOk c ci C) (slot : Nat) (data : Byte)
    (r : GlobalView) : ChipOk c ci (putChip c ci slot data r C) := by
  refine ⟨?_, h.gregs_wf⟩
  have := h.frame_range
  simp only [Machine.putChip]
  split <;> omega

theorem EngineOk.globalWrite {c : Config} {s : State} (h : EngineOk c s) (ci slot : Nat) (data : Byte) :
    EngineOk c (globalWrite c ci slot data s) := by
  have h1 : EngineOk c (s.modChip ci (Machine.globalWritten c ci slot data)) :=
    h.modChip ci _ fun _ hC => hC.globalWritten _ _
  unfold Machine.globalWrite
  split
  · exact h
  · apply EngineOk.keyWrite
    unfold globalRemainder
    split
    · exact h1
    · exact EngineOk.foldl _ _ (fun s x _ hs => hs.putSlot x) (h1.modChip ci _ fun _ hC => hC.putChip _ _ _)

theorem EngineOk.registerWrite {c : Config} {ci addr : Nat} {data : Byte} {s t : State} (h : EngineOk c s)
    (hr : registerWrite c ci addr data s = .ok t) : EngineOk c t := by
  unfold Machine.registerWrite at hr
  split at hr
  · injection hr with hr; subst hr; exact h
  · split at hr
    · split at hr
      · split at hr
        · injection hr with hr; subst hr; exact h
        · exact h.oscWrite hr
      · injection hr with hr; subst hr
        exact h.globalWrite _ _ _
      · injection hr with hr; subst hr
        exact h.modChip ci _ fun _ hC => ⟨hC.frame_range, Memory.write_wf _ _ _ _ hC.gregs_wf⟩
    · injection hr with hr; subst hr; exact h

theorem EngineOk.wreckChip {c : Config} {s : State} (h : EngineOk c s) (ci : Nat) : EngineOk c (wreckChip c ci s) := by
  unfold Machine.wreckChip
  dsimp only
  refine ((EngineOk.foldl _ _ (fun s o _ hs => hs.wreckSlot o) h).modChip ci _ fun _ _ => ⟨?_, ?_⟩).takeDraws 1
  · exact Nat.mod_lt _ (by omega)
  · exact foldl_keeps (Memory.wf (c.powerOn (c.chipKind ci))) _ _ _ (Memory.nil_wf _) fun m i _ hm =>
      Memory.write_wf _ _ _ _ hm

theorem EngineOk.timedCommand {c : Config} {ci time : Nat} {s : State} (op : Byte) (body : State → Attempt)
    (h : EngineOk c s) (hb : ∀ t, body s = .ok t → EngineOk c t) : EngineOk c (timedCommand c op ci time body s) := by
  unfold Machine.timedCommand
  split
  · exact h
  · split
    · exact h.raiseFault _ _
    · exact EngineOk.settleImprecise _ _ (h.wreckChip ci) hb

theorem EngineOk.resetOwned {c : Config} {s : State} (h : EngineOk c s) (ci : Nat) (oi : Nat × Nat) :
    EngineOk c (resetOwned c ci s oi) := by
  unfold Machine.resetOwned
  apply EngineOk.oscReset
  apply EngineOk.modOsc h
  intro O hO
  exact ⟨by simp [powerOnRegs], hO.sink⟩

theorem resetChip_ok (c : Config) (ci : Nat) (variant : Bool) : ChipOk c ci (resetChip c ci variant) :=
  ⟨by show 0 < _; omega, Memory.nil_wf _⟩

theorem EngineOk.chipReset {c : Config} {s : State} (h : EngineOk c s) (ci : Nat) (variant : Bool) :
    EngineOk c (chipReset c ci variant s) :=
  EngineOk.foldl _ _ (fun _ oi _ hs => hs.resetOwned ci oi) (h.modChip ci _ fun _ _ => resetChip_ok c ci variant)

end Sys2Proof.Machine
end

