-- ==== Sys2Proof/Laws/Words.lean ====
section
/-! SUPPORT. The fields of a command word (Decode.lean): joining and splitting are inverse, and the operand fields read
back what the encoder puts into them. -/

namespace Sys2Proof

@[ext] theorem CmdFields.eq_of_fields {f g : CmdFields} (ho : f.op = g.op) (hu : f.u = g.u) (hv : f.v = g.v)
    (hz : f.z = g.z) (ha : f.a = g.a) (hb : f.b = g.b) : f = g := by
  cases f; cases g; simp_all

/-- Splitting the word of some fields gives the fields back. -/
@[simp] theorem splitWord_joinWord (f : CmdFields) : splitWord (joinWord f) = f := by
  apply CmdFields.eq_of_fields <;>
  · simp only [splitWord, joinWord]
    apply BitVec.eq_of_getLsbD_eq
    intro i hi
    simp only [BitVec.getLsbD_extractLsb', BitVec.getLsbD_append, hi, decide_true, Bool.true_and]
    repeat' split
    all_goals first | omega | (congr 1; omega)

/-- Joining the fields of a word gives the word back. -/
@[simp] theorem joinWord_splitWord (w : CmdWord) : joinWord (splitWord w) = w := by
  simp only [splitWord, joinWord]
  apply BitVec.eq_of_getLsbD_eq
  intro i hi
  simp only [BitVec.getLsbD_extractLsb', BitVec.getLsbD_append]
  repeat' split
  all_goals (rw [decide_eq_true (by omega), Bool.true_and]; congr 1; omega)

@[simp] theorem flagOperand_flagField (f : Bool) : flagOperand (flagField f) = f := by cases f <;> decide

@[simp] theorem flagRestZero_flagField (f : Bool) : flagRestZero (flagField f) = true := by cases f <;> decide

theorem sinkOperand_sinkField (sink : Option Byte) (h : sinkWellFormed sink = true) :
    sinkOperand (sinkField sink) = sink := by
  cases sink with
  | none => rfl
  | some b => simp_all [sinkOperand, sinkField, sinkWellFormed]

@[simp] theorem sinkField_sinkOperand (v : Byte) : sinkField (sinkOperand v) = v := by
  unfold sinkOperand; split <;> simp_all [sinkField]

theorem flagField_flagOperand (v : Byte) (h : flagRestZero v = true) : flagField (flagOperand v) = v := by
  revert v; decide

theorem sinkWellFormed_sinkOperand (v : Byte) : sinkWellFormed (sinkOperand v) = true := by
  unfold sinkOperand; split <;> simp_all [sinkWellFormed]

/-! ## The sub-fields of `b` (30_encoding.md R122) -/

theorem valueField_low' (v : Byte) : BitVec.extractLsb' 0 8 (0#24 ++ v : BitVec (24 + 8)) = v := by
  apply BitVec.eq_of_getLsbD_eq; intro i hi
  simp only [BitVec.getLsbD_extractLsb', BitVec.getLsbD_append]; simp [hi]

/-- The register value of OSC.WRITE reads back. -/
theorem valueField_low (v : Byte) : BitVec.extractLsb' 0 8 (n := 32) (0#24 ++ v) = v := valueField_low' v

theorem valueField_rest' (v : Byte) : BitVec.extractLsb' 8 24 (0#24 ++ v : BitVec (24 + 8)) = 0#24 := by
  apply BitVec.eq_of_getLsbD_eq; intro i hi
  simp only [BitVec.getLsbD_extractLsb', BitVec.getLsbD_append]; simp [hi]

theorem valueField_rest (v : Byte) : BitVec.extractLsb' 8 24 (n := 32) (0#24 ++ v) = 0#24 := valueField_rest' v

theorem writeField_data' (a : BitVec 16) (v : Byte) :
    BitVec.extractLsb' 0 8 (0#8 ++ (a ++ v) : BitVec (8 + (16 + 8))) = v := by
  apply BitVec.eq_of_getLsbD_eq; intro i hi
  simp only [BitVec.getLsbD_extractLsb', BitVec.getLsbD_append]; simp [hi]; intros; omega

/-- The data byte of CHIP.WRITE reads back. -/
theorem writeField_data (a : BitVec 16) (v : Byte) : BitVec.extractLsb' 0 8 (n := 32) (0#8 ++ (a ++ v)) = v :=
  writeField_data' a v

theorem writeField_addr' (a : BitVec 16) (v : Byte) :
    BitVec.extractLsb' 8 16 (0#8 ++ (a ++ v) : BitVec (8 + (16 + 8))) = a := by
  apply BitVec.eq_of_getLsbD_eq; intro i hi
  simp only [BitVec.getLsbD_extractLsb', BitVec.getLsbD_append]; simp [hi]; intros; omega

/-- The address of CHIP.WRITE reads back. -/
theorem writeField_addr (a : BitVec 16) (v : Byte) : BitVec.extractLsb' 8 16 (n := 32) (0#8 ++ (a ++ v)) = a :=
  writeField_addr' a v

theorem writeField_rest' (a : BitVec 16) (v : Byte) :
    BitVec.extractLsb' 24 8 (0#8 ++ (a ++ v) : BitVec (8 + (16 + 8))) = 0#8 := by
  apply BitVec.eq_of_getLsbD_eq; intro i hi
  simp only [BitVec.getLsbD_extractLsb', BitVec.getLsbD_append]; simp [hi]

theorem writeField_rest (a : BitVec 16) (v : Byte) : BitVec.extractLsb' 24 8 (n := 32) (0#8 ++ (a ++ v)) = 0#8 :=
  writeField_rest' a v

/-- A `b` field whose upper 24 bits are zero is the field of its low byte. -/
theorem valueField_join (b : Word32) (h : b.extractLsb' 8 24 = 0#24) : 0#24 ++ b.extractLsb' 0 8 = b := by
  apply BitVec.eq_of_getLsbD_eq; intro i hi
  have := congrArg (fun x : BitVec 24 => x.getLsbD (i - 8)) h
  simp [BitVec.getLsbD_extractLsb'] at this
  show (0#24 ++ b.extractLsb' 0 8 : BitVec (24 + 8)).getLsbD i = _
  simp only [BitVec.getLsbD_extractLsb', BitVec.getLsbD_append]
  by_cases h8 : i < 8
  · simp [h8]
  · simp [h8]; have := this (by omega); rw [show 8 + (i - 8) = i by omega] at this; simp [this]

/-- A `b` field whose upper 8 bits are zero is the field of its address and its byte. -/
theorem writeField_join (b : Word32) (h : b.extractLsb' 24 8 = 0#8) :
    0#8 ++ (b.extractLsb' 8 16 ++ b.extractLsb' 0 8) = b := by
  apply BitVec.eq_of_getLsbD_eq; intro i hi
  have := congrArg (fun x : BitVec 8 => x.getLsbD (i - 24)) h
  simp [BitVec.getLsbD_extractLsb'] at this
  show (0#8 ++ (b.extractLsb' 8 16 ++ b.extractLsb' 0 8) : BitVec (8 + (16 + 8))).getLsbD i = _
  simp only [BitVec.getLsbD_extractLsb', BitVec.getLsbD_append]
  by_cases h8 : i < 8
  · simp [h8]; intro h; omega
  · by_cases h24 : i < 24
    · simp [h24, h8]
      rw [decide_eq_true (by omega), show 8 + (i - 8) = i by omega]; simp
    · simp [h24]; have := this (by omega); rw [show 24 + (i - 24) = i by omega] at this; simp [this]

end Sys2Proof
end

