-- ==== Sys2Proof/Laws/PerInstr.lean ====
section
/-! SUPPORT. A family of per-instruction facts: the word of a command splits into the fields the opcode map gives it
(30_encoding.md R121, R124), with its own opcode and a zero reserved field. -/

namespace Sys2Proof.Laws

/-- The word of `i` splits into its fields; its `op` is the command's and its `z` is zero. -/
def wordFields.Statement (i : Instr) : Prop :=
  splitWord (encode i) = encodeFields i ∧ wordOpcode (encode i) = i.opcode ∧ (splitWord (encode i)).z = 0#8

/-- For the proofs below: what remains once joining and splitting cancel. -/
theorem wordFields_of_fields (i : Instr) (ho : (encodeFields i).op = i.opcode) (hz : (encodeFields i).z = 0#8) :
    wordFields.Statement i := by
  simp [wordFields.Statement, wordOpcode, encode, ho, hz]

theorem wordFields.bufSetrate (b : Byte) (rate clockRate : Word32) :
    wordFields.Statement (.bufSetrate b rate clockRate) :=
  wordFields_of_fields _ rfl rfl

theorem wordFields.bufClear (b : Byte) : wordFields.Statement (.bufClear b) :=
  wordFields_of_fields _ rfl rfl

theorem wordFields.bufEndframe (b : Byte) (time : Word32) : wordFields.Statement (.bufEndframe b time) :=
  wordFields_of_fields _ rfl rfl

theorem wordFields.bufRead (b : Byte) (stereo : Bool) (max : Word32) : wordFields.Statement (.bufRead b stereo max) :=
  wordFields_of_fields _ rfl rfl

theorem wordFields.bufMix (b : Byte) (count : Word32) : wordFields.Statement (.bufMix b count) :=
  wordFields_of_fields _ rfl rfl

theorem wordFields.bufRmsil (b : Byte) (count : Word32) : wordFields.Statement (.bufRmsil b count) :=
  wordFields_of_fields _ rfl rfl

theorem wordFields.bufAvail (b : Byte) : wordFields.Statement (.bufAvail b) :=
  wordFields_of_fields _ rfl rfl

theorem wordFields.bufGetsr (b : Byte) : wordFields.Statement (.bufGetsr b) :=
  wordFields_of_fields _ rfl rfl

theorem wordFields.bufGetcr (b : Byte) : wordFields.Statement (.bufGetcr b) :=
  wordFields_of_fields _ rfl rfl

theorem wordFields.synOffset (s b : Byte) (time delta : Word32) : wordFields.Statement (.synOffset s b time delta) :=
  wordFields_of_fields _ rfl rfl

theorem wordFields.synVolume (s : Byte) (unit : Word32) : wordFields.Statement (.synVolume s unit) :=
  wordFields_of_fields _ rfl rfl

theorem wordFields.synTreble (s : Byte) (eq : Word32) : wordFields.Statement (.synTreble s eq) :=
  wordFields_of_fields _ rfl rfl

theorem wordFields.oscReset (o : Byte) : wordFields.Statement (.oscReset o) :=
  wordFields_of_fields _ rfl rfl

theorem wordFields.oscWrite (o : Byte) (reg : Word32) (value : Byte) : wordFields.Statement (.oscWrite o reg value) :=
  wordFields_of_fields _ rfl rfl

theorem wordFields.oscRun (o : Byte) (timeNow timeEnd : Word32) : wordFields.Statement (.oscRun o timeNow timeEnd) :=
  wordFields_of_fields _ rfl rfl

theorem wordFields.oscClkenv (o : Byte) : wordFields.Statement (.oscClkenv o) :=
  wordFields_of_fields _ rfl rfl

theorem wordFields.oscClklen (o : Byte) : wordFields.Statement (.oscClklen o) :=
  wordFields_of_fields _ rfl rfl

theorem wordFields.oscClkswp (o : Byte) : wordFields.Statement (.oscClkswp o) :=
  wordFields_of_fields _ rfl rfl

theorem wordFields.oscClklin (o : Byte) : wordFields.Statement (.oscClklin o) :=
  wordFields_of_fields _ rfl rfl

theorem wordFields.voiceKeyon (v : Byte) : wordFields.Statement (.voiceKeyon v) :=
  wordFields_of_fields _ rfl rfl

theorem wordFields.voiceKeyoff (v : Byte) : wordFields.Statement (.voiceKeyoff v) :=
  wordFields_of_fields _ rfl rfl

theorem wordFields.voiceTick (v : Byte) : wordFields.Statement (.voiceTick v) :=
  wordFields_of_fields _ rfl rfl

theorem wordFields.chipReset (c : Byte) (variant : Bool) : wordFields.Statement (.chipReset c variant) :=
  wordFields_of_fields _ rfl rfl

theorem wordFields.chipOutput (c : Byte) (sink : Option Byte) : wordFields.Statement (.chipOutput c sink) :=
  wordFields_of_fields _ rfl rfl

theorem wordFields.chipOscout (c : Byte) (sink : Option Byte) (index : Word32) :
    wordFields.Statement (.chipOscout c sink index) :=
  wordFields_of_fields _ rfl rfl

theorem wordFields.chipWrite (c : Byte) (time : Word32) (addr : BitVec 16) (data : Byte) :
    wordFields.Statement (.chipWrite c time addr data) :=
  wordFields_of_fields _ rfl rfl

theorem wordFields.chipRununtil (c : Byte) (endTime : Word32) : wordFields.Statement (.chipRununtil c endTime) :=
  wordFields_of_fields _ rfl rfl

theorem wordFields.chipEndframe (c : Byte) (endTime : Word32) : wordFields.Statement (.chipEndframe c endTime) :=
  wordFields_of_fields _ rfl rfl

theorem wordFields.chipVolume (c : Byte) (level : Word32) : wordFields.Statement (.chipVolume c level) :=
  wordFields_of_fields _ rfl rfl

theorem wordFields.chipTreble (c : Byte) (eq : Word32) : wordFields.Statement (.chipTreble c eq) :=
  wordFields_of_fields _ rfl rfl

theorem wordFields.chipRead (c : Byte) (addr : Word32) : wordFields.Statement (.chipRead c addr) :=
  wordFields_of_fields _ rfl rfl

theorem wordFields.chipBufclr (c : Byte) : wordFields.Statement (.chipBufclr c) :=
  wordFields_of_fields _ rfl rfl

end Sys2Proof.Laws
end

