-- ==== Sys2Proof/Laws/Run.lean ====
section
/-! SUPPORT. The loop of OSC.RUN (Machine/Oscillator.lean): the committed amplitude it leaves, its fuel, running it in two
parts, and what of the slot it does not read. -/

namespace Sys2Proof.Machine

variable {c : Config}

/-! ## The committed amplitude (10_state.md R29) -/

/-- The slot is muted, or has committed the amplitude it presents. -/
def Committed (c : Config) (o : Nat) (s : State) : Prop :=
  ∀ O, s.oscs[o]? = some O → O.output = none ∨ O.lastAmp = ampOf c o s

/-- What a slot presents depends on its own fields and its voice alone. -/
theorem ampOf_congr {o : Nat} {s t : State} (hv : t.voices = s.voices) (ho : t.oscs = s.oscs) :
    ampOf c o t = ampOf c o s := by
  unfold ampOf; rw [hv, ho]

theorem ampOf_modOsc (o : Nat) (s : State) (f : Osc → Osc) (h : ∀ O, (f O).toTone = O.toTone) :
    ampOf c o (s.modOsc o f) = ampOf c o s := by
  unfold ampOf
  split
  · rfl
  · simp only [State.modOsc_oscs, List.getElem?_modify]
    cases s.oscs[o]? <;> simp [h]

/-- EMIT changes of the slots at most `last_amp` of its own. -/
theorem emit_oscs {o t : Nat} {amp : Int} {s s' : State} (h : emit c o t amp s = .ok s') :
    s'.voices = s.voices ∧
      (s'.oscs = s.oscs ∨ s'.oscs = s.oscs.modify o fun O => { O with lastAmp := amp }) := by
  obtain ⟨rfl, -⟩ | ⟨O, b, r, -, -, -, hr, rfl⟩ := emit_ok h
  · exact ⟨rfl, .inl rfl⟩
  · obtain ⟨B, S, -, -, ⟨-, rfl⟩ | ⟨-, -, rfl⟩⟩ := synOffset_ok hr
    · exact ⟨rfl, .inr rfl⟩
    · exact ⟨rfl, .inr rfl⟩

theorem ampOf_emit {o t : Nat} {amp : Int} {s s' : State} (h : emit c o t amp s = .ok s') :
    ampOf c o s' = ampOf c o s := by
  obtain ⟨hv, ho | ho⟩ := emit_oscs h
  · exact ampOf_congr hv ho
  · rw [ampOf_congr (t := s') (s := s.modOsc o fun O => { O with lastAmp := amp }) hv ho]
    exact ampOf_modOsc _ _ _ fun _ => rfl

theorem emit_committed {o t : Nat} {s s' : State} (h : emit c o t (ampOf c o s) s = .ok s') : Committed c o s' := by
  intro P hP
  rw [ampOf_emit h]
  obtain ⟨rfl, hq⟩ | ⟨O, b, r, -, -, -, -, rfl⟩ := emit_ok h
  · exact hq P hP
  · right
    simp only [State.modOsc_oscs, List.getElem?_modify] at hP
    cases hx : r.oscs[o]? with
    | none => simp [hx] at hP
    | some x => simp [hx] at hP; subst hP; rfl

/-- EMIT of a committed amplitude does nothing (R232, R233). -/
theorem emit_of_committed {o t : Nat} {s : State} (h : Committed c o s) : emit c o t (ampOf c o s) s = .ok s := by
  unfold emit
  split
  · rfl
  · rename_i O hO
    split
    · rfl
    · rename_i b hb
      rcases h O hO with h | h
      · rw [h] at hb; cases hb
      · rw [if_pos (by omega)]

theorem runLoop_committed (o e : Nat) : ∀ (fuel t : Nat) (s : State) (r : State × Nat), Committed c o s →
    runLoop c o e fuel t s = .ok r → Committed c o r.1 := by
  intro fuel
  induction fuel with
  | zero => intro t s r h hr; simp only [runLoop] at hr; injection hr with hr; subst hr; exact h
  | succ n ih =>
    intro t s r h hr
    simp only [runLoop] at hr
    split at hr
    · split at hr
      · cases hr
      · exact ih _ _ _ (emit_committed ‹_›) hr
    · injection hr with hr; subst hr; exact h

/-! ## Fuel, and the loop in two parts -/

/-- Once the fuel covers the cycles left, its amount does not matter (log 36). -/
theorem runLoop_fuel (o e : Nat) : ∀ (f1 f2 t : Nat) (s : State), e - t ≤ f1 → e - t ≤ f2 →
    runLoop c o e f1 t s = runLoop c o e f2 t s := by
  intro f1
  induction f1 with
  | zero =>
    intro f2 t s h1 h2
    cases f2 with
    | zero => rfl
    | succ n => simp only [runLoop]; rw [if_neg (by omega)]
  | succ n ih =>
    intro f2 t s h1 h2
    cases f2 with
    | zero => simp only [runLoop]; rw [if_neg (by omega)]
    | succ k =>
      simp only [runLoop]
      split
      · split
        · rfl
        · rename_i s' _
          have := wavePeriod_pos c o s'
          exact ih _ _ _ (by omega) (by omega)
      · rfl

/-- The loop to `e` is the loop to an earlier `m` and then the loop from where that stops (R232). -/
theorem runLoop_split (o m e : Nat) (hme : m ≤ e) : ∀ (fuel t : Nat) (s : State), e - t ≤ fuel →
    runLoop c o e fuel t s =
      match runLoop c o m fuel t s with
      | .error x => .error x
      | .ok r => runLoop c o e fuel r.2 r.1 := by
  intro fuel
  induction fuel with
  | zero => intro t s h; rfl
  | succ n ih =>
    intro t s h
    by_cases htm : t < m
    · rw [runLoop, runLoop.eq_2 c o m, if_pos htm, if_pos (show t < e by omega)]
      cases he : emit c o t (ampOf c o (waveStep c o s)) (waveStep c o s) with
      | error x => rfl
      | ok s' =>
        dsimp only
        have hp := wavePeriod_pos c o s'
        rw [ih _ _ (by omega)]
        cases hr : runLoop c o m n (t + wavePeriod c o s') s' with
        | error x => rfl
        | ok r =>
          have := (runLoop_ok c o m _ _ _ _ hr).2.1
          exact runLoop_fuel o e n (n + 1) r.2 r.1 (by omega) (by omega)
    · rw [runLoop.eq_2 c o m, if_neg htm]

/-- What OSC.RUN does where it completes (R232): the pending emission, then the loop, then the delay the loop leaves. -/
theorem oscRun_ok {o a e : Nat} {s t : State} {O : Osc} (hO : s.oscs[o]? = some O)
    (h : oscRun c o a e s = .ok t) : a ≤ e ∧ ∃ s' r, emit c o a (ampOf c o s) s = .ok s' ∧
      runLoop c o e (e - a) (a + O.delay) s' = .ok r ∧ t = r.1.modOsc o fun O => { O with delay := r.2 - e } := by
  unfold oscRun at h
  split at h
  · cases h
  · refine ⟨by omega, ?_⟩
    split at h
    · cases h
    · rename_i s' hs'
      have : ∃ P, s'.oscs[o]? = some P ∧ P.delay = O.delay := by
        obtain ⟨-, he | he⟩ := emit_oscs hs'
        · exact ⟨O, by rw [he, hO], rfl⟩
        · exact ⟨{ O with lastAmp := ampOf c o s }, by rw [he]; simp [hO], rfl⟩
      obtain ⟨P, hP, hd⟩ := this
      unfold runTransitions at h
      simp only [hP] at h
      split at h
      · cases h
      · rename_i r hr
        injection h with h
        exact ⟨s', r, hs', by rw [← hd]; exact hr, h.symm⟩

/-! ## What the loop does not read -/

/-- An update of the slot that keeps what its per-kind functions see. -/
theorem voiceRegs_modOsc (o v : Nat) (s : State) (f : Osc → Osc) (h : ∀ O, (f O).toTone = O.toTone) :
    voiceRegs c v (s.modOsc o f) = voiceRegs c v s := by
  unfold voiceRegs
  simp only [State.modOsc_oscs, List.getElem?_modify]
  by_cases e : o = voiceOsc c v
  · subst e
    cases s.oscs[voiceOsc c v]? <;> simp [h]
  · simp [e]

/-- An update of the slot that keeps what its per-kind functions see commutes with a waveform transition. -/
theorem waveStep_modOsc (o : Nat) (s : State) (f : Osc → Osc) (h : ∀ O, (f O).toTone = O.toTone)
    (hf : ∀ (O : Osc) (T : Tone), f { O with toTone := T } = { f O with toTone := T }) :
    waveStep c o (s.modOsc o f) = (waveStep c o s).modOsc o f := by
  unfold waveStep
  split
  · unfold voiceTick
    rw [voiceRegs_modOsc _ _ _ _ h]
    rfl
  · simp only [State.modTone, State.modOsc, modify_modify]
    congr 2
    funext O
    rw [h]
    exact (hf O _).symm

theorem wavePeriod_modOsc (o : Nat) (s : State) (f : Osc → Osc) (h : ∀ O, (f O).toTone = O.toTone) :
    wavePeriod c o (s.modOsc o f) = wavePeriod c o s := by
  unfold wavePeriod
  split
  · rfl
  · simp only [State.modOsc_oscs, List.getElem?_modify]
    cases s.oscs[o]? <;> simp [h]

/-- SYN.OFFSET neither reads nor writes a slot. -/
theorem synOffset_modOsc (y b t o : Nat) (d : Int) (s : State) (f : Osc → Osc) :
    synOffset c y b t d (s.modOsc o f) = (synOffset c y b t d s).map fun r => r.modOsc o f := by
  unfold synOffset
  simp only [State.modOsc_bufs, State.modOsc_syns]
  split
  · split
    · rfl
    · split <;> rfl
  · rfl

/-- EMIT does not read the delay. -/
theorem emit_delay (o t d : Nat) (amp : Int) (s : State) :
    emit c o t amp (s.modOsc o fun O => { O with delay := d }) =
      (emit c o t amp s).map fun r => r.modOsc o fun O => { O with delay := d } := by
  unfold emit
  simp only [State.modOsc_oscs, List.getElem?_modify, if_true]
  cases hO : s.oscs[o]? with
  | none => rfl
  | some O =>
    simp only [Option.map_eq_map, Option.map_some]
    cases O.output with
    | none => rfl
    | some b =>
      dsimp only
      split
      · rfl
      · rw [synOffset_modOsc]
        cases synOffset c (oscSyn c o) b t (emittedDelta c (amp - O.lastAmp)) s with
        | error x => rfl
        | ok r => simp only [Except.map, State.modOsc, modify_modify]

/-- The loop does not read the delay. -/
theorem runLoop_delay (o e d : Nat) : ∀ (fuel t : Nat) (s : State),
    runLoop c o e fuel t (s.modOsc o fun O => { O with delay := d }) =
      (runLoop c o e fuel t s).map fun r => (r.1.modOsc o fun O => { O with delay := d }, r.2) := by
  intro fuel
  induction fuel with
  | zero => intro t s; rfl
  | succ n ih =>
    intro t s
    simp only [runLoop]
    split
    · rw [waveStep_modOsc o s (fun O => { O with delay := d }) (fun _ => rfl) (fun _ _ => rfl),
        ampOf_modOsc o _ (fun O => { O with delay := d }) (fun _ => rfl), emit_delay]
      cases emit c o t (ampOf c o (waveStep c o s)) (waveStep c o s) with
      | error x => rfl
      | ok s' =>
        simp only [Except.map]
        rw [wavePeriod_modOsc o s' (fun O => { O with delay := d }) (fun _ => rfl), ih]
        rfl
    · rfl

/-- The slot muted, its committed amplitude and every BUF as given. -/
def State.muted (s : State) (o : Nat) (amp : Int) (bufs : List Buf) : State :=
  { s.modOsc o fun O => { O with output := none, lastAmp := amp } with bufs := bufs }

/-- EMIT leaves nothing that muting does not cover. -/
theorem muted_emit {o t : Nat} {amp : Int} {s s' : State} (h : emit c o t amp s = .ok s') (k : Int) (bufs : List Buf) :
    s'.muted o k bufs = s.muted o k bufs := by
  obtain ⟨rfl, -⟩ | ⟨O, b, r, -, -, -, hr, rfl⟩ := emit_ok h
  · rfl
  · obtain ⟨B, S, -, -, ⟨-, rfl⟩ | ⟨-, -, rfl⟩⟩ := synOffset_ok hr
    · simp only [State.muted, State.modOsc, modify_modify]
    · simp only [State.muted, State.modOsc, modify_modify]

theorem emit_muted (o t : Nat) (amp k : Int) (s : State) (bufs : List Buf) :
    emit c o t amp (s.muted o k bufs) = .ok (s.muted o k bufs) := by
  unfold emit
  simp only [State.muted, State.modOsc_oscs, List.getElem?_modify, if_true]
  cases s.oscs[o]? <;> rfl

theorem waveStep_bufs (o : Nat) (s : State) (bufs : List Buf) :
    waveStep c o { s with bufs := bufs } = { waveStep c o s with bufs := bufs } := by
  unfold waveStep; split <;> rfl

theorem waveStep_muted (o : Nat) (k : Int) (s : State) (bufs : List Buf) :
    waveStep c o (s.muted o k bufs) = (waveStep c o s).muted o k bufs := by
  unfold State.muted
  rw [waveStep_bufs, waveStep_modOsc o s (fun O => { O with output := none, lastAmp := k }) (fun _ => rfl) (fun _ _ => rfl)]

theorem wavePeriod_muted (o : Nat) (k : Int) (s : State) (bufs : List Buf) :
    wavePeriod c o (s.muted o k bufs) = wavePeriod c o s :=
  wavePeriod_modOsc o s (fun O => { O with output := none, lastAmp := k }) fun _ => rfl

/-- A muted slot runs through the same transitions as a connected one (R234). -/
theorem runLoop_muted (o e : Nat) (k : Int) (bufs : List Buf) : ∀ (fuel t : Nat) (s : State) (r : State × Nat),
    runLoop c o e fuel t s = .ok r →
    runLoop c o e fuel t (s.muted o k bufs) = .ok (r.1.muted o k bufs, r.2) := by
  intro fuel
  induction fuel with
  | zero => intro t s r h; simp only [runLoop] at h ⊢; injection h with h; subst h; rfl
  | succ n ih =>
    intro t s r h
    simp only [runLoop] at h ⊢
    split at h
    · rename_i hlt
      rw [if_pos hlt]
      split at h
      · cases h
      · rename_i s' hs'
        rw [waveStep_muted, emit_muted]
        dsimp only
        rw [← muted_emit hs' k bufs, wavePeriod_muted]
        exact ih _ _ _ h
    · rename_i hlt
      injection h with h; subst h
      rw [if_neg hlt]

end Sys2Proof.Machine
end

