-- ==== Sys2Proof/Machine/Assembler.lean ====
section
/-! DEFINITION. The textual syntax of the commands (30_encoding.md R128), written out, and the pseudo-commands (R129), each
expanding to commands. -/

namespace Sys2Proof.Machine

/-! ## Pseudo-commands (R129) -/

/-- CHIP.WRITENOW c, addr, data: CHIP.WRITE at the chip's `last_time`, so no time passes (R129 a). -/
def writeNow (s : State) (ci : Byte) (addr : BitVec 16) (data : Byte) : Instr :=
  .chipWrite ci (BitVec.ofNat 32 (((s.chips[ci.toNat]?).map fun C => C.lastTime).getD 0)) addr data

/-- FRAME c, b1, ..., bk, T: CHIP.ENDFRAME, then BUF.ENDFRAME for each Buffer, in that order (R129 b). -/
def frameCommands (ci : Byte) (bufs : List Byte) (time : Word32) : List Instr :=
  .chipEndframe ci time :: bufs.map fun b => .bufEndframe b time

/-- CHIP.MUTE c, i: CHIP.OSCOUT c, null, i (R129 c). -/
def muteCommand (ci : Byte) (index : Word32) : Instr := .chipOscout ci none index

/-! ## Text (R128) -/

/-- A unit index with its letter prefix. -/
def unitText (letter : String) (u : Byte) : String := letter ++ toString u.toNat

/-- A sink operand: a BUF, or `null`. -/
def sinkText : Option Byte → String
  | none => "null"
  | some b => unitText "b" b

/-- An unsigned operand, decimal. -/
def numText (x : Word32) : String := toString x.toNat

/-- A mnemonic and its operands, separated by commas. -/
def commandText (mnemonic : String) (operands : List String) : String :=
  mnemonic ++ " " ++ String.intercalate ", " operands

/-- A command in the textual syntax: the mnemonic, then its operands in the order of the "uses" column of R124. -/
def instrText : Instr → String
  | .bufSetrate b r k => commandText "BUF.SETRATE" [unitText "b" b, numText r, numText k]
  | .bufClear b => commandText "BUF.CLEAR" [unitText "b" b]
  | .bufEndframe b t => commandText "BUF.ENDFRAME" [unitText "b" b, numText t]
  | .bufRead b st m => commandText "BUF.READ" [unitText "b" b, if st then "1" else "0", numText m]
  | .bufMix b n => commandText "BUF.MIX" [unitText "b" b, numText n]
  | .bufRmsil b n => commandText "BUF.RMSIL" [unitText "b" b, numText n]
  | .bufAvail b => commandText "BUF.AVAIL" [unitText "b" b]
  | .bufGetsr b => commandText "BUF.GETSR" [unitText "b" b]
  | .bufGetcr b => commandText "BUF.GETCR" [unitText "b" b]
  | .synOffset y b t d =>
    commandText "SYN.OFFSET" [unitText "s" y, unitText "b" b, numText t, toString (deltaOperand d)]
  | .synVolume y u => commandText "SYN.VOLUME" [unitText "s" y, numText u]
  | .synTreble y e => commandText "SYN.TREBLE" [unitText "s" y, numText e]
  | .oscReset o => commandText "OSC.RESET" [unitText "o" o]
  | .oscWrite o r v => commandText "OSC.WRITE" [unitText "o" o, numText r, toString v.toNat]
  | .oscRun o a e => commandText "OSC.RUN" [unitText "o" o, numText a, numText e]
  | .oscClkenv o => commandText "OSC.CLKENV" [unitText "o" o]
  | .oscClklen o => commandText "OSC.CLKLEN" [unitText "o" o]
  | .oscClkswp o => commandText "OSC.CLKSWP" [unitText "o" o]
  | .oscClklin o => commandText "OSC.CLKLIN" [unitText "o" o]
  | .voiceKeyon v => commandText "VOICE.KEYON" [unitText "v" v]
  | .voiceKeyoff v => commandText "VOICE.KEYOFF" [unitText "v" v]
  | .voiceTick v => commandText "VOICE.TICK" [unitText "v" v]
  | .chipReset c var => commandText "CHIP.RESET" [unitText "c" c, if var then "1" else "0"]
  | .chipOutput c sink => commandText "CHIP.OUTPUT" [unitText "c" c, sinkText sink]
  | .chipOscout c sink i => commandText "CHIP.OSCOUT" [unitText "c" c, sinkText sink, numText i]
  | .chipWrite c t a d =>
    commandText "CHIP.WRITE" [unitText "c" c, numText t, toString a.toNat, toString d.toNat]
  | .chipRununtil c t => commandText "CHIP.RUNUNTIL" [unitText "c" c, numText t]
  | .chipEndframe c t => commandText "CHIP.ENDFRAME" [unitText "c" c, numText t]
  | .chipVolume c l => commandText "CHIP.VOLUME" [unitText "c" c, numText l]
  | .chipTreble c e => commandText "CHIP.TREBLE" [unitText "c" c, numText e]
  | .chipRead c a => commandText "CHIP.READ" [unitText "c" c, numText a]
  | .chipBufclr c => commandText "CHIP.BUFCLR" [unitText "c" c]

end Sys2Proof.Machine
end

