-- ==== Sys2Proof/Tests/T0.lean ====
section
/-! SUPPORT. Test configuration T0 of 95_test_vectors.md section 1: an instance of the OPEN parameters for the spec's own
vectors, not a claim about the hardware and not part of the model. -/

namespace Sys2Proof.Tests

open Sys2Proof.Machine

/-- BASE[0] and BASE[1] (95_test_vectors.md 1.1). -/
def t0Base : List (List Int) := [[-1, 3, -8, 38, 38, -8, 3, -1], [-1, 2, -5, 24, 46, -4, 3, -1]]

/-- A register of the image, as a number. -/
def t0Reg (regs : List Byte) (i : Nat) : Nat := ((regs[i]?).getD 0).toNat

/-- A 16-bit little-endian word of the sample directory. -/
def t0Word (ram : Nat → Byte) (a : Nat) : Nat := (ram a).toNat + (ram (a + 1)).toNat * 256

/-- Test configuration T0. It lists one SYN and gives `o1` of the second chip none, where 10_state.md R36 forbids the two
chips to share one: here `o1` has a SYN of its own, equal to `s0`, which changes no result (10_state.md R27). -/
def t0 : Config where
  accBits := 16
  cellWidthLess := 15
  kernelWidthLess := 31
  numBuf := 2
  numSynRaw := 2
  numOscRaw := 2
  numChip := 2
  bufferSizeRaw := 15
  bufExtraSlack := 1
  phaseBitsRaw := 1
  qualityOf _ := 0
  widthRaw _ := 8
  tapsBound := 8
  kgenTap _ _ unit p k := (((t0Base[p]?).getD [])[k]?).getD 0 * unit.toNat
  sampleShift := 6
  bassShiftInit := 5
  mixLead := 4
  volumeInit := 1
  eqInit := 0
  chipKind ci := if ci = 0 then .tch else .spc700Dsp
  oscOwnerRaw o := o
  oscOrder := []
  oscKind o := if o = 0 then .tsq else .brrVoice
  oscSynRaw o := o
  voiceOrder := []
  chipVolUnit _ level _ := level
  windowRaw k a := k == .tch && nesWindow a
  dispatchRaw _ a _ :=
    if a = 0x4000 then .osc 0 0 else if a = 0x4002 then .osc 0 1
    else if a = 0x4015 then .global 0x4015 else if a = 0x4017 then .global 0x4017 else .none
  pceLatchRaw := 0
  pceRegRaw _ _ := 0
  pceChannelRaw _ := 0
  spcBase := 0
  spcStride := 16
  spcField f := f.val
  spcKeyReg _ := none
  spcKeySelect _ := []
  globalRest k _ _ slot data F :=
    if k = .tch ∧ slot = 0x4015 then { F with bits := { F.bits with oscEnables := data } }
    else if k = .tch ∧ slot = 0x4017 then { F with bits := { F.bits with frameMode := data } } else F
  powerOn _ _ := 0
  powerOnReg _ _ _ := 0
  readSupportedRaw _ := true
  scheduleRaw k := if k = .tch then .quad else .silent
  framePeriodRaw _ variant := if variant then 498 else 398
  frame3Extra := 394
  frameActionRaw _ _ _ _ := ⟨[], 0⟩
  nregsRaw _ := 2
  extraInit _ := []
  lfsrInitRaw _ := 0
  lengthRegRaw _ := none
  enableBitRaw _ := 0
  lengthTable i := i.val
  nesConstantRaw := 1
  curAmpRaw _ T := if T.phase = 1 then t0Reg T.regs 0 else 0
  waveStepRaw _ T := { T with phase := 1 - T.phase }
  wavePeriodLess _ T := t0Reg T.regs 1 - 1
  writeEffectRaw _ T d _ _ _ := (T, d)
  clockEnvRaw _ T := T
  clockLenRaw _ T := T
  clockSwpRaw _ T := T
  clockLinRaw _ T := T
  ramSizeLess := 65535
  voiceTickCyclesLess := 31
  envelopeRates i := 0x7800 / 2 ^ (31 - i.val)
  envelopeQuantumLess := 7
  envMaxRaw := 0x800
  envRateInitLess := 0x77FF
  simpleEnvelope _ := false
  sampleDirRaw regs _ ram :=
    (t0Word ram (0x0100 + 4 * t0Reg regs 4), t0Word ram (0x0102 + 4 * t0Reg regs 4))
  pitchOf regs := BitVec.ofNat 14 (t0Reg regs 3 % 64 * 256 + t0Reg regs 2)
  rateOf stage _ regs := Fin.ofNat 32 (match stage with
    | .attack => 2 * (t0Reg regs 5 % 16) + 1
    | .decay => 2 * (t0Reg regs 5 / 16 % 8) + 16
    | _ => t0Reg regs 6 % 32)
  sustainLevelOf regs := t0Reg regs 6 / 32
  attackInc r := if r.val = 31 then 0x400 else 0x20
  decayDecRaw e := (e - 1) / 256
  gainSelect _ := none
  gainDirect _ := 0
  gainLinearDec := 0
  gainLinearInc := 0
  gainBentSmall := 0
  gainBentMoreLess := 0
  gainBentKnee := 0
  gainClampRaw _ _ := 0
  brrHeader h := ⟨(h.extractLsb' 4 4).toFin, (h.extractLsb' 2 2).toFin, h.getLsbD 1, h.getLsbD 0⟩
  highNibbleFirst := true
  brrPreshift := 0
  brrSignOnly neg := if neg then -2048 else 0
  brrOneTapLess := 0
  brrFilterOne p1 := p1
  brrFilterTwo f p1 p2 := if f = 2 then 2 * p1 - p2 else p1 - p2
  brrClamp x := clampN 16 x
  gauss _ := 0
  gaussInterp f h _ := sarN (h.h1 * (4096 - f) + h.h0 * f) 12
  voiceOutRaw s env _ := sarN (s * env) 11
  period0Silence _ _ := false
  earlyEnd _ _ := false
  allocOk _ := true
  ramFree _ _ := 0
  dinFree _ _ := 0
  deltaFree _ := 0
  wreck _ _ := 0

end Sys2Proof.Tests
end

