-- ==== Sys2Proof/Tests/Slice0.lean ====
section
/-! SUPPORT. Tests: ill-formed terms refused, one word written out for each command, the spec's test vectors
(95_test_vectors.md) one step at a time on test configuration T0, and for each statement with hypotheses a state and
operands that meet them. -/

namespace Sys2Proof.Tests

open Sys2Proof.Machine

/-! ## WellFormed (30_encoding.md R123, R125) -/

/-- The unit counts of T0. -/
def t0Counts : UnitCounts := ⟨2, 1, 2, 1, 2⟩

theorem test_wf_null_is_no_buf_output : (Instr.chipOutput 0 (some 0xFF)).wellFormed = false := by decide
theorem test_wf_null_is_no_buf_oscout : (Instr.chipOscout 0 (some 0xFF) 0).wellFormed = false := by decide
theorem test_wf_null_sink : (Instr.chipOutput 0 none).wellFormed = true := by decide
theorem test_range_buf : (Instr.bufClear 2).unitsInRange t0Counts = false := by decide
theorem test_range_syn : (Instr.synVolume 1 0).unitsInRange t0Counts = false := by decide
theorem test_range_offset_buf : (Instr.synOffset 0 2 0 0).unitsInRange t0Counts = false := by decide
theorem test_range_offset_null : (Instr.synOffset 0 0xFF 0 0).unitsInRange ⟨256, 1, 2, 1, 2⟩ = false := by decide
theorem test_range_osc : (Instr.oscReset 2).unitsInRange t0Counts = false := by decide
theorem test_range_voice : (Instr.voiceTick 1).unitsInRange t0Counts = false := by decide
theorem test_range_chip : (Instr.chipBufclr 2).unitsInRange t0Counts = false := by decide
theorem test_range_sink : (Instr.chipOutput 0 (some 2)).unitsInRange t0Counts = false := by decide
theorem test_range_sink_null : (Instr.chipOscout 1 none 0).unitsInRange t0Counts = true := by decide

/-! ## One word of each row, written out from 30_encoding.md R121 to R124 -/

theorem test_word_bufSetrate : decode 0x1001000000001F40000BB800#96 = .ok (.bufSetrate 1 8000 768000) := by decide
theorem test_word_bufClear : decode 0x110200000000000000000000#96 = .ok (.bufClear 2) := by decide
theorem test_word_bufEndframe : decode 0x120300000000048800000000#96 = .ok (.bufEndframe 3 1160) := by decide
theorem test_word_bufRead : decode 0x130001000000001000000000#96 = .ok (.bufRead 0 true 16) := by decide
theorem test_word_bufMix : decode 0x140400008000000200000000#96 = .ok (.bufMix 4 0x80000002) := by decide
theorem test_word_bufRmsil : decode 0x150500000000000300000000#96 = .ok (.bufRmsil 5 3) := by decide
theorem test_word_bufAvail : decode 0x160600000000000000000000#96 = .ok (.bufAvail 6) := by decide
theorem test_word_bufGetsr : decode 0x17FE00000000000000000000#96 = .ok (.bufGetsr 0xFE) := by decide
theorem test_word_bufGetcr : decode 0x188000000000000000000000#96 = .ok (.bufGetcr 0x80) := by decide
theorem test_word_synOffset : decode 0x2001020000000030FFFFFFF6#96 = .ok (.synOffset 1 2 48 0xFFFFFFF6) := by decide
theorem test_word_synVolume : decode 0x210700008000000100000000#96 = .ok (.synVolume 7 0x80000001) := by decide
theorem test_word_synTreble : decode 0x220800000000000500000000#96 = .ok (.synTreble 8 5) := by decide
theorem test_word_oscReset : decode 0x300900000000000000000000#96 = .ok (.oscReset 9) := by decide
theorem test_word_oscWrite : decode 0x3101000000000003000000BF#96 = .ok (.oscWrite 1 3 0xBF) := by decide
theorem test_word_oscRun : decode 0x320200000000000A00000005#96 = .ok (.oscRun 2 10 5) := by decide
theorem test_word_oscClkenv : decode 0x330300000000000000000000#96 = .ok (.oscClkenv 3) := by decide
theorem test_word_oscClklen : decode 0x340400000000000000000000#96 = .ok (.oscClklen 4) := by decide
theorem test_word_oscClkswp : decode 0x350500000000000000000000#96 = .ok (.oscClkswp 5) := by decide
theorem test_word_oscClklin : decode 0x360600000000000000000000#96 = .ok (.oscClklin 6) := by decide
theorem test_word_voiceKeyon : decode 0x400700000000000000000000#96 = .ok (.voiceKeyon 7) := by decide
theorem test_word_voiceKeyoff : decode 0x410800000000000000000000#96 = .ok (.voiceKeyoff 8) := by decide
theorem test_word_voiceTick : decode 0x420900000000000000000000#96 = .ok (.voiceTick 9) := by decide
theorem test_word_chipReset : decode 0x500101000000000000000000#96 = .ok (.chipReset 1 true) := by decide
theorem test_word_chipOutput : decode 0x5100FF000000000000000000#96 = .ok (.chipOutput 0 none) := by decide
theorem test_word_chipOscout : decode 0x520203000000000400000000#96 = .ok (.chipOscout 2 (some 3) 4) := by decide
theorem test_word_chipWrite : decode 0x530000000000748800401780#96 = .ok (.chipWrite 0 29832 0x4017 0x80) := by decide
theorem test_word_chipRununtil : decode 0x540000000000748800000000#96 = .ok (.chipRununtil 0 29832) := by decide
theorem test_word_chipEndframe : decode 0x55000000000003E800000000#96 = .ok (.chipEndframe 0 1000) := by decide
theorem test_word_chipVolume : decode 0x560100000000000200000000#96 = .ok (.chipVolume 1 2) := by decide
theorem test_word_chipTreble : decode 0x570100000000000300000000#96 = .ok (.chipTreble 1 3) := by decide
theorem test_word_chipRead : decode 0x580000000000400000000000#96 = .ok (.chipRead 0 0x4000) := by decide
theorem test_word_chipBufclr : decode 0x590100000000000000000000#96 = .ok (.chipBufclr 1) := by decide

/-- Section 3.6's illegal words. -/
theorem test_illegal_words :
    [0x000000000000000000000000#96, 0x190000000000000000000000#96, 0x110000010000000000000000#96,
      0x110000000000000100000000#96, 0x130002000000001000000000#96, 0x530000000000000001400001#96,
      0x310000000000000000000100#96, 0x190200010000000000000000#96].all
      (fun w => match decode w with | .ok _ => false | .error _ => true) = true := by decide

/-- The table's bits of a row, bit 0 the least significant of the word. -/
theorem test_table_word : decodeTableWord 96 0x130001000000001000000000 = some (.bufRead 0 true 16) := by decide

theorem test_text : instrText (.synOffset 1 2 48 0xFFFFFFF6) = "SYN.OFFSET s1, b2, 48, -10" := by decide

/-! ## Small states of T0 -/

/-- A Buffer right after `BUF.SETRATE b0, 8000, 768000`. -/
def fresh : Buf where
  cells := List.replicate 25 0
  rd := 0
  offset := 0
  factor := 682
  sampleRate := 8000
  clockRate := 768000
  bufferSize := 16
  bassShift := 5
  readerAccum := 0

/-- The Buffer of P1 before its read. -/
def p1Buf : Buf := { fresh with
  offset := 791120
  cells := [65526, 30, 65456, 380, 380, 65456, 30, 65526] ++ List.replicate 17 0 }

/-- T0 after reset, with BUF 0 as given. -/
def small (B : Buf) : State := { resetState t0 with bufs := [B, resetBuf t0] }

/-- OSC 0 of T0 with its two registers, connected to BUF 0. -/
def slot (level period : Byte) : Osc := { resetOsc t0 0 with regs := [level, period], output := some 0 }

/-- T0 after reset with a fresh BUF 0 and OSC 0 as given. -/
def smallOsc (O : Osc) : State := { small fresh with oscs := [O, resetOsc t0 1] }

/-- T0 after reset with CHIP 0 as given. -/
def smallChip (C : Chip) : State := { smallOsc (slot 0 250) with chips := [C, resetChip t0 1 false] }

/-- T0 after reset with VOICE 0 as given, and the registers of its slot. -/
def smallVoice (V : Voice) (regs : List Byte) : State :=
  { resetState t0 with voices := [V], oscs := [resetOsc t0 0, { resetOsc t0 1 with regs := regs }] }

/-- The signed contents of the first cells of BUF 0. -/
def cells0 (s : State) (n : Nat) : List Int := (((s.bufs[0]?).map fun B => B.cells).getD []).take n |>.map (sextN 16)

/-- The cursor of BUF 0. -/
def offset0 (s : State) : Nat := ((s.bufs[0]?).getD default).offset.toNat

/-! ## BUF (95_test_vectors.md 2 and 3.1) -/

/-- V1, the document's first pair. -/
theorem test_setrate_44100 :
    (((execWith t0 (.bufSetrate 0 44100 768000) (small fresh)).bufs[0]?).map fun B =>
      (B.sampleRate.toNat, B.clockRate.toNat, B.factor.toNat)) = some (44100, 749700, 3855) := by decide

/-- V1: factor 0. -/
theorem test_setrate_invalid :
    (execWith t0 (.bufSetrate 0 1 65537) (small fresh)).global = ⟨true, 6, 0x10⟩ := by decide

/-- V18. -/
theorem test_clear : (execWith t0 (.bufClear 0) (small p1Buf)).bufs[0]? = some fresh := rfl

/-- V10: the whole Buffer. -/
theorem test_endframe_full : offset0 (execWith t0 (.bufEndframe 0 1633) (small fresh)) = 1113706 := by decide

/-- V10: one cycle more. -/
theorem test_endframe_overrun :
    execWith t0 (.bufEndframe 0 1634) (small fresh) = { small fresh with global := ⟨true, 4, 0x12⟩ } := rfl

/-- P1: the read's samples. -/
theorem test_read_p1 :
    (execWith t0 (.bufRead 0 false 16) (small p1Buf)).dout.map (fun x => (x.1, x.2.toInt)) =
      [(0, 0), (1, -1), (2, 0), (3, -1), (4, 5), (5, 10), (6, 9), (7, 9), (8, 9), (9, 8), (10, 8), (11, 8)] := by
  decide

/-- P1's end state; V12: a stereo read fills every other slot. -/
theorem test_read_state :
    (((execWith t0 (.bufRead 0 false 16) (small p1Buf)).bufs[0]?).map fun B =>
      (B.rd, B.offset.toNat, B.readerAccum.toInt)) = some (12, 4688, 509) ∧
    (execWith t0 (.bufRead 0 true 3) (small p1Buf)).dout.map Prod.fst = [0, 2, 4] := ⟨rfl, by decide⟩

/-- V14. -/
theorem test_mix :
    (cells0 (execWith t0 (.bufMix 0 2) { small fresh with din := [3, -1, 7] }) 8,
      (execWith t0 (.bufMix 0 2) { small fresh with din := [3, -1, 7] }).din) =
        ([0, 0, 0, 0, 192, -256, 64, 0], [7]) := by decide

/-- V14: 21 samples pass the end of the ring, 20 do not. -/
theorem test_mix_range :
    ((execWith t0 (.bufMix 0 21) (small fresh)).global, (execWith t0 (.bufMix 0 20) (small fresh)).global) =
      (⟨true, 5, 0x14⟩, ⟨false, 0, 0⟩) := by decide

/-- V15. -/
theorem test_rmsil :
    (((execWith t0 (.bufRmsil 0 5) (small p1Buf)).bufs[0]?).map fun B => (B.rd, B.offset.toNat)) =
      some (5, 463440) := by decide

/-- R167: more than the 12 available. -/
theorem test_rmsil_fault : (execWith t0 (.bufRmsil 0 13) (small p1Buf)).global = ⟨true, 7, 0x15⟩ := by decide

/-- P1; V17 for the Buffer not allocated. -/
theorem test_avail :
    ((execWith t0 (.bufAvail 0) (small p1Buf)).rsp, (execWith t0 (.bufAvail 1) (small p1Buf)).rsp) = ([12], [0]) := by
  decide

theorem test_getsr : (execWith t0 (.bufGetsr 0) (small fresh)).rsp = [8000] := by decide
theorem test_getcr : (execWith t0 (.bufGetcr 0) (small fresh)).rsp = [768000] := by decide

/-! ## SYN (3.1 V16, 3.2) -/

/-- V16: products beyond 15 bits wrap. -/
theorem test_offset_wraps :
    cells0 (execWith t0 (.synOffset 0 0 0 1000) (small fresh)) 8 =
      [-1000, 3000, -8000, -27536, -27536, -8000, 3000, -1000] := by decide

/-- V21: the last cell the ring has, and one past it. -/
theorem test_offset_range :
    ((execWith t0 (.synOffset 0 0 1729 1) (small fresh)).global, (execWith t0 (.synOffset 0 0 1730 1) (small fresh)).global) =
      (⟨false, 0, 0⟩, ⟨true, 5, 0x20⟩) := by decide

/-- V23. -/
theorem test_volume :
    (((execWith t0 (.synVolume 0 2) (small fresh)).syns[0]?).map fun S => (S.volumeUnit, S.impulse[0]?)) =
      some (2, some [-2, 6, -16, 76, 76, -16, 6, -2]) := by decide

theorem test_treble :
    (((execWith t0 (.synTreble 0 3) (small fresh)).syns[0]?).map fun S => (S.eq, S.volumeUnit, S.impulse[0]?)) =
      some (3, 1, some [-1, 3, -8, 38, 38, -8, 3, -1]) := by decide

/-! ## OSC (3.3) -/

theorem test_oscReset :
    (execWith t0 (.oscReset 0) (smallOsc { slot 12 100 with phase := 1, delay := 50, lastAmp := 12 })).oscs[0]? =
      some (slot 12 100) := by decide

/-- R237: the byte is stored and nothing else changes. R239: on an NES square, `0xBF` in register 0 is the level 15. -/
theorem test_oscWrite :
    (execWith t0 (.oscWrite 0 0 5) (smallOsc (slot 12 100))).oscs[0]? = some (slot 5 100) ∧
    (((execWith { t0 with oscKind := fun _ => .nesSquare } (.oscWrite 0 0 0xBF) (smallOsc (slot 12 100))).oscs[0]?).map
      fun O => (O.regs, O.volume)) = some ([0xBF, 100], 15) := by decide

/-- V36. -/
theorem test_oscWrite_fault :
    (execWith t0 (.oscWrite 0 2 1) (smallOsc (slot 12 100))).global = ⟨true, 2, 0x31⟩ := by decide

/-- V30: three transitions. -/
theorem test_oscRun :
    (((execWith t0 (.oscRun 0 0 250) (smallOsc (slot 12 100))).oscs[0]?).map fun O => (O.phase, O.delay, O.lastAmp)) =
      some (1, 50, 12) := by decide

/-- V32: the level change is emitted at `time_now`, 7 down at sample 0; V36: the order fault. -/
theorem test_oscRun_level :
    (cells0 (execWith t0 (.oscRun 0 50 50)
      (smallOsc { slot 5 100 with phase := 1, delay := 50, lastAmp := 12 })) 5,
      (execWith t0 (.oscRun 0 10 5) (smallOsc (slot 5 100))).global) =
      ([7, -14, 35, -168, -322], ⟨true, 3, 0x32⟩) := by decide

/-- T0 with an NES square behind OSC 0 whose four clock functions leave a mark. -/
def nesClocks : Config := { t0 with
  oscKind := fun _ => .nesSquare
  clockEnvRaw := fun _ T => { T with envCounter := 7, regs := [] }
  clockLenRaw := fun _ T => { T with lengthCounter := 9 }
  clockSwpRaw := fun _ T => { T with period := 5, regs := [1, 2, 3] }
  clockLinRaw := fun _ T => { T with envCounter := 8 } }

theorem test_clkenv :
    (execWith nesClocks (.oscClkenv 0) (smallOsc (slot 1 2))).oscs[0]? = some { slot 1 2 with envCounter := 7 } := by decide
theorem test_clklen :
    (execWith nesClocks (.oscClklen 0) (smallOsc (slot 1 2))).oscs[0]? = some { slot 1 2 with lengthCounter := 9 } := by
  decide
/-- R242: the sweep may rewrite registers, not their number. -/
theorem test_clkswp :
    (execWith nesClocks (.oscClkswp 0) (smallOsc (slot 9 9))).oscs[0]? = some { slot 1 2 with period := 5 } := by decide
/-- R243: only the NES triangle has a linear counter. -/
theorem test_clklin :
    execWith nesClocks (.oscClklin 0) (smallOsc (slot 1 2)) = smallOsc (slot 1 2) ∧
    (execWith { nesClocks with oscKind := fun _ => .nesTriangle } (.oscClklin 0) (smallOsc (slot 1 2))).oscs[0]? =
      some { slot 1 2 with envCounter := 8 } := by decide

/-! ## VOICE (3.4) -/

/-- The registers of P4: pitch 0x1000, ADSR 0x7F, 0xE0. -/
def p4Regs : List Byte := [0, 0, 0, 0x10, 0, 0x7F, 0xE0, 0]

/-- A voice in Attack at a block with nibbles left. -/
def sounding : Voice := { resetVoice with envStage := .attack, envCounter := 0x7800, nibblesLeft := 8 }

/-- P4's key-on, the directory at 0x0100 holding 0x0200 and 0x0201. -/
theorem test_keyon :
    ((execWith t0 (.voiceKeyon 0)
      { smallVoice { sounding with out := 5, envValue := 9 } p4Regs with
        ram := [⟨0x101, 2⟩, ⟨0x102, 1⟩, ⟨0x103, 2⟩] }).voices[0]?) =
      some { resetVoice with
        startAddr := 0x200, loopAddr := 0x201, ramAddr := 0x200, envStage := .attack, envCounter := 0x7800, out := 5 } := by
  decide

theorem test_keyoff :
    (execWith t0 (.voiceKeyoff 0) (smallVoice resetVoice p4Regs)).voices[0]? =
      some { resetVoice with envStage := .release } := by decide

/-- V40 tick 2: Attack to Decay at 0x800. -/
theorem test_tick_attack :
    (((execWith t0 (.voiceTick 0) (smallVoice { sounding with envValue := 0x400 } p4Regs)).voices[0]?).map fun V =>
      (V.envStage, V.envValue, V.envCounter)) = some (.decay, 0x800, 0x7800) := by decide

/-- V5: a Release step; V6: the tick after the last nibble of a block with the end flag alone. -/
theorem test_tick_release :
    (((execWith t0 (.voiceTick 0)
      (smallVoice { sounding with envStage := .release, envValue := 20 } p4Regs)).voices[0]?).map fun V => V.envValue,
      ((execWith t0 (.voiceTick 0)
        (smallVoice { sounding with envStage := .sustain, envValue := 0x800, nibblesLeft := 0, hdrEnd := true, out := 3 }
          p4Regs)).voices[0]?).map fun V => (V.envStage, V.envValue, V.out)) = (some 12, some (.off, 0, 0)) := by decide

/-! ## CHIP (3.5) -/

/-- CHIP 0 of T0 after reset. -/
def chip0 : Chip := resetChip t0 0 false

theorem test_chipReset :
    (((execWith t0 (.chipReset 0 true) (smallChip { chip0 with frame := 2, oscEnables := 1 })).chips[0]?),
      (execWith t0 (.chipReset 0 true) (smallChip chip0)).oscs[0]?) =
      (some { chip0 with variant := true, frameDelay := 500 }, some (slot 0 0)) := by decide

theorem test_chipOutput :
    ((execWith t0 (.chipOutput 0 none) (smallChip chip0)).oscs.map fun O => O.output) = [none, none] ∧
    ((execWith t0 (.chipOutput 1 (some 1)) (smallChip chip0)).oscs.map fun O => O.output) = [some 0, some 1] := by decide

/-- V33's sink; V53: CHIP 0 has one oscillator. -/
theorem test_chipOscout :
    ((execWith t0 (.chipOscout 0 (some 1) 0) (smallChip chip0)).oscs.map fun O => O.output) = [some 1, none] ∧
    (execWith t0 (.chipOscout 0 (some 0) 1) (smallChip chip0)).global = ⟨true, 2, 0x52⟩ := by decide

/-- V52: outside the window time passes and nothing is written; V3: an address with no function keeps its byte; the enable
register of T0's chip. -/
theorem test_chipWrite :
    (execWith t0 (.chipWrite 0 120 0x5000 7) (smallChip chip0)).chips[0]? =
      some { chip0 with lastTime := 120, frameDelay := 280 } ∧
    ((execWith t0 (.chipWrite 0 0 0x4010 0x5A) (smallChip chip0)).chips[0]?).map (fun C => C.gregs) =
      some [⟨0x4010, 0x5A⟩] ∧
    (execWith t0 (.chipWrite 0 0 0x4015 1) (smallChip chip0)).chips[0]? =
      some { chip0 with oscEnables := 1, gregs := [⟨0x4015, 1⟩] } := by decide

/-- V53: time order. -/
theorem test_chipWrite_order :
    (execWith t0 (.chipWrite 0 99 0x4000 2) (smallChip { chip0 with lastTime := 100 })).global = ⟨true, 3, 0x53⟩ := by
  decide

/-- V50: the event at 400 is performed by the run to 401, not by the run to 400. -/
theorem test_rununtil :
    ((execWith t0 (.chipRununtil 0 400) (smallChip chip0)).chips[0]?,
      (execWith t0 (.chipRununtil 0 401) (smallChip { chip0 with lastTime := 400, frameDelay := 0 })).chips[0]?) =
      (some { chip0 with lastTime := 400, frameDelay := 0 },
        some { chip0 with lastTime := 401, frame := 1, frameDelay := 399 }) := by decide

/-- V51: in five-step mode frame 3 waits 394 cycles more. -/
theorem test_rununtil_five :
    (execWith t0 (.chipRununtil 0 1600)
      (smallChip { chip0 with lastTime := 1590, frame := 3, frameDelay := 8, frameMode := 0x80 })).chips[0]? =
      some { chip0 with lastTime := 1600, frame := 0, frameDelay := 792, frameMode := 0x80 } := by decide

theorem test_chipEndframe :
    (execWith t0 (.chipEndframe 0 410) (smallChip { chip0 with lastTime := 390, frameDelay := 10 })).chips[0]? =
      some { chip0 with lastTime := 0, frame := 1, frameDelay := 390 } := by decide

theorem test_chipVolume :
    (((execWith t0 (.chipVolume 0 2) (smallChip chip0)).syns[0]?).map fun S => (S.volumeUnit, S.impulse[1]?)) =
      some (2, some [-2, 4, -10, 48, 92, -8, 6, -2]) := by decide

theorem test_chipTreble :
    ((execWith t0 (.chipTreble 0 9) (smallChip chip0)).syns.map fun S => (S.eq, S.volumeUnit)) = [(9, 1), (0, 1)] := by
  decide

/-- V3: the raw byte; V53: outside the window. -/
theorem test_chipRead :
    (execWith t0 (.chipRead 0 0x4002) (smallChip chip0)).rsp = [250] ∧
    (execWith t0 (.chipRead 0 0x3FFF) (smallChip chip0)).global = ⟨true, 9, 0x58⟩ := by decide

/-- V54. -/
theorem test_bufclr :
    (execWith t0 (.chipBufclr 0) (smallOsc { slot 12 100 with phase := 1, delay := 50, lastAmp := 12 })).oscs[0]? =
      some { slot 12 100 with phase := 1, delay := 50 } := by decide

/-! ## Steps of the engine at hand -/

/-- The first command after reset, as the host's word: IllegalCommand for the word of zeros (3.6). -/
theorem test_step_illegal :
    step (State.reset.withFetchWord 96 0) = .next { State.reset with global := ⟨true, 1, 0⟩ } := rfl

/-- A word after a fault is refused (3.6). -/
theorem test_step_refused :
    step ({ State.reset with global := ⟨true, 1, 0⟩ }.withFetchWord 96 0x110000000000000000000000) =
      .next { State.reset with global := ⟨true, 1, 0⟩ } := rfl

/-! ## Witnesses: for each statement with hypotheses, a state and operands that meet them -/

/-- A Buffer of the engine at hand, its clock standing still (`factor_ = 0`). -/
def wBuf (size : Nat) (offset : Word32) : Buf where
  cells := List.replicate (ringN Config.impl) 0
  rd := 0
  offset := offset
  factor := 0
  sampleRate := 8000
  clockRate := 8000
  bufferSize := size
  bassShift := 5
  readerAccum := 3

/-- An allocated Buffer with nothing to read. -/
def wEmpty : Buf := wBuf (bufferSizeP Config.impl) 0

/-- The cursor that makes the whole Buffer readable. -/
def wFullOffset : Word32 := BitVec.ofNat 32 (bufferSizeP Config.impl * 2 ^ accBits Config.impl)

/-- The engine at hand with one Buffer, every slot connected to it, and two units of the other groups at least. -/
def engine (B : Buf) : State := { resetState Config.impl with
  bufs := [B]
  syns := (List.range (oscSyn Config.impl 0 + oscSyn Config.impl 1 + 1)).map (resetSyn Config.impl)
  oscs := (List.range 2).map fun o => { resetOsc Config.impl o with output := some 0 }
  voices := [resetVoice, resetVoice]
  chips := (List.range 2).map fun ci => resetChip Config.impl ci false
  din := [3, -1] }

/-- The same with a host event waiting. -/
def waiting (e : HostEvent) : State := { engine wEmpty with input := [e] }

theorem two_pow_acc (c : Config) : 2 ^ accBits c ≤ 2 ^ 31 := Nat.pow_le_pow_right (by decide) (accBits_le c)

theorem wFullOffset_toNat : wFullOffset.toNat = bufferSizeP Config.impl * 2 ^ accBits Config.impl := by
  have h := cursor_fits Config.impl (bufferSizeP Config.impl * 2 ^ accBits Config.impl) (by
    unfold shrN; rw [Nat.mul_div_cancel _ (Nat.two_pow_pos _)])
  rw [wFullOffset, BitVec.toNat_ofNat, Nat.mod_eq_of_lt h]

theorem wFull_avail : wFullOffset.toNat / 2 ^ accBits Config.impl = bufferSizeP Config.impl := by
  rw [wFullOffset_toNat, Nat.mul_div_cancel _ (Nat.two_pow_pos _)]

/-- Every slot of the engine can emit at any time. -/
theorem engine_ready (t o : Nat) : SlotReady Config.impl (engine wEmpty) t o := by
  intro O b hO hb
  simp only [engine, List.getElem?_map, Option.map_eq_some_iff] at hO
  obtain ⟨k, hk, rfl⟩ := hO
  injection hb with hb; subst hb
  refine ⟨?_, wEmpty, rfl, .inr ?_⟩
  · simp only [engine, List.length_map, List.length_range]
    have ho : o < 2 := by simpa using (List.getElem?_eq_some_iff.mp hk).1
    obtain rfl | rfl : o = 0 ∨ o = 1 := by omega
    all_goals omega
  · simp [resampledTime, wEmpty, wBuf, shrN]

theorem witness_DecodeOfEncode : (Instr.chipOutput 1 (some 0xFE)).wellFormed = true := by decide

theorem witness_EncodeOfDecode : decode 0x5101FE000000000000000000#96 = .ok (.chipOutput 1 (some 0xFE)) := by decide

theorem witness_StepRunsDecodedCommand :
    (waiting (.command 0x110000000000000000000000#96)).global.fault = false ∧
    (waiting (.command 0x110000000000000000000000#96)).input = .command 0x110000000000000000000000#96 :: [] ∧
    decode 0x110000000000000000000000#96 = .ok (.bufClear 0) := ⟨rfl, rfl, by decide⟩

theorem witness_IllegalWordFaults :
    (waiting (.command 0x110000010000000000000000#96)).global.fault = false ∧
    (waiting (.command 0x110000010000000000000000#96)).input = .command 0x110000010000000000000000#96 :: [] ∧
    ∀ r ∈ opcodeRows, 0x110000010000000000000000#96 &&& r.mask ≠ r.bits := ⟨rfl, rfl, by decide⟩

/-- The engine after an illegal word, with an event waiting. -/
def stopped (e : HostEvent) : State := { waiting e with global := ⟨true, 1, 0x19⟩ }

theorem witness_FaultIsSticky_refused :
    (stopped (.command 0x110000000000000000000000#96)).global.fault = true ∧
    (stopped (.command 0x110000000000000000000000#96)).input = .command 0x110000000000000000000000#96 :: [] := ⟨rfl, rfl⟩

theorem witness_FaultIsSticky_reset :
    (stopped .hardwareReset).global.fault = true ∧
    ∃ t, step (stopped .hardwareReset) = .next t ∧ t.global ≠ (stopped .hardwareReset).global := by
  refine ⟨rfl, _, rfl, ?_⟩
  show resetGlobal ≠ ⟨true, 1, 0x19⟩
  decide

theorem witness_HardwareResetStep : (waiting .hardwareReset).input = .hardwareReset :: [] := rfl

theorem witness_IdleAndRamLoad :
    (engine wEmpty).input = [] ∧ (waiting (.loadRam 0 0xFF)).input = .loadRam 0 0xFF :: [] := ⟨rfl, rfl⟩

/-- The clauses of ResetValues are about units that are there. -/
theorem witness_ResetValues :
    resetBuf t0 ∈ (resetState t0).bufs ∧ (resetState t0).syns[0]? = some (resetSyn t0 0) ∧
    (resetState t0).oscs[1]? = some (resetOsc t0 1) ∧ resetVoice ∈ (resetState t0).voices ∧
    (resetState t0).chips[1]? = some (resetChip t0 1 false) := by
  refine ⟨?_, rfl, rfl, ?_, rfl⟩
  · simp [resetState, t0]
  · simp [resetState, show numVoice t0 = 1 by decide]

/-- The state after reset, a command waiting. -/
def resetWaiting : State := { State.reset with input := [.command 0x540000000000748800000000#96] }

theorem witness_StepKeepsEngineOk :
    EngineOk Config.impl resetWaiting ∧ ∃ t, step resetWaiting = .next t := by
  refine ⟨⟨?_, ?_, ?_, ?_, ?_, ?_, ?_⟩, _, rfl⟩
  · simp [State.counts, resetWaiting, State.reset, resetState]
  · intro B hB
    rw [List.eq_of_mem_replicate hB]
    exact ⟨by simp [resetBuf], fun x hx => by rw [List.eq_of_mem_replicate hx]; exact Nat.two_pow_pos _,
      ringN_pos _, .inl rfl⟩
  · intro S hS
    obtain ⟨y, -, rfl⟩ := List.mem_map.mp hS
    rfl
  · intro o O hO
    simp only [resetWaiting, State.reset, resetState, List.getElem?_map, Option.map_eq_some_iff,
      List.getElem?_eq_some_iff, List.getElem_range] at hO
    obtain ⟨k, ⟨-, rfl⟩, rfl⟩ := hO
    exact ⟨by simp [resetOsc], fun b hb => by cases hb⟩
  · intro V hV
    rw [List.eq_of_mem_replicate hV]
    exact ⟨ramSize_pos _, ramSize_pos _, ramSize_pos _, Nat.zero_le _, Nat.zero_le _⟩
  · intro ci C hC
    simp only [resetWaiting, State.reset, resetState, List.getElem?_map, Option.map_eq_some_iff,
      List.getElem?_eq_some_iff, List.getElem_range] at hC
    obtain ⟨k, ⟨-, rfl⟩, rfl⟩ := hC
    exact ⟨by simp [resetChip], by simp [resetChip, Memory.wf]⟩
  · simp [resetWaiting, State.reset, resetState, Memory.wf]

/-- R23's bound is met with equality. -/
theorem witness_StepKeepsNoOverrun :
    NoOverrun Config.impl (engine (wBuf (bufferSizeP Config.impl) wFullOffset)) ∧
    ∃ t, step (engine (wBuf (bufferSizeP Config.impl) wFullOffset)) = .next t := by
  refine ⟨⟨fun _ B hB _ => ?_, fun _ C hC => ?_⟩, _, rfl⟩
  · rw [List.mem_singleton.mp hB]
    exact Nat.le_of_eq wFull_avail
  · obtain ⟨k, -, rfl⟩ := List.mem_map.mp hC
    exact Nat.two_pow_pos _

theorem witness_UnitIndexFaults :
    (engine wEmpty).global.fault = false ∧ (Instr.bufClear 1).unitsInRange (engine wEmpty).counts = false ∧
    (Instr.synOffset 0 0xFF 0 0).unitsInRange (engine wEmpty).counts = false ∧
    (Instr.chipOutput 0 (some 1)).unitsInRange (engine wEmpty).counts = false := by
  refine ⟨rfl, rfl, ?_, ?_⟩ <;> simp [Instr.unitsInRange, State.counts, engine, sinkInRange]

theorem witness_FaultEntryIsPrecise :
    (engine wEmpty).global.fault = false ∧
    (∃ t, exec (.oscRun 0 10 5) (engine wEmpty) = .next t ∧ t.global.fault = true) ∧
    mayFaultInside (.bufClear 1) = false ∧
    ∃ t, exec (.bufClear 1) (engine wEmpty) = .next t ∧ t.global.fault = true := by
  refine ⟨rfl, ⟨_, rfl, ?_⟩, rfl, ⟨_, rfl, rfl⟩⟩
  simp [cmdOscRun, hasOsc, whenInRange, engine, runCommand, raiseFault, resetState, resetGlobal]

theorem witness_OneResponseWord :
    (engine wEmpty).global.fault = false ∧
    (∃ t, exec (.bufAvail 0) (engine wEmpty) = .next t ∧ hasResponse (.bufAvail 0) = true ∧ t.global.fault = false) ∧
    (∃ t, exec (.bufAvail 1) (engine wEmpty) = .next t ∧ t.global.fault = true) ∧
    hasResponse (.bufClear 0) = false := ⟨rfl, ⟨_, rfl, rfl, rfl⟩, ⟨_, rfl, rfl⟩, rfl⟩

theorem witness_SpacesReachedOnlyAsListed :
    (∃ t, exec (.bufAvail 0) (engine wEmpty) = .next t) ∧ (∀ b n, Instr.bufAvail 0 ≠ .bufMix b n) ∧
    ∀ b st m, Instr.bufAvail 0 ≠ .bufRead b st m := ⟨⟨_, rfl⟩, by simp, by simp⟩

theorem witness_LastAmpWriters :
    mayCommitAmp (.chipOutput 0 none) = false ∧ ∃ t, exec (.chipOutput 0 none) (engine wEmpty) = .next t :=
  ⟨rfl, _, rfl⟩

/-! ### BUF -/

/-- The largest ratio the document admits, `2^ACC` clocks a sample. -/
def wClock : Word32 := BitVec.ofNat 32 (2 ^ accBits Config.impl)

theorem wClock_toNat : wClock.toNat = 2 ^ accBits Config.impl := by
  have := two_pow_acc Config.impl
  rw [wClock, BitVec.toNat_ofNat, Nat.mod_eq_of_lt (by omega)]

theorem witness_SetrateRule_valid :
    (0 : Byte).toNat < (engine wEmpty).bufs.length ∧ 0 < (1 : Word32).toNat ∧ (1 : Word32).toNat ≤ wClock.toNat ∧
    wClock.toNat / (1 : Word32).toNat ≤ 2 ^ accBits Config.impl := by
  have := wClock_toNat
  have h1 : (1 : Word32).toNat = 1 := rfl
  rw [this, h1, Nat.div_one]
  exact ⟨by decide, by decide, Nat.one_le_two_pow, Nat.le_refl _⟩

theorem witness_SetrateRule_invalid :
    (engine wEmpty).global.fault = false ∧ (0 : Word32).toNat = 0 ∧ (5 : Word32).toNat < (6 : Word32).toNat ∧
    2 ^ accBits Config.impl < (wClock + 1).toNat / (1 : Word32).toNat := by
  have := two_pow_acc Config.impl
  refine ⟨rfl, rfl, by decide, ?_⟩
  rw [BitVec.toNat_add, wClock_toNat]
  show _ < (2 ^ accBits Config.impl + 1) % 2 ^ 32 / 1
  omega

theorem witness_ClearRule : (0 : Byte).toNat < (engine wEmpty).bufs.length := by decide

/-- The whole Buffer full is accepted; one sample more is not; an unallocated Buffer. -/
theorem witness_EndframeRule :
    (engine (wBuf (bufferSizeP Config.impl) wFullOffset)).bufs[(0 : Byte).toNat]? =
      some (wBuf (bufferSizeP Config.impl) wFullOffset) ∧
    (wFullOffset.toNat + (7 : Word32).toNat * (0 : Word32).toNat) / 2 ^ accBits Config.impl ≤ bufferSizeP Config.impl ∧
    bufferSizeP Config.impl ≠ 0 ∧
    bufferSizeP Config.impl < (wFullOffset.toNat + (1 : Word32).toNat * wClock.toNat) / 2 ^ accBits Config.impl ∧
    (wBuf 0 5).bufferSize = 0 := by
  refine ⟨rfl, ?_, Nat.succ_ne_zero _, ?_, rfl⟩
  · show (_ + 7 * 0) / _ ≤ _
    rw [Nat.mul_zero, Nat.add_zero, wFull_avail]
  · show _ < (_ + 1 * _) / _
    rw [wClock_toNat, wFullOffset_toNat, Nat.one_mul, ← Nat.succ_mul, Nat.mul_div_cancel _ (Nat.two_pow_pos _)]
    exact Nat.lt_succ_self _

/-- All that is readable, and less. -/
theorem witness_ReadRule :
    (engine (wBuf (bufferSizeP Config.impl) wFullOffset)).bufs[(0 : Byte).toNat]? =
      some (wBuf (bufferSizeP Config.impl) wFullOffset) ∧
    (wBuf (bufferSizeP Config.impl) wFullOffset).bufferSize ≠ 0 ∧
    1 = min (1 : Word32).toNat (wFullOffset.toNat / 2 ^ accBits Config.impl) ∧ 1 ≤ ringN Config.impl ∧
    min (0xFFFFFFFF : Word32).toNat (wFullOffset.toNat / 2 ^ accBits Config.impl) ≤ ringN Config.impl := by
  have h1 := bufferSizeP_pos Config.impl
  have h2 := bufferSizeP_lt_ringN Config.impl
  rw [wFull_avail]
  exact ⟨rfl, by simp [wBuf]; omega, by show 1 = min 1 _; omega, by omega, by omega⟩

theorem witness_SplitReadsAgree :
    (engine (wBuf (bufferSizeP Config.impl) wFullOffset)).bufs[(0 : Byte).toNat]? =
      some (wBuf (bufferSizeP Config.impl) wFullOffset) ∧
    (wBuf (bufferSizeP Config.impl) wFullOffset).bufferSize ≠ 0 ∧
    (1 : Word32).toNat + (0 : Word32).toNat ≤ wFullOffset.toNat / 2 ^ accBits Config.impl ∧
    ∃ t1 t2 t, exec (.bufRead 0 true 1) (engine (wBuf (bufferSizeP Config.impl) wFullOffset)) = .next t1 ∧
      exec (.bufRead 0 true 0) t1 = .next t2 ∧
      exec (.bufRead 0 true (1 + 0)) (engine (wBuf (bufferSizeP Config.impl) wFullOffset)) = .next t := by
  rw [wFull_avail]
  exact ⟨rfl, Nat.succ_ne_zero _, bufferSizeP_pos _, _, _, _, rfl, rfl, rfl⟩

/-- One sample fits every ring; on T0 20 samples reach its end and 21 pass it. -/
theorem witness_MixRule :
    (engine wEmpty).bufs[(0 : Byte).toNat]? = some wEmpty ∧ wEmpty.bufferSize ≠ 0 ∧
    wEmpty.cells.length = ringN Config.impl ∧ (1 : Word32).toNat ≤ (engine wEmpty).din.length ∧
    wEmpty.offset.toNat / 2 ^ accBits Config.impl + Config.impl.mixLead + (1 : Word32).toNat + 1 ≤ ringN Config.impl := by
  have h1 := bufferSizeP_pos Config.impl
  have h2 := bufferSizeP_lt_ringN Config.impl
  refine ⟨rfl, Nat.succ_ne_zero _, by simp [wEmpty, wBuf], by decide, ?_⟩
  show 0 / _ + _ + 1 + 1 ≤ _
  rw [Nat.zero_div]
  omega

theorem witness_MixRule_end :
    (small fresh).bufs[(0 : Byte).toNat]? = some fresh ∧ fresh.bufferSize ≠ 0 ∧ (small fresh).global.fault = false ∧
    ringN t0 < fresh.offset.toNat / 2 ^ accBits t0 + t0.mixLead + (21 : Word32).toNat + 1 ∧
    ¬ ringN t0 < fresh.offset.toNat / 2 ^ accBits t0 + t0.mixLead + (20 : Word32).toNat + 1 := by
  refine ⟨rfl, ?_, rfl, ?_, ?_⟩ <;> decide

theorem witness_RmsilRule :
    (engine (wBuf 0 0)).bufs[(0 : Byte).toNat]? = some (wBuf 0 0) ∧ (wBuf 0 0).bufferSize = 0 ∧
    (engine (wBuf (bufferSizeP Config.impl) wFullOffset)).bufs[(0 : Byte).toNat]? =
      some (wBuf (bufferSizeP Config.impl) wFullOffset) ∧
    (wBuf (bufferSizeP Config.impl) wFullOffset).bufferSize ≠ 0 ∧
    (1 : Word32).toNat ≤ wFullOffset.toNat / 2 ^ accBits Config.impl ∧
    (wBuf (bufferSizeP Config.impl) wFullOffset).rd < ringN Config.impl ∧
    (engine wEmpty).global.fault = false ∧ wEmpty.offset.toNat / 2 ^ accBits Config.impl < (1 : Word32).toNat := by
  rw [wFull_avail]
  refine ⟨rfl, rfl, rfl, Nat.succ_ne_zero _, bufferSizeP_pos _, ringN_pos _, rfl, ?_⟩
  show 0 / _ < 1
  rw [Nat.zero_div]; decide

theorem witness_AvailRule : (engine wEmpty).bufs[(0 : Byte).toNat]? = some wEmpty := rfl

/-- A successful allocation, at a ratio that is not whole. -/
theorem witness_RateReadsRule :
    (0 : Byte).toNat < (small (resetBuf t0)).bufs.length ∧
    (execWith t0 (.bufSetrate 0 44100 768000) (small (resetBuf t0))).rsp = (small (resetBuf t0)).rsp ++ [0] ∧
    resetBuf t0 ∈ (resetState t0).bufs := by
  refine ⟨?_, ?_, ?_⟩ <;> decide

/-- T0 when no allocation succeeds. -/
def t0NoAlloc : Config := { t0 with allocOk := fun _ => false }

theorem witness_UnallocatedBufferIsInert :
    (engine (wBuf 0 5)).bufs[(0 : Byte).toNat]? = some (wBuf 0 5) ∧ (wBuf 0 5).bufferSize = 0 ∧
    (0 : Byte).toNat < (engine (wBuf 0 5)).syns.length ∧ (0 : Byte) ≠ 0xFF ∧
    (execWith t0NoAlloc (.bufSetrate 0 8000 768000) (small fresh)).rsp = (small fresh).rsp ++ [1] ∧
    ∃ B, (execWith t0NoAlloc (.bufSetrate 0 8000 768000) (small fresh)).bufs[(0 : Byte).toNat]? = some B := by
  refine ⟨rfl, rfl, ?_, by decide, by decide, _, rfl⟩
  simp [engine]

/-- A frame the Buffer accepts can be drained. -/
theorem drain_one (b : Byte) (time : Word32) (s : State) (B : Buf) (hB : s.bufs[b.toNat]? = some B)
    (hf : s.global.fault = false) (h : shrN (resampledTime B time.toNat) (accBits Config.impl) ≤ B.bufferSize)
    (h2 : resampledTime B time.toNat < 2 ^ 32) : ∃ t n, drainFrames b [time] s = some (t, n) := by
  have hb : hasBuf s b = true := by
    simp only [hasBuf, decide_eq_true_eq]; exact (List.getElem?_eq_some_iff.mp hB).1
  have he : ∃ t, exec (.bufEndframe b time) s = .next t ∧ t.global.fault = false := by
    refine ⟨_, rfl, ?_⟩
    unfold cmdBufEndframe whenInRange
    rw [hb, if_pos rfl]
    unfold bufEndframe
    simp only [hB]
    split
    · exact hf
    · rw [if_neg (by omega)]; exact hf
  obtain ⟨t, ht, htf⟩ := he
  simp only [drainFrames, ht, htf]
  exact ⟨_, _, rfl⟩

/-- A frame over a Buffer with all its samples readable, and no frame before one. -/
theorem witness_SampleCountLaw :
    (engine (wBuf (bufferSizeP Config.impl) wFullOffset)).bufs[(0 : Byte).toNat]? =
      some (wBuf (bufferSizeP Config.impl) wFullOffset) ∧
    (wBuf (bufferSizeP Config.impl) wFullOffset).bufferSize ≠ 0 ∧ [(9 : Word32)] ≠ [] ∧
    (∃ t n, drainFrames 0 [9] (engine (wBuf (bufferSizeP Config.impl) wFullOffset)) = some (t, n)) ∧
    ∃ t n, drainFrames 0 ([] ++ [9]) (engine (wBuf (bufferSizeP Config.impl) wFullOffset)) = some (t, n) := by
  have hn : resampledTime (wBuf (bufferSizeP Config.impl) wFullOffset) (9 : Word32).toNat = wFullOffset.toNat := by
    show 9 * 0 + wFullOffset.toNat = _; omega
  have key := drain_one 0 9 (engine (wBuf (bufferSizeP Config.impl) wFullOffset)) _ rfl rfl
    (by rw [hn]; exact Nat.le_of_eq wFull_avail) (by rw [hn]; exact wFullOffset.isLt)
  exact ⟨rfl, Nat.succ_ne_zero _, by simp, key, key⟩

/-! ### SYN -/

theorem witness_OffsetRule :
    (engine wEmpty).syns[(0 : Byte).toNat]? = some (resetSyn Config.impl 0) ∧
    (engine wEmpty).bufs[(0 : Byte).toNat]? = some wEmpty ∧ (0 : Byte) ≠ 0xFF ∧ wEmpty.bufferSize ≠ 0 ∧
    wEmpty.cells.length = ringN Config.impl ∧
    ((9 : Word32).toNat * wEmpty.factor.toNat + wEmpty.offset.toNat) / 2 ^ accBits Config.impl +
      widthOf Config.impl (resetSyn Config.impl 0).quality ≤ ringN Config.impl := by
  refine ⟨?_, rfl, by decide, Nat.succ_ne_zero _, by simp [wEmpty, wBuf], ?_⟩
  · simp [engine]
  · show (9 * 0 + 0) / _ + _ ≤ _
    rw [Nat.zero_div, Nat.zero_add]
    unfold widthOf ringN bufExtra
    omega

/-- V21's last cell and the one past it. -/
theorem witness_OffsetRule_end :
    (small fresh).syns[(0 : Byte).toNat]? = some (resetSyn t0 0) ∧ (small fresh).bufs[(0 : Byte).toNat]? = some fresh ∧
    fresh.bufferSize ≠ 0 ∧ (small fresh).global.fault = false ∧
    ringN t0 < ((1730 : Word32).toNat * fresh.factor.toNat + fresh.offset.toNat) / 2 ^ accBits t0 +
      widthOf t0 (resetSyn t0 0).quality ∧
    ¬ ringN t0 < ((1729 : Word32).toNat * fresh.factor.toNat + fresh.offset.toNat) / 2 ^ accBits t0 +
      widthOf t0 (resetSyn t0 0).quality := by
  refine ⟨rfl, rfl, ?_, rfl, ?_, ?_⟩ <;> decide

theorem witness_WritersCommute :
    (Writer.offset 0 9 0xFFFFFFFF).countable ∧ (Writer.mix [3]).countable ∧ (engine wEmpty).global.fault = false ∧
    ∃ s1 s2, (Writer.offset 0 9 0xFFFFFFFF).run 0 (engine wEmpty) = .next s1 ∧ (Writer.mix [3]).run 0 s1 = .next s2 ∧
      s2.global.fault = false := by
  have h1 := bufferSizeP_pos Config.impl
  have h2 := bufferSizeP_lt_ringN Config.impl
  obtain ⟨s1, hs1⟩ := synOffset_completes Config.impl 0 0 9 (deltaOperand 0xFFFFFFFF) (engine wEmpty) wEmpty
    (resetSyn Config.impl 0) rfl (by simp [engine]) (.inr (by
      show (9 * 0 + 0) / _ ≤ _
      rw [Nat.zero_div]; exact Nat.zero_le _))
  have hrun : (Writer.offset 0 9 0xFFFFFFFF).run 0 (engine wEmpty) = .next s1 := by
    show Host.Outcome.next (cmdSynOffset Config.impl 0 0 9 0xFFFFFFFF (engine wEmpty)) = _
    unfold cmdSynOffset whenInRange
    rw [if_pos (by simp [hasSyn, hasSinkBuf, hasBuf, engine])]
    show Host.Outcome.next (settle 0x20 _ (synOffset Config.impl 0 0 9 (deltaOperand 0xFFFFFFFF) (engine wEmpty))) = _
    rw [hs1]; rfl
  refine ⟨trivial, by simp [Writer.countable], rfl, s1, _, hrun, rfl, ?_⟩
  obtain ⟨B, S, hB, -, ⟨-, rfl⟩ | ⟨-, -, rfl⟩⟩ := synOffset_ok hs1 <;>
  · injection hB with hB; subst hB
    simp [cmdBufMix, whenInRange, hasBuf, engine, bufMix, settle, wEmpty, wBuf, samplesAvail, shrN, resetState,
      resetGlobal, State.modBuf, State.consumeDin, State.takeDraws]
    rw [if_neg (by omega), if_neg (by omega)]

theorem witness_VolumeAndTrebleRule :
    (engine wEmpty).syns[(0 : Byte).toNat]? = some (resetSyn Config.impl 0) ∧
    (resetSyn Config.impl 0).impulse = kgen Config.impl (resetSyn Config.impl 0).quality (resetSyn Config.impl 0).eq
      (resetSyn Config.impl 0).volumeUnit := ⟨by simp [engine], rfl⟩

/-! ### OSC -/

/-- The slot behind OSC `o` of the engine. -/
def wOsc (o : Nat) : Osc := { resetOsc Config.impl o with output := some 0 }

theorem engine_osc (B : Buf) : (engine B).oscs[(1 : Byte).toNat]? = some (wOsc 1) := rfl

theorem witness_OscResetRule : (engine wEmpty).oscs[(1 : Byte).toNat]? = some (wOsc 1) := rfl

/-- OSC 1 of the engine with two registers. -/
def twoRegs : State := { engine wEmpty with oscs := [wOsc 0, { wOsc 1 with regs := [7, 8] }] }

/-- The last register, and the number after it. -/
theorem witness_OscWriteRule :
    twoRegs.oscs[(1 : Byte).toNat]? = some { wOsc 1 with regs := [7, 8] } ∧
    (1 : Word32).toNat < ({ wOsc 1 with regs := [7, 8] } : Osc).regs.length ∧ twoRegs.global.fault = false ∧
    ({ wOsc 1 with regs := [7, 8] } : Osc).regs.length ≤ (2 : Word32).toNat := by
  refine ⟨rfl, ?_, rfl, ?_⟩ <;> decide

/-- OSC 1 of T0 wraps a voice. -/
theorem witness_OscWriteRule_voice :
    (smallVoice resetVoice p4Regs).oscs[(1 : Byte).toNat]? = some { resetOsc t0 1 with regs := p4Regs } ∧
    oscKind t0 (1 : Byte).toNat = .brrVoice ∧ (7 : Word32).toNat < p4Regs.length := by
  refine ⟨rfl, ?_, ?_⟩ <;> decide

/-- T0 with an NES APU of one square channel in place of its test chip. -/
def nes0 : Config := { t0 with chipKind := fun _ => .nes2a03, oscKind := fun _ => .nesSquare }

/-- OSC 0 as an NES square. -/
def squareSlot : Osc := { resetOsc nes0 0 with lengthCounter := 3 }

/-- T0's state with that APU, the channel enabled or not. -/
def nesState (enables : Byte) : State :=
  { resetState nes0 with
    oscs := [squareSlot, resetOsc nes0 1]
    chips := [{ resetChip nes0 0 false with oscEnables := enables }, resetChip nes0 1 false] }

/-- V37: enabled and not. -/
theorem witness_NesLengthRegisterEffect :
    lengthReg nes0 (oscKind nes0 (0 : Byte).toNat) = some (3 : Word32).toNat ∧
    nes0.chipKind 0 = .nes2a03 ∧ (chipOscs nes0 0).head? = some 0 ∧ (nesState 1).oscs[(0 : Byte).toNat]? = some squareSlot ∧
    3 < squareSlot.regs.length ∧
    (nesState 1).chips[ownerOf nes0 (0 : Byte).toNat]? = some { resetChip nes0 0 false with oscEnables := 1 } ∧
    ({ resetChip nes0 0 false with oscEnables := 1 } : Chip).oscEnables.getLsbD (enableBit nes0 (0 : Byte).toNat) = true ∧
    (nesState 0xFE).chips[ownerOf nes0 (0 : Byte).toNat]? = some { resetChip nes0 0 false with oscEnables := 0xFE } ∧
    ({ resetChip nes0 0 false with oscEnables := 0xFE } : Chip).oscEnables.getLsbD (enableBit nes0 (0 : Byte).toNat) =
      false := by
  refine ⟨?_, ?_, ?_, ?_, ?_, ?_, ?_, ?_, ?_⟩ <;> decide

/-- That APU with a triangle channel of two registers, the second its length register. -/
def tri0 : Config := { nes0 with oscKind := fun _ => .nesTriangle, lengthRegRaw := fun _ => some 1 }

theorem witness_NesLengthRegisterEffect_triangle :
    lengthReg tri0 (oscKind tri0 (0 : Byte).toNat) = some (1 : Word32).toNat ∧
    (resetState tri0).oscs[(0 : Byte).toNat]? = some (resetOsc tri0 0) ∧
    (1 : Word32).toNat < (resetOsc tri0 0).regs.length ∧
    (resetState tri0).chips[ownerOf tri0 (0 : Byte).toNat]? = some (resetChip tri0 0 false) := by
  refine ⟨?_, ?_, ?_, ?_⟩ <;> decide

theorem witness_ClockCommandsRule :
    (engine wEmpty).oscs[(1 : Byte).toNat]? = some (wOsc 1) ∧
    (1 : Byte).toNat < (smallVoice resetVoice p4Regs).oscs.length ∧ oscKind t0 (1 : Byte).toNat ≠ .nesTriangle ∧
    oscKind t0 (1 : Byte).toNat = .brrVoice := by
  refine ⟨rfl, ?_, ?_, ?_⟩ <;> decide

/-- A run that takes no time, and a long one; a connected slot, and a muted one. -/
theorem witness_OscRunCompletes :
    (engine wEmpty).oscs[(1 : Byte).toNat]? = some (wOsc 1) ∧ (wOsc 1).output = some 0 ∧
    (5 : Word32) ≤ 5 ∧ (0 : Word32) ≤ 0xFFFFFFFF ∧
    SlotReady Config.impl (engine wEmpty) (0xFFFFFFFF : Word32).toNat (1 : Byte).toNat ∧
    (resetWaiting.oscs = [] ∨ ∃ O, resetWaiting.oscs[(0 : Byte).toNat]? = some O ∧ O.output = none) := by
  refine ⟨rfl, rfl, by decide, by decide, engine_ready _ _, ?_⟩
  cases h : resetWaiting.oscs with
  | nil => exact .inl rfl
  | cons O l =>
    refine .inr ⟨O, rfl, ?_⟩
    have hO : O ∈ (List.range (numOsc Config.impl)).map (resetOsc Config.impl) := by
      rw [show (List.range (numOsc Config.impl)).map (resetOsc Config.impl) = resetWaiting.oscs from rfl, h]
      exact List.mem_cons_self
    obtain ⟨o, -, rfl⟩ := List.mem_map.mp hO
    rfl

/-- A slot whose registers present 12 where 5 is committed, its next transition at time 50. -/
def levelSlot : Osc := { slot 12 100 with phase := 1, delay := 50, lastAmp := 5 }

/-- Runs to the transition and one cycle past it; the slot connected and muted; a slot that wraps a voice. -/
theorem witness_OscRunCompletes_loop :
    (smallOsc levelSlot).oscs[(0 : Byte).toNat]? = some levelSlot ∧ (0 : Byte).toNat < numOsc t0 ∧
    (smallOsc levelSlot).bufs.length ≤ 255 ∧ numVoice t0 ≤ (smallOsc levelSlot).voices.length ∧
    (execWith t0 (.oscRun 0 0 50) (smallOsc levelSlot)).global.fault = false ∧
    (execWith t0 (.oscRun 0 0 51) (smallOsc levelSlot)).global.fault = false ∧
    ampOf t0 (0 : Byte).toNat (smallOsc levelSlot) = 12 ∧ voiceOf t0 (0 : Byte).toNat = none ∧
    levelSlot.output = some 0 ∧ (12 : Int) ≠ levelSlot.lastAmp ∧
    (50 : Word32).toNat ≤ (0 : Word32).toNat + levelSlot.delay ∧
    (50 : Word32).toNat = (0 : Word32).toNat + levelSlot.delay ∧ (50 : Word32) < 51 ∧
    (execWith t0 (.oscRun 0 0 51) (smallOsc { levelSlot with output := none })).global.fault = false ∧
    voiceOf t0 (1 : Byte).toNat = some 0 ∧ (1 : Byte).toNat < numOsc t0 ∧
    (execWith t0 (.oscRun 1 0 51) (smallOsc levelSlot)).global.fault = false := by
  refine ⟨rfl, ?_, ?_, ?_, ?_, ?_, ?_, ?_, rfl, ?_, ?_, ?_, ?_, ?_, ?_, ?_, ?_⟩ <;> decide

/-- A run of the connected slot that completes. -/
theorem engine_run (a e : Word32) (h : a.toNat ≤ e.toNat) :
    ∃ t, exec (.oscRun 1 a e) (engine wEmpty) = .next t ∧ t.global.fault = false ∧
      ∃ O, t.oscs[(1 : Byte).toNat]? = some O := by
  obtain ⟨t, ht⟩ := oscRun_completes Config.impl 1 a.toNat e.toNat (engine wEmpty) (engine_ready _ _) h
  have hf := SlotFrame.oscRun ht
  refine ⟨t, ?_, ?_, ?_⟩
  · show Host.Outcome.next (cmdOscRun Config.impl 1 a e (engine wEmpty)) = _
    unfold cmdOscRun whenInRange
    rw [if_pos (by simp [hasOsc, engine])]
    exact congrArg _ (runCommand_of_ok ht)
  · rw [hf.rest]; rfl
  · exact (hf.slot _ (engine_osc wEmpty)).imp fun O hO => hO.1

theorem witness_SplitRunsAgree :
    (0 : Word32) ≤ 100 ∧ (100 : Word32) ≤ 100 ∧ (100 : Word32) ≤ 0xFFFFFFFF ∧
    (1 : Byte).toNat < (engine wEmpty).oscs.length ∧
    ∃ t, exec (.oscRun 1 0 0xFFFFFFFF) (engine wEmpty) = .next t ∧ t.global.fault = false := by
  obtain ⟨t, h1, h2, -⟩ := engine_run 0 0xFFFFFFFF (by decide)
  exact ⟨by decide, by decide, by decide, by simp [engine], t, h1, h2⟩

theorem witness_MutedRunKeepsCounting :
    (engine wEmpty).oscs[(1 : Byte).toNat]? = some (wOsc 1) ∧
    ∃ t P, t.oscs[(1 : Byte).toNat]? = some P ∧ exec (.oscRun 1 0 0xFFFFFFFF) (engine wEmpty) = .next t ∧
      t.global.fault = false := by
  obtain ⟨t, h1, h2, P, hP⟩ := engine_run 0 0xFFFFFFFF (by decide)
  exact ⟨rfl, t, P, hP, h1, h2⟩

/-- The engine with its chips at time 100. -/
def late : State := { engine wEmpty with chips := [{ resetChip Config.impl 0 false with lastTime := 100 }] }

theorem witness_TimeOrderFaults :
    (1 : Byte).toNat < (engine wEmpty).oscs.length ∧ (engine wEmpty).global.fault = false ∧ (5 : Word32) < 6 ∧
    late.chips[(0 : Byte).toNat]? = some { resetChip Config.impl 0 false with lastTime := 100 } ∧
    late.global.fault = false ∧ (99 : Word32).toNat < 100 := by
  refine ⟨by simp [engine], rfl, by decide, rfl, rfl, by decide⟩

/-! ### VOICE -/

theorem witness_KeyonRule : (engine wEmpty).voices[(1 : Byte).toNat]? = some resetVoice := rfl

theorem witness_KeyoffRule : (engine wEmpty).voices[(1 : Byte).toNat]? = some resetVoice := rfl

/-- A voice in Off, one that ends the tick sounding, one that ends it in Off. -/
theorem witness_TickRule :
    (engine wEmpty).voices[(1 : Byte).toNat]? = some resetVoice ∧ resetVoice.envStage = .off ∧
    (∃ W, (execWith t0 (.voiceTick 0) (smallVoice sounding p4Regs)).voices[(0 : Byte).toNat]? = some W ∧
      W.envStage ≠ .off) ∧
    ∃ W, (execWith t0 (.voiceTick 0)
      (smallVoice { sounding with envStage := .release, envValue := 8 } p4Regs)).voices[(0 : Byte).toNat]? = some W ∧
      W.envStage = .off := by
  refine ⟨rfl, rfl, ⟨_, rfl, ?_⟩, ⟨_, rfl, ?_⟩⟩ <;> decide

/-- T0 has neither quirk; the pitch of P4 is one whole step, of the last nibble left, and of a voice sixteen steps behind at
the end of a block that goes on. -/
theorem witness_TickRule_sounding :
    (∀ U, t0.period0Silence U p4Regs = false) ∧ (∀ U ram, t0.earlyEnd U ram = false) ∧
    voiceRegs t0 (0 : Byte).toNat (smallVoice sounding p4Regs) = p4Regs ∧ sounding.envStage = .attack ∧
    (sounding.fraction + (t0.pitchOf p4Regs).toNat) / 4096 ≤ ({ sounding with nibblesLeft := 1 } : Voice).nibblesLeft ∧
    (0xF000 + (t0.pitchOf p4Regs).toNat) / 4096 = 16 ∧
    (∃ W, (execWith t0 (.voiceTick 0)
      (smallVoice { sounding with nibblesLeft := 0, fraction := 0xF000 } p4Regs)).voices[(0 : Byte).toNat]? = some W) ∧
    sounding.hdrEnd = false := by
  refine ⟨fun _ => rfl, fun _ _ => rfl, ?_, rfl, ?_, ?_, ⟨_, rfl⟩, rfl⟩ <;> decide

/-- Each of the table's transitions. -/
theorem witness_EnvelopeTransitions :
    (∃ W, (execWith t0 (.voiceTick 0)
      (smallVoice { sounding with envValue := 0x400 } p4Regs)).voices[(0 : Byte).toNat]? = some W ∧ W.envStage = .decay) ∧
    (∃ W, (execWith t0 (.voiceTick 0)
      (smallVoice { sounding with envStage := .decay, envValue := 0x800 } p4Regs)).voices[(0 : Byte).toNat]? = some W ∧
      W.envStage = .sustain) ∧
    ∃ W, (execWith t0 (.voiceTick 0)
      (smallVoice { sounding with envStage := .sustain, nibblesLeft := 0, hdrEnd := true } p4Regs)).voices[(0 : Byte).toNat]? =
        some W ∧ W.envStage = .off := by
  refine ⟨⟨_, rfl, ?_⟩, ⟨_, rfl, ?_⟩, ⟨_, rfl, ?_⟩⟩ <;> decide

/-- A voice of T0 ends its tick sounding. -/
def soundsOn (c : Config) (V : Voice) : Bool :=
  ((execWith c (.voiceTick 0) (smallVoice V p4Regs)).voices[(0 : Byte).toNat]?).any fun W => decide (W.envStage ≠ .off)

/-- The rate counter of a voice of T0 after this tick's decrement. -/
def counterLeft (V : Voice) : Int := V.envCounter - t0.envelopeRates (t0.rateOf V.envStage V.gainMode p4Regs)

/-- Release; every GAIN mode, and Attack, Decay and Sustain, with the counter run out; the counter at 1 and still running. -/
theorem witness_EnvelopeTransitions_steps :
    soundsOn t0 { sounding with envStage := .release, envValue := 9 } = true ∧
    (∀ m ∈ [GainMode.direct, .linearDec, .expDec, .linearInc, .bentInc],
      soundsOn t0 { sounding with gainMode := some m } = true ∧ counterLeft { sounding with gainMode := some m } = 0) ∧
    t0.gainDirect p4Regs ≤ envMax t0 ∧ t0.gainLinearDec ≤ sounding.envValue ∧
    sounding.envValue + gainBentLarge t0 ≤ envMax t0 ∧
    soundsOn { t0 with simpleEnvelope := fun _ => true } sounding = true ∧ t0.simpleEnvelope 0 = false ∧
    (∀ e ∈ [0, 0x3FF, 0x400], soundsOn t0 { sounding with envValue := e } = true) ∧
    soundsOn t0 { sounding with envStage := .decay, envValue := 0x800, envCounter := 1 } = true ∧
    counterLeft { sounding with envStage := .decay, envCounter := 1 } ≤ 0 ∧
    soundsOn t0 { sounding with envStage := .sustain, envValue := 7, envCounter := 1 } = true ∧
    counterLeft { sounding with envStage := .sustain, envCounter := 1 } = 1 ∧
    counterLeft { sounding with envStage := .sustain, envCounter := 0 } = 0 := by
  refine ⟨?_, ?_, ?_, ?_, ?_, ?_, ?_, ?_, ?_, ?_, ?_, ?_, ?_⟩ <;> decide

/-- V5's `E = 9`: one tick leaves 1, the second ends; with pitch 0 nothing else can. -/
theorem witness_ReleaseLaw :
    (smallVoice { sounding with envStage := .release, envValue := 9 } []).voices[(0 : Byte).toNat]? =
      some { sounding with envStage := .release, envValue := 9 } ∧
    (∃ W, (afterTicks t0 0 1 (smallVoice { sounding with envStage := .release, envValue := 9 } [])).voices[
      (0 : Byte).toNat]? = some W) ∧ 1 * envelopeQuantum t0 < 9 ∧
    (∃ W, (afterTicks t0 0 2 (smallVoice { sounding with envStage := .release, envValue := 9 } [])).voices[
      (0 : Byte).toNat]? = some W) ∧ 9 ≤ 2 * envelopeQuantum t0 ∧
    (∀ U regs, t0.period0Silence U regs = false) ∧
    t0.pitchOf (voiceRegs t0 (0 : Byte).toNat (smallVoice { sounding with envStage := .release, envValue := 9 } [])) = 0 ∧
    ({ sounding with envStage := .release, envValue := 9 } : Voice).fraction < 4096 := by
  refine ⟨rfl, ⟨_, rfl⟩, by decide, ⟨_, rfl⟩, by decide, fun _ _ => rfl, by decide, by decide⟩

/-- The last nibble taken, the pitch one whole step. -/
theorem witness_EndOfStreamSilences :
    (smallVoice { sounding with nibblesLeft := 0, hdrEnd := true } p4Regs).voices[(0 : Byte).toNat]? =
      some { sounding with nibblesLeft := 0, hdrEnd := true } ∧
    sounding.envStage ≠ .off ∧ sounding.hdrLoop = false ∧
    4096 ≤ sounding.fraction +
      (t0.pitchOf (voiceRegs t0 (0 : Byte).toNat (smallVoice { sounding with nibblesLeft := 0, hdrEnd := true } p4Regs))).toNat := by
  refine ⟨rfl, ?_, rfl, ?_⟩ <;> decide

/-- T0 with both quirks. -/
def quirky : Config := { t0 with period0Silence := fun _ _ => true, earlyEnd := fun _ _ => true }

/-- PERIOD0_SILENCE holds; EARLY_END holds, in the middle of a block, the pitch one whole step. -/
theorem witness_EndOfStreamSilences_quirks :
    (smallVoice sounding p4Regs).voices[(0 : Byte).toNat]? = some sounding ∧ sounding.envStage ≠ .off ∧
    quirky.period0Silence sounding (voiceRegs quirky (0 : Byte).toNat (smallVoice sounding p4Regs)) = true ∧
    4096 ≤ sounding.fraction + (quirky.pitchOf (voiceRegs quirky (0 : Byte).toNat (smallVoice sounding p4Regs))).toNat ∧
    ∀ U : Voice, U.hist = sounding.hist → quirky.earlyEnd U (ramRead quirky (smallVoice sounding p4Regs)) = true := by
  refine ⟨rfl, ?_, rfl, ?_, fun _ _ => rfl⟩ <;> decide

/-- T0 with the eight voices of R289 on its SPC700 chip. -/
def t0Eight : Config := { t0 with numOscRaw := 9, oscOwnerRaw := fun o => min o 1 }

/-- R289 leaves such parameters as they are. -/
theorem witness_ExecIsEngineWithImpl :
    eightVoices t0Eight = true ∧ 1 < (fitVoices t0Eight).numChip.val ∧ (fitVoices t0Eight).chipKind 1 = .spc700Dsp ∧
    (fitVoices t0Eight).chipKind 0 = .tch ∧ numVoice (fitVoices t0Eight) = 8 := by
  refine ⟨?_, ?_, ?_, ?_, ?_⟩ <;> decide

/-! ### CHIP -/

theorem engine_chip : (engine wEmpty).chips[(1 : Byte).toNat]? = some (resetChip Config.impl 1 false) := rfl

theorem witness_ChipResetRule : (1 : Byte).toNat < (engine wEmpty).chips.length := by simp [engine]

theorem witness_ResetIsIdempotent :
    (1 : Byte).toNat < (engine wEmpty).oscs.length ∧ (∃ t, exec (.oscReset 1) (engine wEmpty) = .next t) ∧
    (1 : Byte).toNat < (engine wEmpty).chips.length ∧ ∃ t, exec (.chipReset 1 true) (engine wEmpty) = .next t :=
  ⟨by simp [engine], ⟨_, rfl⟩, by simp [engine], _, rfl⟩

/-- Null, the last BUF, and the index after it. -/
theorem witness_OutputRule :
    (1 : Byte).toNat < (engine wEmpty).chips.length ∧ (0 : Byte).toNat < (engine wEmpty).bufs.length ∧
    (engine wEmpty).global.fault = false ∧ (1 : Byte) ≠ 0xFF ∧ (engine wEmpty).bufs.length ≤ (1 : Byte).toNat :=
  ⟨by simp [engine], by decide, rfl, by decide, by decide⟩

/-- An index the chip has and the one after it, on T0. -/
theorem witness_OscoutRule :
    (1 : Byte).toNat < (engine wEmpty).chips.length ∧ (engine wEmpty).global.fault = false ∧
    (0 : Byte).toNat < (engine wEmpty).bufs.length ∧ (chipOscs t0 1)[(0 : Word32).toNat]? = some 1 ∧
    (chipOscs t0 1)[(1 : Word32).toNat]? = none := ⟨by simp [engine], rfl, by decide, by decide, by decide⟩

/-- A chip that starts a frame, run for no time and for a long one; every register image complete. -/
theorem witness_TimedCommandsComplete :
    ChipReady Config.impl (engine wEmpty) (1 : Byte).toNat (0 : Word32).toNat (resetChip Config.impl 1 false) ∧
    ChipReady Config.impl (engine wEmpty) (1 : Byte).toNat (0xFFFFFFFF : Word32).toNat (resetChip Config.impl 1 false) ∧
    RegsReady Config.impl (engine wEmpty) (1 : Byte).toNat := by
  refine ⟨⟨rfl, Nat.zero_le _, fun o _ => engine_ready _ o⟩, ⟨rfl, Nat.zero_le _, fun o _ => engine_ready _ o⟩, ?_⟩
  intro o _ O hO
  simp only [engine, List.getElem?_map, Option.map_eq_some_iff, List.getElem?_eq_some_iff, List.getElem_range] at hO
  obtain ⟨k, ⟨-, rfl⟩, rfl⟩ := hO
  simp [resetOsc]

/-- CHIP.RUNUNTIL on a chip that is ready. -/
theorem rununtil_runs (c : Config) (ci : Byte) (e : Word32) (s : State) (C : Chip) (h : ChipReady c s ci.toNat e.toNat C) :
    (execWith c (.chipRununtil ci e) s).global = s.global ∧
      ∃ D, (execWith c (.chipRununtil ci e) s).chips[ci.toNat]? = some D := by
  obtain ⟨t, ht⟩ := advanceChip_completes h
  obtain ⟨hf, D, hD, -, -⟩ := advanceChip_ok h.here h.order ht
  have hrun : execWith c (.chipRununtil ci e) s = t := by
    show cmdChipRununtil c ci e s = t
    unfold cmdChipRununtil whenInRange
    rw [if_pos (by simpa [hasChip] using (List.getElem?_eq_some_iff.mp h.here).1)]
    unfold timedCommand
    simp only [h.here]
    rw [if_neg (Nat.not_lt.mpr h.order), ht]
    rfl
  rw [hrun]
  exact ⟨by rw [hf.rest], D, hD⟩

theorem witness_EndframeRebases :
    ∃ t C, exec (.chipRununtil 1 0xFFFFFFFF) (engine wEmpty) = .next t ∧ t.global.fault = false ∧
      t.chips[(1 : Byte).toNat]? = some C := by
  obtain ⟨hg, C, hC⟩ := rununtil_runs _ _ _ _ _ witness_TimedCommandsComplete.2.1
  exact ⟨_, C, rfl, congrArg Global.fault hg, hC⟩

/-- T0 with a PC-Engine PSG of one channel in place of its test chip; its latch address is 0x0800. -/
def pce0 : Config := { t0 with chipKind := fun _ => .pcePsg, oscKind := fun _ => .pceWave }

/-- The state after reset of either, with the chip run to time 5. -/
def ranTo5 (c : Config) : State := execWith c (.chipRununtil 0 5) (resetState c)

/-- Both ends of the window and the addresses beside it; the registers of square 1; the enable and frame-mode registers; an
address with no function; T0's remainder is the document's default on this chip. -/
theorem witness_WriteAfterRun_nes :
    (ranTo5 nes0).global.fault = false ∧ (∃ C, (ranTo5 nes0).chips[(0 : Byte).toNat]? = some C) ∧
    numVoice nes0 ≤ (ranTo5 nes0).voices.length ∧ nes0.chipKind (0 : Byte).toNat = .nes2a03 ∧
    inWindow nes0 .nes2a03 0x3FFF = false ∧ inWindow nes0 .nes2a03 0x4000 = true ∧
    inWindow nes0 .nes2a03 0x4017 = true ∧ inWindow nes0 .nes2a03 0x4018 = false ∧
    (chipOscs nes0 (0 : Byte).toNat)[0]? = some 0 ∧ oscKind nes0 0 = .nesSquare ∧
    (∃ O, (ranTo5 nes0).oscs[0]? = some O ∧ 3 < O.regs.length) ∧
    dispatch nes0 0 0x4003 0 = .osc 0 3 ∧ dispatch nes0 0 0x4015 0 = .global 0x4015 ∧
    dispatch nes0 0 0x4010 0 = .none ∧
    ∀ slot data variant gregs F, nes0.globalRest .nes2a03 variant gregs slot data F = F := by
  refine ⟨?_, ⟨_, rfl⟩, ?_, ?_, ?_, ?_, ?_, ?_, ?_, ?_, ⟨_, rfl, ?_⟩, ?_, ?_, ?_, fun _ _ _ _ _ => rfl⟩ <;> decide

/-- Both ends of the window and the addresses beside it; the latch and the address after it. -/
theorem witness_WriteAfterRun_pce :
    (ranTo5 pce0).global.fault = false ∧
    (∃ C, (ranTo5 pce0).chips[(0 : Byte).toNat]? = some C ∧ (chipOscs pce0 (0 : Byte).toNat)[C.latch]? = some 0) ∧
    numVoice pce0 ≤ (ranTo5 pce0).voices.length ∧ pce0.chipKind (0 : Byte).toNat = .pcePsg ∧
    inWindow pce0 .pcePsg 0x07FF = false ∧ inWindow pce0 .pcePsg 0x0800 = true ∧
    inWindow pce0 .pcePsg 0x0809 = true ∧ inWindow pce0 .pcePsg 0x080A = false ∧ pceLatchReg pce0 = 0x0800 ∧
    dispatch pce0 0 0x0800 0 = .global 0x0800 ∧ dispatch pce0 0 0x0801 0 = .osc 0 0 ∧
    1 ≤ nregs pce0 (oscKind pce0 0) ∧ (∃ O, (ranTo5 pce0).oscs[0]? = some O ∧ 0 < O.regs.length) ∧
    ∀ data variant gregs F, pce0.globalRest .pcePsg variant gregs 0x0800 data F = F := by
  refine ⟨?_, ⟨_, rfl, ?_⟩, ?_, ?_, ?_, ?_, ?_, ?_, ?_, ?_, ?_, ?_, ⟨_, rfl, ?_⟩, fun _ _ _ _ => rfl⟩ <;> decide

/-- T0 whose SPC700 has key registers at 0x4C and 0x5C. -/
def spc0 : Config := { t0 with
  windowRaw := fun _ _ => true
  dispatchRaw := fun _ a _ => .global a
  spcKeyReg := fun slot => if slot = 0x4C then some true else if slot = 0x5C then some false else none
  spcKeySelect := fun _ => [0] }

/-- The first and the last voice field, the address after them, and both key registers. -/
theorem witness_WriteAfterRun_spc :
    (execWith spc0 (.chipRununtil 1 5) (resetState spc0)).global.fault = false ∧
    (∃ C, (execWith spc0 (.chipRununtil 1 5) (resetState spc0)).chips[(1 : Byte).toNat]? = some C) ∧
    numVoice spc0 ≤ (execWith spc0 (.chipRununtil 1 5) (resetState spc0)).voices.length ∧
    spc0.chipKind (1 : Byte).toNat = .spc700Dsp ∧ (chipOscs spc0 1)[0]? = some 1 ∧ oscKind spc0 1 = .brrVoice ∧
    dispatch spc0 1 0 0 = .osc 0 0 ∧ dispatch spc0 1 7 0 = .osc 0 7 ∧ dispatch spc0 1 8 0 = .global 8 ∧
    spc0.spcKeyReg 8 = none ∧ dispatch spc0 1 0x4C 0 = .global 0x4C ∧ dispatch spc0 1 0x5C 0 = .global 0x5C ∧
    inWindow spc0 .spc700Dsp 0x4C = true ∧
    ∀ slot data variant gregs F, spc0.globalRest .spc700Dsp variant gregs slot data F = F := by
  refine ⟨?_, ⟨_, rfl⟩, ?_, ?_, ?_, ?_, ?_, ?_, ?_, ?_, ?_, ?_, ?_, fun _ _ _ _ _ => rfl⟩ <;> decide

/-- An NES APU without channels, so that its time passes alone. -/
def nesBare : Config := { nes0 with numOscRaw := 0 }

/-- V7's time, and the whole of the four periods. -/
theorem witness_NesFrameCount :
    nesBare.chipKind (0 : Byte).toNat = .nes2a03 ∧
    (∃ C, (resetState nesBare).chips[(0 : Byte).toNat]? = some C ∧ C.lastTime = 0 ∧ C.frame = 0 ∧ C.frameDelay = 7458 ∧
      C.variant = false ∧ C.frameMode.getLsbD 7 = false) ∧
    (29832 : Word32).toNat ≤ 4 * 7458 ∧
    (execWith nesBare (.chipRununtil 0 29832) (resetState nesBare)).global.fault = false ∧
    ∃ D, (execWith nesBare (.chipRununtil 0 29832) (resetState nesBare)).chips[(0 : Byte).toNat]? = some D := by
  obtain ⟨hg, D, hD⟩ := rununtil_runs nesBare 0 29832 (resetState nesBare) (resetChip nesBare 0 false)
    ⟨rfl, Nat.zero_le _, fun o ho => absurd ho (by rw [show chipOscs nesBare (0 : Byte).toNat = [] by decide]; simp)⟩
  exact ⟨rfl, ⟨_, rfl, by decide, by decide, by decide, by decide, by decide⟩, by decide, congrArg Global.fault hg, D, hD⟩

/-- T0's test chip, which has the schedule of R330: a run to its event and one past it, of frame 1 and of frame 3 in 5-step
mode; and T0's SPC700, which has no events. -/
theorem witness_RununtilRule :
    (smallChip chip0).chips[(0 : Byte).toNat]? = some chip0 ∧ chip0.lastTime = 0 ∧ chip0.frameDelay = 400 ∧
    numOsc t0 ≤ (smallChip chip0).oscs.length ∧ frameSchedule t0 (t0.chipKind (0 : Byte).toNat) = .quad ∧
    (execWith t0 (.chipRununtil 0 400) (smallChip chip0)).global.fault = false ∧
    (400 : Word32).toNat ≤ chip0.lastTime + chip0.frameDelay ∧
    (400 : Word32).toNat = chip0.lastTime + chip0.frameDelay ∧ (400 : Word32) < 401 ∧
    (execWith t0 (.chipRununtil 0 401) (smallChip chip0)).global.fault = false ∧
    (execWith t0 (.chipRununtil 0 401) (smallChip { chip0 with frame := 1 })).global.fault = false ∧
    (execWith t0 (.chipRununtil 0 401) (smallChip { chip0 with frame := 3, frameMode := 0x80 })).global.fault = false ∧
    nframes t0 (t0.chipKind (1 : Byte).toNat) = 0 ∧
    (execWith t0 (.chipRununtil 1 5) (smallChip chip0)).global.fault = false := by
  refine ⟨rfl, rfl, ?_, ?_, ?_, ?_, ?_, ?_, ?_, ?_, ?_, ?_, ?_, ?_⟩ <;> decide

/-- The engine with as many Synthesizers as its parameters say. -/
def calibrated : State := { engine wEmpty with syns := (List.range (numSyn Config.impl)).map (resetSyn Config.impl) }

theorem witness_CalibrationRule :
    (1 : Byte).toNat < calibrated.chips.length ∧
    ∀ y S, calibrated.syns[y]? = some S → y < numSyn Config.impl := by
  refine ⟨by simp [calibrated, engine], fun y S h => ?_⟩
  have := (List.getElem?_eq_some_iff.mp h).1
  simpa [calibrated] using this

theorem witness_ReadBackRule :
    (engine wEmpty).chips[(1 : Byte).toNat]? = some (resetChip Config.impl 1 false) ∧
    (engine wEmpty).global.fault = false := ⟨rfl, rfl⟩

/-- T0 after reset is well formed; CHIP 1's window, its first address. -/
theorem witness_WriteReadRoundTrip :
    EngineOk t0 (resetState t0) ∧ (1 : Byte).toNat < (resetState t0).chips.length ∧
    t0.chipKind (1 : Byte).toNat = .spc700Dsp ∧ inWindow t0 .spc700Dsp (0 : BitVec 16).toNat = true ∧
    (execWith t0 (.chipWrite 1 0 0 0x5A) (resetState t0)).global.fault = false := by
  refine ⟨⟨?_, ?_, ?_, ?_, ?_, ?_, ?_⟩, ?_, ?_, ?_, ?_⟩
  · decide
  · intro B hB
    rw [List.eq_of_mem_replicate hB]
    exact ⟨by simp [resetBuf], fun x hx => by rw [List.eq_of_mem_replicate hx]; exact Nat.two_pow_pos _,
      ringN_pos _, .inl rfl⟩
  · intro S hS
    obtain ⟨y, -, rfl⟩ := List.mem_map.mp hS
    rfl
  · intro o O hO
    simp only [resetState, List.getElem?_map, Option.map_eq_some_iff, List.getElem?_eq_some_iff,
      List.getElem_range] at hO
    obtain ⟨k, ⟨-, rfl⟩, rfl⟩ := hO
    exact ⟨by simp [resetOsc], fun b hb => by cases hb⟩
  · intro V hV
    rw [List.eq_of_mem_replicate hV]
    exact ⟨ramSize_pos _, ramSize_pos _, ramSize_pos _, Nat.zero_le _, Nat.zero_le _⟩
  · intro ci C hC
    simp only [resetState, List.getElem?_map, Option.map_eq_some_iff, List.getElem?_eq_some_iff,
      List.getElem_range] at hC
    obtain ⟨k, ⟨-, rfl⟩, rfl⟩ := hC
    exact ⟨by simp [resetChip], by simp [resetChip, Memory.wf]⟩
  · simp [resetState, Memory.wf]
  all_goals decide

/-- A kind that supports reads in T0 beside the SPC700: a write to the first address of CHIP 0's window, an oscillator
register, and to the last, a global register. -/
theorem witness_WriteReadRoundTrip_tch :
    (0 : Byte).toNat < (resetState t0).chips.length ∧ t0.chipKind (0 : Byte).toNat = .tch ∧ readSupported t0 .tch = true ∧
    inWindow t0 .tch (0x4000 : BitVec 16).toNat = true ∧ inWindow t0 .tch (0x4017 : BitVec 16).toNat = true ∧
    dispatch t0 0 0x4000 0 = .osc 0 0 ∧ dispatch t0 0 0x4017 0 = .global 0x4017 ∧
    (execWith t0 (.chipWrite 0 0 0x4000 0x5A) (resetState t0)).global.fault = false ∧
    (execWith t0 (.chipWrite 0 0 0x4017 0x5A) (resetState t0)).global.fault = false := by
  refine ⟨?_, ?_, ?_, ?_, ?_, ?_, ?_, ?_, ?_⟩ <;> decide

theorem witness_BufclrRule : (1 : Byte).toNat < (engine wEmpty).chips.length := by simp [engine]

end Sys2Proof.Tests
end

section
/-! PROOF. The statements of 00_scope.md: a step runs the command its word decodes to, and `exec` is the engine at
`Config.impl`, whose voices are eight for each SPC700 chip. -/

namespace Sys2Proof.Machine

/-! ## One step on a command word -/

/-- The step with a command word next takes that word on the state without it (30_encoding.md R120). -/
theorem step_of_command {s : State} {w : CmdWord} {rest : List HostEvent} (hin : s.input = .command w :: rest) :
    step s = takeCommand exec w { s with input := rest } := by
  simp only [step, stepBy, hin]

/-- An engine without a fault runs the command a word decodes to. -/
theorem takeCommand_of_decode {run : Instr → State → Host.Outcome State Fault Refusal} {w : CmdWord} {s : State}
    {i : Instr} (hf : s.global.fault = false) (hd : decode w = .ok i) : takeCommand run w s = run i s := by
  simp [takeCommand, hf, hd]

/-- A command of the engine at hand is the command at `Config.impl`, and no arm stops. -/
theorem exec_eq_next_execWith (i : Instr) (s : State) : exec i s = .next (execWith Config.impl i s) := by
  cases i <;> rfl

/-! ## The voices of a chip (43_brr_voice_ops.md R289) -/

/-- What `eightVoices` asks of each chip of the engine. -/
theorem chipVoices_of_eightVoices {c : Config} (h : eightVoices c = true) {ci : Nat} (hci : ci < c.numChip.val) :
    if c.chipKind ci = .spc700Dsp then (chipVoices c ci).length = 8 ∧ chipVoices c ci = (chipOscs c ci).take 8
    else chipVoices c ci = [] := by
  have hchip := List.all_eq_true.mp h ci (List.mem_range.mpr hci)
  by_cases hk : c.chipKind ci = .spc700Dsp
  · rw [if_pos hk] at hchip ⊢
    simpa only [Bool.and_eq_true, beq_iff_eq] using hchip
  · rw [if_neg hk] at hchip ⊢
    exact List.isEmpty_iff.mp hchip

theorem chipVoices_length_of_eightVoices {c : Config} (h : eightVoices c = true) {ci : Nat} (hci : ci < c.numChip.val) :
    (chipVoices c ci).length = if c.chipKind ci == .spc700Dsp then 8 else 0 := by
  have hchip := chipVoices_of_eightVoices h hci
  by_cases hk : c.chipKind ci = .spc700Dsp
  · rw [if_pos hk] at hchip
    simp [hk, hchip.1]
  · rw [if_neg hk] at hchip
    simp [hk, hchip]

theorem mem_chipVoices {c : Config} {ci o : Nat} :
    o ∈ chipVoices c ci ↔ (o < numOsc c ∧ ownerOf c o = ci) ∧ oscKind c o = .brrVoice := by
  simp [chipVoices, mem_chipOscs]

/-! ## The voices of the engine -/

/-- Every voice slot is a BRR_VOICE slot of exactly one chip (10_state.md R36). -/
theorem voiceSlots_perm_chipVoices (c : Config) :
    (voiceSlots c).Perm ((List.range c.numChip.val).flatMap (chipVoices c)) := by
  have hnodup : ((List.range c.numChip.val).flatMap (chipVoices c)).Nodup := by
    refine List.nodup_flatMap.mpr ⟨fun ci _ => (chipOscs_nodup c ci).filter _, List.nodup_range.imp ?_⟩
    intro ci cj hne o hi hj
    obtain ⟨⟨-, rfl⟩, -⟩ := mem_chipVoices.mp hi
    obtain ⟨⟨-, rfl⟩, -⟩ := mem_chipVoices.mp hj
    exact hne rfl
  refine (List.perm_ext_iff_of_nodup (voiceSlots_nodup c) hnodup).mpr fun o => ?_
  simp only [mem_voiceSlots, List.mem_flatMap, List.mem_range, mem_chipVoices]
  constructor
  · rintro ⟨ho, hk⟩
    exact ⟨ownerOf c o, ownerOf_lt c ho, ⟨ho, rfl⟩, hk⟩
  · rintro ⟨-, -, ⟨ho, -⟩, hk⟩
    exact ⟨ho, hk⟩

/-- A list of blocks, each of length `n` where `p` holds and empty elsewhere, has `n` times as many members as `p` holds
of. -/
theorem length_flatMap_of_blocks {α β : Type} (f : α → List β) (p : α → Bool) (n : Nat) (l : List α)
    (h : ∀ a ∈ l, (f a).length = if p a then n else 0) : (l.flatMap f).length = n * (l.filter p).length := by
  induction l with
  | nil => rfl
  | cons a l ih =>
    have hl := ih fun b hb => h b (List.mem_cons_of_mem a hb)
    rw [List.flatMap_cons, List.length_append, h a List.mem_cons_self, hl]
    cases hp : p a with
    | true => simp [hp, Nat.mul_add, Nat.add_comm]
    | false => simp [hp]

/-- NUM_VOICE is eight times the number of SPC700 chips (43_brr_voice_ops.md R289). -/
theorem numVoice_of_eightVoices {c : Config} (h : eightVoices c = true) :
    numVoice c = 8 * ((List.range c.numChip.val).filter fun ci => c.chipKind ci == .spc700Dsp).length := by
  rw [numVoice, (voiceSlots_perm_chipVoices c).length_eq]
  exact length_flatMap_of_blocks _ _ 8 _ fun ci hci => chipVoices_length_of_eightVoices h (List.mem_range.mp hci)

/-! ## The statements -/

/-- Settles O5: the step takes the word, and a word that decodes is run. -/
theorem stepRunsDecodedCommand : Obligations.StepRunsDecodedCommand := by
  intro s w rest i hf hin hd
  rw [step_of_command hin]
  exact takeCommand_of_decode hf hd

/-- Settles O11: `exec` arm by arm, and the voices counted chip by chip over what `fitVoices` keeps. -/
theorem execIsEngineWithImpl : Obligations.ExecIsEngineWithImpl := by
  refine ⟨exec_eq_next_execWith, ⟨Config.given, rfl⟩, ?_⟩
  rintro g c rfl
  have h8 := eightVoices_fitVoices g
  refine ⟨?_, ?_⟩
  · rintro ci hci voices rfl
    exact chipVoices_of_eightVoices h8 hci
  · simpa [resetState] using numVoice_of_eightVoices h8

end Sys2Proof.Machine
end

section
/-! PROOF. The invariants of 10_state.md (R20 to R36, R83, R200): how a step can change the state, and that every step
keeps EngineOk. -/

namespace Sys2Proof.Machine

/-! ## What a step can do -/

/-- A property of the engine at hand is kept by every step if the host's queue does not matter to it and hardware reset, a
RAM load, an illegal command and every command keep it (60_exceptions.md R377 to R379). -/
theorem step_keeps {P : State → Prop} (queue : ∀ s l, P s → P { s with input := l })
    (reset : ∀ s, P s → P (hardwareReset Config.impl s)) (load : ∀ s a b, P s → P (loadRam Config.impl a b s))
    (illegal : ∀ s op, P s → P (raiseFault op .illegalCommand s)) (command : ∀ s i, P s → P (execWith Config.impl i s))
    {s t : State} (h : step s = .next t) (hs : P s) : P t := by
  unfold step stepBy at h
  split at h
  · cases h; exact hs
  · cases h; exact reset _ (queue s _ hs)
  · cases h; exact load _ _ _ (queue s _ hs)
  · unfold takeCommand at h
    split at h
    · cases h; exact queue s _ hs
    · split at h
      · cases h; exact illegal _ _ (queue s _ hs)
      · rw [exec_eq_next_execWith] at h
        cases h; exact command _ _ (queue s _ hs)

/-! ## The units after hardware reset -/

theorem BufOk.resetBuf (c : Config) : BufOk c (resetBuf c) where
  cells_length := List.length_replicate
  cells_width := fun x hx => by rw [List.eq_of_mem_replicate hx]; exact Nat.two_pow_pos _
  rd_range := ringN_pos c
  size := .inl rfl

theorem OscOk.resetOsc (c : Config) (n o : Nat) : OscOk c n o (resetOsc c o) where
  regs_length := List.length_replicate
  sink := fun _ hb => by cases hb

/-- A unit of a group that lists `f 0`, `f 1`, … is the value of `f` at its own index. -/
theorem eq_of_getElem?_map_range {α : Type} {f : Nat → α} {n i : Nat} {a : α}
    (h : ((List.range n).map f)[i]? = some a) : a = f i := by
  obtain ⟨hi, ha⟩ := List.getElem?_eq_some_iff.mp h
  simpa using ha.symm

theorem EngineOk.resetState (c : Config) : EngineOk c (resetState c) where
  counts := by simp [State.counts, Machine.resetState]
  bufs := fun B hB => by rw [List.eq_of_mem_replicate hB]; exact .resetBuf c
  syns := fun S hS => by obtain ⟨y, -, rfl⟩ := List.mem_map.mp hS; rfl
  oscs := fun o O hO => by rw [eq_of_getElem?_map_range hO]; exact .resetOsc c _ o
  voices := fun V hV => by rw [List.eq_of_mem_replicate hV]; exact .reset
  chips := fun ci C hC => by rw [eq_of_getElem?_map_range hC]; exact resetChip_ok c ci false
  ram := Memory.nil_wf _

/-! ## Host events -/

theorem EngineOk.hardwareReset (c : Config) (s : State) : EngineOk c (hardwareReset c s) :=
  have h := EngineOk.resetState c
  ⟨h.counts, h.bufs, h.syns, h.oscs, h.voices, h.chips, Memory.nil_wf _⟩

theorem EngineOk.loadRam {c : Config} {s : State} (h : EngineOk c s) (a : Nat) (b : Byte) :
    EngineOk c (loadRam c a b s) :=
  ⟨h.counts, h.bufs, h.syns, h.oscs, h.voices, h.chips, Memory.write_wf _ _ _ _ h.ram⟩

/-! ## Routing, calibration, read-back and time of a chip -/

/-- A sink operand that passes the index check names a BUF (30_encoding.md R123, R125). -/
theorem sinkIndex_lt_of_hasSink {s : State} {sink : Option Byte} (h : hasSink s sink = true) {b : Nat}
    (hb : sinkIndex sink = some b) : b < s.bufs.length := by
  obtain ⟨v, rfl, rfl⟩ := Option.map_eq_some_iff.mp hb
  simpa [hasSink] using h

theorem EngineOk.setSink {c : Config} {s : State} (h : EngineOk c s) {sink : Option Nat}
    (hsink : ∀ b, sink = some b → b < s.bufs.length) (o : Nat) : EngineOk c (setSink sink s o) :=
  h.modOsc o _ fun _ hO => ⟨hO.regs_length, hsink⟩

theorem EngineOk.chipOutput {c : Config} {s : State} (h : EngineOk c s) (ci : Nat) {sink : Option Nat}
    (hsink : ∀ b, sink = some b → b < s.bufs.length) : EngineOk c (chipOutput c ci sink s) := by
  refine (foldl_keeps (fun t => EngineOk c t ∧ t.bufs = s.bufs) _ _ _ ⟨h, rfl⟩ fun t o _ ht => ?_).1
  obtain ⟨hok, hbufs⟩ := ht
  exact ⟨hok.setSink (by rwa [hbufs]) o, hbufs⟩

theorem EngineOk.chipOscout {c : Config} {s t : State} (h : EngineOk c s) {ci index : Nat} {sink : Option Nat}
    (hsink : ∀ b, sink = some b → b < s.bufs.length) (hr : chipOscout c ci sink index s = .ok t) : EngineOk c t := by
  unfold Machine.chipOscout at hr
  split at hr
  · cases hr
  · cases hr; exact h.setSink hsink _

theorem EngineOk.chipVolume {c : Config} {s : State} (h : EngineOk c s) (ci : Nat) (level : Word32) :
    EngineOk c (chipVolume c ci level s) := EngineOk.foldl _ _ (fun _ y _ ht => ht.synVolume y _) h

theorem EngineOk.chipTreble {c : Config} {s : State} (h : EngineOk c s) (ci : Nat) (eq : Word32) :
    EngineOk c (chipTreble c ci eq s) := EngineOk.foldl _ _ (fun _ y _ ht => ht.synTreble y eq) h

theorem EngineOk.clearAmp {c : Config} {s : State} (h : EngineOk c s) (o : Nat) : EngineOk c (clearAmp s o) :=
  h.modOsc o _ fun _ hO => ⟨hO.regs_length, hO.sink⟩

theorem EngineOk.chipBufclr {c : Config} {s : State} (h : EngineOk c s) (ci : Nat) : EngineOk c (chipBufclr c ci s) :=
  EngineOk.foldl _ _ (fun _ o _ ht => ht.clearAmp o) h

/-- CHIP.READ, if it completes, changes nothing or answers a word. -/
theorem chipRead_ok {c : Config} {ci addr : Nat} {s t : State} (h : chipRead c ci addr s = .ok t) :
    t = s ∨ ∃ v, t = s.respond v := by
  unfold chipRead at h
  split at h
  · cases h; exact .inl rfl
  · split at h
    · cases h; exact .inr ⟨_, rfl⟩
    · cases h

theorem EngineOk.chipRead {c : Config} {s t : State} (h : EngineOk c s) {ci addr : Nat}
    (hr : chipRead c ci addr s = .ok t) : EngineOk c t := by
  obtain rfl | ⟨v, rfl⟩ := chipRead_ok hr
  · exact h
  · exact h.respond v

theorem EngineOk.advanceAndWrite {c : Config} {s t : State} (h : EngineOk c s) {ci time addr : Nat} {data : Byte}
    (hr : advanceAndWrite c ci time addr data s = .ok t) : EngineOk c t := by
  unfold Machine.advanceAndWrite at hr
  split at hr
  · cases hr
  · exact (h.advanceChip ‹_›).registerWrite hr

/-- `last_time -= end_time`, if it completes, changes the chip's time alone, or nothing. -/
theorem rebaseChip_ok {ci e : Nat} {s t : State} (h : rebaseChip ci e s = .ok t) :
    t = s ∨ t = s.modChip ci fun C => { C with lastTime := C.lastTime - e } := by
  unfold rebaseChip at h
  split at h
  · cases h; exact .inl rfl
  · split at h
    · cases h
    · cases h; exact .inr rfl

theorem EngineOk.rebaseChip {c : Config} {s t : State} (h : EngineOk c s) {ci e : Nat}
    (hr : rebaseChip ci e s = .ok t) : EngineOk c t := by
  obtain rfl | rfl := rebaseChip_ok hr
  · exact h
  · exact h.modChip ci _ fun _ hC => ⟨hC.frame_range, hC.gregs_wf⟩

theorem EngineOk.advanceAndRebase {c : Config} {s t : State} (h : EngineOk c s) {ci e : Nat}
    (hr : advanceAndRebase c ci e s = .ok t) : EngineOk c t := by
  unfold Machine.advanceAndRebase at hr
  split at hr
  · cases hr
  · exact (h.advanceChip ‹_›).rebaseChip hr

/-! ## Every command -/

/-- Every command, whether it completes or faults, keeps every unit well formed. -/
theorem EngineOk.execWith {c : Config} {s : State} (h : EngineOk c s) (i : Instr) : EngineOk c (execWith c i s) := by
  cases i with
  | bufSetrate => exact h.whenInRange _ _ fun _ => h.settle _ _ fun _ hr => h.bufSetrate hr
  | bufClear => exact h.whenInRange _ _ fun _ => h.bufClear _
  | bufEndframe => exact h.whenInRange _ _ fun _ => h.settle _ _ fun _ hr => h.bufEndframe hr
  | bufRead => exact h.whenInRange _ _ fun _ => h.bufRead _ _ _
  | bufMix => exact h.whenInRange _ _ fun _ => h.settle _ _ fun _ hr => h.bufMix hr
  | bufRmsil => exact h.whenInRange _ _ fun _ => h.settle _ _ fun _ hr => h.bufRmsil hr
  | bufAvail => exact h.whenInRange _ _ fun _ => h.bufAnswer _ _
  | bufGetsr => exact h.whenInRange _ _ fun _ => h.bufAnswer _ _
  | bufGetcr => exact h.whenInRange _ _ fun _ => h.bufAnswer _ _
  | synOffset => exact h.whenInRange _ _ fun _ => h.settle _ _ fun _ hr => h.synOffset hr
  | synVolume => exact h.whenInRange _ _ fun _ => h.synVolume _ _
  | synTreble => exact h.whenInRange _ _ fun _ => h.synTreble _ _
  | oscReset => exact h.whenInRange _ _ fun _ => h.oscReset _
  | oscWrite => exact h.whenInRange _ _ fun _ => h.settle _ _ fun _ hr => h.oscWrite hr
  | oscRun => exact h.whenInRange _ _ fun _ => h.runCommand
  | oscClkenv => exact h.whenInRange _ _ fun _ => h.oscClkenv _
  | oscClklen => exact h.whenInRange _ _ fun _ => h.oscClklen _
  | oscClkswp => exact h.whenInRange _ _ fun _ => h.oscClkswp _
  | oscClklin => exact h.whenInRange _ _ fun _ => h.oscClklin _
  | voiceKeyon => exact h.whenInRange _ _ fun _ => h.voiceKeyon _
  | voiceKeyoff => exact h.whenInRange _ _ fun _ => h.voiceKeyoff _
  | voiceTick => exact h.whenInRange _ _ fun _ => (h.voiceTick _).respond _
  | chipReset => exact h.whenInRange _ _ fun _ => h.chipReset _ _
  | chipOutput =>
    refine h.whenInRange _ _ fun hin => ?_
    obtain ⟨-, hsink⟩ := Bool.and_eq_true_iff.mp hin
    exact h.chipOutput _ fun _ => sinkIndex_lt_of_hasSink hsink
  | chipOscout =>
    refine h.whenInRange _ _ fun hin => h.settle _ _ fun _ hr => ?_
    obtain ⟨-, hsink⟩ := Bool.and_eq_true_iff.mp hin
    exact h.chipOscout (fun _ => sinkIndex_lt_of_hasSink hsink) hr
  | chipWrite => exact h.whenInRange _ _ fun _ => h.timedCommand _ _ fun _ hr => h.advanceAndWrite hr
  | chipRununtil => exact h.whenInRange _ _ fun _ => h.timedCommand _ _ fun _ hr => h.advanceChip hr
  | chipEndframe => exact h.whenInRange _ _ fun _ => h.timedCommand _ _ fun _ hr => h.advanceAndRebase hr
  | chipVolume => exact h.whenInRange _ _ fun _ => h.chipVolume _ _
  | chipTreble => exact h.whenInRange _ _ fun _ => h.chipTreble _ _
  | chipRead => exact h.whenInRange _ _ fun _ => h.settle _ _ fun _ hr => h.chipRead hr
  | chipBufclr => exact h.whenInRange _ _ fun _ => h.chipBufclr _

/-- Settles O12: each event a step can take keeps EngineOk. -/
theorem stepKeepsEngineOk : Obligations.StepKeepsEngineOk := fun _ _ hs h =>
  step_keeps (fun _ l hs => hs.withInput l) (fun s _ => .hardwareReset _ s) (fun _ a b hs => hs.loadRam a b)
    (fun _ op hs => hs.raiseFault op _) (fun _ i hs => hs.execWith i) h hs

end Sys2Proof.Machine
end

section
/-! PROOF. The bounds of 10_state.md R23 and 44_chip_sequencer_ops.md R326: every step keeps NoOverrun. -/

namespace Sys2Proof.Machine

variable {c : Config} {s t : State}

/-! ## One Buffer (10_state.md R23) -/

/-- The Buffer, if it is allocated, holds at most its capacity. -/
def BufFits (c : Config) (B : Buf) : Prop := B.bufferSize ≠ 0 → samplesAvail c B ≤ B.bufferSize

theorem BufFits.clearedBuf (c : Config) (B : Buf) : BufFits c (clearedBuf c B) := fun _ => by
  simp [samplesAvail, shrN, Machine.clearedBuf]

theorem BufFits.sameButCells {B B' : Buf} (h : BufFits c B) (hsame : SameButCells B B') : BufFits c B' := by
  obtain ⟨cells, rfl⟩ := hsame; exact h

/-- Samples taken off the front only shorten the readable region (40_buffer_ops.md R165, R167). -/
theorem BufFits.dropSamples {B : Buf} (h : BufFits c B) (n : Nat) : BufFits c (dropSamples c n B) := fun hsize => by
  refine Nat.le_trans (Nat.div_le_div_right ?_) (h hsize)
  show (BitVec.ofNat 32 (B.offset.toNat - n * 2 ^ accBits c)).toNat ≤ B.offset.toNat
  rw [BitVec.toNat_ofNat]
  exact Nat.le_trans (Nat.mod_le _ _) (Nat.sub_le _ _)

/-- The reader moves neither the cursor nor the capacity. -/
theorem BufFits.readLoop {base stride : Nat} (n : Nat) :
    ∀ {i : Nat} {B : Buf}, BufFits c B → BufFits c (readLoop c base stride n i B).1 := by
  induction n with
  | zero => exact fun h => h
  | succ n ih => exact fun h => ih h

/-- BUF.ENDFRAME's check is the bound, at the cursor it is about to set (40_buffer_ops.md R163). -/
theorem BufFits.withOffset {B : Buf} {n : Nat} (hle : shrN n (accBits c) ≤ B.bufferSize) (hlt : n < 2 ^ 32) :
    BufFits c { B with offset := BitVec.ofNat 32 n } := fun _ => by
  rw [samplesAvail, BitVec.toNat_ofNat, Nat.mod_eq_of_lt hlt]; exact hle

/-! ## Changes of the state -/

/-- NoOverrun speaks of the fault bit, the BUFs and the chips alone. -/
theorem NoOverrun.congr (h : NoOverrun c s) (hb : t.bufs = s.bufs) (hc : t.chips = s.chips)
    (hg : t.global = s.global) : NoOverrun c t := ⟨by rw [hb, hg]; exact h.bufs, by rw [hc, hg]; exact h.chips⟩

/-- With FAULT set nothing is promised: a mid-command fault leaves any value (60_exceptions.md R378). -/
theorem NoOverrun.of_fault (h : t.global.fault = true) : NoOverrun c t :=
  ⟨fun hf => by simp [h] at hf, fun hf => by simp [h] at hf⟩

theorem NoOverrun.of_no_fault (h : t.global.fault = false → NoOverrun c t) : NoOverrun c t :=
  ⟨fun hf => (h hf).bufs hf, fun hf => (h hf).chips hf⟩

theorem NoOverrun.raiseFault (c : Config) (op : Byte) (x : FaultCause) (s : State) :
    NoOverrun c (raiseFault op x s) := .of_fault (raiseFault_fault op x s)

theorem NoOverrun.whenInRange {op : Byte} {b : Bool} (ht : NoOverrun c t) : NoOverrun c (whenInRange op b s t) := by
  cases b with
  | true => exact ht
  | false => exact .raiseFault c _ _ s

theorem NoOverrun.settle {op : Byte} {r : Attempt} (hr : ∀ t, r = .ok t → NoOverrun c t) :
    NoOverrun c (settle op s r) := by
  cases r with
  | ok t => exact hr t rfl
  | error x => exact .raiseFault c _ _ s

theorem NoOverrun.settleImprecise {op : Byte} {w : State} {r : Attempt} (hr : ∀ t, r = .ok t → NoOverrun c t) :
    NoOverrun c (settleImprecise op w r) := by
  cases r with
  | ok t => exact hr t rfl
  | error x => exact .raiseFault c _ _ w

theorem NoOverrun.modBuf (h : NoOverrun c s) (b : Nat) (f : Buf → Buf)
    (hf : ∀ B, s.bufs[b]? = some B → BufFits c B → BufFits c (f B)) : NoOverrun c (s.modBuf b f) :=
  ⟨fun hn => mem_modify _ _ _ (BufFits c) (h.bufs hn) hf, h.chips⟩

theorem NoOverrun.setBuf (h : NoOverrun c s) {b : Nat} {B B' : Buf} (hB : s.bufs[b]? = some B)
    (hfit : BufFits c B → BufFits c B') : NoOverrun c { s with bufs := s.bufs.set b B' } := by
  have hmod := h.modBuf b (fun _ => B') fun A hA => by rw [hB] at hA; cases hA; exact hfit
  rwa [State.modBuf, modify_eq_set _ _ _ B hB] at hmod

theorem NoOverrun.modChip (h : NoOverrun c s) (ci : Nat) (f : Chip → Chip)
    (hf : ∀ C, C.lastTime < 2 ^ 32 → (f C).lastTime < 2 ^ 32) : NoOverrun c (s.modChip ci f) :=
  ⟨h.bufs, fun hn => mem_modify _ _ _ (fun C : Chip => C.lastTime < 2 ^ 32) (h.chips hn) fun C _ => hf C⟩

theorem NoOverrun.modOsc (h : NoOverrun c s) (o : Nat) (f : Osc → Osc) : NoOverrun c (s.modOsc o f) :=
  h.congr rfl rfl rfl

/-- What runs, clocks or writes a slot changes at most the cells of a BUF. -/
theorem NoOverrun.slotFrame (h : NoOverrun c s) {o : Nat} (hframe : SlotFrame c o s t) : NoOverrun c t where
  bufs := fun hn B' hB' => by
    obtain ⟨b, hb⟩ := List.mem_iff_getElem?.mp hB'
    obtain ⟨B, hB⟩ := getElem?_of_length hframe.bufs.length hb
    have hg : t.global = s.global := by rw [hframe.rest]
    exact BufFits.sameButCells (h.bufs (hg ▸ hn) B (List.mem_of_getElem? hB)) (hframe.cells b B B' hB hb)
  chips := by rw [hframe.rest]; exact h.chips

/-- What advances or writes chip `ci` changes at most the cells of a BUF and that chip's time. -/
theorem NoOverrun.chipFrame (h : NoOverrun c s) {ci : Nat} (hframe : ChipFrame c ci s t)
    (htime : ∃ D, t.chips[ci]? = some D ∧ D.lastTime < 2 ^ 32) : NoOverrun c t := by
  have hg : t.global = s.global := by rw [hframe.rest]
  constructor
  · intro hn B' hB'
    obtain ⟨b, hb⟩ := List.mem_iff_getElem?.mp hB'
    obtain ⟨B, hB⟩ := getElem?_of_length hframe.bufs.length hb
    exact BufFits.sameButCells (h.bufs (hg ▸ hn) B (List.mem_of_getElem? hB)) (hframe.cells b B B' hB hb)
  · intro hn D hD
    obtain ⟨k, hk⟩ := List.mem_iff_getElem?.mp hD
    by_cases e : k = ci
    · obtain ⟨D', hD', hlt⟩ := htime
      subst e; rw [hk] at hD'; cases hD'; exact hlt
    · rw [hframe.chips.others k e] at hk
      exact h.chips (hg ▸ hn) D (List.mem_of_getElem? hk)

/-! ## BUF and SYN commands -/

theorem NoOverrun.bufSetrate (h : NoOverrun c s) {b : Nat} {rate clk : Word32}
    (hr : bufSetrate c b rate clk s = .ok t) : NoOverrun c t := by
  rcases bufSetrate_cases c b rate clk s with e | e | e <;> rw [e] at hr <;> cases hr
  · exact (h.modBuf b (ratedBuf c rate _) fun _ _ _ => .clearedBuf c _).congr rfl rfl rfl
  · exact (h.modBuf b (fun B => { B with bufferSize := 0 }) fun _ _ _ hn => absurd rfl hn).congr rfl rfl rfl

theorem NoOverrun.bufClear (h : NoOverrun c s) (b : Nat) : NoOverrun c (bufClear c b s) :=
  h.modBuf b _ fun B _ _ => .clearedBuf c B

theorem NoOverrun.bufEndframe (h : NoOverrun c s) {b : Nat} {time : Word32} (hr : bufEndframe c b time s = .ok t) :
    NoOverrun c t := by
  obtain rfl | ⟨B, hB, -, hle, hlt, rfl⟩ := bufEndframe_ok hr
  · exact h
  · exact h.setBuf hB fun _ => .withOffset hle hlt

theorem NoOverrun.bufRead (h : NoOverrun c s) (b : Nat) (stereo : Bool) (max : Word32) :
    NoOverrun c (bufRead c b stereo max s) := by
  unfold Machine.bufRead
  split
  · exact h
  · rename_i B hB
    split
    · exact h.congr rfl rfl rfl
    · refine (h.modBuf b (fun _ => Machine.dropSamples c (readCount c max B) _) fun A hA hfit => ?_).congr rfl rfl rfl
      rw [hB] at hA; cases hA
      exact (hfit.readLoop _).dropSamples _

theorem NoOverrun.bufMix (h : NoOverrun c s) {b : Nat} {count : Word32} (hr : bufMix c b count s = .ok t) :
    NoOverrun c t := by
  obtain rfl | ⟨-, -, -, rfl⟩ | ⟨B, hB, -, -, rfl⟩ := bufMix_ok hr
  · exact h
  · exact h.congr rfl rfl rfl
  · exact (h.setBuf hB fun hfit => hfit.sameButCells ⟨_, rfl⟩).congr rfl rfl rfl

theorem NoOverrun.bufRmsil (h : NoOverrun c s) {b : Nat} {count : Word32} (hr : bufRmsil c b count s = .ok t) :
    NoOverrun c t := by
  obtain rfl | ⟨B, hB, -, -, rfl⟩ := bufRmsil_ok hr
  · exact h
  · exact h.setBuf hB fun hfit => (hfit.sameButCells ⟨_, rfl⟩).dropSamples _

theorem NoOverrun.bufAnswer (h : NoOverrun c s) (b : Nat) (f : Buf → Word32) : NoOverrun c (bufAnswer b f s) := by
  unfold Machine.bufAnswer
  split
  · exact h
  · exact h.congr rfl rfl rfl

theorem NoOverrun.synOffset (h : NoOverrun c s) {y b time : Nat} {d : Int} (hr : synOffset c y b time d s = .ok t) :
    NoOverrun c t := by
  obtain ⟨B, S, hB, -, ⟨-, rfl⟩ | ⟨-, -, rfl⟩⟩ := synOffset_ok hr
  · exact h
  · exact h.setBuf hB fun hfit => hfit.sameButCells ⟨_, rfl⟩

/-! ## OSC and VOICE commands -/

theorem NoOverrun.oscReset (h : NoOverrun c s) (o : Nat) : NoOverrun c (oscReset c o s) := by
  unfold Machine.oscReset
  dsimp only
  split
  · exact h.modOsc o _
  · exact h.congr rfl rfl rfl

/-- OSC.RUN without a fault leaves the slot's frame; with one, nothing is promised. -/
theorem NoOverrun.runCommand (h : NoOverrun c s) (o a e : Nat) : NoOverrun c (runCommand c o a e s) :=
  .of_no_fault fun hf => h.slotFrame (.oscRun (runCommand_no_fault hf))

/-! ## CHIP commands -/

theorem NoOverrun.chipReset (h : NoOverrun c s) (ci : Nat) (variant : Bool) :
    NoOverrun c (chipReset c ci variant s) :=
  foldl_keeps (NoOverrun c) _ _ _ (h.modChip ci _ fun _ _ => Nat.two_pow_pos 32) fun _ oi _ ht =>
    (ht.modOsc oi.1 _).oscReset oi.1

theorem NoOverrun.chipOscout (h : NoOverrun c s) {ci index : Nat} {sink : Option Nat}
    (hr : chipOscout c ci sink index s = .ok t) : NoOverrun c t := by
  unfold Machine.chipOscout at hr
  split at hr
  · cases hr
  · cases hr; exact h.modOsc _ _

theorem NoOverrun.chipRead (h : NoOverrun c s) {ci addr : Nat} (hr : chipRead c ci addr s = .ok t) :
    NoOverrun c t := by
  obtain rfl | ⟨v, rfl⟩ := chipRead_ok hr
  · exact h
  · exact h.congr rfl rfl rfl

/-- A timed command runs its body from a time not past its operand, or faults. -/
theorem NoOverrun.timedCommand (h : NoOverrun c s) {op : Byte} {ci e : Nat} {body : State → Attempt}
    (hbody : ∀ C t, s.chips[ci]? = some C → C.lastTime ≤ e → body s = .ok t → NoOverrun c t) :
    NoOverrun c (timedCommand c op ci e body s) := by
  unfold Machine.timedCommand
  split
  · exact h
  · rename_i C hC
    split
    · exact .raiseFault c _ _ s
    · exact .settleImprecise fun t => hbody C t hC (by omega)

/-- An advanced chip stands at the operand, which is below 2^32 (44_chip_sequencer_ops.md R326). -/
theorem NoOverrun.advanceChip (h : NoOverrun c s) {ci : Nat} {e : Word32} {C : Chip} (hC : s.chips[ci]? = some C)
    (hle : C.lastTime ≤ e.toNat) (hr : advanceChip c ci e.toNat s = .ok t) :
    NoOverrun c t ∧ ∃ D, t.chips[ci]? = some D ∧ D.lastTime < 2 ^ 32 := by
  obtain ⟨hframe, D, hD, -, hlast⟩ := advanceChip_ok hC hle hr
  have htime : ∃ D, t.chips[ci]? = some D ∧ D.lastTime < 2 ^ 32 := ⟨D, hD, by rw [hlast]; exact e.isLt⟩
  exact ⟨h.chipFrame hframe htime, htime⟩

theorem NoOverrun.advanceAndWrite (h : NoOverrun c s) {ci addr : Nat} {e : Word32} {data : Byte} {C : Chip}
    (hC : s.chips[ci]? = some C) (hle : C.lastTime ≤ e.toNat)
    (hr : advanceAndWrite c ci e.toNat addr data s = .ok t) : NoOverrun c t := by
  unfold Machine.advanceAndWrite at hr
  split at hr
  · cases hr
  · rename_i u hu
    obtain ⟨hok, D, hD, hlt⟩ := h.advanceChip hC hle hu
    obtain ⟨hframe, E, hE, hlast, -⟩ := registerWrite_ok hD hr
    exact hok.chipFrame hframe ⟨E, hE, by rw [hlast]; exact hlt⟩

theorem NoOverrun.rebaseChip (h : NoOverrun c s) {ci e : Nat} (hr : rebaseChip ci e s = .ok t) : NoOverrun c t := by
  obtain rfl | rfl := rebaseChip_ok hr
  · exact h
  · exact h.modChip ci _ fun _ hC => Nat.lt_of_le_of_lt (Nat.sub_le _ _) hC

theorem NoOverrun.advanceAndRebase (h : NoOverrun c s) {ci : Nat} {e : Word32} {C : Chip}
    (hC : s.chips[ci]? = some C) (hle : C.lastTime ≤ e.toNat) (hr : advanceAndRebase c ci e.toNat s = .ok t) :
    NoOverrun c t := by
  unfold Machine.advanceAndRebase at hr
  split at hr
  · cases hr
  · rename_i u hu
    exact (h.advanceChip hC hle hu).1.rebaseChip hr

/-! ## Every command -/

theorem NoOverrun.execWith (h : NoOverrun c s) (i : Instr) : NoOverrun c (execWith c i s) := by
  cases i with
  | bufSetrate => exact .whenInRange (.settle fun _ hr => h.bufSetrate hr)
  | bufClear => exact .whenInRange (h.bufClear _)
  | bufEndframe => exact .whenInRange (.settle fun _ hr => h.bufEndframe hr)
  | bufRead => exact .whenInRange (h.bufRead _ _ _)
  | bufMix => exact .whenInRange (.settle fun _ hr => h.bufMix hr)
  | bufRmsil => exact .whenInRange (.settle fun _ hr => h.bufRmsil hr)
  | bufAvail => exact .whenInRange (h.bufAnswer _ _)
  | bufGetsr => exact .whenInRange (h.bufAnswer _ _)
  | bufGetcr => exact .whenInRange (h.bufAnswer _ _)
  | synOffset => exact .whenInRange (.settle fun _ hr => h.synOffset hr)
  | synVolume => exact .whenInRange (h.congr rfl rfl rfl)
  | synTreble => exact .whenInRange (h.congr rfl rfl rfl)
  | oscReset => exact .whenInRange (h.oscReset _)
  | oscWrite => exact .whenInRange (.settle fun _ hr => h.slotFrame (.oscWrite hr))
  | oscRun => exact .whenInRange (h.runCommand _ _ _)
  | oscClkenv => exact .whenInRange (h.slotFrame (.oscClkenv c s _))
  | oscClklen => exact .whenInRange (h.slotFrame (.oscClklen c s _))
  | oscClkswp => exact .whenInRange (h.slotFrame (.oscClkswp c s _))
  | oscClklin => exact .whenInRange (h.slotFrame (.oscClklin c s _))
  | voiceKeyon => exact .whenInRange (h.congr rfl rfl rfl)
  | voiceKeyoff => exact .whenInRange (h.congr rfl rfl rfl)
  | voiceTick => exact .whenInRange (h.congr rfl rfl rfl)
  | chipReset => exact .whenInRange (h.chipReset _ _)
  | chipOutput => exact .whenInRange (foldl_keeps (NoOverrun c) _ _ _ h fun _ o _ ht => ht.modOsc o _)
  | chipOscout => exact .whenInRange (.settle fun _ hr => h.chipOscout hr)
  | chipWrite => exact .whenInRange (h.timedCommand fun _ _ hC hle hr => h.advanceAndWrite hC hle hr)
  | chipRununtil => exact .whenInRange (h.timedCommand fun _ _ hC hle hr => (h.advanceChip hC hle hr).1)
  | chipEndframe => exact .whenInRange (h.timedCommand fun _ _ hC hle hr => h.advanceAndRebase hC hle hr)
  | chipVolume => exact .whenInRange (foldl_keeps (NoOverrun c) _ _ _ h fun _ _ _ ht => ht.congr rfl rfl rfl)
  | chipTreble => exact .whenInRange (foldl_keeps (NoOverrun c) _ _ _ h fun _ _ _ ht => ht.congr rfl rfl rfl)
  | chipRead => exact .whenInRange (.settle fun _ hr => h.chipRead hr)
  | chipBufclr => exact .whenInRange (foldl_keeps (NoOverrun c) _ _ _ h fun _ o _ ht => ht.modOsc o _)

/-! ## Host events -/

/-- After hardware reset no Buffer is allocated and every chip's time is 0 (10_state.md R42, R46). -/
theorem NoOverrun.resetState (c : Config) : NoOverrun c (resetState c) where
  bufs := fun _ B hB hsize => by rw [List.eq_of_mem_replicate hB] at hsize; exact absurd rfl hsize
  chips := fun _ C hC => by obtain ⟨ci, -, rfl⟩ := List.mem_map.mp hC; exact Nat.two_pow_pos 32

theorem NoOverrun.hardwareReset (c : Config) (s : State) : NoOverrun c (hardwareReset c s) :=
  (NoOverrun.resetState c).congr rfl rfl rfl

end Sys2Proof.Machine

/-! ## The statements -/

namespace Sys2Proof.Machine

/-- Settles O13: each event a step can take keeps NoOverrun. -/
theorem stepKeepsNoOverrun : Obligations.StepKeepsNoOverrun := fun _ _ hs h =>
  step_keeps (fun _ _ hs => hs.congr rfl rfl rfl) (fun s _ => .hardwareReset _ s)
    (fun _ _ _ hs => hs.congr rfl rfl rfl) (fun s op _ => .raiseFault _ op _ s) (fun _ i hs => hs.execWith i) h hs

/-- Settles O14: the reset state with every unit at its reset value. -/
theorem resetMeetsInvariants : Obligations.ResetMeetsInvariants := ⟨.resetState _, .resetState _⟩

end Sys2Proof.Machine
end

section
/-! PROOF. The writers of `last_amp` (10_state.md R29): every command but an emission, OSC.RESET and CHIP.BUFCLR, by
themselves or CALLed, keeps the committed amplitudes. -/

namespace Sys2Proof.Machine

/-- The committed amplitudes of the slots, in order. -/
def State.amps (s : State) : List Int := s.oscs.map fun O => O.lastAmp

variable {c : Config} {s t : State}

/-! ## Changes of the state -/

theorem amps_of_oscs (h : t.oscs = s.oscs) : t.amps = s.amps := congrArg (List.map fun O : Osc => O.lastAmp) h

theorem amps_modOsc (s : State) (o : Nat) (f : Osc → Osc) (h : ∀ O, (f O).lastAmp = O.lastAmp) :
    (s.modOsc o f).amps = s.amps := by
  refine List.ext_getElem? fun p => ?_
  simp only [State.amps, State.modOsc_oscs, List.getElem?_map, List.getElem?_modify]
  by_cases e : o = p
  · cases s.oscs[p]? <;> simp [e, h]
  · cases s.oscs[p]? <;> simp [e]

theorem amps_foldl {α : Type} (f : State → α → State) (l : List α) (h : ∀ s a, (f s a).amps = s.amps) :
    (l.foldl f s).amps = s.amps :=
  foldl_keeps (fun t => t.amps = s.amps) f l s rfl fun t a _ ht => (h t a).trans ht

theorem amps_whenInRange {op : Byte} {b : Bool} (h : t.amps = s.amps) : (whenInRange op b s t).amps = s.amps := by
  cases b with
  | true => exact h
  | false => exact amps_of_oscs (raiseFault_oscs _ _ s)

theorem amps_settle {op : Byte} {r : Attempt} (h : ∀ t, r = .ok t → t.amps = s.amps) :
    (settle op s r).amps = s.amps := by
  cases r with
  | ok t => exact h t rfl
  | error x => exact amps_of_oscs (raiseFault_oscs _ _ s)

/-! ## The operations -/

theorem bufSetrate_oscs {b : Nat} {rate clk : Word32} (h : bufSetrate c b rate clk s = .ok t) : t.oscs = s.oscs := by
  rcases bufSetrate_cases c b rate clk s with e | e | e <;> rw [e] at h <;> cases h <;> rfl

theorem bufEndframe_oscs {b : Nat} {time : Word32} (h : bufEndframe c b time s = .ok t) : t.oscs = s.oscs := by
  obtain rfl | ⟨-, -, -, -, -, rfl⟩ := bufEndframe_ok h <;> rfl

theorem bufRead_oscs (b : Nat) (stereo : Bool) (max : Word32) : (bufRead c b stereo max s).oscs = s.oscs := by
  unfold bufRead
  split
  · rfl
  · split <;> rfl

theorem bufMix_oscs {b : Nat} {count : Word32} (h : bufMix c b count s = .ok t) : t.oscs = s.oscs := by
  obtain rfl | ⟨-, -, -, rfl⟩ | ⟨-, -, -, -, rfl⟩ := bufMix_ok h <;> rfl

theorem bufRmsil_oscs {b : Nat} {count : Word32} (h : bufRmsil c b count s = .ok t) : t.oscs = s.oscs := by
  obtain rfl | ⟨-, -, -, -, rfl⟩ := bufRmsil_ok h <;> rfl

theorem bufAnswer_oscs (b : Nat) (f : Buf → Word32) : (bufAnswer b f s).oscs = s.oscs := by
  unfold bufAnswer; split <;> rfl

theorem synOffset_oscs {y b time : Nat} {d : Int} (h : synOffset c y b time d s = .ok t) : t.oscs = s.oscs := by
  obtain ⟨-, -, -, -, ⟨-, rfl⟩ | ⟨-, -, rfl⟩⟩ := synOffset_ok h <;> rfl

theorem chipRead_oscs {ci addr : Nat} (h : chipRead c ci addr s = .ok t) : t.oscs = s.oscs := by
  obtain rfl | ⟨v, rfl⟩ := chipRead_ok h <;> rfl

theorem amps_oscWrite {o reg : Nat} {value : Byte} (h : oscWrite c o reg value s = .ok t) : t.amps = s.amps := by
  unfold oscWrite at h
  split at h
  · cases h; rfl
  · split at h
    · cases h
    · cases h; exact amps_modOsc s o _ fun _ => rfl

/-- Routing keeps the committed amplitude (44_chip_sequencer_ops.md R321). -/
theorem amps_setSink (sink : Option Nat) (s : State) (o : Nat) : (setSink sink s o).amps = s.amps :=
  amps_modOsc s o _ fun _ => rfl

theorem amps_chipOscout {ci index : Nat} {sink : Option Nat} (h : chipOscout c ci sink index s = .ok t) :
    t.amps = s.amps := by
  unfold chipOscout at h
  split at h
  · cases h
  · cases h; exact amps_setSink sink s _

/-! ## Every command but the writers -/

theorem amps_execWith {i : Instr} (hi : mayCommitAmp i = false) : (execWith c i s).amps = s.amps := by
  cases i with
  | oscRun | oscReset | chipReset | chipWrite | chipRununtil | chipEndframe | chipBufclr => cases hi
  | bufSetrate => exact amps_whenInRange (amps_settle fun _ h => amps_of_oscs (bufSetrate_oscs h))
  | bufEndframe => exact amps_whenInRange (amps_settle fun _ h => amps_of_oscs (bufEndframe_oscs h))
  | bufRead => exact amps_whenInRange (amps_of_oscs (bufRead_oscs _ _ _))
  | bufMix => exact amps_whenInRange (amps_settle fun _ h => amps_of_oscs (bufMix_oscs h))
  | bufRmsil => exact amps_whenInRange (amps_settle fun _ h => amps_of_oscs (bufRmsil_oscs h))
  | bufAvail | bufGetsr | bufGetcr => exact amps_whenInRange (amps_of_oscs (bufAnswer_oscs _ _))
  | synOffset => exact amps_whenInRange (amps_settle fun _ h => amps_of_oscs (synOffset_oscs h))
  | bufClear | synVolume | synTreble | voiceKeyon | voiceKeyoff | voiceTick =>
    exact amps_whenInRange (amps_of_oscs rfl)
  | oscWrite => exact amps_whenInRange (amps_settle fun _ h => amps_oscWrite h)
  | oscClkenv | oscClklen | oscClkswp | oscClklin => exact amps_whenInRange (amps_modOsc s _ _ fun _ => rfl)
  | chipOutput => exact amps_whenInRange (amps_foldl _ _ (amps_setSink _))
  | chipOscout => exact amps_whenInRange (amps_settle fun _ h => amps_chipOscout h)
  | chipVolume | chipTreble => exact amps_whenInRange (amps_foldl _ _ fun _ _ => rfl)
  | chipRead => exact amps_whenInRange (amps_settle fun _ h => amps_of_oscs (chipRead_oscs h))

end Sys2Proof.Machine

/-! ## The statement -/

namespace Sys2Proof.Machine

/-- Settles O19: slot by slot, from the list of the committed amplitudes. -/
theorem lastAmpWriters : Obligations.LastAmpWriters := by
  intro i s t hi h o
  rw [exec_eq_next_execWith] at h
  cases h
  simpa only [State.amps, List.getElem?_map] using congrArg (fun l : List Int => l[o]?) (amps_execWith hi)

end Sys2Proof.Machine
end

section
/-! PROOF. Reset (10_state.md R42 to R48): the values hardware reset gives, and that OSC.RESET and CHIP.RESET are
idempotent. -/

namespace Sys2Proof.Machine

variable {c : Config}

/-! ## Changing units twice -/

/-- A change that settles after one application settles the unit it is made to. -/
theorem modify_idem {α : Type} (l : List α) (i : Nat) {f : α → α} (h : ∀ a, f (f a) = f a) :
    (l.modify i f).modify i f = l.modify i f := by
  rw [modify_modify, funext h]

/-- Changes of different units commute. -/
theorem modify_comm_of_ne {α : Type} (l : List α) {i j : Nat} (f g : α → α) (h : i ≠ j) :
    (l.modify i f).modify j g = (l.modify j g).modify i f := by
  refine List.ext_getElem? fun k => ?_
  simp only [List.getElem?_modify]
  by_cases hi : i = k
  · subst hi; simp [h.symm]
  · simp [hi]

/-- Setting two units, the same or not, to one value commutes. -/
theorem modify_const_comm {α : Type} (l : List α) (i j : Nat) (a : α) :
    (l.modify i fun _ => a).modify j (fun _ => a) = (l.modify j fun _ => a).modify i fun _ => a := by
  by_cases h : i = j
  · rw [h]
  · exact modify_comm_of_ne l _ _ h

/-- A fold of idempotent steps that commute with each other is idempotent. -/
theorem foldl_idem {α σ : Type} (f : σ → α → σ) (l : List α) (idem : ∀ s, ∀ a ∈ l, f (f s a) a = f s a)
    (comm : ∀ s, ∀ a ∈ l, ∀ b ∈ l, f (f s a) b = f (f s b) a) (s : σ) :
    l.foldl f (l.foldl f s) = l.foldl f s := by
  have fixed : ∀ a ∈ l, f (l.foldl f s) a = l.foldl f s := by
    induction l generalizing s with
    | nil => intro a ha; cases ha
    | cons b l ih =>
      intro a ha
      rcases List.mem_cons.mp ha with rfl | ha
      · refine foldl_keeps (fun t => f t a = t) f l (f s a) (idem s a ha) fun t x hx ht => ?_
        rw [comm t x (List.mem_cons_of_mem a hx) a ha, ht]
      · exact ih (fun s a ha => idem s a (List.mem_cons_of_mem b ha))
          (fun s a ha d hd => comm s a (List.mem_cons_of_mem b ha) d (List.mem_cons_of_mem b hd)) (f s b) a ha
  exact foldl_keeps (fun t => t = l.foldl f s) f l _ rfl fun t a ha ht => by rw [ht, fixed a ha]

/-! ## OSC.RESET (42_oscillator_ops.md R235) -/

/-- The voices with the one slot `o` wraps, if any, at its reset value (10_state.md R45). -/
def resetWrapped (c : Config) (o : Nat) (voices : List Voice) : List Voice :=
  (voiceOf c o).elim voices fun v => voices.modify v fun _ => resetVoice

theorem oscReset_eq (c : Config) (o : Nat) (s : State) :
    oscReset c o s = { s with
      oscs := s.oscs.modify o (resetSlot c (oscKind c o)), voices := resetWrapped c o s.voices } := by
  unfold oscReset resetWrapped
  cases voiceOf c o <;> rfl

theorem resetWrapped_idem (c : Config) (o : Nat) (voices : List Voice) :
    resetWrapped c o (resetWrapped c o voices) = resetWrapped c o voices := by
  unfold resetWrapped
  cases voiceOf c o with
  | none => rfl
  | some v => exact modify_idem voices v fun _ => rfl

theorem resetWrapped_comm (c : Config) (o p : Nat) (voices : List Voice) :
    resetWrapped c p (resetWrapped c o voices) = resetWrapped c o (resetWrapped c p voices) := by
  unfold resetWrapped
  cases voiceOf c o with
  | none => rfl
  | some v =>
    cases voiceOf c p with
    | none => rfl
    | some w => exact modify_const_comm voices v w resetVoice

theorem oscReset_idem (c : Config) (o : Nat) (s : State) : oscReset c o (oscReset c o s) = oscReset c o s := by
  simp only [oscReset_eq, resetWrapped_idem, modify_idem s.oscs o (f := resetSlot c (oscKind c o)) fun _ => rfl]

theorem cmdOscReset_idem {o : Byte} {s : State} (h : o.toNat < s.oscs.length) :
    cmdOscReset c o (cmdOscReset c o s) = cmdOscReset c o s := by
  have hs : hasOsc s o = true := by simpa [hasOsc] using h
  have ht : hasOsc (oscReset c o.toNat s) o = true := by simpa [hasOsc, oscReset_eq] using h
  simp only [cmdOscReset, hs, ht, whenInRange_true, oscReset_idem]

/-! ## CHIP.RESET (44_chip_sequencer_ops.md R320) -/

/-- The chip's `i`-th oscillator `o` after CHIP.RESET. -/
def ownedSlot (c : Config) (ci i o : Nat) (O : Osc) : Osc :=
  resetSlot c (oscKind c o) { O with regs := powerOnRegs c ci i o }

theorem resetOwned_eq (c : Config) (ci : Nat) (s : State) (oi : Nat × Nat) :
    resetOwned c ci s oi = { s with
      oscs := s.oscs.modify oi.1 (ownedSlot c ci oi.2 oi.1), voices := resetWrapped c oi.1 s.voices } := by
  simp only [resetOwned, oscReset_eq, State.modOsc, modify_modify]
  rfl

theorem resetOwned_idem (c : Config) (ci : Nat) (s : State) (oi : Nat × Nat) :
    resetOwned c ci (resetOwned c ci s oi) oi = resetOwned c ci s oi := by
  simp only [resetOwned_eq, resetWrapped_idem, modify_idem s.oscs oi.1 (f := ownedSlot c ci oi.2 oi.1) fun _ => rfl]

theorem resetOwned_comm (c : Config) (ci : Nat) (s : State) {oi pj : Nat × Nat} (h : oi.1 ≠ pj.1) :
    resetOwned c ci (resetOwned c ci s oi) pj = resetOwned c ci (resetOwned c ci s pj) oi := by
  simp only [resetOwned_eq, resetWrapped_comm c oi.1 pj.1, modify_comm_of_ne s.oscs _ _ h]

/-- A chip lists each of its oscillators once, so the oscillator fixes its position (10_state.md R36). -/
theorem eq_of_mem_zipIdx_chipOscs {ci : Nat} {oi pj : Nat × Nat} (hoi : oi ∈ (chipOscs c ci).zipIdx)
    (hpj : pj ∈ (chipOscs c ci).zipIdx) (h : oi.1 = pj.1) : oi = pj := by
  obtain ⟨o, i⟩ := oi
  obtain ⟨p, j⟩ := pj
  obtain rfl : o = p := h
  obtain ⟨hi, ho⟩ := List.getElem?_eq_some_iff.mp (List.mk_mem_zipIdx_iff_getElem?.mp hoi)
  obtain ⟨hj, hp⟩ := List.getElem?_eq_some_iff.mp (List.mk_mem_zipIdx_iff_getElem?.mp hpj)
  rw [(chipOscs_nodup c ci).getElem_inj_iff.mp (ho.trans hp.symm)]

/-- The oscillators of the chip after CHIP.RESET. -/
def resetAllOwned (c : Config) (ci : Nat) (s : State) : State := (chipOscs c ci).zipIdx.foldl (resetOwned c ci) s

theorem resetAllOwned_idem (c : Config) (ci : Nat) (s : State) :
    resetAllOwned c ci (resetAllOwned c ci s) = resetAllOwned c ci s := by
  refine foldl_idem _ _ (fun s oi _ => resetOwned_idem c ci s oi) (fun s oi hoi pj hpj => ?_) s
  by_cases h : oi.1 = pj.1
  · rw [eq_of_mem_zipIdx_chipOscs hoi hpj h]
  · exact resetOwned_comm c ci s h

/-- Resetting the oscillators neither reads nor writes a chip's record. -/
theorem resetAllOwned_modChip (c : Config) (ci k : Nat) (f : Chip → Chip) (s : State) :
    resetAllOwned c ci (s.modChip k f) = (resetAllOwned c ci s).modChip k f :=
  List.foldl_hom (fun s : State => s.modChip k f) fun s oi => by rw [resetOwned_eq, resetOwned_eq]; rfl

theorem chipReset_idem (c : Config) (ci : Nat) (variant : Bool) (s : State) :
    chipReset c ci variant (chipReset c ci variant s) = chipReset c ci variant s := by
  have heq : ∀ s, chipReset c ci variant s =
      (resetAllOwned c ci s).modChip ci fun _ => resetChip c ci variant := resetAllOwned_modChip c ci ci _
  rw [heq s, heq, resetAllOwned_modChip, resetAllOwned_idem, State.modChip, State.modChip]
  simp only [modify_modify]

theorem chipReset_chips (c : Config) (ci : Nat) (variant : Bool) (s : State) :
    (chipReset c ci variant s).chips = s.chips.modify ci fun _ => resetChip c ci variant :=
  foldl_keeps (fun t : State => t.chips = s.chips.modify ci fun _ => resetChip c ci variant) _ _ _ rfl
    fun t oi _ ht => by rw [resetOwned_eq]; exact ht

theorem cmdChipReset_idem {ci : Byte} (variant : Bool) {s : State} (h : ci.toNat < s.chips.length) :
    cmdChipReset c ci variant (cmdChipReset c ci variant s) = cmdChipReset c ci variant s := by
  have hs : hasChip s ci = true := by simpa [hasChip] using h
  have ht : hasChip (chipReset c ci.toNat variant s) ci = true := by simpa [hasChip, chipReset_chips] using h
  simp only [cmdChipReset, hs, ht, whenInRange_true, chipReset_idem]

end Sys2Proof.Machine

/-! ## The statements -/

namespace Sys2Proof.Machine

/-- Settles O49: the slot, the chip's record and each of its oscillators stay at their reset values. -/
theorem resetIsIdempotent : Obligations.ResetIsIdempotent := by
  refine ⟨fun o s t ho h => ?_, fun ci variant s t hci h => ?_⟩
  · rw [exec_eq_next_execWith] at h ⊢
    cases h
    exact congrArg _ (cmdOscReset_idem ho)
  · rw [exec_eq_next_execWith] at h ⊢
    cases h
    exact congrArg _ (cmdChipReset_idem variant hci)

/-- Settles O10: each group is a list of reset units. -/
theorem resetValues : Obligations.ResetValues := by
  refine ⟨rfl, fun c => ⟨fun B hB => ?_, fun y S hS => ?_, fun o O hO => ?_, fun V hV => ?_, fun ci C hC => ?_, rfl⟩⟩
  · rw [List.eq_of_mem_replicate hB]
    simp [resetBuf]
  · rw [eq_of_getElem?_map_range hS]
    simp [resetSyn]
  · rw [eq_of_getElem?_map_range hO]
    simp [resetOsc]
  · rw [List.eq_of_mem_replicate hV]
    simp [resetVoice]
  · rw [eq_of_getElem?_map_range hC]
    simp [resetChip, gregRead, Memory.read]

end Sys2Proof.Machine
end

section
/-! PROOF. The spaces of 20_memory.md (R80): which commands reach the RAM (R83), the host's queue and the two sample
streams (R93). -/

namespace Sys2Proof.Machine

/-- What lies outside the engine's units, GLOBAL and the responses: the RAM, what the host has presented, and the two
sample streams (20_memory.md R80). -/
structure Spaces where
  ram : List Host.Cell
  ramEpoch : Nat
  input : List HostEvent
  din : List Sample
  dout : List (Nat × Sample)

def State.spaces (s : State) : Spaces := ⟨s.ram, s.ramEpoch, s.input, s.din, s.dout⟩

variable {c : Config} {s t : State}

/-! ## Changes of the state -/

theorem spaces_raiseFault (op : Byte) (x : FaultCause) (s : State) : (raiseFault op x s).spaces = s.spaces := by
  rw [raiseFault_eq]; rfl

theorem spaces_whenInRange {op : Byte} {b : Bool} (h : t.spaces = s.spaces) :
    (whenInRange op b s t).spaces = s.spaces := by
  cases b with
  | true => exact h
  | false => exact spaces_raiseFault _ _ s

theorem spaces_settle {op : Byte} {r : Attempt} (h : ∀ t, r = .ok t → t.spaces = s.spaces) :
    (settle op s r).spaces = s.spaces := by
  cases r with
  | ok t => exact h t rfl
  | error x => exact spaces_raiseFault _ _ s

theorem spaces_settleImprecise {op : Byte} {w : State} {r : Attempt} (hw : w.spaces = s.spaces)
    (h : ∀ t, r = .ok t → t.spaces = s.spaces) : (settleImprecise op w r).spaces = s.spaces := by
  cases r with
  | ok t => exact h t rfl
  | error x => exact (spaces_raiseFault _ _ w).trans hw

theorem spaces_foldl {α : Type} (f : State → α → State) (l : List α) (h : ∀ s a, (f s a).spaces = s.spaces) :
    (l.foldl f s).spaces = s.spaces :=
  foldl_keeps (fun t => t.spaces = s.spaces) f l s rfl fun t a _ ht => (h t a).trans ht

theorem SlotFrame.spaces {o : Nat} (h : SlotFrame c o s t) : t.spaces = s.spaces := by rw [h.rest]; rfl

theorem ChipFrame.spaces {ci : Nat} (h : ChipFrame c ci s t) : t.spaces = s.spaces := by rw [h.rest]; rfl

theorem spaces_wreckSlot (c : Config) (s : State) (o : Nat) : (wreckSlot c s o).spaces = s.spaces := by
  rw [wreckSlot_frame]; rfl

theorem spaces_wreckChip (c : Config) (ci : Nat) (s : State) : (wreckChip c ci s).spaces = s.spaces := by
  rw [wreckChip_frame]; rfl

/-! ## BUF and SYN commands -/

theorem spaces_bufSetrate {b : Nat} {rate clk : Word32} (h : bufSetrate c b rate clk s = .ok t) :
    t.spaces = s.spaces := by
  rcases bufSetrate_cases c b rate clk s with e | e | e <;> rw [e] at h <;> cases h <;> rfl

theorem spaces_bufEndframe {b : Nat} {time : Word32} (h : bufEndframe c b time s = .ok t) : t.spaces = s.spaces := by
  obtain rfl | ⟨-, -, -, -, -, rfl⟩ := bufEndframe_ok h <;> rfl

theorem spaces_bufRmsil {b : Nat} {count : Word32} (h : bufRmsil c b count s = .ok t) : t.spaces = s.spaces := by
  obtain rfl | ⟨-, -, -, -, rfl⟩ := bufRmsil_ok h <;> rfl

theorem spaces_bufAnswer (b : Nat) (f : Buf → Word32) : (bufAnswer b f s).spaces = s.spaces := by
  unfold bufAnswer; split <;> rfl

theorem spaces_synOffset {y b time : Nat} {d : Int} (h : synOffset c y b time d s = .ok t) : t.spaces = s.spaces := by
  obtain ⟨-, -, -, -, ⟨-, rfl⟩ | ⟨-, -, rfl⟩⟩ := synOffset_ok h <;> rfl

/-- BUF.READ reaches DOUT alone of the spaces. -/
theorem spaces_cmdBufRead (c : Config) (b : Byte) (stereo : Bool) (max : Word32) (s : State) :
    ∃ dout, (cmdBufRead c b stereo max s).spaces = { s.spaces with dout := dout } := by
  unfold cmdBufRead
  cases hasBuf s b with
  | false => exact ⟨s.dout, spaces_raiseFault _ _ s⟩
  | true =>
    rw [whenInRange_true]
    unfold bufRead
    split
    · exact ⟨s.dout, rfl⟩
    · split
      · exact ⟨s.dout, rfl⟩
      · exact ⟨_, rfl⟩

/-- BUF.MIX reaches DIN alone of the spaces. -/
theorem spaces_cmdBufMix (c : Config) (b : Byte) (count : Word32) (s : State) :
    ∃ din, (cmdBufMix c b count s).spaces = { s.spaces with din := din } := by
  unfold cmdBufMix
  cases hasBuf s b with
  | false => exact ⟨s.din, spaces_raiseFault _ _ s⟩
  | true =>
    rw [whenInRange_true]
    obtain ⟨t, hr, ht⟩ | ⟨x, -, ht⟩ := settle_cases 0x14 s (bufMix c b.toNat count s) <;> rw [ht]
    · obtain rfl | ⟨-, -, -, rfl⟩ | ⟨-, -, -, -, rfl⟩ := bufMix_ok hr
      · exact ⟨t.din, rfl⟩
      · exact ⟨_, rfl⟩
      · exact ⟨_, rfl⟩
    · exact ⟨s.din, spaces_raiseFault _ _ s⟩

/-! ## OSC commands -/

theorem spaces_oscReset (c : Config) (o : Nat) (s : State) : (oscReset c o s).spaces = s.spaces := by
  unfold oscReset
  dsimp only
  split <;> rfl

/-- OSC.RUN keeps the spaces, also where it faults in the middle. -/
theorem spaces_runCommand (c : Config) (o a e : Nat) (s : State) : (runCommand c o a e s).spaces = s.spaces := by
  unfold runCommand
  split
  · exact spaces_raiseFault _ _ s
  · split
    · exact spaces_raiseFault _ _ s
    · next u hu =>
      exact spaces_settleImprecise (spaces_wreckSlot c s o) fun t ht =>
        ((SlotFrame.emit hu).trans (.runTransitions ht)).spaces

/-! ## CHIP commands -/

theorem spaces_chipReset (c : Config) (ci : Nat) (variant : Bool) (s : State) :
    (chipReset c ci variant s).spaces = s.spaces :=
  spaces_foldl (s := s.modChip ci fun _ => resetChip c ci variant) _ _ fun _ oi => spaces_oscReset c oi.1 _

theorem spaces_chipOscout {ci index : Nat} {sink : Option Nat} (h : chipOscout c ci sink index s = .ok t) :
    t.spaces = s.spaces := by
  unfold chipOscout at h
  split at h
  · cases h
  · cases h; rfl

theorem spaces_chipRead {ci addr : Nat} (h : chipRead c ci addr s = .ok t) : t.spaces = s.spaces := by
  obtain rfl | ⟨v, rfl⟩ := chipRead_ok h <;> rfl

/-- A timed command keeps the spaces, also where it faults in the middle, if its body does. -/
theorem spaces_timedCommand {op : Byte} {ci e : Nat} {body : State → Attempt}
    (hbody : ∀ C t, s.chips[ci]? = some C → C.lastTime ≤ e → body s = .ok t → t.spaces = s.spaces) :
    (timedCommand c op ci e body s).spaces = s.spaces := by
  unfold timedCommand
  split
  · rfl
  · next C hC =>
    split
    · exact spaces_raiseFault _ _ s
    · exact spaces_settleImprecise (spaces_wreckChip c ci s) fun t => hbody C t hC (by omega)

theorem spaces_advanceChip {ci e : Nat} {C : Chip} (hC : s.chips[ci]? = some C) (hle : C.lastTime ≤ e)
    (h : advanceChip c ci e s = .ok t) : t.spaces = s.spaces := (advanceChip_ok hC hle h).1.spaces

theorem spaces_advanceAndWrite {ci e addr : Nat} {data : Byte} {C : Chip} (hC : s.chips[ci]? = some C)
    (hle : C.lastTime ≤ e) (h : advanceAndWrite c ci e addr data s = .ok t) : t.spaces = s.spaces := by
  unfold advanceAndWrite at h
  split at h
  · cases h
  · next u hu =>
    obtain ⟨hadvance, D, hD, -⟩ := advanceChip_ok hC hle hu
    exact (hadvance.trans (registerWrite_ok hD h).1).spaces

theorem spaces_advanceAndRebase {ci e : Nat} {C : Chip} (hC : s.chips[ci]? = some C) (hle : C.lastTime ≤ e)
    (h : advanceAndRebase c ci e s = .ok t) : t.spaces = s.spaces := by
  unfold advanceAndRebase at h
  split at h
  · cases h
  · next u hu =>
    refine Eq.trans ?_ (spaces_advanceChip hC hle hu)
    obtain rfl | rfl := rebaseChip_ok h <;> rfl

/-! ## Every command but the two that stream samples -/

theorem spaces_execWith_of_no_stream {i : Instr} (hmix : ∀ b n, i ≠ .bufMix b n)
    (hread : ∀ b st m, i ≠ .bufRead b st m) : (execWith c i s).spaces = s.spaces := by
  cases i with
  | bufMix b n => exact absurd rfl (hmix b n)
  | bufRead b st m => exact absurd rfl (hread b st m)
  | bufSetrate => exact spaces_whenInRange (spaces_settle fun _ => spaces_bufSetrate)
  | bufEndframe => exact spaces_whenInRange (spaces_settle fun _ => spaces_bufEndframe)
  | bufRmsil => exact spaces_whenInRange (spaces_settle fun _ => spaces_bufRmsil)
  | bufAvail | bufGetsr | bufGetcr => exact spaces_whenInRange (spaces_bufAnswer _ _)
  | synOffset => exact spaces_whenInRange (spaces_settle fun _ => spaces_synOffset)
  | bufClear | synVolume | synTreble | oscClkenv | oscClklen | oscClkswp | oscClklin | voiceKeyon | voiceKeyoff
  | voiceTick => exact spaces_whenInRange rfl
  | oscReset => exact spaces_whenInRange (spaces_oscReset _ _ _)
  | oscWrite => exact spaces_whenInRange (spaces_settle fun _ h => (SlotFrame.oscWrite h).spaces)
  | oscRun => exact spaces_whenInRange (spaces_runCommand _ _ _ _ _)
  | chipReset => exact spaces_whenInRange (spaces_chipReset _ _ _ _)
  | chipOutput | chipVolume | chipTreble | chipBufclr =>
    exact spaces_whenInRange (spaces_foldl _ _ fun _ _ => rfl)
  | chipOscout => exact spaces_whenInRange (spaces_settle fun _ => spaces_chipOscout)
  | chipWrite => exact spaces_whenInRange (spaces_timedCommand fun _ _ => spaces_advanceAndWrite)
  | chipRununtil => exact spaces_whenInRange (spaces_timedCommand fun _ _ => spaces_advanceChip)
  | chipEndframe => exact spaces_whenInRange (spaces_timedCommand fun _ _ => spaces_advanceAndRebase)
  | chipRead => exact spaces_whenInRange (spaces_settle fun _ => spaces_chipRead)

/-- What any command makes of the spaces. -/
theorem spaces_execWith (c : Config) (i : Instr) (s : State) :
    ∃ din dout, (execWith c i s).spaces = { s.spaces with din := din, dout := dout } ∧
      ((∀ b n, i ≠ .bufMix b n) → din = s.din) ∧ ((∀ b st m, i ≠ .bufRead b st m) → dout = s.dout) := by
  by_cases hmix : ∃ b n, i = .bufMix b n
  · obtain ⟨b, n, rfl⟩ := hmix
    obtain ⟨din, h⟩ := spaces_cmdBufMix c b n s
    exact ⟨din, s.dout, h, fun hne => absurd rfl (hne b n), fun _ => rfl⟩
  by_cases hread : ∃ b st m, i = .bufRead b st m
  · obtain ⟨b, st, m, rfl⟩ := hread
    obtain ⟨dout, h⟩ := spaces_cmdBufRead c b st m s
    exact ⟨s.din, dout, h, fun _ => rfl, fun hne => absurd rfl (hne b st m)⟩
  · have h : (execWith c i s).spaces = s.spaces :=
      spaces_execWith_of_no_stream (fun b n e => hmix ⟨b, n, e⟩) fun b st m e => hread ⟨b, st, m, e⟩
    exact ⟨s.din, s.dout, h, fun _ => rfl, fun _ => rfl⟩

/-! ## The statement -/

/-- Settles O18: space by space, from what any command makes of them. -/
theorem spacesReachedOnlyAsListed : Obligations.SpacesReachedOnlyAsListed := by
  intro i s t h
  rw [exec_eq_next_execWith] at h
  cases h
  obtain ⟨din, dout, hspaces, hdin, hdout⟩ := spaces_execWith Config.impl i s
  exact ⟨congrArg Spaces.ram hspaces, congrArg Spaces.ramEpoch hspaces, congrArg Spaces.input hspaces,
    fun hne => (congrArg Spaces.din hspaces).trans (hdin hne),
    fun hne => (congrArg Spaces.dout hspaces).trans (hdout hne)⟩

end Sys2Proof.Machine
end

section
/-! PROOF. Writers into one Buffer (20_memory.md R90): SYN.OFFSET and BUF.MIX add to cells, at places the cells do not
decide, and additions to cells commute (40_buffer_ops.md R173). -/

namespace Sys2Proof.Machine

variable {c : Config} {s : State}

/-! ## Additions to the cells of a Buffer -/

/-- Adds to cells in turn: each addition a cell and what it adds. -/
def addCells (c : Config) (adds : List (Nat × Int)) (cells : List Nat) : List Nat :=
  adds.foldl (fun l a => addCell c l a.1 a.2) cells

/-- The order of the additions does not matter. -/
theorem addCells_comm (c : Config) (adds adds' : List (Nat × Int)) (cells : List Nat) :
    addCells c adds' (addCells c adds cells) = addCells c adds (addCells c adds' cells) := by
  simp only [addCells, ← List.foldl_append]
  exact List.perm_append_comm.foldl_eq' (fun a _ b _ l => addCell_comm c l a.1 b.1 a.2 b.2) cells

/-- Adds to the cells of `BUF[b]`. -/
def State.addInto (c : Config) (b : Nat) (adds : List (Nat × Int)) (s : State) : State :=
  s.modBuf b fun B => { B with cells := addCells c adds B.cells }

theorem State.addInto_comm (c : Config) (b : Nat) (adds adds' : List (Nat × Int)) (s : State) :
    (s.addInto c b adds).addInto c b adds' = (s.addInto c b adds').addInto c b adds := by
  simp only [State.addInto, State.modBuf, modify_modify, addCells_comm c adds adds']

theorem State.addInto_nil (c : Config) (b : Nat) (s : State) : s.addInto c b [] = s := by
  have hself : s.bufs.modify b (fun B => { B with cells := addCells c [] B.cells }) = s.bufs :=
    modify_id_at _ _ _ fun _ _ => rfl
  rw [State.addInto, State.modBuf, hself]

theorem State.addInto_getElem? {b : Nat} {B : Buf} (hB : s.bufs[b]? = some B) (adds : List (Nat × Int)) :
    (s.addInto c b adds).bufs[b]? = some { B with cells := addCells c adds B.cells } := by
  simp [State.addInto, hB]

/-! ## What SYN.OFFSET adds (41_synth_ops.md R203) -/

/-- The additions of SYN.OFFSET, nothing where they leave the ring; none into an unallocated Buffer. -/
def offsetAdditions (c : Config) (S : Syn) (B : Buf) (time : Nat) (delta : Int) : Option (List (Nat × Int)) :=
  if B.bufferSize = 0 then some []
  else if ringN c < (position c B time).index + widthOf c S.quality then none
  else some ((List.range (widthOf c S.quality)).map fun k =>
    (cellIndex c B ((position c B time).index + k), delta * tap S (position c B time).row k))

theorem injectTaps_eq_addCells (c : Config) (S : Syn) (B : Buf) (p : Position) (delta : Int) :
    injectTaps c S B p delta =
      addCells c ((List.range (widthOf c S.quality)).map fun k => (cellIndex c B (p.index + k), delta * tap S p.row k))
        B.cells := by
  rw [addCells, List.foldl_map, injectTaps]

theorem synOffset_eq_additions {y b time : Nat} {delta : Int} {B : Buf} {S : Syn} (hB : s.bufs[b]? = some B)
    (hS : s.syns[y]? = some S) :
    synOffset c y b time delta s =
      (offsetAdditions c S B time delta).elim (.error .offsetOutOfRange) fun adds => .ok (s.addInto c b adds) := by
  simp only [synOffset, hB, hS, offsetAdditions]
  split
  · rw [Option.elim_some, State.addInto_nil]
  · split
    · rfl
    · rw [Option.elim_some, State.addInto, State.modBuf, State.modBuf, modify_eq_set _ _ _ B hB,
        modify_eq_set _ _ _ B hB, injectTaps_eq_addCells]

/-! ## What BUF.MIX adds (40_buffer_ops.md R166) -/

/-- The additions of the loop of R166 from cell `j` on, `prev` the level before. -/
def mixAdditionsFrom (c : Config) (j : Nat) (prev : Int) : List Int → List (Nat × Int)
  | [] => [(j % ringN c, -prev)]
  | x :: rest => (j % ringN c, x - prev) :: mixAdditionsFrom c (j + 1) x rest

theorem mixCells_eq_addCells (c : Config) (levels : List Int) :
    ∀ (j : Nat) (prev : Int) (cells : List Nat),
      mixCells c j prev levels cells = addCells c (mixAdditionsFrom c j prev levels) cells := by
  induction levels with
  | nil => intro j prev cells; rfl
  | cons x levels ih => intro j prev cells; exact ih (j + 1) x _

/-- The additions of BUF.MIX, nothing where they leave the ring; none into an unallocated Buffer. -/
def mixAdditions (c : Config) (B : Buf) (samples : List Sample) : Option (List (Nat × Int)) :=
  if B.bufferSize = 0 then some []
  else if ringN c < samplesAvail c B + c.mixLead + samples.length + 1 then none
  else some (mixAdditionsFrom c (B.rd + (samplesAvail c B + c.mixLead)) 0 (scaledSamples c samples))

/-- A payload the host has presented is what the command reads. -/
theorem dinSamples_append (c : Config) (samples rest : List Sample) (s : State) (h : s.din = samples ++ rest) :
    dinSamples c s samples.length = samples := by
  refine List.ext_getElem (by simp [dinSamples]) fun i _ hi => ?_
  simp [dinSamples, h, List.getElem?_append_left hi, List.getElem?_eq_getElem hi]

theorem bufMix_eq_additions {b : Nat} {samples : List Sample} {B : Buf} (hB : s.bufs[b]? = some B)
    (hcount : samples.length < 2 ^ 32) :
    bufMix c b (BitVec.ofNat 32 samples.length) { s with din := samples ++ s.din } =
      (mixAdditions c B samples).elim (.error .offsetOutOfRange) fun adds => .ok (s.addInto c b adds) := by
  have hn : (BitVec.ofNat 32 samples.length).toNat = samples.length := by
    rw [BitVec.toNat_ofNat, Nat.mod_eq_of_lt hcount]
  simp only [bufMix, hB, mixAdditions, hn]
  split
  · rw [Option.elim_some, State.addInto_nil]
    simp [State.consumeDin]
  · split
    · rfl
    · rw [dinSamples_append c samples s.din _ rfl]
      simp [State.consumeDin, State.takeDraws, State.addInto, State.modBuf, mixCells_eq_addCells,
        modify_eq_set _ _ _ B hB]

/-! ## A writer -/

/-- What a writer adds to the cells of `BUF[b]`: nothing where it would fault. -/
def Writer.additions (c : Config) (b : Byte) (s : State) (w : Writer) : Option (List (Nat × Int)) :=
  (s.bufs[b.toNat]?).bind fun B =>
    match w with
    | .offset y time delta =>
      if b = 0xFF#8 then none
      else (s.syns[y.toNat]?).bind fun S => offsetAdditions c S B time.toNat (deltaOperand delta)
    | .mix samples => mixAdditions c B samples

/-- What a writer adds does not depend on what the cells hold. -/
theorem Writer.additions_addInto (c : Config) (b : Byte) (s : State) (w : Writer) (adds : List (Nat × Int)) :
    w.additions c b (s.addInto c b.toNat adds) = w.additions c b s := by
  cases hB : s.bufs[b.toNat]? with
  | none => simp [Writer.additions, State.addInto, hB]
  | some B => cases w <;> simp only [Writer.additions, State.addInto_getElem? hB, hB] <;> rfl

/-- SYN.OFFSET as a command: its additions, or a fault. -/
theorem cmdSynOffset_eq_additions (c : Config) (y b : Byte) (time delta : Word32) (s : State) :
    ∃ x, cmdSynOffset c y b time delta s = ((Writer.offset y time delta).additions c b s).elim (raiseFault 0x20 x s)
      fun adds => s.addInto c b.toNat adds := by
  unfold cmdSynOffset
  cases hin : hasSyn s y && hasSinkBuf s b with
  | true =>
    simp only [hasSyn, hasSinkBuf, hasBuf, Bool.and_eq_true, decide_eq_true_eq, bne_iff_ne] at hin
    obtain ⟨hy, hb, hnull⟩ := hin
    have hB := List.getElem?_eq_getElem hb
    have hS := List.getElem?_eq_getElem hy
    refine ⟨.offsetOutOfRange, ?_⟩
    simp only [whenInRange_true, synOffset_eq_additions hB hS, Writer.additions, hB, hS, Option.bind_some, hnull,
      if_false]
    cases offsetAdditions c _ _ _ _ <;> rfl
  | false =>
    have hnone : (Writer.offset y time delta).additions c b s = none := by
      unfold Writer.additions
      cases hB : s.bufs[b.toNat]? with
      | none => rfl
      | some B =>
        have hb : b.toNat < s.bufs.length := (List.getElem?_eq_some_iff.mp hB).1
        simp only [hasSyn, hasSinkBuf, hasBuf, hb, decide_true, Bool.true_and, Bool.and_eq_false_iff,
          decide_eq_false_iff_not, bne_eq_false_iff_eq] at hin
        obtain hy | rfl := hin
        · simp [List.getElem?_eq_none (Nat.le_of_not_lt hy)]
        · rfl
    exact ⟨.unitIndexOutOfRange, by rw [hnone]; rfl⟩

/-- BUF.MIX as a command, its payload on DIN: its additions and the payload taken, or a fault. -/
theorem cmdBufMix_eq_additions (c : Config) (b : Byte) {samples : List Sample} (s : State)
    (hcount : samples.length < 2 ^ 32) :
    ∃ x, cmdBufMix c b (BitVec.ofNat 32 samples.length) { s with din := samples ++ s.din } =
      ((Writer.mix samples).additions c b s).elim (raiseFault 0x14 x { s with din := samples ++ s.din })
        fun adds => s.addInto c b.toNat adds := by
  cases hB : s.bufs[b.toNat]? with
  | none =>
    have hb : hasBuf { s with din := samples ++ s.din } b = false := by
      simpa [hasBuf] using List.getElem?_eq_none_iff.mp hB
    exact ⟨.unitIndexOutOfRange, by simp [cmdBufMix, hb, Writer.additions, hB]⟩
  | some B =>
    have hb : hasBuf { s with din := samples ++ s.din } b = true := by
      simpa [hasBuf] using (List.getElem?_eq_some_iff.mp hB).1
    refine ⟨.offsetOutOfRange, ?_⟩
    simp only [cmdBufMix, hb, whenInRange_true, bufMix_eq_additions hB hcount, Writer.additions, hB, Option.bind_some]
    cases mixAdditions c B samples <;> rfl

/-- A writer performs its additions, or takes a fault. -/
theorem Writer.run_eq_additions (b : Byte) {w : Writer} (hw : w.countable) (s : State) :
    ∃ op x u, w.run b s = .next ((w.additions Config.impl b s).elim (raiseFault op x u)
      fun adds => s.addInto Config.impl b.toNat adds) := by
  cases w with
  | offset y time delta =>
    obtain ⟨x, hx⟩ := cmdSynOffset_eq_additions Config.impl y b time delta s
    exact ⟨_, x, s, congrArg _ hx⟩
  | mix samples =>
    obtain ⟨x, hx⟩ := cmdBufMix_eq_additions Config.impl b s hw
    exact ⟨_, x, _, congrArg _ hx⟩

theorem Writer.run_of_additions {b : Byte} {w : Writer} (hw : w.countable) {s : State} {adds : List (Nat × Int)}
    (h : w.additions Config.impl b s = some adds) : w.run b s = .next (s.addInto Config.impl b.toNat adds) := by
  obtain ⟨op, x, u, hrun⟩ := Writer.run_eq_additions b hw s
  rw [hrun, h, Option.elim_some]

theorem Writer.additions_of_no_fault {b : Byte} {w : Writer} (hw : w.countable) {s t : State}
    (h : w.run b s = .next t) (hfault : t.global.fault = false) :
    ∃ adds, w.additions Config.impl b s = some adds ∧ t = s.addInto Config.impl b.toNat adds := by
  obtain ⟨op, x, u, hrun⟩ := Writer.run_eq_additions b hw s
  rw [hrun] at h
  cases hadds : w.additions Config.impl b s with
  | none => rw [hadds] at h; cases h; simp at hfault
  | some adds => rw [hadds] at h; cases h; exact ⟨adds, rfl, rfl⟩

/-! ## The statement -/

/-- Settles O32: neither writer changes what the other adds, and additions commute. -/
theorem writersCommute : Obligations.WritersCommute := by
  intro b x y s s1 s2 hx hy _ hrunx hruny hfault
  obtain ⟨ys, hys, rfl⟩ := Writer.additions_of_no_fault hy hruny hfault
  obtain ⟨xs, hxs, rfl⟩ := Writer.additions_of_no_fault hx hrunx hfault
  rw [Writer.additions_addInto] at hys
  refine ⟨_, Writer.run_of_additions hy hys, ?_⟩
  rw [Writer.run_of_additions hx ((Writer.additions_addInto ..).trans hxs), State.addInto_comm]

end Sys2Proof.Machine
end

section
/-! PROOF. Read-back (20_memory.md R86, 44_chip_sequencer_ops.md R336): the register CHIP.WRITE changes is the one
CHIP.READ of the same address finds, and holds the byte written. -/

namespace Sys2Proof.Machine

variable {c : Config} {ci addr : Nat} {data : Byte} {s t : State} {C : Chip}

/-! ## Dispatch -/

/-- DISPATCH yields only valid numbers (42_oscillator_ops.md R236): an oscillator it leads to is one the chip has. -/
theorem chipOscs_of_dispatch_osc {latch i r : Nat} (h : dispatch c ci addr latch = .osc i r) :
    ∃ o, (chipOscs c ci)[i]? = some o := by
  have hr : r < slotRegs c ci i := by
    unfold dispatch validTarget at h
    split at h
    · split at h
      · cases h; assumption
      · cases h
    · simp_all
  unfold slotRegs at hr
  cases ho : (chipOscs c ci)[i]? with
  | none => simp [ho] at hr
  | some o => exact ⟨o, rfl⟩

/-- The PC-Engine's one global register is its latch, and has its address whatever channel is latched (R327). -/
theorem dispatch_global_of_pce (hk : c.chipKind ci = .pcePsg) {latch slot : Nat}
    (h : dispatch c ci addr latch = .global slot) (latch' : Nat) : dispatch c ci addr latch' = .global slot := by
  unfold dispatch dispatchTarget at h ⊢
  simp only [hk] at h ⊢
  split at h
  next haddr => rwa [if_pos haddr]
  · unfold validTarget at h
    split at h
    · split at h <;> cases h
    · simp_all

/-- Only the PC-Engine's latch is moved by a global write (R328; log 40). -/
theorem globalBits_latch (hk : c.chipKind ci ≠ .pcePsg) (slot : Nat) (g rest : GlobalBits) :
    (globalBits c ci slot data g rest).latch = g.latch := by
  unfold globalBits
  split
  · rfl
  · exact absurd ‹_› hk
  · rfl

/-- An address that leads to a global register leads to it still after that register is written. -/
theorem dispatch_putChip {slot : Nat} (r : GlobalView) (h : dispatch c ci addr C.latch = .global slot) :
    dispatch c ci addr (putChip c ci slot data r (globalWritten c ci slot data C)).latch = .global slot := by
  by_cases hk : c.chipKind ci = .pcePsg
  · exact dispatch_global_of_pce hk h _
  · have hlatch : (putChip c ci slot data r (globalWritten c ci slot data C)).latch = C.latch :=
      (globalBits_latch hk slot _ _).trans (globalBits_latch hk slot _ _)
    rw [hlatch, h]

/-! ## What the three kinds of address read -/

theorem registerRead_of_osc {i r o : Nat} {O : Osc} (hd : dispatch c ci addr C.latch = .osc i r)
    (ho : (chipOscs c ci)[i]? = some o) (hO : s.oscs[o]? = some O) :
    registerRead c ci addr C s = (O.regs[r]?).getD 0 := by
  simp only [registerRead, hd, ho, Option.bind_some, hO]

theorem registerRead_of_global {slot : Nat} (hd : dispatch c ci addr C.latch = .global slot) :
    registerRead c ci addr C s = gregRead c (c.chipKind ci) C slot := by simp only [registerRead, hd]

theorem registerRead_of_none (hd : dispatch c ci addr C.latch = .none) :
    registerRead c ci addr C s = gregRead c (c.chipKind ci) C addr := by simp only [registerRead, hd]

/-- A global register reads the byte last written to it (10_state.md R33). -/
theorem gregRead_gregWrite (k : ChipKind) (C : Chip) (slot : Nat) (b : Byte) :
    gregRead c k (gregWrite c k C slot b) slot = b := Memory.read_write_same _ _ _ _

/-- The byte a slot's register holds after OSC.WRITE is the byte written (42_oscillator_ops.md R237). -/
theorem oscWrite_stores {o reg : Nat} {O : Osc} (hO : s.oscs[o]? = some O) (h : oscWrite c o reg data s = .ok t) :
    t.chips = s.chips ∧ ∃ P, t.oscs[o]? = some P ∧ P.regs[reg]? = some data := by
  obtain ⟨hnone, -⟩ | ⟨P, hP, hreg, rfl⟩ := oscWrite_ok h
  · rw [hO] at hnone; cases hnone
  · have ho : o < s.oscs.length := (List.getElem?_eq_some_iff.mp hP).1
    exact ⟨rfl, _, List.getElem?_set_self ho, by rw [writtenSlot_regs, List.getElem?_set_self hreg]⟩

/-! ## Writing, then reading -/

theorem EngineOk.oscs_length (h : EngineOk c s) : s.oscs.length = numOsc c := congrArg UnitCounts.oscs h.counts

/-- A register write in the window, where it completes, leaves its byte to be read at its address (20_memory.md R86). -/
theorem registerRead_registerWrite (hok : EngineOk c s) (hC : s.chips[ci]? = some C)
    (hwin : inWindow c (c.chipKind ci) addr = true) (h : registerWrite c ci addr data s = .ok t) :
    ∃ D, t.chips[ci]? = some D ∧ registerRead c ci addr D t = data := by
  unfold registerWrite at h
  simp only [hC, hwin, if_true] at h
  split at h
  next i r hd =>
    obtain ⟨o, ho⟩ := chipOscs_of_dispatch_osc hd
    obtain ⟨holt, -⟩ := (mem_chipOscs c ci o).mp (List.mem_of_getElem? ho)
    simp only [ho] at h
    obtain ⟨hchips, P, hP, hstored⟩ :=
      oscWrite_stores (List.getElem?_eq_getElem (by rw [hok.oscs_length]; exact holt)) h
    exact ⟨C, by rw [hchips, hC], by rw [registerRead_of_osc hd ho hP, hstored]; rfl⟩
  next slot hd =>
    cases h
    obtain ⟨-, r, hr⟩ := globalWrite_ok (c := c) (slot := slot) (data := data) hC
    exact ⟨_, hr, (registerRead_of_global (dispatch_putChip r hd)).trans (gregRead_gregWrite _ C slot data)⟩
  next hd =>
    cases h
    refine ⟨gregWrite c (c.chipKind ci) C addr data, by simp [hC], ?_⟩
    exact (registerRead_of_none (C := gregWrite c (c.chipKind ci) C addr data) hd).trans
      (gregRead_gregWrite _ C addr data)

/-- A timed command ends without a fault only where time does not go back and its body completes. -/
theorem timedCommand_no_fault {op : Byte} {time : Nat} {body : State → Attempt} (hC : s.chips[ci]? = some C)
    (h : (timedCommand c op ci time body s).global.fault = false) :
    C.lastTime ≤ time ∧ body s = .ok (timedCommand c op ci time body s) := by
  unfold timedCommand at h ⊢
  simp only [hC] at h ⊢
  split at h
  · simp at h
  · rename_i hlt
    rw [if_neg hlt]
    exact ⟨Nat.le_of_not_lt hlt, settleImprecise_no_fault _ _ _ h⟩

/-- CHIP.WRITE, where it completes, leaves its byte to be read at its address. -/
theorem registerRead_advanceAndWrite (hok : EngineOk c s) {time : Nat} (hC : s.chips[ci]? = some C)
    (hle : C.lastTime ≤ time) (hwin : inWindow c (c.chipKind ci) addr = true)
    (h : advanceAndWrite c ci time addr data s = .ok t) :
    ∃ D, t.chips[ci]? = some D ∧ registerRead c ci addr D t = data := by
  unfold advanceAndWrite at h
  split at h
  · cases h
  next u hu =>
    obtain ⟨-, D, hD, -⟩ := advanceChip_ok hC hle hu
    exact registerRead_registerWrite (hok.advanceChip hu) hD hwin h

/-- CHIP.READ where it is supported (R336). -/
theorem chipRead_of_supported (hC : s.chips[ci]? = some C) (hsup : readSupported c (c.chipKind ci) = true)
    (hwin : inWindow c (c.chipKind ci) addr = true) :
    chipRead c ci addr s = .ok (s.respond ((registerRead c ci addr C s).setWidth 32)) := by
  simp [chipRead, hC, hsup, hwin]

/-! ## The statement -/

/-- Settles O58: time advances first and keeps every unit well formed, so the write finds the register it names, and the
read-back is dispatched to it again. -/
theorem writeReadRoundTrip : Obligations.WriteReadRoundTrip := by
  rintro c ci time addr data s t k hok hci rfl hsup hwin hwrite hfault
  have hhas : hasChip s ci = true := by simpa [hasChip] using hci
  have hC := List.getElem?_eq_getElem hci
  have htimed : timedCommand c 0x53 ci.toNat time.toNat
      (advanceAndWrite c ci.toNat time.toNat addr.toNat data) s = t := by
    rw [← hwrite, execWith, cmdChipWrite, hhas, whenInRange_true]
  obtain ⟨hle, hbody⟩ := timedCommand_no_fault hC (htimed.symm ▸ hfault)
  obtain ⟨D, hD, hread⟩ := registerRead_advanceAndWrite hok hC hle hwin (htimed ▸ hbody)
  have hhas' : hasChip t ci = true := by simpa [hasChip] using (List.getElem?_eq_some_iff.mp hD).1
  have haddr : (BitVec.setWidth 32 addr).toNat = addr.toNat := BitVec.toNat_setWidth_of_le (by decide)
  rw [execWith, cmdChipRead, hhas', whenInRange_true, haddr, chipRead_of_supported hD hsup hwin, settle_ok, hread,
    State.respond]

end Sys2Proof.Machine
end

section
/-! PROOF. The command word (30_encoding.md): decoding and encoding are inverse (R121 to R125), and the decoder accepts
exactly the words of the opcode table (R124). -/

namespace Sys2Proof

/-- A command decodes where its must-be-zero fields are zero (30_encoding.md R125). -/
theorem whenZero_eq_ok {f : CmdFields} {zero : Bool} {i j : Instr} :
    whenZero f zero i = .ok j ↔ (f.z = 0#8 ∧ zero = true) ∧ i = j := by
  unfold whenZero
  split <;> simp_all

/-! ## Decoding and encoding, field by field -/

/-- The fields of a well-formed command decode to it: its flag, sink and sub-field operands read back. -/
theorem decodeFields_encodeFields {i : Instr} (hi : i.wellFormed = true) : decodeFields (encodeFields i) = .ok i := by
  cases i with
  | bufRead | chipReset => simp [encodeFields, decodeFields, whenZero, Instr.opcode]
  | chipOutput _ sink | chipOscout _ sink =>
    have hsink : sinkOperand (sinkField sink) = sink := sinkOperand_sinkField sink hi
    simp [encodeFields, decodeFields, whenZero, Instr.opcode, hsink]
  | oscWrite =>
    simp only [encodeFields, decodeFields, Instr.opcode, valueField_low, valueField_rest]
    rfl
  | chipWrite =>
    simp only [encodeFields, decodeFields, Instr.opcode, writeField_data, writeField_addr, writeField_rest]
    rfl
  | _ => rfl

/-- Fields that decode are those of their command, which is well formed: an operand is a whole field, or fills its field
once the rest of it is zero. -/
theorem encodeFields_of_decodeFields {f : CmdFields} {i : Instr} (h : decodeFields f = .ok i) :
    encodeFields i = f ∧ i.wellFormed = true := by
  unfold decodeFields at h
  split at h
  case h_33 => cases h
  all_goals
    obtain ⟨⟨hz, hzero⟩, rfl⟩ := whenZero_eq_ok.mp h
    simp only [Bool.and_eq_true, beq_iff_eq] at hzero
  -- BUF.READ, CHIP.RESET: a flag in `v`
  case h_4 hop | h_23 hop =>
    have hv : flagField (flagOperand f.v) = f.v := flagField_flagOperand f.v (by simp [hzero])
    refine ⟨CmdFields.eq_of_fields hop.symm rfl hv hz.symm ?_ ?_, rfl⟩ <;> simp [encodeFields, hzero]
  -- OSC.WRITE: a byte in `b`
  case h_14 hop =>
    obtain ⟨hv, hb⟩ := hzero
    exact ⟨CmdFields.eq_of_fields hop.symm rfl hv.symm hz.symm rfl (valueField_join f.b hb), rfl⟩
  -- CHIP.OUTPUT, CHIP.OSCOUT: a sink in `v`
  case h_24 hop | h_25 hop =>
    have hv : sinkField (sinkOperand f.v) = f.v := sinkField_sinkOperand f.v
    refine ⟨CmdFields.eq_of_fields hop.symm rfl hv hz.symm ?_ ?_, sinkWellFormed_sinkOperand f.v⟩ <;>
      simp [encodeFields, hzero]
  -- CHIP.WRITE: an address and a byte in `b`
  case h_26 hop =>
    obtain ⟨hv, hb⟩ := hzero
    exact ⟨CmdFields.eq_of_fields hop.symm rfl hv.symm hz.symm rfl (writeField_join f.b hb), rfl⟩
  all_goals
    next hop =>
    refine ⟨CmdFields.eq_of_fields hop.symm rfl ?_ hz.symm ?_ ?_, rfl⟩ <;> simp [encodeFields, hzero]

/-! ## Masks, field by field (30_encoding.md, opening) -/

/-- Bitwise and of two words' fields. -/
def CmdFields.and (f m : CmdFields) : CmdFields :=
  ⟨f.op &&& m.op, f.u &&& m.u, f.v &&& m.v, f.z &&& m.z, f.a &&& m.a, f.b &&& m.b⟩

theorem splitWord_and (w m : CmdWord) : splitWord (w &&& m) = (splitWord w).and (splitWord m) := by
  simp [splitWord, CmdFields.and, BitVec.extractLsb'_and]

/-- The fields of a word of row `r`. -/
def CmdFields.matchesRow (f : CmdFields) (r : TableRow) : Prop := f.and (splitWord r.mask) = splitWord r.bits

theorem and_mask_eq_iff_matchesRow {w : CmdWord} {r : TableRow} :
    w &&& r.mask = r.bits ↔ (splitWord w).matchesRow r := by
  have hinj : Function.Injective splitWord := Function.LeftInverse.injective joinWord_splitWord
  rw [CmdFields.matchesRow, ← splitWord_and, hinj.eq_iff]

/-- Matching, field by field, in the order in which the decoder checks. -/
theorem CmdFields.matchesRow_iff {f : CmdFields} {r : TableRow} :
    f.matchesRow r ↔ f.op &&& (splitWord r.mask).op = wordOpcode r.bits ∧
      f.u &&& (splitWord r.mask).u = (splitWord r.bits).u ∧ f.z &&& (splitWord r.mask).z = (splitWord r.bits).z ∧
      f.v &&& (splitWord r.mask).v = (splitWord r.bits).v ∧ f.a &&& (splitWord r.mask).a = (splitWord r.bits).a ∧
      f.b &&& (splitWord r.mask).b = (splitWord r.bits).b :=
  ⟨fun h => ⟨congrArg CmdFields.op h, congrArg CmdFields.u h, congrArg CmdFields.z h, congrArg CmdFields.v h,
    congrArg CmdFields.a h, congrArg CmdFields.b h⟩,
   fun ⟨hop, hu, hz, hv, ha, hb⟩ => CmdFields.eq_of_fields hop hu hv hz ha hb⟩

theorem and_byteMask (x : Byte) : x &&& 0xFF#8 = x := BitVec.and_allOnes

theorem and_wordMask (x : Word32) : x &&& 0xFFFFFFFF#32 = x := BitVec.and_allOnes

theorem flagRestZero_iff_and_mask (v : Byte) : flagRestZero v = true ↔ v &&& 0xFE#8 = 0#8 := by
  revert v; decide

/-- The upper part of a 32-bit field is zero where the field shares no bit with the mask of that part. -/
theorem extractLsb'_eq_zero_iff_and_mask {x : Word32} {k n : Nat} (hkn : k + n = 32) :
    x.extractLsb' k n = 0#n ↔ x &&& (BitVec.allOnes 32 <<< k) = 0#32 := by
  constructor
  · intro h
    ext i hi
    have hbit := congrArg (fun y : BitVec n => y.getLsbD (i - k)) h
    simp only [BitVec.getLsbD_extractLsb', BitVec.getLsbD_zero] at hbit
    by_cases hik : i < k
    · simp [hik]
    · have hin : i - k < n := by omega
      have hki : k + (i - k) = i := by omega
      simp_all
  · intro h
    ext i hi
    have hbit := congrArg (fun y : Word32 => y.getLsbD (k + i)) h
    have hki : k + i < 32 := by omega
    have hi32 : i < 32 := by omega
    simpa [-BitVec.reduceAllOnes, hki, hi32] using hbit

theorem valueRest_iff_and_mask (b : Word32) : b.extractLsb' 8 24 = 0#24 ↔ b &&& 0xFFFFFF00#32 = 0#32 :=
  extractLsb'_eq_zero_iff_and_mask rfl

theorem writeRest_iff_and_mask (b : Word32) : b.extractLsb' 24 8 = 0#8 ↔ b &&& 0xFF000000#32 = 0#32 :=
  extractLsb'_eq_zero_iff_and_mask rfl

/-! ## The row of an opcode (30_encoding.md R124) -/

/-- The row of the opcode table whose commands have opcode `op`. -/
def rowAt (op : Byte) : Option TableRow := opcodeRows.find? fun r => op == wordOpcode r.bits

/-- No two rows have the same opcode. -/
theorem rowAt_wordOpcode_bits : ∀ r ∈ opcodeRows, rowAt (wordOpcode r.bits) = some r := by decide

/-- Every row fixes every bit of the opcode. -/
theorem mask_op_of_mem_opcodeRows : ∀ r ∈ opcodeRows, (splitWord r.mask).op = 0xFF#8 := by decide

/-- A word can match the row of its opcode only. -/
theorem exists_matchesRow_iff (f : CmdFields) :
    (∃ r ∈ opcodeRows, f.matchesRow r) ↔ ∃ r, rowAt f.op = some r ∧ f.matchesRow r := by
  constructor
  · rintro ⟨r, hr, hf⟩
    obtain ⟨hop, -⟩ := CmdFields.matchesRow_iff.mp hf
    rw [mask_op_of_mem_opcodeRows r hr, and_byteMask] at hop
    exact ⟨r, hop ▸ rowAt_wordOpcode_bits r hr, hf⟩
  · rintro ⟨r, hr, hf⟩
    exact ⟨r, List.mem_of_find?_eq_some hr, hf⟩

/-- What the decoder asks of the fields is what the row of their opcode fixes: per opcode, the same bits are zero. -/
theorem exists_decodeFields_eq_ok_iff (f : CmdFields) :
    (∃ i, decodeFields f = .ok i) ↔ ∃ r, rowAt f.op = some r ∧ f.matchesRow r := by
  unfold decodeFields
  split
  case h_33 =>
    have hnone : rowAt f.op = none := by simp_all [rowAt, opcodeRows, wordOpcode, splitWord]
    simp [hnone]
  all_goals
    next hop =>
    simp [whenZero_eq_ok, hop, rowAt, opcodeRows, wordOpcode, splitWord, CmdFields.matchesRow_iff, and_byteMask,
      and_wordMask, flagRestZero_iff_and_mask, valueRest_iff_and_mask, writeRest_iff_and_mask, and_assoc]

/-! ## The statements -/

/-- Settles O1: the word splits into the fields of its command, and they decode to it. -/
theorem decodeOfEncode : Obligations.DecodeOfEncode := by
  intro i hi
  rw [decode, encode, splitWord_joinWord]
  exact decodeFields_encodeFields hi

/-- Settles O2: the fields that decode are those of the command, and joining them gives the word back. -/
theorem encodeOfDecode : Obligations.EncodeOfDecode := by
  intro w i h
  obtain ⟨hfields, hwf⟩ := encodeFields_of_decodeFields h
  exact ⟨by rw [encode, hfields, joinWord_splitWord], hwf⟩

/-- Settles O3: opcode by opcode, a word matches a row where its fields match the row of their opcode. -/
theorem decoderAcceptsExactlyTheTable : Obligations.DecoderAcceptsExactlyTheTable := by
  intro w
  simp only [and_mask_eq_iff_matchesRow, exists_matchesRow_iff]
  exact exists_decodeFields_eq_ok_iff (splitWord w)

/-- Settles O4: the three words and the operand evaluated. -/
theorem workedWordsDecode : Obligations.WorkedWordsDecode := ⟨rfl, rfl, rfl, rfl⟩

end Sys2Proof
end

section
/-! PROOF. The checks before a command's meaning (60_exceptions.md R377): a word of no row, and a unit index out of
range (30_encoding.md R125). -/

namespace Sys2Proof.Machine

/-! ## A word of no row -/

theorem decode_eq_error_of_no_row {w : CmdWord} (h : ∀ r ∈ opcodeRows, w &&& r.mask ≠ r.bits) :
    ∃ e, decode w = .error e := by
  cases hd : decode w with
  | error e => exact ⟨e, rfl⟩
  | ok i =>
    obtain ⟨r, hr, hw⟩ := (decoderAcceptsExactlyTheTable w).mp ⟨i, hd⟩
    exact absurd hw (h r hr)

theorem takeCommand_of_decode_error {run : Instr → State → Host.Outcome State Fault Refusal} {w : CmdWord} {s : State}
    {e : DecodeError} (hf : s.global.fault = false) (hd : decode w = .error e) :
    takeCommand run w s = .next { s with global := faulted (wordOpcode w) .illegalCommand } := by
  simp [takeCommand, hf, hd, raiseFault_of_clear]

/-! ## A unit index out of range -/

theorem hasSink_eq_sinkInRange (s : State) (sink : Option Byte) : hasSink s sink = sinkInRange s.counts sink := by
  cases sink <;> rfl

/-- Every command checks its unit indices before anything else, under its own opcode. -/
theorem execWith_eq_whenInRange (c : Config) (i : Instr) (s : State) :
    ∃ t, execWith c i s = whenInRange i.opcode (i.unitsInRange s.counts) s t := by
  cases i with
  | chipOutput | chipOscout =>
    simp only [execWith, cmdChipOutput, cmdChipOscout, hasSink_eq_sinkInRange]
    exact ⟨_, rfl⟩
  | _ => exact ⟨_, rfl⟩

/-! ## The statements -/

/-- Settles O6: a word the table does not hold does not decode, and is refused with its `op` field. -/
theorem illegalWordFaults : Obligations.IllegalWordFaults := by
  intro s w rest hf hin hrow
  obtain ⟨e, hd⟩ := decode_eq_error_of_no_row hrow
  rw [step_of_command hin]
  exact takeCommand_of_decode_error hf hd

/-- Settles O15: the check of the unit indices comes first in every command. -/
theorem unitIndexFaults : Obligations.UnitIndexFaults := by
  intro i s hf hrange
  obtain ⟨t, ht⟩ := execWith_eq_whenInRange Config.impl i s
  rw [exec_eq_next_execWith, ht, hrange, whenInRange_false, raiseFault_of_clear _ _ _ hf]
  rfl

end Sys2Proof.Machine
end

section
/-! PROOF. Responses (30_encoding.md R126): a command with a response sends one word where it completes, every other
command and every fault none. -/

namespace Sys2Proof.Machine

variable {c : Config} {s t : State}

/-! ## Changes of the state -/

theorem rsp_whenInRange {op : Byte} {b : Bool} (h : t.rsp = s.rsp) : (whenInRange op b s t).rsp = s.rsp := by
  cases b with
  | true => exact h
  | false => exact raiseFault_rsp _ _ s

theorem rsp_settle {op : Byte} {r : Attempt} (h : ∀ t, r = .ok t → t.rsp = s.rsp) : (settle op s r).rsp = s.rsp := by
  cases r with
  | ok t => exact h t rfl
  | error x => exact raiseFault_rsp _ _ s

theorem rsp_settleImprecise {op : Byte} {w : State} {r : Attempt} (hw : w.rsp = s.rsp)
    (h : ∀ t, r = .ok t → t.rsp = s.rsp) : (settleImprecise op w r).rsp = s.rsp := by
  cases r with
  | ok t => exact h t rfl
  | error x => exact (raiseFault_rsp _ _ w).trans hw

theorem rsp_foldl {α : Type} (f : State → α → State) (l : List α) (h : ∀ s a, (f s a).rsp = s.rsp) :
    (l.foldl f s).rsp = s.rsp :=
  foldl_keeps (fun t => t.rsp = s.rsp) f l s rfl fun t a _ ht => (h t a).trans ht

theorem SlotFrame.rsp {o : Nat} (h : SlotFrame c o s t) : t.rsp = s.rsp := by rw [h.rest]

theorem ChipFrame.rsp {ci : Nat} (h : ChipFrame c ci s t) : t.rsp = s.rsp := by rw [h.rest]

/-! ## Commands without a response -/

theorem rsp_bufEndframe {b : Nat} {time : Word32} (h : bufEndframe c b time s = .ok t) : t.rsp = s.rsp := by
  obtain rfl | ⟨-, -, -, -, -, rfl⟩ := bufEndframe_ok h <;> rfl

theorem rsp_bufMix {b : Nat} {count : Word32} (h : bufMix c b count s = .ok t) : t.rsp = s.rsp := by
  obtain rfl | ⟨-, -, -, rfl⟩ | ⟨-, -, -, -, rfl⟩ := bufMix_ok h <;> rfl

theorem rsp_bufRmsil {b : Nat} {count : Word32} (h : bufRmsil c b count s = .ok t) : t.rsp = s.rsp := by
  obtain rfl | ⟨-, -, -, -, rfl⟩ := bufRmsil_ok h <;> rfl

theorem rsp_synOffset {y b time : Nat} {d : Int} (h : synOffset c y b time d s = .ok t) : t.rsp = s.rsp := by
  obtain ⟨-, -, -, -, ⟨-, rfl⟩ | ⟨-, -, rfl⟩⟩ := synOffset_ok h <;> rfl

theorem rsp_oscReset (c : Config) (o : Nat) (s : State) : (oscReset c o s).rsp = s.rsp := by
  rw [oscReset_eq]

/-- OSC.RUN sends nothing, also where it faults in the middle. -/
theorem rsp_runCommand (c : Config) (o a e : Nat) (s : State) : (runCommand c o a e s).rsp = s.rsp := by
  unfold runCommand
  split
  · exact raiseFault_rsp _ _ s
  · split
    · exact raiseFault_rsp _ _ s
    · next u hu =>
      exact rsp_settleImprecise (by rw [wreckSlot_frame]) fun t ht =>
        ((SlotFrame.emit hu).trans (.runTransitions ht)).rsp

theorem rsp_chipReset (c : Config) (ci : Nat) (variant : Bool) (s : State) : (chipReset c ci variant s).rsp = s.rsp :=
  rsp_foldl (s := s.modChip ci fun _ => resetChip c ci variant) _ _ fun _ oi => rsp_oscReset c oi.1 _

theorem rsp_chipOscout {ci index : Nat} {sink : Option Nat} (h : chipOscout c ci sink index s = .ok t) :
    t.rsp = s.rsp := by
  unfold chipOscout at h
  split at h
  · cases h
  · cases h; rfl

/-- A timed command sends nothing, also where it faults in the middle, if its body does not. -/
theorem rsp_timedCommand {op : Byte} {ci e : Nat} {body : State → Attempt}
    (hbody : ∀ C t, s.chips[ci]? = some C → C.lastTime ≤ e → body s = .ok t → t.rsp = s.rsp) :
    (timedCommand c op ci e body s).rsp = s.rsp := by
  unfold timedCommand
  split
  · rfl
  · next C hC =>
    split
    · exact raiseFault_rsp _ _ s
    · next hle =>
      exact rsp_settleImprecise (by rw [wreckChip_frame]) fun t => hbody C t hC (Nat.le_of_not_lt hle)

theorem rsp_advanceAndWrite {ci e addr : Nat} {data : Byte} {C : Chip} (hC : s.chips[ci]? = some C)
    (hle : C.lastTime ≤ e) (h : advanceAndWrite c ci e addr data s = .ok t) : t.rsp = s.rsp := by
  unfold advanceAndWrite at h
  split at h
  · cases h
  · next u hu =>
    obtain ⟨hadvance, D, hD, -⟩ := advanceChip_ok hC hle hu
    exact (hadvance.trans (registerWrite_ok hD h).1).rsp

theorem rsp_advanceAndRebase {ci e : Nat} {C : Chip} (hC : s.chips[ci]? = some C) (hle : C.lastTime ≤ e)
    (h : advanceAndRebase c ci e s = .ok t) : t.rsp = s.rsp := by
  unfold advanceAndRebase at h
  split at h
  · cases h
  · next u hu =>
    refine Eq.trans ?_ (advanceChip_ok hC hle hu).1.rsp
    obtain rfl | rfl := rebaseChip_ok h <;> rfl

/-- A command without a response sends no word, whether it completes or faults. -/
theorem rsp_execWith_of_no_response {i : Instr} (hi : hasResponse i = false) : (execWith c i s).rsp = s.rsp := by
  cases i with
  | bufSetrate | bufRead | bufAvail | bufGetsr | bufGetcr | voiceTick | chipRead => cases hi
  | bufClear | synVolume | synTreble | oscClkenv | oscClklen | oscClkswp | oscClklin | voiceKeyon | voiceKeyoff =>
    exact rsp_whenInRange rfl
  | bufEndframe => exact rsp_whenInRange (rsp_settle fun _ => rsp_bufEndframe)
  | bufMix => exact rsp_whenInRange (rsp_settle fun _ => rsp_bufMix)
  | bufRmsil => exact rsp_whenInRange (rsp_settle fun _ => rsp_bufRmsil)
  | synOffset => exact rsp_whenInRange (rsp_settle fun _ => rsp_synOffset)
  | oscReset => exact rsp_whenInRange (rsp_oscReset _ _ _)
  | oscWrite => exact rsp_whenInRange (rsp_settle fun _ h => (SlotFrame.oscWrite h).rsp)
  | oscRun => exact rsp_whenInRange (rsp_runCommand _ _ _ _ _)
  | chipReset => exact rsp_whenInRange (rsp_chipReset _ _ _ _)
  | chipOutput | chipVolume | chipTreble | chipBufclr => exact rsp_whenInRange (rsp_foldl _ _ fun _ _ => rfl)
  | chipOscout => exact rsp_whenInRange (rsp_settle fun _ => rsp_chipOscout)
  | chipWrite => exact rsp_whenInRange (rsp_timedCommand fun _ _ => rsp_advanceAndWrite)
  | chipRununtil => exact rsp_whenInRange (rsp_timedCommand fun _ _ hC hle h => (advanceChip_ok hC hle h).1.rsp)
  | chipEndframe => exact rsp_whenInRange (rsp_timedCommand fun _ _ => rsp_advanceAndRebase)

/-! ## Commands with a response -/

/-- One word is sent, and GLOBAL stays. -/
def SendsOne (s t : State) : Prop := t.global = s.global ∧ ∃ v, t.rsp = s.rsp ++ [v]

/-- A command ends by sending one word, or by a fault that changes nothing else. -/
def SendsOneOrFaults (s t : State) : Prop := SendsOne s t ∨ ∃ op x, t = raiseFault op x s

theorem SendsOne.respond (s : State) (v : Word32) : SendsOne s (s.respond v) := ⟨rfl, v, rfl⟩

theorem SendsOneOrFaults.whenInRange {op : Byte} {b : Bool} (h : b = true → SendsOneOrFaults s t) :
    SendsOneOrFaults s (whenInRange op b s t) := by
  cases b with
  | true => exact h rfl
  | false => exact .inr ⟨op, _, rfl⟩

theorem SendsOneOrFaults.settle {op : Byte} {r : Attempt} (h : ∀ t, r = .ok t → SendsOne s t) :
    SendsOneOrFaults s (settle op s r) := by
  cases r with
  | ok t => exact .inl (h t rfl)
  | error x => exact .inr ⟨op, x, rfl⟩

theorem SendsOne.bufSetrate {b : Nat} {rate clk : Word32} (h : bufSetrate c b rate clk s = .ok t) : SendsOne s t := by
  rcases bufSetrate_cases c b rate clk s with e | e | e <;> rw [e] at h <;> cases h <;> exact ⟨rfl, _, rfl⟩

theorem SendsOne.bufRead {b : Nat} (hb : b < s.bufs.length) (stereo : Bool) (max : Word32) :
    SendsOne s (bufRead c b stereo max s) := by
  simp only [Machine.bufRead, List.getElem?_eq_getElem hb]
  split <;> exact ⟨rfl, _, rfl⟩

theorem SendsOne.bufAnswer {b : Nat} (hb : b < s.bufs.length) (f : Buf → Word32) : SendsOne s (bufAnswer b f s) := by
  simp only [Machine.bufAnswer, List.getElem?_eq_getElem hb]
  exact .respond s _

theorem SendsOne.chipRead {ci addr : Nat} (hci : ci < s.chips.length) (h : chipRead c ci addr s = .ok t) :
    SendsOne s t := by
  simp only [Machine.chipRead, List.getElem?_eq_getElem hci] at h
  split at h
  · cases h; exact .respond s _
  · cases h

/-- A command with a response sends one word or faults. -/
theorem sendsOneOrFaults_execWith {i : Instr} (hi : hasResponse i = true) : SendsOneOrFaults s (execWith c i s) := by
  cases i with
  | bufSetrate => exact .whenInRange fun _ => .settle fun _ => .bufSetrate
  | bufRead => exact .whenInRange fun hb => .inl (.bufRead (of_decide_eq_true hb) _ _)
  | bufAvail | bufGetsr | bufGetcr => exact .whenInRange fun hb => .inl (.bufAnswer (of_decide_eq_true hb) _)
  | voiceTick => exact .whenInRange fun _ => .inl ⟨rfl, _, rfl⟩
  | chipRead => exact .whenInRange fun hci => .settle fun _ => .chipRead (of_decide_eq_true hci)
  | _ => cases hi

/-! ## The statement -/

/-- Settles O17: a command with a response sends one word or faults, any other leaves RSP. -/
theorem oneResponseWord : Obligations.OneResponseWord := by
  intro i s t hf h
  rw [exec_eq_next_execWith] at h
  cases h
  cases hi : hasResponse i with
  | false => exact ⟨fun h => (Bool.false_ne_true h.1).elim, fun _ => rsp_execWith_of_no_response hi⟩
  | true =>
    obtain ⟨hglobal, hsent⟩ | ⟨op, x, hfault⟩ := sendsOneOrFaults_execWith (c := Config.impl) (s := s) hi
    · rw [hglobal, hf]
      exact ⟨fun _ => hsent, by simp⟩
    · rw [hfault]
      exact ⟨by simp, fun _ => raiseFault_rsp op x s⟩

end Sys2Proof.Machine
end

section
/-! PROOF. The BUF commands on a Buffer that is there (40_buffer_ops.md R160 to R171): what each answers, case by case of
its rule, for every choice of the parameters. -/

namespace Sys2Proof.Machine

variable {c : Config} {s : State} {b : Byte} {B : Buf}

/-! ## The command on its unit (30_encoding.md R125) -/

/-- What the command does at `Config.impl` is what the engine at hand does. -/
theorem exec_eq_next {i : Instr} {t : State} (h : execWith Config.impl i s = t) : exec i s = .next t := by
  rw [exec_eq_next_execWith, h]

theorem hasBuf_eq_true (hB : s.bufs[b.toNat]? = some B) : hasBuf s b = true := by
  simpa [hasBuf] using (List.getElem?_eq_some_iff.mp hB).1

theorem State.modBuf_eq_set {k : Nat} (hB : s.bufs[k]? = some B) (f : Buf → Buf) :
    s.modBuf k f = { s with bufs := s.bufs.set k (f B) } := by
  rw [State.modBuf, modify_eq_set _ _ _ B hB]

/-- A Buffer changed is there as it was changed to. -/
theorem getElem?_set_buf {k : Nat} (hB : s.bufs[k]? = some B) (B' : Buf) : (s.bufs.set k B')[k]? = some B' :=
  List.getElem?_set_self (List.getElem?_eq_some_iff.mp hB).1

/-! ## Words whose `v` and `b`, or `v`, `a` and `b`, are zero (30_encoding.md R121) -/

theorem toNat_zero_append_zero_append {n : Nat} (x : BitVec n) :
    (0#8 ++ (0#8 ++ x)).toNat = (0#16 ++ x).toNat := by
  simp [BitVec.toNat_append]

theorem joinWord_zero_vzb (op u : Byte) (a : Word32) :
    joinWord ⟨op, u, 0, 0, a, 0⟩ = op ++ (u ++ (0#16 ++ (a ++ 0#32))) := by
  have hvz : (0#8 ++ (0#8 ++ (a ++ 0#32)) : BitVec 80) = 0#16 ++ (a ++ 0#32) :=
    BitVec.eq_of_toNat_eq (toNat_zero_append_zero_append (a ++ 0#32))
  exact congrArg (fun x : BitVec 80 => op ++ (u ++ x)) hvz

theorem joinWord_zero_vzab (op u : Byte) : joinWord ⟨op, u, 0, 0, 0, 0⟩ = op ++ (u ++ 0#80) := by
  have hzero : (0#8 ++ (0#8 ++ (0#32 ++ 0#32)) : BitVec 80) = 0#80 := by decide
  exact congrArg (fun x : BitVec 80 => op ++ (u ++ x)) hzero

/-! ## BUF.SETRATE (R160, R161) -/

/-- Whole cycles cancel: the factor is `2^ACC` divided by the cycles per sample, rounded down. -/
theorem rateSetting_factor {rate : Nat} (hrate : 0 < rate) (clk : Nat) :
    (rateSetting c rate clk).factor = 2 ^ accBits c / (clk / rate) := by
  rw [rateSetting, Nat.mul_comm (clk / rate) rate, Nat.mul_div_mul_left _ _ hrate]

/-- The factor of an admissible pair is zero where there are more than `2^ACC` cycles per sample. -/
theorem rateSetting_factor_eq_zero_iff {rate clk : Nat} (hrate : 0 < rate) (hle : rate ≤ clk) :
    (rateSetting c rate clk).factor = 0 ↔ 2 ^ accBits c < clk / rate := by
  have hcps : clk / rate ≠ 0 := by simp [Nat.div_eq_zero_iff]; omega
  rw [rateSetting_factor hrate, Nat.div_eq_zero_iff]
  omega

theorem bufSetrate_of_valid {k : Nat} {rate clk : Word32} (hrate : 0 < rate.toNat) (hle : rate.toNat ≤ clk.toNat)
    (hcps : clk.toNat / rate.toNat ≤ 2 ^ accBits c) :
    bufSetrate c k rate clk s =
      if c.allocOk s.draws then
        .ok (((s.modBuf k (ratedBuf c rate (rateSetting c rate.toNat clk.toNat))).takeDraws 1).respond 0)
      else .ok (((s.modBuf k fun B => { B with bufferSize := 0 }).takeDraws 1).respond 1) := by
  have hfactor : (rateSetting c rate.toNat clk.toNat).factor ≠ 0 := by
    rw [Ne, rateSetting_factor_eq_zero_iff hrate hle]; omega
  simp only [bufSetrate]
  rw [if_neg (by omega), if_neg hfactor]

theorem bufSetrate_of_invalid {k : Nat} {rate clk : Word32}
    (h : rate.toNat = 0 ∨ clk.toNat = 0 ∨ clk.toNat < rate.toNat ∨ 2 ^ accBits c < clk.toNat / rate.toNat) :
    bufSetrate c k rate clk s = .error .invalidRate := by
  by_cases hpair : rate.toNat = 0 ∨ clk.toNat = 0 ∨ clk.toNat < rate.toNat
  · simp only [bufSetrate, if_pos hpair]
  · have hfactor : (rateSetting c rate.toNat clk.toNat).factor = 0 :=
      (rateSetting_factor_eq_zero_iff (by omega) (by omega)).mpr (by omega)
    simp only [bufSetrate, if_neg hpair, if_pos hfactor]

theorem execWith_bufSetrate (hb : b.toNat < s.bufs.length) (rate clk : Word32) :
    execWith c (.bufSetrate b rate clk) s = settle 0x10 s (bufSetrate c b.toNat rate clk s) := by
  simp [execWith, cmdBufSetrate, hasBuf, hb]

/-- The response of BUF.SETRATE tells which Buffer it leaves: a rated one, or one without an allocation. -/
theorem execWith_bufSetrate_response {rate clk r : Word32} (hrsp :
    (execWith c (.bufSetrate b rate clk) s).rsp = s.rsp ++ [r]) :
    (r = 0 ∧ (execWith c (.bufSetrate b rate clk) s).bufs =
      s.bufs.modify b.toNat (ratedBuf c rate (rateSetting c rate.toNat clk.toNat))) ∨
    (r = 1 ∧ (execWith c (.bufSetrate b rate clk) s).bufs =
      s.bufs.modify b.toNat fun B => { B with bufferSize := 0 }) := by
  by_cases hb : b.toNat < s.bufs.length
  · rw [execWith_bufSetrate hb] at hrsp ⊢
    obtain h | h | h := bufSetrate_cases c b.toNat rate clk s <;> rw [h] at hrsp ⊢
    · simp at hrsp
    · exact .inl ⟨by simpa using hrsp.symm, rfl⟩
    · exact .inr ⟨by simpa using hrsp.symm, rfl⟩
  · simp [execWith, cmdBufSetrate, hasBuf, hb] at hrsp

/-! ## BUF.CLEAR and BUF.ENDFRAME (R162, R163) -/

theorem execWith_bufClear (hb : b.toNat < s.bufs.length) :
    execWith c (.bufClear b) s = s.modBuf b.toNat (clearedBuf c) := by
  simp [execWith, cmdBufClear, hasBuf, hb, bufClear]

theorem execWith_bufEndframe_of_unallocated (hB : s.bufs[b.toNat]? = some B) (hsize : B.bufferSize = 0)
    (time : Word32) : execWith c (.bufEndframe b time) s = s := by
  simp [execWith, cmdBufEndframe, hasBuf_eq_true hB, bufEndframe, hB, hsize]

theorem execWith_bufEndframe_of_fits (hB : s.bufs[b.toNat]? = some B) (hsize : B.bufferSize ≠ 0) {time : Word32}
    (hfits : shrN (resampledTime B time.toNat) (accBits c) ≤ B.bufferSize)
    (hword : resampledTime B time.toNat < 2 ^ 32) :
    execWith c (.bufEndframe b time) s =
      { s with bufs := s.bufs.set b.toNat { B with offset := BitVec.ofNat 32 (resampledTime B time.toNat) } } := by
  have hpass : ¬ (B.bufferSize < shrN (resampledTime B time.toNat) (accBits c) ∨
    2 ^ 32 ≤ resampledTime B time.toNat) := by omega
  simp only [execWith, cmdBufEndframe, hasBuf_eq_true hB, whenInRange_true, bufEndframe, hB, if_neg hsize, if_neg hpass,
    settle_ok, State.modBuf_eq_set hB]

theorem execWith_bufEndframe_of_overrun (hB : s.bufs[b.toNat]? = some B) (hsize : B.bufferSize ≠ 0) {time : Word32}
    (hover : B.bufferSize < shrN (resampledTime B time.toNat) (accBits c) ∨
      2 ^ 32 ≤ resampledTime B time.toNat) :
    execWith c (.bufEndframe b time) s = raiseFault 0x12 .bufferOverrun s := by
  simp only [execWith, cmdBufEndframe, hasBuf_eq_true hB, whenInRange_true, bufEndframe, hB, if_neg hsize, if_pos hover,
    settle_error]

/-- An allocated Buffer's frame either ends with its cursor at the exact sum, or faults. -/
theorem execWith_bufEndframe_of_no_fault (hB : s.bufs[b.toNat]? = some B) (hsize : B.bufferSize ≠ 0) {time : Word32}
    (hfault : (execWith c (.bufEndframe b time) s).global.fault = false) :
    resampledTime B time.toNat < 2 ^ 32 ∧ execWith c (.bufEndframe b time) s =
      { s with bufs := s.bufs.set b.toNat { B with offset := BitVec.ofNat 32 (resampledTime B time.toNat) } } := by
  by_cases hover : B.bufferSize < shrN (resampledTime B time.toNat) (accBits c) ∨ 2 ^ 32 ≤ resampledTime B time.toNat
  · simp [execWith_bufEndframe_of_overrun hB hsize hover] at hfault
  · exact ⟨by omega, execWith_bufEndframe_of_fits hB hsize (by omega) (by omega)⟩

/-! ## The reads of a Buffer (R165, R168 to R170) -/

theorem execWith_bufRead_of_unallocated (hB : s.bufs[b.toNat]? = some B) (hsize : B.bufferSize = 0) (stereo : Bool)
    (max : Word32) : execWith c (.bufRead b stereo max) s = s.respond 0 := by
  simp [execWith, cmdBufRead, hasBuf_eq_true hB, bufRead, hB, hsize]

/-- What the loop of BUF.READ leaves in the Buffer and emits. -/
def readResult (c : Config) (B : Buf) (stereo : Bool) (n : Nat) : Buf × List (Nat × Sample) :=
  readLoop c B.rd (slotStride stereo) n 0 B

theorem execWith_bufRead (hB : s.bufs[b.toNat]? = some B) (hsize : B.bufferSize ≠ 0) (stereo : Bool) (max : Word32) :
    execWith c (.bufRead b stereo max) s = { s with
      bufs := s.bufs.set b.toNat
        (dropSamples c (readCount c max B) (readResult c B stereo (readCount c max B)).1)
      dout := s.dout ++ (readResult c B stereo (readCount c max B)).2
      rsp := s.rsp ++ [BitVec.ofNat 32 (readCount c max B)] } := by
  simp only [execWith, cmdBufRead, hasBuf_eq_true hB, whenInRange_true, bufRead, hB, if_neg hsize,
    State.modBuf_eq_set hB]
  rfl

theorem execWith_bufAvail (hB : s.bufs[b.toNat]? = some B) :
    execWith c (.bufAvail b) s = s.respond (availResponse c B) := by
  simp [execWith, cmdBufAvail, hasBuf_eq_true hB, bufAnswer, hB]

theorem execWith_bufGetsr (hB : s.bufs[b.toNat]? = some B) :
    execWith c (.bufGetsr b) s = s.respond B.sampleRate := by
  simp [execWith, cmdBufGetsr, hasBuf_eq_true hB, bufAnswer, hB]

theorem execWith_bufGetcr (hB : s.bufs[b.toNat]? = some B) :
    execWith c (.bufGetcr b) s = s.respond B.clockRate := by
  simp [execWith, cmdBufGetcr, hasBuf_eq_true hB, bufAnswer, hB]

theorem availResponse_eq (c : Config) (B : Buf) :
    availResponse c B = if B.bufferSize > 0 then B.offset >>> accBits c else 0 := by
  have hshift : BitVec.ofNat 32 (samplesAvail c B) = B.offset >>> accBits c := by
    apply BitVec.eq_of_toNat_eq
    have hle : B.offset.toNat / 2 ^ accBits c < 2 ^ 32 := Nat.lt_of_le_of_lt (Nat.div_le_self _ _) B.offset.isLt
    rw [BitVec.toNat_ofNat, BitVec.toNat_ushiftRight, Nat.shiftRight_eq_div_pow, samplesAvail, shrN,
      Nat.mod_eq_of_lt hle]
  unfold availResponse
  split
  · rw [if_neg (by omega)]
  · rw [if_pos (by omega), hshift]

/-! ## BUF.MIX and BUF.RMSIL (R166, R167) -/

theorem execWith_bufMix_of_unallocated (hB : s.bufs[b.toNat]? = some B) (hsize : B.bufferSize = 0) (count : Word32) :
    execWith c (.bufMix b count) s = s.consumeDin count.toNat := by
  simp [execWith, cmdBufMix, hasBuf_eq_true hB, bufMix, hB, hsize]

theorem execWith_bufMix_of_outside (hB : s.bufs[b.toNat]? = some B) (hsize : B.bufferSize ≠ 0) {count : Word32}
    (hout : ringN c < samplesAvail c B + c.mixLead + count.toNat + 1) :
    execWith c (.bufMix b count) s = raiseFault 0x14 .offsetOutOfRange s := by
  simp only [execWith, cmdBufMix, hasBuf_eq_true hB, whenInRange_true, bufMix, hB, if_neg hsize, if_pos hout,
    settle_error]

theorem execWith_bufMix_of_inside (hB : s.bufs[b.toNat]? = some B) (hsize : B.bufferSize ≠ 0) {count : Word32}
    (hin : samplesAvail c B + c.mixLead + count.toNat + 1 ≤ ringN c) (hdin : count.toNat ≤ s.din.length) :
    execWith c (.bufMix b count) s = { s with
      bufs := s.bufs.set b.toNat { B with
        cells := mixCells c (B.rd + (samplesAvail c B + c.mixLead)) 0
          (scaledSamples c (dinSamples c s count.toNat)) B.cells }
      din := s.din.drop count.toNat } := by
  simp only [execWith, cmdBufMix, hasBuf_eq_true hB, whenInRange_true, bufMix, hB, if_neg hsize,
    if_neg (Nat.not_lt.mpr hin), if_neg (Nat.not_lt.mpr hdin), settle_ok, State.modBuf_eq_set hB]
  rfl

theorem execWith_bufRmsil_of_unallocated (hB : s.bufs[b.toNat]? = some B) (hsize : B.bufferSize = 0) (count : Word32) :
    execWith c (.bufRmsil b count) s = s := by
  simp [execWith, cmdBufRmsil, hasBuf_eq_true hB, bufRmsil, hB, hsize]

theorem execWith_bufRmsil_of_avail (hB : s.bufs[b.toNat]? = some B) (hsize : B.bufferSize ≠ 0) {count : Word32}
    (havail : count.toNat ≤ samplesAvail c B) :
    execWith c (.bufRmsil b count) s = { s with
      bufs := s.bufs.set b.toNat
        (dropSamples c count.toNat { B with cells := zeroCells c B.rd count.toNat B.cells }) } := by
  simp only [execWith, cmdBufRmsil, hasBuf_eq_true hB, whenInRange_true, bufRmsil, hB, if_neg hsize,
    if_neg (Nat.not_lt.mpr havail), settle_ok, State.modBuf_eq_set hB]

theorem execWith_bufRmsil_of_exceeds (hB : s.bufs[b.toNat]? = some B) (hsize : B.bufferSize ≠ 0) {count : Word32}
    (hexceeds : samplesAvail c B < count.toNat) :
    execWith c (.bufRmsil b count) s = raiseFault 0x15 .countExceedsAvail s := by
  simp only [execWith, cmdBufRmsil, hasBuf_eq_true hB, whenInRange_true, bufRmsil, hB, if_neg hsize, if_pos hexceeds,
    settle_error]

/-! ## SYN.OFFSET into an unallocated Buffer (R171) -/

theorem execWith_synOffset_of_unallocated (hB : s.bufs[b.toNat]? = some B) (hsize : B.bufferSize = 0) {y : Byte}
    (hy : y.toNat < s.syns.length) (hnull : b ≠ 0xFF) (time delta : Word32) :
    execWith c (.synOffset y b time delta) s = s := by
  have hS := List.getElem?_eq_getElem hy
  have hunits : (hasSyn s y && hasSinkBuf s b) = true := by
    simpa [hasSyn, hasSinkBuf, hasBuf_eq_true hB, hy] using hnull
  simp only [execWith, cmdSynOffset, hunits, whenInRange_true, synOffset, hB, hS, if_pos hsize, settle_ok]

/-! ## The statements on rates, the cursor and the unallocated Buffer -/

/-- Settles O20: the factor of a pair is zero exactly where there are too many cycles per sample. -/
theorem setrateRule : Obligations.SetrateRule := by
  intro b rate clk s hb
  constructor
  · intro hrate hle hcps
    apply exec_eq_next
    rw [execWith_bufSetrate hb, bufSetrate_of_valid hrate hle hcps, ← rateSetting_factor hrate]
    split <;> rfl
  · intro hfault hinvalid
    apply exec_eq_next
    rw [execWith_bufSetrate hb, bufSetrate_of_invalid hinvalid, settle_error, raiseFault_of_clear _ _ _ hfault]
    rfl

/-- Settles O21: the command is the clearing of one Buffer. -/
theorem clearRule : Obligations.ClearRule := by
  intro b s
  refine ⟨?_, fun hb => exec_eq_next (execWith_bufClear hb)⟩
  rw [← joinWord_zero_vzab]
  exact decodeOfEncode (.bufClear b) rfl

/-- Settles O22: a sum that passes the check fits the cursor, since a Buffer holds at most BUFFER_SIZE samples. -/
theorem endframeRule : Obligations.EndframeRule := by
  intro b time s B hB hcap
  have hsum : resampledTime B time.toNat = B.offset.toNat + time.toNat * B.factor.toNat := Nat.add_comm _ _
  rw [← joinWord_zero_vzb, ← hsum]
  refine ⟨decodeOfEncode (.bufEndframe b time) rfl,
    fun hsize => exec_eq_next (execWith_bufEndframe_of_unallocated hB hsize time), fun hsize hfits => ?_,
    fun hfault hsize hover => ?_⟩
  · have hword : resampledTime B time.toNat < 2 ^ 32 :=
      cursor_fits Config.impl _ (Nat.le_trans hfits (Nat.le_of_eq (hcap.resolve_left hsize)))
    have hend := execWith_bufEndframe_of_fits hB hsize hfits hword
    refine ⟨_, by rw [BitVec.toNat_ofNat, Nat.mod_eq_of_lt hword], exec_eq_next hend, ?_⟩
    rintro rfl
    refine exec_eq_next (hend.trans ?_)
    have hsame : BitVec.ofNat 32 (resampledTime B (0 : Word32).toNat) = B.offset := by simp [resampledTime]
    rw [hsame, set_self _ _ B hB]
  · apply exec_eq_next
    rw [execWith_bufEndframe_of_overrun hB hsize (.inl hover), raiseFault_of_clear _ _ _ hfault]
    rfl

/-- Settles O27: the whole samples of the cursor are its bits above the fraction. -/
theorem availRule : Obligations.AvailRule := by
  intro b s B hB
  constructor
  · rw [← joinWord_zero_vzab]
    exact decodeOfEncode (.bufAvail b) rfl
  · apply exec_eq_next
    rw [execWith_bufAvail hB, availResponse_eq]
    rfl

/-- Settles O28: BUF.SETRATE answers 0 only where it leaves a rated Buffer. -/
theorem rateReadsRule : Obligations.RateReadsRule := by
  refine ⟨fun b s B hB => ?_, fun c => ⟨fun b rate clk s t hb ht hrsp => ?_, fun B hB => ?_⟩⟩
  · refine ⟨?_, ?_, exec_eq_next (execWith_bufGetsr hB), exec_eq_next (execWith_bufGetcr hB)⟩
    · rw [← joinWord_zero_vzab]
      exact decodeOfEncode (.bufGetsr b) rfl
    · rw [← joinWord_zero_vzab]
      exact decodeOfEncode (.bufGetcr b) rfl
  · subst ht
    obtain ⟨-, hbufs⟩ | ⟨hone, -⟩ := execWith_bufSetrate_response hrsp
    · have hrated : (execWith c (.bufSetrate b rate clk) s).bufs[b.toNat]? =
          some (ratedBuf c rate (rateSetting c rate.toNat clk.toNat) s.bufs[b.toNat]) := by
        simp [hbufs, hb]
      exact ⟨execWith_bufGetsr hrated, execWith_bufGetcr hrated⟩
    · exact absurd hone (by decide)
  · obtain rfl : B = resetBuf c := List.eq_of_mem_replicate hB
    exact ⟨rfl, rfl⟩

/-- Settles O29: every command looks at the capacity first, and only a failed BUF.SETRATE answers 1. -/
theorem unallocatedBufferIsInert : Obligations.UnallocatedBufferIsInert := by
  refine ⟨fun b s B hB hsize => ⟨?_, ?_, ?_, ?_, ?_, ?_⟩, fun c => ⟨fun B hB => ?_, ?_⟩⟩
  · exact fun time => exec_eq_next (execWith_bufEndframe_of_unallocated hB hsize time)
  · exact fun count => exec_eq_next (execWith_bufMix_of_unallocated hB hsize count)
  · exact fun count => exec_eq_next (execWith_bufRmsil_of_unallocated hB hsize count)
  · exact fun y time delta hy hnull => exec_eq_next (execWith_synOffset_of_unallocated hB hsize hy hnull time delta)
  · exact fun stereo max => exec_eq_next (execWith_bufRead_of_unallocated hB hsize stereo max)
  · apply exec_eq_next
    rw [execWith_bufAvail hB, availResponse, if_pos hsize]
    rfl
  · obtain rfl : B = resetBuf c := List.eq_of_mem_replicate hB
    rfl
  · rintro b rate clk s t B rfl hrsp hB
    obtain ⟨hzero, -⟩ | ⟨-, hbufs⟩ := execWith_bufSetrate_response hrsp
    · exact absurd hzero (by decide)
    · rw [hbufs, List.getElem?_modify_eq] at hB
      obtain ⟨A, -, rfl⟩ := Option.map_eq_some_iff.mp hB
      rfl

end Sys2Proof.Machine
end

section
/-! PROOF. Reading and dropping samples (40_buffer_ops.md R164, R165, R167): what the loops of BUF.READ and BUF.RMSIL
leave, sample by sample, and that a read can be split. -/

namespace Sys2Proof.Machine

variable {c : Config} {s : State} {b : Byte} {B : Buf}

/-! ## The cells after a read -/

theorem cellsAfterRead_zero (c : Config) (B : Buf) : cellsAfterRead c B 0 = B.cells := by
  simp only [cellsAfterRead, List.range_zero, List.any_nil, Bool.false_eq_true, if_false]
  exact List.ext_getElem? fun j => by simp

/-- One sample more zeroes one cell more. -/
theorem cellsAfterRead_succ (c : Config) (B : Buf) (n : Nat) :
    cellsAfterRead c B (n + 1) = (cellsAfterRead c B n).set (cellIndex c B n) 0 := by
  refine List.ext_getElem? fun j => ?_
  simp only [cellsAfterRead, List.getElem?_set, List.getElem?_mapIdx, List.length_mapIdx, List.range_succ,
    List.any_append, List.any_cons, List.any_nil, Bool.or_false]
  by_cases hj : cellIndex c B n = j
  · by_cases hlt : j < B.cells.length <;> simp [hj, hlt]
  · simp [hj]

/-- Within one turn of the ring, the cell of a sample not yet read is as it was. -/
theorem cellsAfterRead_unread {n : Nat} (hn : n < ringN c) :
    (cellsAfterRead c B n)[cellIndex c B n]? = B.cells[cellIndex c B n]? := by
  have hother : ∀ i < n, cellIndex c B i ≠ cellIndex c B n := fun i hi he =>
    Nat.ne_of_lt hi (cellIndex_inj c B (Nat.lt_trans hi hn) hn he)
  have hany : ((List.range n).any fun i => cellIndex c B i == cellIndex c B n) = false := by
    simpa using hother
  simp only [cellsAfterRead, List.getElem?_mapIdx, hany, Bool.false_eq_true, if_false, Option.map_id']

/-- The loop of BUF.RMSIL zeroes the cells a read would. -/
theorem zeroCells_eq_cellsAfterRead (c : Config) (B : Buf) (n : Nat) :
    zeroCells c B.rd n B.cells = cellsAfterRead c B n := by
  induction n with
  | zero => exact (cellsAfterRead_zero c B).symm
  | succ n ih =>
    rw [cellsAfterRead_succ, ← ih, zeroCells, List.range_succ, List.foldl_append]
    rfl

/-! ## The loop of BUF.READ -/

/-- A Buffer with its first `n` samples taken through the reader, `rd` and the cursor not moved yet. -/
def readBuf (c : Config) (B : Buf) (n : Nat) : Buf :=
  { B with cells := cellsAfterRead c B n, readerAccum := accumBefore c B n }

/-- One reader step takes in the next sample. -/
theorem readerStep_readBuf {n : Nat} (hn : n < ringN c) :
    readerStep c (cellIndex c B n) (readBuf c B n) = (readBuf c B (n + 1), readSample c B n) := by
  simp only [readerStep, readBuf, cellsAfterRead_unread hn, cellsAfterRead_succ, accumBefore, readSample]

/-- `n` steps of the loop, from sample `i` on. -/
theorem readLoop_readBuf (stride n : Nat) : ∀ {i : Nat}, i + n ≤ ringN c →
    readLoop c B.rd stride n i (readBuf c B i) =
      (readBuf c B (i + n), (List.range' i n).map fun k => (k * stride, readSample c B k)) := by
  induction n with
  | zero => intro i _; rfl
  | succ n ih =>
    intro i hi
    have hstep : readerStep c ((B.rd + i) % ringN c) (readBuf c B i) = (readBuf c B (i + 1), readSample c B i) :=
      readerStep_readBuf (by omega)
    simp only [readLoop, hstep, ih (show i + 1 + n ≤ ringN c by omega), List.range'_succ, List.map_cons]
    rw [show i + 1 + n = i + (n + 1) by omega]

/-- What a read of at most one turn of the ring leaves and emits. -/
theorem readResult_eq {n : Nat} (hn : n ≤ ringN c) (stereo : Bool) :
    readResult c B stereo n =
      (readBuf c B n, (List.range n).map fun i => (i * slotStride stereo, readSample c B i)) := by
  have hstart : readBuf c B 0 = B := by simp only [readBuf, cellsAfterRead_zero, accumBefore]
  have hloop := readLoop_readBuf (c := c) (B := B) (slotStride stereo) n (i := 0) (by omega)
  rwa [hstart, Nat.zero_add, ← List.range_eq_range'] at hloop

/-! ## Splitting the loop -/

/-- The loop changes cells and accumulator alone. -/
theorem readLoop_frame (base stride n : Nat) : ∀ (i : Nat) (B : Buf), ∃ cells accum,
    (readLoop c base stride n i B).1 = { B with cells := cells, readerAccum := accum } := by
  induction n with
  | zero => exact fun i B => ⟨_, _, rfl⟩
  | succ n ih =>
    intro i B
    obtain ⟨cells, accum, h⟩ := ih (i + 1) (readerStep c ((base + i) % ringN c) B).1
    exact ⟨cells, accum, h⟩

/-- `m + n` steps are `m` steps and `n` steps after them. -/
theorem readLoop_add (base stride m n : Nat) : ∀ (i : Nat) (B : Buf),
    readLoop c base stride (m + n) i B =
      ((readLoop c base stride n (i + m) (readLoop c base stride m i B).1).1,
       (readLoop c base stride m i B).2 ++ (readLoop c base stride n (i + m) (readLoop c base stride m i B).1).2) := by
  induction m with
  | zero => intro i B; simp [readLoop]
  | succ m ih =>
    intro i B
    rw [show m + 1 + n = m + n + 1 by omega, show i + (m + 1) = i + 1 + m by omega]
    simp only [readLoop, ih, List.cons_append]

/-- Steps counted from a later cell go over the same cells, in other slots. -/
theorem readLoop_shift (base stride m n : Nat) : ∀ (i : Nat) (B : Buf),
    (readLoop c ((base + m) % ringN c) stride n i B).1 = (readLoop c base stride n (m + i) B).1 ∧
    (readLoop c ((base + m) % ringN c) stride n i B).2.map Prod.snd =
      (readLoop c base stride n (m + i) B).2.map Prod.snd := by
  induction n with
  | zero => exact fun i B => ⟨rfl, rfl⟩
  | succ n ih =>
    intro i B
    have hcell : ((base + m) % ringN c + i) % ringN c = (base + (m + i)) % ringN c := by
      rw [Nat.mod_add_mod, Nat.add_assoc]
    obtain ⟨hbuf, hsamples⟩ := ih (i + 1) (readerStep c ((base + (m + i)) % ringN c) B).1
    simp only [readLoop, hcell, List.map_cons]
    exact ⟨hbuf, congrArg _ hsamples⟩

/-- The loop does not look at `rd` or the cursor. -/
theorem readLoop_dropSamples (base stride k n : Nat) : ∀ (i : Nat) (B : Buf),
    readLoop c base stride n i (dropSamples c k B) =
      (dropSamples c k (readLoop c base stride n i B).1, (readLoop c base stride n i B).2) := by
  induction n with
  | zero => exact fun i B => rfl
  | succ n ih =>
    intro i B
    have hstep : ∀ x, readerStep c x (dropSamples c k B) =
        (dropSamples c k (readerStep c x B).1, (readerStep c x B).2) := fun x => rfl
    simp only [readLoop, hstep, ih]

/-- The cursor after a drop: the subtraction is exact. -/
theorem dropSamples_offset (c : Config) (n : Nat) (B : Buf) :
    (dropSamples c n B).offset.toNat = B.offset.toNat - n * 2 ^ accBits c := by
  have hlt : B.offset.toNat - n * 2 ^ accBits c < 2 ^ 32 := Nat.lt_of_le_of_lt (Nat.sub_le _ _) B.offset.isLt
  rw [dropSamples, BitVec.toNat_ofNat, Nat.mod_eq_of_lt hlt]

theorem dropSamples_dropSamples (c : Config) (m n : Nat) (B : Buf) :
    dropSamples c n (dropSamples c m B) = dropSamples c (m + n) B := by
  have hrd : ((B.rd + m) % ringN c + n) % ringN c = (B.rd + (m + n)) % ringN c := by
    rw [Nat.mod_add_mod, Nat.add_assoc]
  have hoffset : (dropSamples c m B).offset.toNat - n * 2 ^ accBits c = B.offset.toNat - (m + n) * 2 ^ accBits c := by
    rw [dropSamples_offset, Nat.sub_sub, Nat.add_mul]
  rw [dropSamples, hoffset]
  simp only [dropSamples, hrd]

theorem dropSamples_zero {B : Buf} (hrd : B.rd < ringN c) : dropSamples c 0 B = B := by
  simp [dropSamples, Nat.mod_eq_of_lt hrd]

theorem samplesAvail_dropSamples (c : Config) (n : Nat) (B : Buf) :
    samplesAvail c (dropSamples c n B) = samplesAvail c B - n := by
  rw [samplesAvail, dropSamples_offset, samplesAvail, shrN, shrN, Nat.mul_comm, Nat.sub_mul_div]

/-- What a read of `n` samples leaves in the Buffer. -/
def afterRead (c : Config) (stereo : Bool) (n : Nat) (B : Buf) : Buf := dropSamples c n (readResult c B stereo n).1

/-- A read moves the cursor and `rd` as a drop does, and keeps rates and capacity. -/
theorem afterRead_frame (c : Config) (stereo : Bool) (n : Nat) (B : Buf) : ∃ cells accum,
    afterRead c stereo n B = { dropSamples c n B with cells := cells, readerAccum := accum } := by
  obtain ⟨cells, accum, h⟩ := readLoop_frame (c := c) B.rd (slotStride stereo) n 0 B
  exact ⟨cells, accum, by rw [afterRead, readResult, h]; rfl⟩

/-- A read of `n` samples after a read of `m`: the Buffer and the samples of one read of both. -/
theorem readResult_add (c : Config) (stereo : Bool) (m n : Nat) (B : Buf) :
    afterRead c stereo n (afterRead c stereo m B) = afterRead c stereo (m + n) B ∧
    ((readResult c B stereo m).2 ++ (readResult c (afterRead c stereo m B) stereo n).2).map Prod.snd =
      (readResult c B stereo (m + n)).2.map Prod.snd := by
  have hrd : (afterRead c stereo m B).rd = (B.rd + m) % ringN c := by
    obtain ⟨cells, accum, h⟩ := afterRead_frame c stereo m B
    rw [h]; rfl
  obtain ⟨hbuf, hsamples⟩ := readLoop_shift (c := c) B.rd (slotStride stereo) m n 0 (readResult c B stereo m).1
  have hsecond : readResult c (afterRead c stereo m B) stereo n =
      (dropSamples c m (readLoop c ((B.rd + m) % ringN c) (slotStride stereo) n 0 (readResult c B stereo m).1).1,
       (readLoop c ((B.rd + m) % ringN c) (slotStride stereo) n 0 (readResult c B stereo m).1).2) := by
    rw [readResult, hrd, afterRead, readLoop_dropSamples]
  have hboth : readResult c B stereo (m + n) =
      ((readLoop c B.rd (slotStride stereo) n m (readResult c B stereo m).1).1,
       (readResult c B stereo m).2 ++ (readLoop c B.rd (slotStride stereo) n m (readResult c B stereo m).1).2) := by
    rw [readResult, readLoop_add, Nat.zero_add]
    rfl
  rw [Nat.add_zero] at hbuf hsamples
  constructor
  · rw [afterRead, hsecond, hbuf, dropSamples_dropSamples, afterRead, hboth]
  · rw [hsecond, hboth, List.map_append, hsamples, List.map_append]

/-! ## The statements -/

/-- Settles O23: the loop of R165 unrolled to the samples it takes. -/
theorem readRule : Obligations.ReadRule := by
  intro b stereo max s B n hB hsize hn hring
  apply exec_eq_next
  have hcount : readCount Config.impl max B = n := hn.symm
  rw [execWith_bufRead hB hsize, hcount, readResult_eq hring]
  rfl

/-- Settles O24: the second read goes on over the cells and the accumulator where the first stopped. -/
theorem splitReadsAgree : Obligations.SplitReadsAgree := by
  intro b stereo m n s t1 t2 t B hB hsize havail h1 h2 h
  have hlt : B.offset.toNat / 2 ^ accBits Config.impl < 2 ^ 32 :=
    Nat.lt_of_le_of_lt (Nat.div_le_self _ _) B.offset.isLt
  obtain ⟨cells, accum, hframe⟩ := afterRead_frame Config.impl stereo m.toNat B
  have hfirst : readCount Config.impl m B = m.toNat := by
    show min _ (_ / _) = _; omega
  have hB1 := getElem?_set_buf hB (afterRead Config.impl stereo m.toNat B)
  have hsize1 : (afterRead Config.impl stereo m.toNat B).bufferSize ≠ 0 := by rw [hframe]; exact hsize
  have hsecond : readCount Config.impl n (afterRead Config.impl stereo m.toNat B) = n.toNat := by
    have : samplesAvail Config.impl (afterRead Config.impl stereo m.toNat B) =
        B.offset.toNat / 2 ^ accBits Config.impl - m.toNat := by
      rw [hframe]; exact samplesAvail_dropSamples _ _ _
    rw [readCount, this]; omega
  have hboth : readCount Config.impl (m + n) B = m.toNat + n.toNat := by
    show min _ (_ / _) = _
    rw [BitVec.toNat_add]; omega
  rw [exec_eq_next (execWith_bufRead hB hsize stereo m), hfirst] at h1
  cases h1
  rw [exec_eq_next (execWith_bufRead hB1 hsize1 stereo n), hsecond] at h2
  cases h2
  rw [exec_eq_next (execWith_bufRead hB hsize stereo (m + n)), hboth] at h
  cases h
  obtain ⟨hbuf, hsamples⟩ := readResult_add Config.impl stereo m.toNat n.toNat B
  constructor
  · show ((s.bufs.set _ _).set _ (afterRead Config.impl stereo n.toNat _)) = s.bufs.set _ (afterRead _ _ _ _)
    rw [List.set_set, hbuf]
  · simpa using hsamples

/-- Settles O26: the cells BUF.RMSIL zeroes are those of a read, one by one. -/
theorem rmsilRule : Obligations.RmsilRule := by
  intro b count s B hB
  rw [← joinWord_zero_vzb]
  refine ⟨decodeOfEncode (.bufRmsil b count) rfl,
    fun hsize => exec_eq_next (execWith_bufRmsil_of_unallocated hB hsize count), fun hsize havail => ?_,
    fun hfault hsize hexceeds => ?_⟩
  · have hdrop := execWith_bufRmsil_of_avail hB hsize havail
    rw [zeroCells_eq_cellsAfterRead] at hdrop
    refine ⟨exec_eq_next hdrop, ?_⟩
    rintro rfl hrd
    refine exec_eq_next (hdrop.trans ?_)
    have hsame : dropSamples Config.impl (0 : Word32).toNat
        { B with cells := cellsAfterRead Config.impl B (0 : Word32).toNat } = B := by
      rw [show (0 : Word32).toNat = 0 from rfl, cellsAfterRead_zero]
      exact dropSamples_zero hrd
    rw [hsame, set_self _ _ B hB]
  · apply exec_eq_next
    rw [execWith_bufRmsil_of_exceeds hB hsize hexceeds, raiseFault_of_clear _ _ _ hfault]
    rfl

end Sys2Proof.Machine
end

section
/-! PROOF. Mixing samples in (40_buffer_ops.md R166): the additions of BUF.MIX are one to each of `count + 1` cells, the
successive differences of the scaled samples. -/

namespace Sys2Proof.Machine

variable {c : Config} {s : State} {b : Byte} {B : Buf}

/-! ## Additions to different cells -/

theorem addCell_getElem?_same (c : Config) (cells : List Nat) (k : Nat) (x : Int) :
    (addCell c cells k x)[k]? = (cells[k]?).map fun v : Nat => wrapN (cellW c) (v + x) :=
  List.getElem?_modify_eq ..

theorem addCell_getElem?_other (c : Config) (cells : List Nat) {i k : Nat} (x : Int) (h : i ≠ k) :
    (addCell c cells i x)[k]? = cells[k]? :=
  List.getElem?_modify_ne _ _ h

theorem addCells_cons (c : Config) (a : Nat × Int) (adds : List (Nat × Int)) (cells : List Nat) :
    addCells c (a :: adds) cells = addCells c adds (addCell c cells a.1 a.2) := rfl

theorem addCells_of_not_mem {adds : List (Nat × Int)} {k : Nat} (hk : k ∉ adds.map Prod.fst) (cells : List Nat) :
    (addCells c adds cells)[k]? = cells[k]? := by
  induction adds generalizing cells with
  | nil => rfl
  | cons a adds ih =>
    obtain ⟨hne, hrest⟩ := not_or.mp (List.mem_cons.not.mp hk)
    rw [addCells_cons, ih hrest, addCell_getElem?_other c cells a.2 (Ne.symm hne)]

/-- Where each cell is added to at most once, a cell named gains what it is named with, modulo `2^CELL_W` (R173). -/
theorem addCells_of_mem {adds : List (Nat × Int)} (hnodup : (adds.map Prod.fst).Nodup) {k : Nat} {x : Int}
    (hmem : (k, x) ∈ adds) (cells : List Nat) :
    (addCells c adds cells)[k]? = (cells[k]?).map fun v : Nat => wrapN (cellW c) (v + x) := by
  induction adds generalizing cells with
  | nil => cases hmem
  | cons a adds ih =>
    obtain ⟨hnot, hrest⟩ := List.nodup_cons.mp hnodup
    rw [addCells_cons]
    obtain rfl | htail := List.mem_cons.mp hmem
    · rw [addCells_of_not_mem hnot, addCell_getElem?_same]
    · have hne : a.1 ≠ k := fun he => hnot (he ▸ List.mem_map_of_mem htail)
      rw [ih hrest htail, addCell_getElem?_other c cells a.2 hne]

/-- `n` additions, one to each sample index from `base` on, within one turn of the ring. -/
theorem cellAt_addCells {base n : Nat} (f : Nat → Int) (hlen : B.cells.length = ringN c) (hring : base + n ≤ ringN c)
    {j : Nat} (hj : j < ringN c) :
    cellAt c { B with
        cells := addCells c ((List.range n).map fun i => (cellIndex c B (base + i), f i)) B.cells } j =
      if base ≤ j ∧ j < base + n then wrapN (cellW c) ((cellAt c B j : Int) + f (j - base)) else cellAt c B j := by
  have hplaces : ((List.range n).map fun i => (cellIndex c B (base + i), f i)).map Prod.fst =
      (List.range n).map fun i => cellIndex c B (base + i) := by
    rw [List.map_map]; rfl
  show ((addCells c _ B.cells)[cellIndex c B j]?).getD 0 = _
  split
  · next hin =>
    have hnodup : ((List.range n).map fun i => cellIndex c B (base + i)).Nodup :=
      List.nodup_range.map_on fun i hi k hk he => by
        have := cellIndex_inj c B (by have := List.mem_range.mp hi; omega) (by have := List.mem_range.mp hk; omega) he
        omega
    have hmem : (cellIndex c B j, f (j - base)) ∈ (List.range n).map fun i => (cellIndex c B (base + i), f i) :=
      List.mem_map.mpr ⟨j - base, List.mem_range.mpr (by omega), by rw [show base + (j - base) = j by omega]⟩
    have hlt : cellIndex c B j < B.cells.length := hlen ▸ cellIndex_lt c B j
    rw [addCells_of_mem (hplaces ▸ hnodup) hmem, cellAt, List.getElem?_eq_getElem hlt]
    rfl
  · next hout =>
    have hnot : cellIndex c B j ∉ (List.range n).map fun i => cellIndex c B (base + i) := by
      intro hmem
      obtain ⟨i, hi, he⟩ := List.mem_map.mp hmem
      have := List.mem_range.mp hi
      have := cellIndex_inj c B (by omega) hj he
      omega
    rw [addCells_of_not_mem (hplaces ▸ hnot), cellAt]

/-! ## What BUF.MIX adds -/

/-- Addition `i` of the loop is level `i`, 0 past the last, less the level before it. -/
theorem mixAdditionsFrom_eq_map (c : Config) (levels : List Int) : ∀ (j : Nat) (prev : Int),
    mixAdditionsFrom c j prev levels = (List.range (levels.length + 1)).map fun i =>
      ((j + i) % ringN c, (levels[i]?).getD 0 - ((prev :: levels)[i]?).getD 0) := by
  induction levels with
  | nil => intro j prev; simp [mixAdditionsFrom]
  | cons x levels ih =>
    intro j prev
    rw [mixAdditionsFrom, ih, List.length_cons, List.range_succ_eq_map (n := levels.length + 1), List.map_cons,
      List.map_map]
    refine congrArg₂ _ rfl (List.map_congr_left fun i _ => ?_)
    simp [Nat.add_assoc, Nat.add_comm 1 i]

/-- With the whole payload presented, the levels are those of the DIN samples. -/
theorem scaledSamples_getElem? {count : Nat} (hdin : count ≤ s.din.length) (i : Nat) :
    ((scaledSamples c (dinSamples c s count))[i]?).getD 0 = mixLevel c s.din count i := by
  by_cases hi : i < count
  · have hsample : s.din[i]? = some s.din[i] := List.getElem?_eq_getElem (by omega)
    simp [scaledSamples, dinSamples, mixLevel, hi, hsample]
  · simp [scaledSamples, dinSamples, mixLevel, hi]

/-- The additions of BUF.MIX are the successive differences. -/
theorem mixAdditionsFrom_eq_differences {count : Nat} (hdin : count ≤ s.din.length) (base : Nat) :
    mixAdditionsFrom c (B.rd + base) 0 (scaledSamples c (dinSamples c s count)) =
      (List.range (count + 1)).map fun i => (cellIndex c B (base + i), mixDifference c s.din count i) := by
  have hlength : (scaledSamples c (dinSamples c s count)).length = count := by simp [scaledSamples, dinSamples]
  rw [mixAdditionsFrom_eq_map, hlength]
  refine List.map_congr_left fun i _ => ?_
  rw [scaledSamples_getElem? hdin, cellIndex, Nat.add_assoc]
  cases i with
  | zero => simp [mixDifference]
  | succ i => rw [List.getElem?_cons_succ, scaledSamples_getElem? hdin, mixDifference]

/-! ## The statement -/

/-- Settles O25: within the ring the `count + 1` cells are different ones, and each takes its difference. -/
theorem mixRule : Obligations.MixRule := by
  refine ⟨fun b count s B base hB hsize hbase hlen hdin hring => ?_, fun c b count s B hB hsize hfault hout => ?_⟩
  · have hadds := mixAdditionsFrom_eq_differences (c := Config.impl) (B := B) hdin base
    have hmix := execWith_bufMix_of_inside (c := Config.impl) hB hsize (hbase ▸ hring) hdin
    rw [show samplesAvail Config.impl B + Config.impl.mixLead = base from hbase.symm, mixCells_eq_addCells,
      hadds] at hmix
    refine ⟨_, exec_eq_next hmix, ⟨_, rfl⟩, ?_, fun j hj => ?_⟩
    · rw [← hadds, ← mixCells_eq_addCells]
      exact mixCells_length _ _ _ _ _
    · rw [cellAt_addCells _ hlen (by omega) hj]
      simp only [← Nat.add_assoc, Nat.lt_succ_iff]
  · rw [execWith_bufMix_of_outside hB hsize hout, raiseFault_of_clear _ _ _ hfault]
    rfl

end Sys2Proof.Machine
end

section
/-! PROOF. Frames read dry (40_buffer_ops.md R172, 44_chip_sequencer_ops.md R339): the fraction of a sample a frame leaves
in the cursor carries into the next, so the counts add up to the whole samples of the summed times. -/

namespace Sys2Proof.Machine

variable {s t : State} {b : Byte} {B : Buf}

/-! ## More frames -/

/-- Frames drained after others are drained from the state those leave. -/
theorem drainFrames_append (b : Byte) (times more : List Word32) : ∀ s : State,
    drainFrames b (times ++ more) s =
      (drainFrames b times s).bind fun r => (drainFrames b more r.1).map fun q => (q.1, r.2 + q.2) := by
  induction times with
  | nil => intro s; simp [drainFrames]
  | cons time times ih =>
    intro s
    simp only [List.cons_append, drainFrames, exec_eq_next_execWith]
    split
    · rfl
    · rw [ih, Option.map_bind, Option.bind_map]
      refine Option.bind_congr fun r _ => ?_
      simp [Function.comp_def, Nat.add_assoc]

/-! ## One frame -/

/-- A read of as many samples as the operand can say takes all there are. -/
theorem readCount_max (c : Config) (B : Buf) : readCount c 0xFFFFFFFF#32 B = samplesAvail c B := by
  have hle : samplesAvail c B ≤ B.offset.toNat := Nat.div_le_self _ _
  have hword := B.offset.isLt
  exact Nat.min_eq_right (show samplesAvail c B ≤ 4294967295 by omega)

/-- A frame that does not fault ends with the cursor at the exact sum. -/
theorem execWith_bufEndframe_cursor {c : Config} (hB : s.bufs[b.toNat]? = some B) (hsize : B.bufferSize ≠ 0)
    {time : Word32} (hfault : (execWith c (.bufEndframe b time) s).global.fault = false) :
    ∃ B', (execWith c (.bufEndframe b time) s).bufs[b.toNat]? = some B' ∧ B'.bufferSize = B.bufferSize ∧
      B'.factor = B.factor ∧ B'.offset.toNat = B.offset.toNat + time.toNat * B.factor.toNat := by
  obtain ⟨hword, hend⟩ := execWith_bufEndframe_of_no_fault hB hsize hfault
  rw [hend]
  refine ⟨_, getElem?_set_buf hB _, rfl, rfl, ?_⟩
  rw [BitVec.toNat_ofNat, Nat.mod_eq_of_lt hword, resampledTime, Nat.add_comm]

/-- BUF.READ of all answers the whole samples and leaves the fraction of a sample in the cursor. -/
theorem execWith_bufRead_all (c : Config) (hB : s.bufs[b.toNat]? = some B) (hsize : B.bufferSize ≠ 0) :
    (((execWith c (.bufRead b false 0xFFFFFFFF#32) s).rsp.getLast?).getD 0).toNat = samplesAvail c B ∧
    ∃ B', (execWith c (.bufRead b false 0xFFFFFFFF#32) s).bufs[b.toNat]? = some B' ∧
      B'.bufferSize = B.bufferSize ∧ B'.factor = B.factor ∧ B'.offset.toNat = B.offset.toNat % 2 ^ accBits c := by
  have hword : samplesAvail c B < 2 ^ 32 := Nat.lt_of_le_of_lt (Nat.div_le_self _ _) B.offset.isLt
  have hread := execWith_bufRead (c := c) hB hsize false 0xFFFFFFFF#32
  rw [readCount_max] at hread
  obtain ⟨cells, accum, hframe⟩ := afterRead_frame c false (samplesAvail c B) B
  rw [hread]
  constructor
  · simpa using hword
  · refine ⟨_, getElem?_set_buf hB _, ?_⟩
    rw [← afterRead, hframe]
    refine ⟨rfl, rfl, (dropSamples_offset c _ B).trans ?_⟩
    rw [samplesAvail, shrN, Nat.mod_eq_sub_div_mul]

/-- One frame read dry answers the whole samples up to its end and leaves the fraction in the cursor. -/
theorem drainFrames_singleton (hB : s.bufs[b.toNat]? = some B) (hsize : B.bufferSize ≠ 0) {time : Word32} {n : Nat}
    (h : drainFrames b [time] s = some (t, n)) :
    n = (B.offset.toNat + time.toNat * B.factor.toNat) / 2 ^ accBits Config.impl ∧
    ∃ B', t.bufs[b.toNat]? = some B' ∧ B'.bufferSize ≠ 0 ∧ B'.factor = B.factor ∧
      B'.offset.toNat = (B.offset.toNat + time.toNat * B.factor.toNat) % 2 ^ accBits Config.impl := by
  simp only [drainFrames, exec_eq_next_execWith] at h
  split at h
  · cases h
  next hfault =>
  obtain ⟨B1, hB1, hsize1, hfactor1, hcursor⟩ :=
    execWith_bufEndframe_cursor hB hsize (Bool.eq_false_of_not_eq_true hfault)
  obtain ⟨hcount, B', hB', hsize', hfactor', hoffset⟩ :=
    execWith_bufRead_all Config.impl hB1 (hsize1.symm ▸ hsize)
  simp only [Option.map_some, Option.some.injEq, Prod.mk.injEq] at h
  obtain ⟨rfl, rfl⟩ := h
  rw [hcursor] at hoffset
  refine ⟨?_, B', hB', by rwa [hsize', hsize1], hfactor'.trans hfactor1, hoffset⟩
  rw [Nat.add_zero, hcount, samplesAvail, shrN, hcursor]

/-! ## Any number of frames -/

/-- The whole samples of a sum, taken in two parts: the fraction of the first carries into the second. -/
theorem div_add_mod_add_div (x y d : Nat) (hd : 0 < d) : x / d + (x % d + y) / d = (x + y) / d := by
  have hsplit : x + y = x % d + y + d * (x / d) := by have := Nat.mod_add_div x d; omega
  rw [hsplit, Nat.add_mul_div_left _ _ hd, Nat.add_comm]

/-- The counts add up where there is a frame to read the samples that are there at the start, or there are none. -/
theorem drainFrames_count (times : List Word32) : ∀ {s t : State} {B : Buf} {n : Nat}, s.bufs[b.toNat]? = some B →
    B.bufferSize ≠ 0 → (times = [] → B.offset.toNat / 2 ^ accBits Config.impl = 0) →
    drainFrames b times s = some (t, n) →
    n = (B.offset.toNat + (times.map BitVec.toNat).sum * B.factor.toNat) / 2 ^ accBits Config.impl := by
  induction times with
  | nil =>
    intro s t B n _ _ hstart h
    obtain ⟨-, rfl⟩ : s = t ∧ 0 = n := by simpa [drainFrames] using h
    simp [hstart rfl]
  | cons time times ih =>
    intro s t B n hB hsize _ h
    rw [show time :: times = [time] ++ times from rfl, drainFrames_append] at h
    obtain ⟨⟨s1, n1⟩, hfirst, hrest⟩ := Option.bind_eq_some_iff.mp h
    obtain ⟨⟨s2, n2⟩, hdrain, hsum⟩ := Option.map_eq_some_iff.mp hrest
    obtain ⟨rfl, B1, hB1, hsize1, hfactor, hoffset⟩ := drainFrames_singleton hB hsize hfirst
    have hpos : 0 < 2 ^ accBits Config.impl := Nat.two_pow_pos _
    have hn2 := ih hB1 hsize1 (fun _ => Nat.div_eq_of_lt (hoffset ▸ Nat.mod_lt _ hpos)) hdrain
    rw [hoffset, hfactor] at hn2
    obtain rfl : _ + n2 = n := (Prod.mk.inj hsum).2
    rw [hn2, div_add_mod_add_div _ _ _ hpos, List.map_cons, List.sum_cons, Nat.add_mul, Nat.add_assoc]

/-- Settles O30, by induction on the frames: each leaves only a fraction of a sample for the next. -/
theorem sampleCountLaw : Obligations.SampleCountLaw := by
  refine ⟨fun b times s t n B hB hsize hne h => drainFrames_count times hB hsize (fun he => absurd he hne) h, ?_⟩
  intro b times more s t t' n n' h h'
  rw [drainFrames_append, h, Option.bind_some] at h'
  obtain ⟨⟨u, k⟩, -, hsum⟩ := Option.map_eq_some_iff.mp h'
  obtain rfl : n + k = n' := (Prod.mk.inj hsum).2
  exact Nat.le_add_right n k

end Sys2Proof.Machine
end

section
/-! PROOF. The SYN commands (41_synth_ops.md R201 to R205): SYN.OFFSET adds one tap of its impulse row to each of W cells,
and SYN.VOLUME and SYN.TREBLE rewrite one synthesizer. -/

namespace Sys2Proof.Machine

variable {c : Config} {s : State} {y b : Byte} {S : Syn} {B : Buf}

/-! ## The command on its unit (30_encoding.md R125) -/

theorem hasSyn_eq_true (hS : s.syns[y.toNat]? = some S) : hasSyn s y = true := by
  simpa [hasSyn] using (List.getElem?_eq_some_iff.mp hS).1

theorem hasSinkBuf_eq_true (hB : s.bufs[b.toNat]? = some B) (hnull : b ≠ 0xFF) : hasSinkBuf s b = true := by
  simpa [hasSinkBuf, hasBuf_eq_true hB] using hnull

theorem State.modSyn_eq_set {k : Nat} (hS : s.syns[k]? = some S) (f : Syn → Syn) :
    s.modSyn k f = { s with syns := s.syns.set k (f S) } := by
  rw [State.modSyn, modify_eq_set _ _ _ S hS]

/-! ## SYN.OFFSET (R201 to R203) -/

/-- On units that are there the command is the operation, and its one fault is a fault of the command. -/
theorem execWith_synOffset (hS : s.syns[y.toNat]? = some S) (hB : s.bufs[b.toNat]? = some B) (hnull : b ≠ 0xFF)
    (time delta : Word32) :
    execWith c (.synOffset y b time delta) s =
      settle 0x20 s (synOffset c y.toNat b.toNat time.toNat delta.toInt s) := by
  simp only [execWith, cmdSynOffset, hasSyn_eq_true hS, hasSinkBuf_eq_true hB hnull, Bool.and_self, whenInRange_true]
  rfl

theorem execWith_synOffset_of_inside (hS : s.syns[y.toNat]? = some S) (hB : s.bufs[b.toNat]? = some B)
    (hnull : b ≠ 0xFF) (hsize : B.bufferSize ≠ 0) {time : Word32}
    (hin : (position c B time.toNat).index + widthOf c S.quality ≤ ringN c) (delta : Word32) :
    execWith c (.synOffset y b time delta) s = { s with
      bufs := s.bufs.set b.toNat
        { B with cells := injectTaps c S B (position c B time.toNat) delta.toInt } } := by
  simp only [execWith_synOffset hS hB hnull, synOffset, hB, hS, if_neg hsize, if_neg (Nat.not_lt.mpr hin), settle_ok,
    State.modBuf_eq_set hB]

theorem execWith_synOffset_of_outside (hS : s.syns[y.toNat]? = some S) (hB : s.bufs[b.toNat]? = some B)
    (hnull : b ≠ 0xFF) (hsize : B.bufferSize ≠ 0) {time : Word32}
    (hout : ringN c < (position c B time.toNat).index + widthOf c S.quality) (delta : Word32) :
    execWith c (.synOffset y b time delta) s = raiseFault 0x20 .offsetOutOfRange s := by
  simp only [execWith_synOffset hS hB hnull, synOffset, hB, hS, if_neg hsize, if_pos hout, settle_error]

/-- Within the ring each cell from the position on gains its tap, scaled, and no other cell changes. -/
theorem cellAt_injectTaps {p : Position} (hlen : B.cells.length = ringN c)
    (hring : p.index + widthOf c S.quality ≤ ringN c) (delta : Int) {j : Nat} (hj : j < ringN c) :
    cellAt c { B with cells := injectTaps c S B p delta } j =
      if p.index ≤ j ∧ j < p.index + widthOf c S.quality then
        wrapN (cellW c) ((cellAt c B j : Int) + delta * tap S p.row (j - p.index))
      else cellAt c B j := by
  rw [injectTaps_eq_addCells]
  exact cellAt_addCells (fun k => delta * tap S p.row k) hlen hring hj

/-! ## SYN.VOLUME and SYN.TREBLE (R204, R205) -/

theorem execWith_synVolume (hS : s.syns[y.toNat]? = some S) (unit : Word32) :
    execWith c (.synVolume y unit) s = { s with syns := s.syns.set y.toNat (withVolume c unit S) } := by
  simp only [execWith, cmdSynVolume, hasSyn_eq_true hS, whenInRange_true, synVolume, State.modSyn_eq_set hS]

theorem execWith_synTreble (hS : s.syns[y.toNat]? = some S) (eq : Word32) :
    execWith c (.synTreble y eq) s = { s with syns := s.syns.set y.toNat (withTreble c eq S) } := by
  simp only [execWith, cmdSynTreble, hasSyn_eq_true hS, whenInRange_true, synTreble, State.modSyn_eq_set hS]

/-- A synthesizer whose table is KGEN's for its codes is what its own volume code makes of it. -/
theorem withVolume_self (h : S.impulse = kgen c S.quality S.eq S.volumeUnit) : withVolume c S.volumeUnit S = S := by
  rw [withVolume, ← h]

theorem withTreble_self (h : S.impulse = kgen c S.quality S.eq S.volumeUnit) : withTreble c S.eq S = S := by
  rw [withTreble, ← h]

/-! ## The statements -/

/-- Settles O31: the taps land in different cells, so each cell gains exactly its own. -/
theorem offsetRule : Obligations.OffsetRule := by
  constructor
  · rintro y b time delta s S B rt si hS hB hnull hsize rfl rfl hlen hring
    exact ⟨_, exec_eq_next (execWith_synOffset_of_inside hS hB hnull hsize hring delta), ⟨_, rfl⟩,
      injectTaps_length _ _ _ _ _, fun j hj => cellAt_injectTaps hlen hring delta.toInt hj⟩
  · intro c y b time delta s S B hS hB hnull hsize hfault hout
    rw [execWith_synOffset_of_outside hS hB hnull hsize hout, raiseFault_of_clear _ _ _ hfault]
    rfl

/-- Settles O33: each command rewrites one synthesizer, and the code already set rewrites it to itself. -/
theorem volumeAndTrebleRule : Obligations.VolumeAndTrebleRule := by
  intro y code s S hS
  rw [← joinWord_zero_vzb, ← joinWord_zero_vzb]
  refine ⟨decodeOfEncode (.synVolume y code) rfl, decodeOfEncode (.synTreble y code) rfl,
    exec_eq_next (execWith_synVolume hS code), exec_eq_next (execWith_synTreble hS code),
    fun htable => ⟨exec_eq_next ?_, exec_eq_next ?_⟩⟩
  · rw [execWith_synVolume hS, withVolume_self htable, set_self _ _ S hS]
  · rw [execWith_synTreble hS, withTreble_self htable, set_self _ _ S hS]

end Sys2Proof.Machine
end

section
/-! PROOF. The OSC commands that take no time (42_oscillator_ops.md R235 to R244): OSC.RESET, OSC.WRITE and the four
clock commands on a slot that is there. -/

namespace Sys2Proof.Machine

variable {c : Config} {s : State} {o : Byte} {O : Osc}

/-! ## The command on its unit (30_encoding.md R125) -/

theorem hasOsc_eq_true (ho : o.toNat < s.oscs.length) : hasOsc s o = true := by simpa [hasOsc] using ho

theorem lt_length_of_slot {k : Nat} (hO : s.oscs[k]? = some O) : k < s.oscs.length :=
  (List.getElem?_eq_some_iff.mp hO).1

theorem State.modOsc_eq_set {k : Nat} (hO : s.oscs[k]? = some O) (f : Osc → Osc) :
    s.modOsc k f = { s with oscs := s.oscs.set k (f O) } := by
  rw [State.modOsc, modify_eq_set _ _ _ O hO]

theorem State.modTone_eq_set {k : Nat} (hO : s.oscs[k]? = some O) (f : Tone → Tone) :
    s.modTone k f = { s with oscs := s.oscs.set k { O with toTone := f O.toTone } } :=
  State.modOsc_eq_set hO _

/-- Derived fields changed to themselves change nothing. -/
theorem State.modTone_self (s : State) (k : Nat) {f : Tone → Tone} (hf : ∀ T, f T = T) : s.modTone k f = s := by
  have hoscs : s.oscs.modify k (fun O => { O with toTone := f O.toTone }) = s.oscs :=
    modify_id_at _ _ _ fun O _ => by rw [hf]
  rw [State.modTone, State.modOsc, hoscs]

/-! ## OSC.RESET (R235) -/

/-- The voice a slot wraps is the one voice OSC.RESET puts at its reset value. -/
theorem resetWrapped_eq_mapIdx (c : Config) (k : Nat) (voices : List Voice) :
    resetWrapped c k voices = voices.mapIdx fun v V => if voiceOf c k = some v then resetVoice else V := by
  refine List.ext_getElem? fun v => ?_
  unfold resetWrapped
  cases voiceOf c k with
  | none => simp
  | some w => by_cases hw : w = v <;> simp [hw]

theorem execWith_oscReset (ho : o.toNat < s.oscs.length) : execWith c (.oscReset o) s = oscReset c o.toNat s := by
  simp only [execWith, cmdOscReset, hasOsc_eq_true ho, whenInRange_true]

/-- CUR_AMP of a tone as OSC.RESET leaves it is 0 (log 18). -/
theorem curAmp_resetTone (c : Config) (K : OscKind) (regs : List Byte) : curAmp c K (resetTone c K regs) = 0 :=
  if_pos rfl

/-- A slot just reset presents amplitude 0, whether it wraps a voice or not. -/
theorem ampOf_oscReset (c : Config) (k : Nat) (s : State) : ampOf c k (oscReset c k s) = 0 := by
  rw [oscReset_eq]
  unfold ampOf resetWrapped
  cases voiceOf c k with
  | some v => cases hV : s.voices[v]? <;> simp [hV, resetVoice]
  | none => cases hO : s.oscs[k]? <;> simp [hO, resetSlot, curAmp_resetTone]

/-! ## OSC.WRITE (R236 to R238) -/

theorem execWith_oscWrite (hO : s.oscs[o.toNat]? = some O) {reg : Word32} (hreg : reg.toNat < O.regs.length)
    (value : Byte) :
    execWith c (.oscWrite o reg value) s = { s with
      oscs := s.oscs.set o.toNat
        (writtenSlot c (oscKind c o.toNat) (oscEnabled c o.toNat s) reg.toNat value O) } := by
  simp only [execWith, cmdOscWrite, hasOsc_eq_true (lt_length_of_slot hO), whenInRange_true, oscWrite, hO,
    if_neg (Nat.not_le.mpr hreg), settle_ok, State.modOsc_eq_set hO]

theorem execWith_oscWrite_of_outside (hO : s.oscs[o.toNat]? = some O) {reg : Word32}
    (hreg : O.regs.length ≤ reg.toNat) (value : Byte) :
    execWith c (.oscWrite o reg value) s = raiseFault 0x31 .unitIndexOutOfRange s := by
  simp only [execWith, cmdOscWrite, hasOsc_eq_true (lt_length_of_slot hO), whenInRange_true, oscWrite, hO, if_pos hreg,
    settle_error]

/-- A write to a voice's slot has no side effect (43_brr_voice_ops.md R290). -/
theorem writtenSlot_brrVoice (c : Config) (enabled : Bool) (reg : Nat) (value : Byte) (O : Osc) :
    writtenSlot c .brrVoice enabled reg value O = { O with regs := O.regs.set reg value } := rfl

/-- A write to the length register reloads the length counter where the channel is enabled (R238). -/
theorem writtenSlot_lengthReg {K : OscKind} {reg : Nat} (hreg : lengthReg c K = some reg) (enabled : Bool)
    (value : Byte) (O : Osc) : writtenSlot c K enabled reg value O = { O with
      regs := O.regs.set reg value
      lengthCounter := if enabled = true then c.lengthTable (upperFive value) else O.lengthCounter } := by
  unfold writtenSlot writeEffect
  cases enabled <;> simp [hreg]

theorem oscEnabled_of_chip {k : Nat} {C : Chip} (hC : s.chips[ownerOf c k]? = some C) :
    oscEnabled c k s = C.oscEnables.getLsbD (enableBit c k) := by
  rw [oscEnabled, hC]; rfl

theorem nesKind_of_lengthReg {K : OscKind} {r : Nat} (h : lengthReg c K = some r) :
    K = .nesSquare ∨ K = .nesTriangle ∨ K = .nesNoise := by
  cases K with
  | nesSquare => exact .inl rfl
  | nesTriangle => exact .inr (.inl rfl)
  | nesNoise => exact .inr (.inr rfl)
  | _ => cases h

/-- Bit 0 enables the first oscillator of an NES chip. -/
theorem enableBit_of_head {ci k : Nat} (hkind : c.chipKind ci = .nes2a03) (hhead : (chipOscs c ci).head? = some k) :
    enableBit c k = 0 := by
  obtain ⟨-, hown⟩ := (mem_chipOscs c ci k).mp (List.mem_of_head? hhead)
  exact if_pos (by rw [hown]; exact ⟨hkind, hhead⟩)

/-! ## The clock commands (R240 to R244) -/

theorem execWith_oscClkenv (ho : o.toNat < s.oscs.length) :
    execWith c (.oscClkenv o) s = s.modTone o.toNat (clockEnv c (oscKind c o.toNat)) := by
  simp only [execWith, cmdOscClkenv, hasOsc_eq_true ho, whenInRange_true, oscClkenv]

theorem execWith_oscClklen (ho : o.toNat < s.oscs.length) :
    execWith c (.oscClklen o) s = s.modTone o.toNat (clockLen c (oscKind c o.toNat)) := by
  simp only [execWith, cmdOscClklen, hasOsc_eq_true ho, whenInRange_true, oscClklen]

theorem execWith_oscClkswp (ho : o.toNat < s.oscs.length) :
    execWith c (.oscClkswp o) s = s.modTone o.toNat (clockSwp c (oscKind c o.toNat)) := by
  simp only [execWith, cmdOscClkswp, hasOsc_eq_true ho, whenInRange_true, oscClkswp]

theorem execWith_oscClklin (ho : o.toNat < s.oscs.length) :
    execWith c (.oscClklin o) s = s.modTone o.toNat (clockLin c (oscKind c o.toNat)) := by
  simp only [execWith, cmdOscClklin, hasOsc_eq_true ho, whenInRange_true, oscClklin]

@[simp] theorem clockEnv_regs (c : Config) (K : OscKind) (T : Tone) : (clockEnv c K T).regs = T.regs := by
  unfold clockEnv; split <;> rfl

@[simp] theorem clockLen_regs (c : Config) (K : OscKind) (T : Tone) : (clockLen c K T).regs = T.regs := by
  unfold clockLen; split <;> rfl

@[simp] theorem clockLin_regs (c : Config) (K : OscKind) (T : Tone) : (clockLin c K T).regs = T.regs := by
  unfold clockLin; split <;> rfl

/-- A command of the engine at hand that changes the derived fields of its slot alone, the registers among them only if
it is OSC.CLKSWP. -/
theorem exec_of_modTone (hO : s.oscs[o.toNat]? = some O) {i : Instr} {f : Tone → Tone}
    (h : execWith Config.impl i s = s.modTone o.toNat f) (hlength : (f O.toTone).regs.length = O.regs.length)
    (hregs : i ≠ .oscClkswp o → (f O.toTone).regs = O.regs) :
    ∃ O', exec i s = .next { s with oscs := s.oscs.set o.toNat O' } ∧ O'.delay = O.delay ∧ O'.lastAmp = O.lastAmp ∧
      O'.output = O.output ∧ O'.regs.length = O.regs.length ∧ (i ≠ .oscClkswp o → O'.regs = O.regs) :=
  ⟨_, exec_eq_next (h.trans (State.modTone_eq_set hO f)), rfl, rfl, rfl, hlength, hregs⟩

/-! ## The statements -/

/-- Settles O34: the slot and the voice it wraps are at their reset values, whose amplitude is 0. -/
theorem oscResetRule : Obligations.OscResetRule := by
  intro o s O hO
  refine ⟨_, exec_eq_next (execWith_oscReset (lt_length_of_slot hO)), ?_, ampOf_oscReset _ _ _⟩
  rw [oscReset_eq, resetWrapped_eq_mapIdx, modify_eq_set _ _ _ O hO]
  rfl

/-- Settles O35: inside the image the slot is written, outside it the command faults. -/
theorem oscWriteRule : Obligations.OscWriteRule := by
  refine ⟨fun o reg value s O hO => ⟨fun hreg => ?_, fun hfault hreg => exec_eq_next ?_⟩, ?_⟩
  · exact ⟨_, exec_eq_next (execWith_oscWrite hO hreg value), writtenSlot_regs _ _ _ _ _ _, rfl, rfl⟩
  · rw [execWith_oscWrite_of_outside hO hreg, raiseFault_of_clear _ _ _ hfault]
    rfl
  · intro c o reg value s O hO hkind hreg
    rw [execWith_oscWrite hO hreg, hkind, writtenSlot_brrVoice]

/-- Settles O36: the write is to the length register, and the owning chip's bit decides on the reload. -/
theorem nesLengthRegisterEffect : Obligations.NesLengthRegisterEffect := by
  refine ⟨fun c o reg value s O C hlen hO hreg hC => ?_, fun c =>
    ⟨rfl, fun K r => nesKind_of_lengthReg, fun ci k => enableBit_of_head⟩⟩
  rw [execWith_oscWrite hO hreg, writtenSlot_lengthReg hlen, oscEnabled_of_chip hC]
  rfl

/-- Settles O37: each command applies its clock function to the slot's derived fields. -/
theorem clockCommandsRule : Obligations.ClockCommandsRule := by
  refine ⟨fun o s O hO i hi => ?_, fun c o s ho => ⟨fun hkind => ?_, fun hkind => ⟨?_, ?_, ?_⟩⟩⟩
  · have ho := lt_length_of_slot hO
    simp only [List.mem_cons, List.not_mem_nil, or_false] at hi
    obtain rfl | rfl | rfl | rfl := hi
    · exact exec_of_modTone hO (execWith_oscClkenv ho) (clockEnv_length _ _ _) fun _ => clockEnv_regs _ _ _
    · exact exec_of_modTone hO (execWith_oscClklen ho) (clockLen_length _ _ _) fun _ => clockLen_regs _ _ _
    · exact exec_of_modTone hO (execWith_oscClkswp ho) (clockSwp_length _ _ _) fun hne => absurd rfl hne
    · exact exec_of_modTone hO (execWith_oscClklin ho) (clockLin_length _ _ _) fun _ => clockLin_regs _ _ _
  · rw [execWith_oscClklin ho]
    exact s.modTone_self _ fun T => if_neg hkind
  · rw [execWith_oscClkenv ho, hkind]
    exact s.modTone_self _ fun T => rfl
  · rw [execWith_oscClklen ho, hkind]
    exact s.modTone_self _ fun T => rfl
  · rw [execWith_oscClkswp ho, hkind]
    exact s.modTone_self _ fun T => rfl

end Sys2Proof.Machine
end

section
/-! PROOF. OSC.RUN (42_oscillator_ops.md R231 to R234): a run is its first EMIT and then the loop from the next
transition on, which can be cut at any time, resumed from the delay it leaves, and followed on a muted slot. -/

namespace Sys2Proof.Machine

variable {c : Config} {s s' t : State} {o a e : Nat} {O P : Osc}

/-! ## The command and the operation -/

theorem execWith_oscRun {o : Byte} (ho : o.toNat < s.oscs.length) (a e : Word32) :
    execWith c (.oscRun o a e) s = runCommand c o.toNat a.toNat e.toNat s := by
  simp only [execWith, cmdOscRun, hasOsc_eq_true ho, whenInRange_true]

theorem execWith_oscRun_of_ok {o : Byte} (ho : o.toNat < s.oscs.length) {a e : Word32}
    (h : oscRun c o.toNat a.toNat e.toNat s = .ok t) : execWith c (.oscRun o a e) s = t :=
  (execWith_oscRun ho a e).trans (runCommand_of_ok h)

/-- A run that ends without a fault is the operation. -/
theorem oscRun_of_no_fault {o : Byte} (ho : o.toNat < s.oscs.length) {a e : Word32}
    (h : execWith c (.oscRun o a e) s = t) (hfault : t.global.fault = false) :
    oscRun c o.toNat a.toNat e.toNat s = .ok t := by
  rw [execWith_oscRun ho] at h
  subst h
  exact runCommand_no_fault hfault

theorem oscRun_of_exec {o : Byte} (ho : o.toNat < s.oscs.length) {a e : Word32}
    (h : exec (.oscRun o a e) s = .next t) (hfault : t.global.fault = false) :
    oscRun Config.impl o.toNat a.toNat e.toNat s = .ok t := by
  rw [exec_eq_next_execWith] at h
  exact oscRun_of_no_fault ho (Host.Outcome.next.inj h) hfault

/-! ## One slot of the list -/

/-- A list that differs at one index alone is the old one with the new value put there. -/
theorem OnlyAt.eq_set {α : Type} {i : Nat} {l m : List α} (h : OnlyAt (fun j => j = i) l m) {x : α}
    (hx : m[i]? = some x) : m = l.set i x := by
  refine List.ext_getElem? fun j => ?_
  by_cases hj : j = i
  · subst hj
    have hlt : j < l.length := h.length ▸ (List.getElem?_eq_some_iff.mp hx).1
    rw [hx, List.getElem?_set_self hlt]
  · rw [h.others j hj, List.getElem?_set_ne (Ne.symm hj)]

theorem OnlyAt.set_eq {α : Type} {i : Nat} {l m : List α} (h : OnlyAt (fun j => j = i) l m) {x : α}
    (hx : m[i]? = some x) (y : α) : m.set i y = l.set i y := by
  rw [h.eq_set hx, List.set_set]

/-! ## Delays -/

theorem getElem?_setDelay (hO : s.oscs[o]? = some O) (d : Osc → Nat) :
    (setDelay o d s).oscs[o]? = some { O with delay := d O } := by
  simp [setDelay, hO]

theorem setDelay_eq_set (hO : s.oscs[o]? = some O) (d : Osc → Nat) :
    setDelay o d s = { s with oscs := s.oscs.set o { O with delay := d O } } := State.modOsc_eq_set hO _

theorem delay_of_setDelay {d : Nat} (hQ : (setDelay o (fun _ => d) s).oscs[o]? = some P) : P.delay = d := by
  cases hO : s.oscs[o]? with
  | none => simp [setDelay, hO] at hQ
  | some O => cases (getElem?_setDelay hO fun _ => d).symm.trans hQ; rfl

theorem setDelay_self (hO : s.oscs[o]? = some O) {d : Nat} (hd : O.delay = d) : setDelay o (fun _ => d) s = s := by
  subst hd
  rw [setDelay_eq_set hO]
  simp only [set_self _ _ O hO]

theorem Committed.setDelay (h : Committed c o s) (d : Osc → Nat) : Committed c o (setDelay o d s) := by
  intro P hP
  have hamp : ampOf c o (Machine.setDelay o d s) = ampOf c o s := ampOf_modOsc o s _ fun _ => rfl
  cases hO : s.oscs[o]? with
  | none => simp [Machine.setDelay, hO] at hP
  | some O =>
    obtain rfl := Option.some.inj ((getElem?_setDelay hO d).symm.trans hP)
    rw [hamp]
    exact h O hO

/-! ## EMIT (R233) -/

/-- EMIT changes of its slot the committed amplitude alone. -/
theorem emit_slot {k : Nat} {amp : Int} (h : emit c o k amp s = .ok s') (hO : s.oscs[o]? = some O) :
    ∃ last, s'.oscs[o]? = some { O with lastAmp := last } := by
  obtain ⟨-, he | he⟩ := emit_oscs h
  · exact ⟨O.lastAmp, by rw [he, hO]⟩
  · exact ⟨amp, by rw [he]; simp [hO]⟩

/-- A muted slot, or one that presents what it has committed, emits nothing. -/
theorem emit_eq_self (hO : s.oscs[o]? = some O) {amp : Int} (h : O.output = none ∨ amp = O.lastAmp) (k : Nat) :
    emit c o k amp s = .ok s := by
  unfold emit
  obtain hnone | rfl := h
  · simp only [hO, hnone]
  · cases hb : O.output <;> simp [hO, hb]

/-- An emission is SYN.OFFSET with the difference, and then the new committed amplitude. -/
theorem emit_of_difference (hO : s.oscs[o]? = some O) {b k : Nat} {amp : Int} (hb : O.output = some b)
    (hne : amp ≠ O.lastAmp) (h : emit c o k amp s = .ok s') :
    ∃ u, synOffset c (oscSyn c o) b k (emittedDelta c (amp - O.lastAmp)) s = .ok u ∧
      s' = { u with oscs := u.oscs.set o { O with lastAmp := amp } } := by
  obtain ⟨-, hsame⟩ | ⟨Q, d, u, hQ, hd, -, hu, rfl⟩ := emit_ok h
  · obtain hnone | hlast := hsame O hO
    · rw [hb] at hnone; cases hnone
    · exact absurd hlast.symm hne
  · obtain rfl := Option.some.inj (hO.symm.trans hQ)
    obtain rfl := Option.some.inj (hb.symm.trans hd)
    exact ⟨u, hu, State.modOsc_eq_set (by rw [synOffset_oscs hu, hO]) _⟩

theorem emittedDelta_of_fits {d : Int} (hlo : -2147483648 ≤ d) (hhi : d < 2147483648) : emittedDelta c d = d := by
  simp [emittedDelta, deltaFits, hlo, hhi]

/-- SYN.OFFSET as an emission CALLs it is the command, the unit numbers and the difference fitting their operands. -/
theorem execWith_synOffset_of_ok {y b : Nat} {time : Word32} {d : Int} (hy : y < 256) (hbufs : s.bufs.length ≤ 255)
    (hlo : -2147483648 ≤ d) (hhi : d < 2147483648) (h : synOffset c y b time.toNat d s = .ok t) :
    execWith c (.synOffset (BitVec.ofNat 8 y) (BitVec.ofNat 8 b) time (BitVec.ofInt 32 d)) s = t := by
  obtain ⟨B, S, hB, hS, -⟩ := synOffset_ok h
  have hb : b < 255 := Nat.lt_of_lt_of_le (List.getElem?_eq_some_iff.mp hB).1 hbufs
  have hyNat : (BitVec.ofNat 8 y).toNat = y := Nat.mod_eq_of_lt hy
  have hbNat : (BitVec.ofNat 8 b).toNat = b := Nat.mod_eq_of_lt (by omega)
  have hnull : BitVec.ofNat 8 b ≠ 0xFF := fun he => by
    have := congrArg BitVec.toNat he
    rw [hbNat] at this
    exact Nat.ne_of_lt hb this
  have hd : (BitVec.ofInt 32 d).toInt = d := by
    rw [BitVec.toInt_ofInt]
    exact Int.bmod_eq_of_le (by omega) (by omega)
  rw [execWith_synOffset (hyNat.symm ▸ hS) (hbNat.symm ▸ hB) hnull, hyNat, hbNat, hd, h, settle_ok]

/-! ## The loop with the delay it leaves (R232) -/

/-- The transitions from time `k` to `e`, and the delay they leave. -/
def runFrom (c : Config) (o e k : Nat) (s : State) : Attempt :=
  (runLoop c o e (e - k) k s).map fun r => setDelay o (fun _ => r.2 - e) r.1

/-- A loop with fuel enough is that of `runFrom`. -/
theorem map_runLoop_eq_runFrom {fuel k : Nat} (h : e - k ≤ fuel) (s : State) :
    (runLoop c o e fuel k s).map (fun r => setDelay o (fun _ => r.2 - e) r.1) = runFrom c o e k s := by
  rw [runFrom, runLoop_fuel o e fuel (e - k) k s h (Nat.le_refl _)]

theorem runFrom_of_le {k : Nat} (h : e ≤ k) (s : State) :
    runFrom c o e k s = .ok (setDelay o (fun _ => k - e) s) := by
  rw [runFrom, Nat.sub_eq_zero_of_le h]
  rfl

/-- One transition before the end: WAVE_STEP, EMIT, WAVE_PERIOD, and on. -/
theorem runFrom_step {k : Nat} (h : k < e) (hrun : runFrom c o e k s = .ok t) :
    ∃ u, emit c o k (ampOf c o (waveStep c o s)) (waveStep c o s) = .ok u ∧
      runFrom c o e (k + wavePeriod c o u) u = .ok t := by
  obtain ⟨n, hn⟩ : ∃ n, e - k = n + 1 := ⟨e - k - 1, by omega⟩
  rw [runFrom, hn, runLoop, if_pos h] at hrun
  split at hrun
  · cases hrun
  next u hu =>
    have hperiod := wavePeriod_pos c o u
    rw [map_runLoop_eq_runFrom (by omega)] at hrun
    exact ⟨u, hu, hrun⟩

/-- The loop neither reads nor keeps the delay. -/
theorem runFrom_setDelay (k d : Nat) (s : State) :
    runFrom c o e k (setDelay o (fun _ => d) s) = runFrom c o e k s := by
  have hloop := runLoop_delay (c := c) o e d (e - k) k s
  rw [runFrom, setDelay, ← State.modOsc, hloop, runFrom]
  cases runLoop c o e (e - k) k s with
  | error x => rfl
  | ok r => simp only [Except.map, setDelay, State.modOsc, modify_modify]

/-- The loop to `e` is the loop to an earlier `m`, and then the loop resumed from the delay that one leaves. -/
theorem runFrom_split {m k : Nat} (hme : m ≤ e) (h : runFrom c o e k s = .ok t) :
    ∃ u, runFrom c o m k s = .ok u ∧ ∀ P, u.oscs[o]? = some P → runFrom c o e (m + P.delay) u = .ok t := by
  rw [runFrom, runLoop_split o m e hme (e - k) k s (Nat.le_refl _)] at h
  split at h
  · cases h
  next r hr =>
    obtain ⟨-, hle, hend⟩ := runLoop_ok c o m _ _ _ _ hr
    rw [map_runLoop_eq_runFrom (by omega)] at h
    refine ⟨setDelay o (fun _ => r.2 - m) r.1, ?_, fun P hP => ?_⟩
    · rw [← map_runLoop_eq_runFrom (fuel := e - k) (by omega), hr]
      rfl
    · rw [delay_of_setDelay hP, runFrom_setDelay, Nat.add_sub_cancel' (hend (by omega)), h]

theorem Committed.runFrom (h : Committed c o s) {k : Nat} (hrun : runFrom c o e k s = .ok t) : Committed c o t := by
  unfold Machine.runFrom at hrun
  cases hloop : runLoop c o e (e - k) k s with
  | error x => rw [hloop] at hrun; cases hrun
  | ok r =>
    rw [hloop] at hrun
    cases hrun
    exact (runLoop_committed o e _ _ _ _ h hloop).setDelay _

theorem runFrom_muted {k : Nat} (h : runFrom c o e k s = .ok t) (amp : Int) (bufs : List Buf) :
    runFrom c o e k (s.muted o amp bufs) = .ok (t.muted o amp bufs) := by
  unfold runFrom at h ⊢
  cases hloop : runLoop c o e (e - k) k s with
  | error x => rw [hloop] at h; cases h
  | ok r =>
    rw [hloop] at h
    cases h
    rw [runLoop_muted o e amp bufs _ _ _ _ hloop]
    simp only [Except.map, State.muted, State.modOsc, setDelay, modify_modify]

/-! ## OSC.RUN as its first EMIT and the loop -/

theorem oscRun_of_emit (hO : s.oscs[o]? = some O) (hae : a ≤ e) (hemit : emit c o a (ampOf c o s) s = .ok s') :
    oscRun c o a e s = runFrom c o e (a + O.delay) s' := by
  obtain ⟨last, hslot⟩ := emit_slot hemit hO
  rw [oscRun, if_neg (Nat.not_lt.mpr hae), hemit, ← map_runLoop_eq_runFrom (fuel := e - a) (by omega)]
  simp only [runTransitions, hslot]
  cases runLoop c o e (e - a) (a + O.delay) s' <;> rfl

theorem oscRun_emits (hO : s.oscs[o]? = some O) (h : oscRun c o a e s = .ok t) :
    a ≤ e ∧ ∃ s', emit c o a (ampOf c o s) s = .ok s' ∧ runFrom c o e (a + O.delay) s' = .ok t := by
  obtain ⟨hae, s', -, hemit, -⟩ := oscRun_ok hO h
  exact ⟨hae, s', hemit, by rw [← oscRun_of_emit hO hae hemit, h]⟩

/-- A run over the empty interval is the EMIT. -/
theorem oscRun_empty (hO : s.oscs[o]? = some O) (hemit : emit c o a (ampOf c o s) s = .ok s') :
    oscRun c o a a s = .ok s' := by
  obtain ⟨last, hslot⟩ := emit_slot hemit hO
  rw [oscRun_of_emit hO (Nat.le_refl a) hemit, runFrom_of_le (Nat.le_add_right a O.delay), Nat.add_sub_cancel_left]
  exact congrArg _ (setDelay_self hslot rfl)

/-- Where the slot has nothing to emit, a run resumes the loop from the delay it finds. -/
theorem oscRun_resumes (hO : s.oscs[o]? = some O) (hcommitted : Committed c o s) (hae : a ≤ e) :
    oscRun c o a e s = runFrom c o e (a + O.delay) s :=
  oscRun_of_emit hO hae (emit_of_committed hcommitted)

theorem oscRun_committed (hO : s.oscs[o]? = some O) (h : oscRun c o a e s = .ok t) : Committed c o t := by
  obtain ⟨-, s', hemit, hrun⟩ := oscRun_emits hO h
  exact (emit_committed hemit).runFrom hrun

/-! ## A run in two parts -/

theorem oscRun_split {m : Nat} (hO : s.oscs[o]? = some O) (ham : a ≤ m) (hme : m ≤ e) (h : oscRun c o a e s = .ok t) :
    ∃ u, oscRun c o a m s = .ok u ∧ oscRun c o m e u = .ok t := by
  obtain ⟨-, s', hemit, hrun⟩ := oscRun_emits hO h
  obtain ⟨u, hfirst, hsecond⟩ := runFrom_split hme hrun
  have hfirst' : oscRun c o a m s = .ok u := (oscRun_of_emit hO ham hemit).trans hfirst
  obtain ⟨Q, hQ, -⟩ := (SlotFrame.oscRun hfirst').slot O hO
  exact ⟨u, hfirst', (oscRun_resumes hQ (oscRun_committed hO hfirst') hme).trans (hsecond Q hQ)⟩

/-! ## A muted run (R234) -/

theorem oscRun_muted (hO : s.oscs[o]? = some O) (h : oscRun c o a e s = .ok t) (amp : Int) (bufs : List Buf) :
    oscRun c o a e (s.muted o amp bufs) = .ok (t.muted o amp bufs) := by
  obtain ⟨hae, s', hemit, hrun⟩ := oscRun_emits hO h
  have hslot : (s.muted o amp bufs).oscs[o]? = some { O with output := none, lastAmp := amp } := by
    simp [State.muted, hO]
  rw [oscRun_of_emit hslot hae (emit_muted _ _ _ _ _ _), ← muted_emit hemit amp bufs]
  exact runFrom_muted hrun amp bufs

theorem muted_eq_set (hO : s.oscs[o]? = some O) (amp : Int) (bufs : List Buf) :
    s.muted o amp bufs =
      { s with bufs := bufs, oscs := s.oscs.set o { O with output := none, lastAmp := amp } } := by
  rw [State.muted, State.modOsc_eq_set hO]

/-! ## A time that goes back (R371) -/

theorem runCommand_of_late (h : e < a) : runCommand c o a e s = raiseFault 0x32 .timeOrder s := if_pos h

theorem timedCommand_of_late {op : Byte} {ci time : Nat} {C : Chip} (hC : s.chips[ci]? = some C)
    (h : time < C.lastTime) (body : State → Attempt) :
    timedCommand c op ci time body s = raiseFault op .timeOrder s := by
  simp only [timedCommand, hC, if_pos h]

/-! ## The statements -/

/-- Settles O39: the second run finds nothing to emit and resumes the loop where the first cut it. -/
theorem splitRunsAgree : Obligations.SplitRunsAgree := by
  intro o a m e s t ham hme ho h hfault
  have hrun := oscRun_of_exec ho h hfault
  obtain ⟨u, hfirst, hsecond⟩ := oscRun_split (List.getElem?_eq_getElem ho) ham hme hrun
  have hframe := SlotFrame.oscRun hfirst
  have hglobal : u.global = t.global := by rw [(SlotFrame.oscRun hsecond).rest]
  have ho' : o.toNat < u.oscs.length := hframe.oscs.length.symm ▸ ho
  exact ⟨u, exec_eq_next (execWith_oscRun_of_ok ho hfirst), hglobal ▸ hfault,
    exec_eq_next (execWith_oscRun_of_ok ho' hsecond)⟩

/-- Settles O40: both runs go through the same transitions, and the muted one emits at none of them. -/
theorem mutedRunKeepsCounting : Obligations.MutedRunKeepsCounting := by
  intro o a e s t O P hO hP h hfault
  have hrun := oscRun_of_exec (lt_length_of_slot hO) h hfault
  have hmuted := oscRun_muted hO hrun O.lastAmp s.bufs
  have hframe := SlotFrame.oscRun hrun
  rw [muted_eq_set hO, muted_eq_set hP, hframe.oscs.set_eq hP] at hmuted
  exact exec_eq_next (execWith_oscRun_of_ok (by simpa using lt_length_of_slot hO) hmuted)

/-- Settles O41: each of the four commands checks its time before anything else. -/
theorem timeOrderFaults : Obligations.TimeOrderFaults := by
  refine ⟨fun o a e s ho hfault hlate => exec_eq_next ?_, fun ci time s C hC hfault hlate => ?_⟩
  · rw [execWith_oscRun ho, runCommand_of_late hlate, raiseFault_of_clear _ _ _ hfault]
    rfl
  · have hhas : hasChip s ci = true := by simpa [hasChip] using (List.getElem?_eq_some_iff.mp hC).1
    have hfaults : ∀ op body, timedCommand Config.impl op ci.toNat time.toNat body s =
        { s with global := ⟨true, 3, op⟩ } := fun op body => by
      rw [timedCommand_of_late hC hlate, raiseFault_of_clear _ _ _ hfault]
      rfl
    refine ⟨fun addr data => exec_eq_next ?_, exec_eq_next ?_, exec_eq_next ?_⟩
    · rw [execWith, cmdChipWrite, hhas, whenInRange_true, hfaults]
    · rw [execWith, cmdChipRununtil, hhas, whenInRange_true, hfaults]
    · rw [execWith, cmdChipEndframe, hhas, whenInRange_true, hfaults]

end Sys2Proof.Machine
end

section
/-! PROOF. A run of a slot as a whole (42_oscillator_ops.md R231 to R233): what it keeps where it completes, and that
its emissions and transitions are the commands SYN.OFFSET, VOICE.TICK and OSC.RUN. -/

namespace Sys2Proof.Machine

variable {c : Config} {s s' t : State} {o a e : Nat} {O P : Osc}

/-! ## What a run keeps of its slot -/

/-- Every waveform transition of the slot, every emission and every change of its delay keep `K`. -/
structure RunKeeps (c : Config) (o : Nat) (K : State → Prop) : Prop where
  step : ∀ s, K s → K (waveStep c o s)
  emit : ∀ s s' k amp, emit c o k amp s = .ok s' → K s → K s'
  delay : ∀ s d, K s → K (setDelay o d s)

theorem RunKeeps.runFrom {K : State → Prop} (h : RunKeeps c o K) {k : Nat} (hrun : runFrom c o e k s = .ok t)
    (hs : K s) : K t := by
  induction hn : e - k using Nat.strong_induction_on generalizing k s with
  | _ n ih =>
    by_cases hk : k < e
    · obtain ⟨u, hu, hrest⟩ := runFrom_step hk hrun
      have hperiod := wavePeriod_pos c o u
      exact ih _ (by omega) hrest (h.emit _ _ _ _ hu (h.step _ hs)) rfl
    · rw [runFrom_of_le (Nat.le_of_not_lt hk)] at hrun
      cases hrun
      exact h.delay _ _ hs

theorem RunKeeps.oscRun {K : State → Prop} (h : RunKeeps c o K) (hO : s.oscs[o]? = some O)
    (hrun : oscRun c o a e s = .ok t) (hs : K s) : K t := by
  obtain ⟨-, s', hemit, hloop⟩ := oscRun_emits hO hrun
  exact h.runFrom hloop (h.emit _ _ _ _ hemit hs)

/-- The slot has the registers and the sink of `O`, and if it is muted, its committed amplitude and every BUF as
given. -/
def SlotKept (o : Nat) (O : Osc) (bufs : List Buf) (s : State) : Prop :=
  ∃ P, s.oscs[o]? = some P ∧ P.regs = O.regs ∧ P.output = O.output ∧
    (O.output = none → P.lastAmp = O.lastAmp ∧ s.bufs = bufs)

theorem SlotKept.waveStep {bufs : List Buf} (h : SlotKept o O bufs s) : SlotKept o O bufs (waveStep c o s) := by
  obtain ⟨P, hP, hregs, hout, hmuted⟩ := h
  unfold Machine.waveStep
  split
  · exact ⟨P, hP, hregs, hout, hmuted⟩
  · exact ⟨{ P with toTone := steppedTone c (oscKind c o) P.toTone }, by simp [hP], hregs, hout, hmuted⟩

theorem SlotKept.emit {bufs : List Buf} (h : SlotKept o O bufs s) {k : Nat} {amp : Int}
    (he : emit c o k amp s = .ok s') : SlotKept o O bufs s' := by
  obtain ⟨P, hP, hregs, hout, hmuted⟩ := h
  cases hb : O.output with
  | none =>
    rw [emit_eq_self hP (.inl (hout.trans hb))] at he
    cases he
    exact ⟨P, hP, hregs, hout, hmuted⟩
  | some b =>
    obtain ⟨last, hslot⟩ := emit_slot he hP
    exact ⟨_, hslot, hregs, hout, fun hnone => by rw [hb] at hnone; cases hnone⟩

theorem SlotKept.setDelay {bufs : List Buf} (h : SlotKept o O bufs s) (d : Osc → Nat) :
    SlotKept o O bufs (setDelay o d s) := by
  obtain ⟨P, hP, hregs, hout, hmuted⟩ := h
  exact ⟨_, getElem?_setDelay hP d, hregs, hout, hmuted⟩

theorem SlotKept.runKeeps (c : Config) (o : Nat) (O : Osc) (bufs : List Buf) : RunKeeps c o (SlotKept o O bufs) :=
  ⟨fun _ h => h.waveStep, fun _ _ _ _ he h => h.emit he, fun _ d h => h.setDelay d⟩

theorem SlotKept.oscRun (hO : s.oscs[o]? = some O) (h : oscRun c o a e s = .ok t) : SlotKept o O s.bufs t :=
  (SlotKept.runKeeps c o O s.bufs).oscRun hO h ⟨O, hO, rfl, rfl, fun _ => ⟨rfl, rfl⟩⟩

/-- A ready slot's run completes within the slot's frame, keeps registers and sink, and commits what it presents. -/
theorem oscRun_of_ready (hO : s.oscs[o]? = some O) (hae : a ≤ e) (hready : SlotReady c s e o) :
    ∃ t O', oscRun c o a e s = .ok t ∧ t = { s with oscs := s.oscs.set o O', voices := t.voices, bufs := t.bufs } ∧
      O'.regs = O.regs ∧ O'.output = O.output ∧ (O.output = none → O'.lastAmp = O.lastAmp ∧ t.bufs = s.bufs) ∧
      (O.output ≠ none → O'.lastAmp = ampOf c o t) ∧ OnlyAt (fun v => voiceOf c o = some v) s.voices t.voices ∧
      OnlyAt (fun b => O.output = some b) s.bufs t.bufs ∧
      ∀ (b : Nat) B B', s.bufs[b]? = some B → t.bufs[b]? = some B' → SameButCells B B' := by
  obtain ⟨t, hrun⟩ := oscRun_completes c o a e s hready hae
  obtain ⟨O', hO', hregs, hout, hmuted⟩ := SlotKept.oscRun hO hrun
  obtain ⟨hrest, hoscs, -, hvoices, hbufs, hcells⟩ := SlotFrame.oscRun hrun
  refine ⟨t, O', hrun, ?_, hregs, hout, hmuted, fun hsink => ?_, hvoices, hbufs.mono ?_, hcells⟩
  · rw [← hoscs.eq_set hO']
    exact hrest
  · exact (oscRun_committed hO hrun O' hO').resolve_left (hout.symm ▸ hsink)
  · rintro b ⟨Q, hQ, hb⟩
    obtain rfl := Option.some.inj (hO.symm.trans hQ)
    exact hb

/-! ## The functions of a slot (R231; 43_brr_voice_ops.md R290) -/

theorem ampOf_of_voice {v : Nat} {V : Voice} (hv : voiceOf c o = some v) (hV : s.voices[v]? = some V) :
    ampOf c o s = V.out := by
  simp only [ampOf, hv, hV, Option.map_some, Option.getD_some]

theorem ampOf_of_no_voice (hv : voiceOf c o = none) (hO : s.oscs[o]? = some O) :
    ampOf c o s = curAmp c (oscKind c o) O.toTone := by
  simp only [ampOf, hv, hO, Option.map_some, Option.getD_some]

theorem slotPeriod_eq_wavePeriod (c : Config) (o : Nat) (s : State) : slotPeriod c o s = wavePeriod c o s := rfl

/-- With a record for every voice, VOICE.TICK less its response is the transition of a slot that wraps one. -/
theorem stepSlot_eq_waveStep (hvoices : numVoice c ≤ s.voices.length) : stepSlot c o s = waveStep c o s := by
  unfold stepSlot waveStep
  cases hv : voiceOf c o with
  | none => rfl
  | some v =>
    have hlt := voiceOf_lt hv
    have hv256 : v < 256 := Nat.lt_of_lt_of_le hlt (Nat.le_trans (numVoice_le c) (Nat.le_of_lt (numOsc_lt c)))
    have hvNat : (BitVec.ofNat 8 v).toNat = v := Nat.mod_eq_of_lt hv256
    have hhas : hasVoice s (BitVec.ofNat 8 v) = true := by simpa [hasVoice, hvNat] using Nat.lt_of_lt_of_le hlt hvoices
    simp only [execWith, cmdVoiceTick, hhas, whenInRange_true, hvNat]
    rfl

/-! ## Emissions and transitions as commands (R232, R233) -/

/-- The first emission of a run as a command: SYN.OFFSET of the difference, then the committed amplitude. -/
theorem emit_as_synOffset {b : Nat} {time : Word32} {amp : Int} (hO : s.oscs[o]? = some O) (ho : o < numOsc c)
    (hbufs : s.bufs.length ≤ 255) (hemit : emit c o time.toNat amp s = .ok s') (hb : O.output = some b)
    (hne : amp ≠ O.lastAmp) (hlo : -2147483648 ≤ amp - O.lastAmp) (hhi : amp - O.lastAmp < 2147483648) :
    ∃ u, execWith c (.synOffset (BitVec.ofNat 8 (oscSyn c o)) (BitVec.ofNat 8 b) time
        (BitVec.ofInt 32 (amp - O.lastAmp))) s = u ∧
      s' = { u with oscs := u.oscs.set o { O with lastAmp := amp } } := by
  obtain ⟨u, hu, hs'⟩ := emit_of_difference hO hb hne hemit
  rw [emittedDelta_of_fits hlo hhi] at hu
  exact ⟨u, execWith_synOffset_of_ok (Nat.lt_trans (oscSyn_lt c ho) (numSyn_lt c)) hbufs hlo hhi hu, hs'⟩

/-- A run past the next transition `m`, after its first emission: the transition, the empty run at `m`, and the run
resumed with WAVE_PERIOD as the delay. -/
theorem runFrom_as_commands {o : Byte} {m e : Word32} (ho : o.toNat < s.oscs.length)
    (hvoices : numVoice c ≤ s.voices.length) (hme : m < e) (hrun : runFrom c o.toNat e.toNat m.toNat s = .ok t) :
    ∃ u, execWith c (.oscRun o m m) (stepSlot c o.toNat s) = u ∧
      t = execWith c (.oscRun o m e) (setDelay o.toNat (fun _ => slotPeriod c o.toNat u) u) := by
  simp only [stepSlot_eq_waveStep hvoices, slotPeriod_eq_wavePeriod]
  obtain ⟨u, hu, hrest⟩ := runFrom_step hme hrun
  have hstep : (waveStep c o.toNat s).oscs.length = s.oscs.length := (SlotFrame.waveStep c o.toNat s).oscs.length
  have hlen : u.oscs.length = s.oscs.length := (SlotFrame.emit hu).oscs.length.trans hstep
  have hslot := List.getElem?_eq_getElem (hstep.symm ▸ ho)
  have hslot' := getElem?_setDelay (List.getElem?_eq_getElem (hlen.symm ▸ ho)) fun _ => wavePeriod c o.toNat u
  refine ⟨u, ?_, (execWith_oscRun_of_ok (lt_length_of_slot hslot') ?_).symm⟩
  · exact execWith_oscRun_of_ok (lt_length_of_slot hslot) (oscRun_empty hslot hu)
  · have hresume := oscRun_resumes hslot' ((emit_committed hu).setDelay _) (Nat.le_of_lt hme)
    exact hresume.trans ((runFrom_setDelay _ _ u).trans hrest)

/-! ## The statement -/

/-- Settles O38: a ready slot's run completes, and a run that does not fault is its first EMIT and then the loop, cut
after its first transition. -/
theorem oscRunCompletes : Obligations.OscRunCompletes := by
  constructor
  · intro o a e s O hO hae hready
    obtain ⟨t, O', hrun, hrest⟩ := oscRun_of_ready hO hae hready
    exact ⟨t, O', exec_eq_next (execWith_oscRun_of_ok (lt_length_of_slot hO) hrun), hrest⟩
  · rintro c o a e s r t O amp hO ho hbufs hvoices hae hr ht hfault rfl
    have hlt := lt_length_of_slot hO
    obtain ⟨-, s', hemit, hloop⟩ := oscRun_emits hO (oscRun_of_no_fault hlt ht hfault)
    obtain rfl : s' = r := (execWith_oscRun_of_ok hlt (oscRun_empty hO hemit)).symm.trans hr
    obtain ⟨last, hslot⟩ := emit_slot hemit hO
    refine ⟨fun v V hv hV => ampOf_of_voice hv hV, fun hv => ampOf_of_no_voice hv hO, fun hquiet => ?_,
      fun b hb hne hlo hhi => emit_as_synOffset hO ho hbufs hemit hb hne hlo hhi, fun hlate => ?_, fun m hm hme => ?_⟩
    · rw [emit_eq_self hO hquiet] at hemit
      exact (Except.ok.inj hemit).symm
    · rw [runFrom_of_le hlate] at hloop
      rw [← Except.ok.inj hloop, setDelay_eq_set hslot, setDelay_eq_set hslot]
      have hae' : a.toNat ≤ e.toNat := hae
      simp only [show a.toNat + O.delay - e.toNat = O.delay - (e.toNat - a.toNat) by omega]
    · have hframe := SlotFrame.emit hemit
      rw [← hm] at hloop
      exact runFrom_as_commands (lt_length_of_slot hslot) (hframe.voices.length.symm ▸ hvoices) hme hloop

end Sys2Proof.Machine
end

section
/-! PROOF. The VOICE commands on a voice that is there (43_brr_voice_ops.md R271 to R273), and what key-on and key-off
leave. -/

namespace Sys2Proof.Machine

variable {c : Config} {s : State} {v : Byte} {V W : Voice}

/-! ## The command on its unit (30_encoding.md R125) -/

theorem hasVoice_eq_true (hV : s.voices[v.toNat]? = some V) : hasVoice s v = true := by
  simpa [hasVoice] using (List.getElem?_eq_some_iff.mp hV).1

theorem getElem?_set_voice {k : Nat} (hV : s.voices[k]? = some V) (W : Voice) : (s.voices.set k W)[k]? = some W :=
  List.getElem?_set_self (List.getElem?_eq_some_iff.mp hV).1

theorem State.modVoice_eq_set {k : Nat} (hV : s.voices[k]? = some V) (f : Voice → Voice) :
    s.modVoice k f = { s with voices := s.voices.set k (f V) } := by
  rw [State.modVoice, modify_eq_set _ _ _ V hV]

/-! ## Key-on and key-off (R271, R272) -/

theorem execWith_voiceKeyon (hV : s.voices[v.toNat]? = some V) :
    execWith c (.voiceKeyon v) s = { s with
      voices := s.voices.set v.toNat (keyedOn c (voiceRegs c v.toNat s)
        (sampleDir c (voiceRegs c v.toNat s) (voiceGregs c v.toNat s) (ramRead c s)) V) } := by
  rw [execWith, cmdVoiceKeyon, hasVoice_eq_true hV, whenInRange_true, voiceKeyon, State.modVoice_eq_set hV]

theorem execWith_voiceKeyoff (hV : s.voices[v.toNat]? = some V) :
    execWith c (.voiceKeyoff v) s = { s with voices := s.voices.set v.toNat (keyedOff V) } := by
  rw [execWith, cmdVoiceKeyoff, hasVoice_eq_true hV, whenInRange_true, voiceKeyoff, State.modVoice_eq_set hV]

/-! ## One sample period (R273) -/

/-- What VOICE.TICK makes of voice `v` when it is `V`. -/
def tickedVoice (c : Config) (v : Byte) (s : State) (V : Voice) : Voice :=
  tickVoice c (c.simpleEnvelope v.toNat) (voiceRegs c v.toNat s) (ramRead c s) V

theorem execWith_voiceTick (hV : s.voices[v.toNat]? = some V) :
    execWith c (.voiceTick v) s = { s with
      voices := s.voices.set v.toNat (tickedVoice c v s V)
      rsp := s.rsp ++ [BitVec.ofInt 32 (tickedVoice c v s V).out] } := by
  have htick : voiceTick c v.toNat s = { s with voices := s.voices.set v.toNat (tickedVoice c v s V) } :=
    State.modVoice_eq_set hV _
  have hout : voiceResponse v.toNat { s with voices := s.voices.set v.toNat (tickedVoice c v s V) } =
      BitVec.ofInt 32 (tickedVoice c v s V).out := by
    simp only [voiceResponse, getElem?_set_voice hV, Option.map_some, Option.getD_some]
  rw [execWith, cmdVoiceTick, hasVoice_eq_true hV, whenInRange_true, htick, hout]
  rfl

theorem getElem?_voiceTick (hV : s.voices[v.toNat]? = some V) :
    (execWith c (.voiceTick v) s).voices[v.toNat]? = some (tickedVoice c v s V) := by
  rw [execWith_voiceTick hV]
  exact getElem?_set_voice hV _

theorem eq_tickedVoice (hV : s.voices[v.toNat]? = some V)
    (hW : (execWith c (.voiceTick v) s).voices[v.toNat]? = some W) : W = tickedVoice c v s V :=
  Option.some.inj (hW.symm.trans (getElem?_voiceTick hV))

/-! ## The statements -/

/-- Settles O42: the voice is the one key-on leaves, and SAMPLE_DIR's addresses are reduced modulo RAM_SIZE. -/
theorem keyonRule : Obligations.KeyonRule := by
  intro v s V hV
  exact ⟨_, _, Nat.mod_lt _ (ramSize_pos _), Nat.mod_lt _ (ramSize_pos _), rfl, exec_eq_next (execWith_voiceKeyon hV)⟩

/-- Settles O43: the word is that of its fields, and key-off changes the stage alone. -/
theorem keyoffRule : Obligations.KeyoffRule := by
  intro v s V hV
  refine ⟨?_, exec_eq_next (execWith_voiceKeyoff hV)⟩
  rw [← joinWord_zero_vzab, decode, splitWord_joinWord]
  rfl

end Sys2Proof.Machine
end

section
/-! PROOF. The envelope of a voice over a sample period (43_brr_voice_ops.md R273 to R281): its transitions, its counter
and value, and the law of Release. -/

namespace Sys2Proof.Machine

variable {c : Config} {simple : Bool} {regs : List Byte} {ram : Nat → Byte} {V : Voice}

/-! ## ENVELOPE_UPDATE, stage by stage (R275) -/

theorem envelopeUpdate_of_release (hstage : V.envStage = .release) :
    envelopeUpdate c simple regs V = releaseStep c V := by
  unfold envelopeUpdate
  rw [hstage]

theorem envelopeUpdate_of_gain (hstage : V.envStage ≠ .release) {m : GainMode} (hmode : V.gainMode = some m) :
    envelopeUpdate c simple regs V = gainStep c m regs V := by
  unfold envelopeUpdate
  rw [hmode]
  split <;> simp_all

theorem envelopeUpdate_of_attack (hstage : V.envStage = .attack) (hmode : V.gainMode = none) :
    envelopeUpdate c simple regs V = onRateTick c regs (attackStep c simple regs) V := by
  unfold envelopeUpdate
  rw [hstage, hmode]

theorem envelopeUpdate_of_decay (hstage : V.envStage = .decay) (hmode : V.gainMode = none) :
    envelopeUpdate c simple regs V = decayCheck c regs (onRateTick c regs (decayStep c) V) := by
  unfold envelopeUpdate
  rw [hstage, hmode]

theorem envelopeUpdate_of_sustain (hstage : V.envStage = .sustain) (hmode : V.gainMode = none) :
    envelopeUpdate c simple regs V = onRateTick c regs (decayStep c) V := by
  unfold envelopeUpdate
  rw [hstage, hmode]

/-! ## What each step does to stage, value and counter -/

/-- The value a step of a GAIN mode gives (R281). -/
def gainValue (c : Config) (regs : List Byte) (e : Nat) : GainMode → Nat
  | .direct => gainClamp c .direct (c.gainDirect regs)
  | .linearDec => gainClamp c .linearDec ((e : Int) - c.gainLinearDec)
  | .linearInc => gainClamp c .linearInc ((e : Int) + c.gainLinearInc)
  | .expDec => e - decayDec c e
  | .bentInc => gainClamp c .bentInc ((e : Int) + bentIncrement c e)

theorem gainStep_direct (c : Config) (regs : List Byte) (V : Voice) :
    gainStep c .direct regs V = { V with envValue := gainValue c regs V.envValue .direct } := rfl

/-- Every GAIN mode but Direct takes its step at the counter's pace (log 20). -/
theorem gainStep_of_paced {m : GainMode} (hm : m ≠ .direct) (c : Config) (regs : List Byte) (V : Voice) :
    gainStep c m regs V = onRateTick c regs (fun U => { U with envValue := gainValue c regs U.envValue m }) V := by
  cases m with
  | direct => exact absurd rfl hm
  | _ => rfl

/-- A value a GAIN step computes inside 0..ENV_MAX is taken as it is. -/
theorem gainClamp_of_le (m : GainMode) {x : Int} {n : Nat} (hx : x = n) (hn : n ≤ envMax c) : gainClamp c m x = n := by
  have hmem := gainClamp_of_mem c m x (by omega) (by omega)
  omega

theorem gainValue_direct (e : Nat) (h : c.gainDirect regs ≤ envMax c) :
    gainValue c regs e .direct = c.gainDirect regs := gainClamp_of_le _ rfl h

theorem gainValue_linearDec {e : Nat} (hle : c.gainLinearDec ≤ e) (h : e - c.gainLinearDec ≤ envMax c) :
    gainValue c regs e .linearDec = e - c.gainLinearDec := gainClamp_of_le _ (by omega) h

theorem gainValue_linearInc {e : Nat} (h : e + c.gainLinearInc ≤ envMax c) :
    gainValue c regs e .linearInc = e + c.gainLinearInc := gainClamp_of_le _ (by omega) h

theorem gainValue_bentInc {e : Nat} (h : e + bentIncrement c e ≤ envMax c) :
    gainValue c regs e .bentInc = e + bentIncrement c e := gainClamp_of_le _ (by omega) h

theorem attackStep_of_simple (c : Config) (regs : List Byte) (V : Voice) :
    attackStep c true regs V = { V with envValue := envMax c } := rfl

theorem attackStep_of_lt (h : V.envValue + c.attackInc (c.rateOf V.envStage V.gainMode regs) < envMax c) :
    attackStep c false regs V =
      { V with envValue := V.envValue + c.attackInc (c.rateOf V.envStage V.gainMode regs) } := by
  simp [attackStep, Nat.not_le.mpr h]

theorem attackStep_of_le (h : envMax c ≤ V.envValue + c.attackInc (c.rateOf V.envStage V.gainMode regs)) :
    attackStep c false regs V = { V with envValue := envMax c, envStage := .decay } := by
  simp [attackStep, h]

/-- ATTACK_STEP stays in Attack, or goes to Decay with the envelope at its maximum (R277, R292). -/
theorem attackStep_stage (c : Config) (simple : Bool) (regs : List Byte) (V : Voice) :
    (attackStep c simple regs V).envStage = V.envStage ∨
      (attackStep c simple regs V).envStage = .decay ∧ (attackStep c simple regs V).envValue = envMax c := by
  unfold attackStep
  dsimp only
  split
  · exact .inl rfl
  · split
    · exact .inr ⟨rfl, rfl⟩
    · exact .inl rfl

@[simp] theorem attackStep_counter (c : Config) (simple : Bool) (regs : List Byte) (V : Voice) :
    (attackStep c simple regs V).envCounter = V.envCounter := by
  unfold attackStep
  dsimp only
  split
  · rfl
  · split <;> rfl

/-- DECAY_CHECK changes the stage alone, to Sustain at or below the threshold (R278). -/
theorem decayCheck_eq (c : Config) (regs : List Byte) (V : Voice) :
    decayCheck c regs V = { V with
      envStage := if V.envValue ≤ (c.sustainLevelOf regs + 1) * 0x100 then .sustain else V.envStage } := by
  unfold decayCheck
  split <;> rfl

theorem releaseStep_of_le (h : V.envValue ≤ envelopeQuantum c) :
    releaseStep c V = { V with envValue := 0, envStage := .off } := if_pos h

theorem releaseStep_of_lt (h : envelopeQuantum c < V.envValue) :
    releaseStep c V = { V with envValue := V.envValue - envelopeQuantum c } := if_neg (Nat.not_le.mpr h)

/-! ## The voice at its counter's pace (R276) -/

/-- The step a voice makes when its counter reloads: that of its GAIN mode, or of its stage. -/
def reloadStep (c : Config) (simple : Bool) (regs : List Byte) (V : Voice) : Voice :=
  match V.gainMode, V.envStage with
  | some m, _ => { V with envValue := gainValue c regs V.envValue m }
  | none, .attack => attackStep c simple regs V
  | none, _ => decayStep c V

theorem reloadStep_of_gain {m : GainMode} (hmode : V.gainMode = some m) :
    reloadStep c simple regs V = { V with envValue := gainValue c regs V.envValue m } := by
  unfold reloadStep
  rw [hmode]

theorem reloadStep_of_attack (hmode : V.gainMode = none) (hstage : V.envStage = .attack) :
    reloadStep c simple regs V = attackStep c simple regs V := by
  unfold reloadStep
  rw [hmode, hstage]

theorem reloadStep_of_decay (hmode : V.gainMode = none) (hstage : V.envStage ≠ .attack) :
    reloadStep c simple regs V = decayStep c V := by
  unfold reloadStep
  rw [hmode]
  split <;> simp_all

@[simp] theorem reloadStep_counter (c : Config) (simple : Bool) (regs : List Byte) (V : Voice) :
    (reloadStep c simple regs V).envCounter = V.envCounter := by
  unfold reloadStep
  split
  · rfl
  · exact attackStep_counter c simple regs V
  · rfl

/-- The step where the counter reloads leaves the stage, but for Attack to Decay at the maximum. -/
theorem reloadStep_stage (c : Config) (simple : Bool) (regs : List Byte) (V : Voice) :
    (reloadStep c simple regs V).envStage = V.envStage ∨
      (V.gainMode = none ∧ V.envStage = .attack) ∧
        (reloadStep c simple regs V).envStage = .decay ∧ (reloadStep c simple regs V).envValue = envMax c := by
  unfold reloadStep
  split
  · exact .inl rfl
  · rename_i hmode hstage
    exact (attackStep_stage c simple regs V).imp_right (.intro ⟨hmode, hstage⟩)
  · exact .inl rfl

/-- Steps that agree on the voice's stage and GAIN mode do the same at a RATE_TICK. -/
theorem onRateTick_congr {f g : Voice → Voice}
    (h : ∀ U : Voice, U.gainMode = V.gainMode → U.envStage = V.envStage → f U = g U) :
    onRateTick c regs f V = onRateTick c regs g V := by
  rw [onRateTick_eq rfl, onRateTick_eq rfl, h]
  · rfl
  · rfl

/-- The voice after its RATE_TICK, with the step it makes where the counter reloads. -/
def paced (c : Config) (simple : Bool) (regs : List Byte) (V : Voice) : Voice :=
  onRateTick c regs (reloadStep c simple regs) V

/-- Outside Release and GAIN Direct, an envelope update is a RATE_TICK with its step, and in Decay the check against the
sustain threshold after it. -/
theorem envelopeUpdate_eq_paced (hoff : V.envStage ≠ .off) (hrelease : V.envStage ≠ .release)
    (hdirect : V.gainMode ≠ some .direct) :
    envelopeUpdate c simple regs V =
      if V.gainMode = none ∧ V.envStage = .decay then decayCheck c regs (paced c simple regs V)
      else paced c simple regs V := by
  cases hmode : V.gainMode with
  | some m =>
    have hm : m ≠ .direct := fun h => hdirect (h ▸ hmode)
    rw [if_neg (by simp), envelopeUpdate_of_gain hrelease hmode, gainStep_of_paced hm]
    exact onRateTick_congr fun U hm' _ => (reloadStep_of_gain (hm'.trans hmode)).symm
  | none =>
    have hdecayStep (h : V.envStage ≠ .attack) : onRateTick c regs (decayStep c) V = paced c simple regs V :=
      onRateTick_congr fun U hm hs => (reloadStep_of_decay (hm.trans hmode) (hs ▸ h)).symm
    cases hstage : V.envStage with
    | off => exact absurd hstage hoff
    | release => exact absurd hstage hrelease
    | attack =>
      rw [if_neg (by simp), envelopeUpdate_of_attack hstage hmode]
      exact onRateTick_congr fun U hm hs => (reloadStep_of_attack (hm.trans hmode) (hs.trans hstage)).symm
    | decay => rw [if_pos ⟨rfl, rfl⟩, envelopeUpdate_of_decay hstage hmode, hdecayStep (by simp [hstage])]
    | sustain => rw [if_neg (by simp), envelopeUpdate_of_sustain hstage hmode, hdecayStep (by simp [hstage])]

/-- At the counter's pace a voice leaves its stage only from Attack, to Decay at the maximum. -/
theorem paced_stage (c : Config) (simple : Bool) (regs : List Byte) (V : Voice) :
    (paced c simple regs V).envStage = V.envStage ∨
      (V.gainMode = none ∧ V.envStage = .attack) ∧
        (paced c simple regs V).envStage = .decay ∧ (paced c simple regs V).envValue = envMax c := by
  rw [paced, onRateTick_eq rfl]
  split
  · exact reloadStep_stage c simple regs { V with envCounter := (envRateInit c : Int) }
  · exact .inl rfl

/-! ## Stage, value and counter after an update -/

section
variable (hoff : V.envStage ≠ .off) (hrelease : V.envStage ≠ .release) (hdirect : V.gainMode ≠ some .direct)
include hoff hrelease hdirect

/-- The check against the sustain threshold leaves counter and value. -/
theorem envelopeUpdate_counter_value :
    (envelopeUpdate c simple regs V).envCounter = (paced c simple regs V).envCounter ∧
    (envelopeUpdate c simple regs V).envValue = (paced c simple regs V).envValue := by
  rw [envelopeUpdate_eq_paced hoff hrelease hdirect]
  split
  · rw [decayCheck_eq]; exact ⟨rfl, rfl⟩
  · exact ⟨rfl, rfl⟩

theorem envelopeUpdate_stage_of_gain (h : V.gainMode ≠ none) :
    (envelopeUpdate c simple regs V).envStage = V.envStage := by
  rw [envelopeUpdate_eq_paced hoff hrelease hdirect, if_neg fun hdecay => h hdecay.1]
  exact (paced_stage c simple regs V).resolve_right fun hattack => h hattack.1.1

/-- In Decay the stage is Sustain exactly where the new value is at or below the threshold (R278). -/
theorem envelopeUpdate_stage_of_decay (hmode : V.gainMode = none) (hstage : V.envStage = .decay) :
    (envelopeUpdate c simple regs V).envStage =
      if (envelopeUpdate c simple regs V).envValue ≤ (c.sustainLevelOf regs + 1) * 0x100 then .sustain else .decay := by
  have hpaced : (paced c simple regs V).envStage = .decay :=
    ((paced_stage c simple regs V).resolve_right fun hattack => by simp [hstage] at hattack).trans hstage
  rw [envelopeUpdate_eq_paced hoff hrelease hdirect, if_pos ⟨hmode, hstage⟩, decayCheck_eq, hpaced]

variable {left : Int} (hleft : left = V.envCounter - (c.envelopeRates (c.rateOf V.envStage V.gainMode regs) : Int))
include hleft

/-- The counter has not run out: the envelope waits. -/
theorem envelopeUpdate_waits (h : 0 < left) :
    (envelopeUpdate c simple regs V).envCounter = left ∧ (envelopeUpdate c simple regs V).envValue = V.envValue := by
  obtain ⟨hcounter, hvalue⟩ :=
    envelopeUpdate_counter_value (c := c) (simple := simple) (regs := regs) hoff hrelease hdirect
  rw [hcounter, hvalue, paced, onRateTick_eq hleft, if_neg (by omega)]
  exact ⟨rfl, rfl⟩

/-- The counter has run out: it reloads, and the envelope makes its step. -/
theorem envelopeUpdate_reloads (h : left ≤ 0) :
    (envelopeUpdate c simple regs V).envCounter = envRateInit c ∧ (envelopeUpdate c simple regs V).envValue =
      (reloadStep c simple regs { V with envCounter := (envRateInit c : Int) }).envValue := by
  obtain ⟨hcounter, hvalue⟩ :=
    envelopeUpdate_counter_value (c := c) (simple := simple) (regs := regs) hoff hrelease hdirect
  rw [hcounter, hvalue, paced, onRateTick_eq hleft, if_pos h]
  exact ⟨reloadStep_counter _ _ _ _, rfl⟩

theorem envelopeUpdate_reloads_gain (h : left ≤ 0) {m : GainMode} (hmode : V.gainMode = some m) :
    (envelopeUpdate c simple regs V).envValue = gainValue c regs V.envValue m := by
  rw [(envelopeUpdate_reloads hoff hrelease hdirect hleft h).2]
  exact congrArg Voice.envValue (reloadStep_of_gain (V := { V with envCounter := (envRateInit c : Int) }) hmode)

theorem envelopeUpdate_reloads_decay (h : left ≤ 0) (hmode : V.gainMode = none) (hstage : V.envStage ≠ .attack) :
    (envelopeUpdate c simple regs V).envValue = V.envValue - decayDec c V.envValue := by
  rw [(envelopeUpdate_reloads hoff hrelease hdirect hleft h).2]
  exact congrArg Voice.envValue (reloadStep_of_decay (V := { V with envCounter := (envRateInit c : Int) }) hmode hstage)

end

/-- In Attack the step where the counter reloads is ATTACK_STEP (R277, R292). -/
theorem envelopeUpdate_reloads_attack {left : Int}
    (hleft : left = V.envCounter - (c.envelopeRates (c.rateOf V.envStage V.gainMode regs) : Int)) (h : left ≤ 0)
    (hmode : V.gainMode = none) (hstage : V.envStage = .attack) :
    envelopeUpdate c simple regs V = attackStep c simple regs { V with envCounter := (envRateInit c : Int) } := by
  rw [envelopeUpdate_of_attack hstage hmode, onRateTick_eq hleft, if_pos h]

/-! ## Where an update ends (R274) -/

/-- An update keeps the stage, or makes a transition of the table, to Off from Release alone with envelope 0. -/
theorem envelopeUpdate_transitions (c : Config) (simple : Bool) (regs : List Byte) (hoff : V.envStage ≠ .off) :
    (envelopeUpdate c simple regs V).envStage = V.envStage ∨
    (V.envStage = .release ∧ (envelopeUpdate c simple regs V).envStage = .off ∧
      (envelopeUpdate c simple regs V).envValue = 0) ∨
    (V.envStage = .attack ∧ (envelopeUpdate c simple regs V).envStage = .decay ∧
      (envelopeUpdate c simple regs V).envValue = envMax c) ∨
    (V.envStage = .decay ∧ (envelopeUpdate c simple regs V).envStage = .sustain ∧
      (envelopeUpdate c simple regs V).envValue ≤ (c.sustainLevelOf regs + 1) * 0x100) := by
  by_cases hrelease : V.envStage = .release
  · rw [envelopeUpdate_of_release hrelease]
    obtain hle | hlt := le_or_gt V.envValue (envelopeQuantum c)
    · rw [releaseStep_of_le hle]; exact .inr (.inl ⟨hrelease, rfl, rfl⟩)
    · rw [releaseStep_of_lt hlt]; exact .inl rfl
  by_cases hdirect : V.gainMode = some .direct
  · rw [envelopeUpdate_of_gain hrelease hdirect]; exact .inl rfl
  by_cases hdecay : V.gainMode = none ∧ V.envStage = .decay
  · have hstage := envelopeUpdate_stage_of_decay (c := c) (simple := simple) (regs := regs) hoff hrelease hdirect
      hdecay.1 hdecay.2
    split at hstage
    · exact .inr (.inr (.inr ⟨hdecay.2, hstage, ‹_›⟩))
    · exact .inl (hstage.trans hdecay.2.symm)
  · rw [envelopeUpdate_eq_paced hoff hrelease hdirect, if_neg hdecay]
    obtain hsame | ⟨⟨-, hattack⟩, hmax⟩ := paced_stage c simple regs V
    · exact .inl hsame
    · exact .inr (.inr (.inl ⟨hattack, hmax⟩))

/-- Only Release ends in Off. -/
theorem envelopeUpdate_sounding (c : Config) (simple : Bool) (regs : List Byte) (hoff : V.envStage ≠ .off)
    (hrelease : V.envStage ≠ .release) : (envelopeUpdate c simple regs V).envStage ≠ .off := by
  obtain h | ⟨h, -⟩ | ⟨-, h, -⟩ | ⟨-, h, -⟩ := envelopeUpdate_transitions c simple regs hoff
  · rwa [h]
  · exact absurd h hrelease
  · simp [h]
  · simp [h]

/-! ## The decoding half of a sample period (R273) -/

/-- The nibbles a sample period asks for, decoded from `V` with what is left of its fraction. -/
def periodNibbles (c : Config) (regs : List Byte) (ram : Nat → Byte) (V : Voice) : Voice × Bool :=
  decodeNibbles c ram ((V.fraction + (c.pitchOf regs).toNat) / 4096)
    { V with fraction := (V.fraction + (c.pitchOf regs).toNat) % 4096 }

theorem decodeAndOutput_of_ok (h : (periodNibbles c regs ram V).2 = true) :
    decodeAndOutput c regs ram V = { (periodNibbles c regs ram V).1 with
      out := voiceOut c
        (c.gaussInterp (periodNibbles c regs ram V).1.fraction (periodNibbles c regs ram V).1.hist c.gauss)
        (periodNibbles c regs ram V).1.envValue regs } := if_pos h

theorem decodeAndOutput_of_end (h : (periodNibbles c regs ram V).2 = false) :
    decodeAndOutput c regs ram V = enterSilence (periodNibbles c regs ram V).1 :=
  if_neg (Bool.eq_false_iff.mp h)

theorem periodNibbles_ok_of_sounding (h : (decodeAndOutput c regs ram V).envStage ≠ .off) :
    (periodNibbles c regs ram V).2 = true := by
  refine Bool.eq_true_of_not_eq_false fun hend => h ?_
  rw [decodeAndOutput_of_end hend]
  rfl

/-- Decoding that was ok throughout leaves the envelope. -/
theorem decodeAndOutput_envelope (h : (periodNibbles c regs ram V).2 = true) :
    (decodeAndOutput c regs ram V).envStage = V.envStage ∧ (decodeAndOutput c regs ram V).envValue = V.envValue ∧
      (decodeAndOutput c regs ram V).envCounter = V.envCounter := by
  rw [decodeAndOutput_of_ok h, periodNibbles, (decodeNibbles_frame c ram _ _).rest]
  exact ⟨rfl, rfl, rfl⟩

/-! ## A tick and its envelope update (R273) -/

theorem tickVoice_of_off (h : V.envStage = .off) : tickVoice c simple regs ram V = { V with out := 0 } := if_pos h

theorem tickVoice_of_period0 (hoff : V.envStage ≠ .off) (h : c.period0Silence V regs = true) :
    tickVoice c simple regs ram V = enterSilence V := by
  rw [tickVoice, if_neg hoff, if_pos h]

theorem tickVoice_of_ended (hoff : V.envStage ≠ .off) (hperiod : c.period0Silence V regs = false)
    (h : (envelopeUpdate c simple regs V).envStage = .off) :
    tickVoice c simple regs ram V = { envelopeUpdate c simple regs V with out := 0 } := by
  simp only [tickVoice, if_neg hoff, hperiod, Bool.false_eq_true, if_false, if_pos h]

theorem tickVoice_of_sounding (hoff : V.envStage ≠ .off) (hperiod : c.period0Silence V regs = false)
    (h : (envelopeUpdate c simple regs V).envStage ≠ .off) :
    tickVoice c simple regs ram V = decodeAndOutput c regs ram (envelopeUpdate c simple regs V) := by
  simp only [tickVoice, if_neg hoff, hperiod, Bool.false_eq_true, if_false, if_neg h]

/-- A voice that ends a tick sounding has the envelope of its update. -/
theorem tickVoice_envelope (h : (tickVoice c simple regs ram V).envStage ≠ .off) :
    (tickVoice c simple regs ram V).envStage = (envelopeUpdate c simple regs V).envStage ∧
    (tickVoice c simple regs ram V).envValue = (envelopeUpdate c simple regs V).envValue ∧
    (tickVoice c simple regs ram V).envCounter = (envelopeUpdate c simple regs V).envCounter := by
  obtain ⟨-, -, -, htick⟩ := tickVoice_sounding h
  rw [htick] at h ⊢
  exact decodeAndOutput_envelope (periodNibbles_ok_of_sounding h)

/-- A tick that puts a voice in Off leaves it envelope 0 and output 0. -/
theorem tickVoice_silenced (hoff : V.envStage ≠ .off) (h : (tickVoice c simple regs ram V).envStage = .off) :
    (tickVoice c simple regs ram V).envValue = 0 ∧ (tickVoice c simple regs ram V).out = 0 := by
  cases hperiod : c.period0Silence V regs with
  | true => rw [tickVoice_of_period0 hoff hperiod]; exact ⟨rfl, rfl⟩
  | false =>
    by_cases hended : (envelopeUpdate c simple regs V).envStage = .off
    · rw [tickVoice_of_ended hoff hperiod hended]
      obtain hsame | ⟨-, -, hzero⟩ | ⟨-, hdecay, -⟩ | ⟨-, hsustain, -⟩ := envelopeUpdate_transitions c simple regs hoff
      · exact absurd (hsame.symm.trans hended) hoff
      · exact ⟨hzero, rfl⟩
      · cases hdecay.symm.trans hended
      · cases hsustain.symm.trans hended
    · rw [tickVoice_of_sounding hoff hperiod hended] at h ⊢
      cases hok : (periodNibbles c regs ram (envelopeUpdate c simple regs V)).2 with
      | true => exact absurd ((decodeAndOutput_envelope hok).1.symm.trans h) hended
      | false => rw [decodeAndOutput_of_end hok]; exact ⟨rfl, rfl⟩

/-! ## Release (R280) -/

/-- A tick in Release takes one step from the envelope, or ends in Off. -/
theorem tickVoice_release (hrelease : V.envStage = .release) (h : (tickVoice c simple regs ram V).envStage ≠ .off) :
    envelopeQuantum c < V.envValue ∧ (tickVoice c simple regs ram V).envStage = .release ∧
    (tickVoice c simple regs ram V).envValue = V.envValue - envelopeQuantum c ∧
    (tickVoice c simple regs ram V).envCounter = V.envCounter := by
  obtain ⟨-, -, hsounding, -⟩ := tickVoice_sounding h
  obtain ⟨hstage, hvalue, hcounter⟩ := tickVoice_envelope h
  rw [envelopeUpdate_of_release hrelease] at hsounding hstage hvalue hcounter
  obtain hle | hlt := le_or_gt V.envValue (envelopeQuantum c)
  · rw [releaseStep_of_le hle] at hsounding
    exact absurd rfl hsounding
  · rw [releaseStep_of_lt hlt] at hstage hvalue hcounter
    exact ⟨hlt, hstage.trans hrelease, hvalue, hcounter⟩

/-- A voice in Release with pitch 0 and no period-0 silencing goes on while its envelope is above one step. -/
theorem tickVoice_release_quiet (hrelease : V.envStage = .release) (hlt : envelopeQuantum c < V.envValue)
    (hperiod : c.period0Silence V regs = false) (hpitch : c.pitchOf regs = 0) (hfraction : V.fraction < 4096) :
    (tickVoice c simple regs ram V).envStage = .release ∧ (tickVoice c simple regs ram V).fraction = V.fraction := by
  have hupdate : envelopeUpdate c simple regs V = { V with envValue := V.envValue - envelopeQuantum c } := by
    rw [envelopeUpdate_of_release hrelease, releaseStep_of_lt hlt]
  have hsteps : V.fraction / 4096 = 0 := Nat.div_eq_of_lt hfraction
  have hrest : V.fraction % 4096 = V.fraction := Nat.mod_eq_of_lt hfraction
  rw [tickVoice_of_sounding (by simp [hrelease]) hperiod (by simp [hupdate, hrelease]), hupdate]
  simp [decodeAndOutput, hpitch, hsteps, hrest, decodeNibbles, hrelease]

/-! ## Runs of ticks -/

section
variable {s : State} {v : Byte}

/-- A tick leaves the registers of every voice. -/
theorem voiceRegs_execWith_voiceTick (hV : s.voices[v.toNat]? = some V) (k : Nat) :
    voiceRegs c k (execWith c (.voiceTick v) s) = voiceRegs c k s := by
  rw [execWith_voiceTick hV]
  rfl

/-- A voice in Off stays there and outputs 0. -/
theorem afterTicks_of_off (n : Nat) : ∀ {s : State} {V W : Voice}, s.voices[v.toNat]? = some V → V.envStage = .off →
    V.out = 0 → (afterTicks c v n s).voices[v.toNat]? = some W → W.envStage = .off ∧ W.out = 0 := by
  induction n with
  | zero =>
    intro s V W hV hoff hout hW
    obtain rfl : V = W := Option.some.inj (hV.symm.trans hW)
    exact ⟨hoff, hout⟩
  | succ n ih =>
    intro s V W hV hoff hout hW
    have htick : tickedVoice c v s V = { V with out := 0 } := tickVoice_of_off hoff
    exact ih (getElem?_voiceTick hV) (by rw [htick]; exact hoff) (by rw [htick]) hW

/-- A voice in Release with envelope `E >= 1` after `n` ticks: still in Release with `E` less `n` steps, all of them
paid, or in Off with output 0. -/
theorem afterTicks_of_release (n : Nat) : ∀ {s : State} {V W : Voice}, s.voices[v.toNat]? = some V →
    V.envStage = .release → 1 ≤ V.envValue → (afterTicks c v n s).voices[v.toNat]? = some W →
    (n * envelopeQuantum c < V.envValue ∧ W.envStage = .release ∧ W.envValue = V.envValue - n * envelopeQuantum c) ∨
      (W.envStage = .off ∧ W.out = 0) := by
  induction n with
  | zero =>
    intro s V W hV hrelease hpos hW
    obtain rfl : V = W := Option.some.inj (hV.symm.trans hW)
    exact .inl ⟨by omega, hrelease, by omega⟩
  | succ n ih =>
    intro s V W hV hrelease hpos hW
    have hnext := getElem?_voiceTick (c := c) hV
    by_cases hoff : (tickedVoice c v s V).envStage = .off
    · have hsilent := tickVoice_silenced (by simp [hrelease]) hoff
      exact .inr (afterTicks_of_off n hnext hoff hsilent.2 hW)
    · obtain ⟨hlt, hstage, hvalue, -⟩ := tickVoice_release hrelease hoff
      have hsplit : (n + 1) * envelopeQuantum c = n * envelopeQuantum c + envelopeQuantum c := Nat.succ_mul _ _
      have hleft : (tickedVoice c v s V).envValue = V.envValue - envelopeQuantum c := hvalue
      obtain ⟨hpaid, hrel, hval⟩ | hend := ih hnext hstage (by omega) hW
      · exact .inl ⟨by omega, hrel, by omega⟩
      · exact .inr hend

/-- Where neither the stream nor the period-0 quirk can silence it, a voice stays in Release while its envelope pays. -/
theorem afterTicks_release_quiet (hperiod : ∀ U regs, c.period0Silence U regs = false) (n : Nat) :
    ∀ {s : State} {V W : Voice}, s.voices[v.toNat]? = some V → V.envStage = .release →
    c.pitchOf (voiceRegs c v.toNat s) = 0 → V.fraction < 4096 → n * envelopeQuantum c < V.envValue →
    (afterTicks c v n s).voices[v.toNat]? = some W → W.envStage = .release := by
  induction n with
  | zero =>
    intro s V W hV hrelease _ _ _ hW
    obtain rfl : V = W := Option.some.inj (hV.symm.trans hW)
    exact hrelease
  | succ n ih =>
    intro s V W hV hrelease hpitch hfraction hpaid hW
    have hsplit : (n + 1) * envelopeQuantum c = n * envelopeQuantum c + envelopeQuantum c := Nat.succ_mul _ _
    obtain ⟨hstage, hfrac⟩ : (tickedVoice c v s V).envStage = .release ∧ (tickedVoice c v s V).fraction = V.fraction :=
      tickVoice_release_quiet hrelease (by omega) (hperiod _ _) hpitch hfraction
    obtain ⟨-, -, hvalue, -⟩ := tickVoice_release (regs := voiceRegs c v.toNat s) (ram := ramRead c s)
      (simple := c.simpleEnvelope v.toNat) hrelease (by rw [← tickedVoice, hstage]; simp)
    rw [← tickedVoice] at hvalue
    exact ih (getElem?_voiceTick hV) hstage (by rwa [voiceRegs_execWith_voiceTick hV]) (by omega) (by omega) hW

end

/-! ## The statements -/

/-- Settles O46: by induction on the ticks, each of which takes one step of Release or ends in Off. -/
theorem releaseLaw : Obligations.ReleaseLaw := by
  intro c v n s V W hV hrelease hpos hW
  have hlaw := afterTicks_of_release n hV hrelease hpos hW
  refine ⟨fun _ => hlaw.imp_left And.right, fun hspent => hlaw.resolve_left fun hpaid => ?_,
    fun hperiod hpitch hfraction hpaid => afterTicks_release_quiet hperiod n hV hrelease hpitch hfraction hpaid hW⟩
  exact absurd hpaid.1 (Nat.not_lt.mpr hspent)

/-- Settles O45: a voice that ends its tick sounding has the stage, value and counter of its envelope update. -/
theorem envelopeTransitions : Obligations.EnvelopeTransitions := by
  intro c v s V W hV hW
  obtain rfl := eq_tickedVoice hV hW
  by_cases hsounds : (tickedVoice c v s V).envStage = .off
  · exact ⟨.inr (.inl hsounds), fun _ _ _ _ _ _ h => absurd hsounds h⟩
  obtain ⟨hoff, -, -, -⟩ := tickVoice_sounding hsounds
  obtain ⟨hstage, hvalue, hcounter⟩ := tickVoice_envelope hsounds
  rw [← tickedVoice] at hstage hvalue hcounter
  constructor
  · rw [hstage, hvalue]
    exact (envelopeUpdate_transitions c _ _ hoff).imp_right (Or.imp_left fun h => h.2.1)
  rintro regs rate left rfl rfl hleft -
  refine ⟨fun hrelease => ?_, fun hrelease hdirect => ?_, fun hrelease hdirect => ?_⟩
  · obtain ⟨hlt, hstage', hvalue', hcounter'⟩ := tickVoice_release hrelease hsounds
    exact ⟨hstage', hcounter', by rw [tickedVoice, hvalue']; omega⟩
  · rw [hstage, hvalue, hcounter, envelopeUpdate_of_gain hrelease hdirect, gainStep_direct]
    exact ⟨rfl, rfl, gainValue_direct V.envValue⟩
  · rw [hstage, hvalue, hcounter]
    refine ⟨envelopeUpdate_stage_of_gain hoff hrelease hdirect, envelopeUpdate_waits hoff hrelease hdirect hleft,
      fun hreload => ?_, envelopeUpdate_stage_of_decay hoff hrelease hdirect⟩
    have hgain {m : GainMode} := envelopeUpdate_reloads_gain (simple := c.simpleEnvelope v.toNat) (m := m)
      hoff hrelease hdirect hleft hreload
    refine ⟨(envelopeUpdate_reloads hoff hrelease hdirect hleft hreload).1, fun hmode hle hmax => ?_,
      fun hmode hmax => ?_, fun hmode => hgain hmode, fun hmode more hmore hmax => ?_,
      fun hmode hattack => ?_, fun hmode hdecay => ?_⟩
    · rw [hgain hmode, gainValue_linearDec hle hmax]
    · rw [hgain hmode, gainValue_linearInc hmax]
    · subst hmore
      rw [hgain hmode, gainValue_bentInc hmax]
      rfl
    · rw [envelopeUpdate_reloads_attack hleft hreload hmode hattack]
      refine ⟨fun hsimple => ?_, fun hsimple hlt => ?_, fun hsimple hle => ?_⟩ <;> rw [hsimple]
      · rw [attackStep_of_simple]
        exact ⟨hattack, rfl⟩
      · rw [attackStep_of_lt (V := { V with envCounter := (envRateInit c : Int) }) hlt]
        exact ⟨hattack, rfl⟩
      · rw [attackStep_of_le (V := { V with envCounter := (envRateInit c : Int) }) hle]
        exact ⟨rfl, rfl⟩
    · refine envelopeUpdate_reloads_decay hoff hrelease hdirect hleft hreload hmode fun hattack => ?_
      simp [hattack] at hdecay

end Sys2Proof.Machine
end

section
/-! PROOF. BRR decoding over a sample period (43_brr_voice_ops.md R273, R282 to R288, R291): the nibbles a voice that
ends its tick sounding has decoded, and what silences it. -/

namespace Sys2Proof.Machine

variable {c : Config} {simple : Bool} {regs : List Byte} {ram : Nat → Byte} {V B : Voice}

/-! ## Opening a block (R283) -/

theorem blockOpen_of_left (hleft : V.nibblesLeft ≠ 0) : blockOpen c ram V = some V := if_pos hleft

/-- With no nibbles left, the next block opens where there is one: at the loop address after a block with the end
flag. -/
theorem blockOpen_of_empty (hleft : V.nibblesLeft = 0) :
    blockOpen c ram V = if V.hdrEnd = true ∧ V.hdrLoop = false then none
      else some (openBlock c ram { V with ramAddr := if V.hdrEnd = true then V.loopAddr else V.ramAddr }) := by
  unfold blockOpen
  rw [if_neg (not_not_intro hleft)]
  by_cases hend : V.hdrEnd = true
  · rw [if_pos hend]
    cases hloop : V.hdrLoop <;> simp [hend]
  · rw [if_neg hend, if_neg hend, if_neg fun h => hend h.1]

/-- A block is open, or opened, exactly as R283 says. -/
theorem blockOpen_eq_some_iff : blockOpen c ram V = some B ↔ BlockOpened c ram V B := by
  by_cases hleft : V.nibblesLeft = 0
  · rw [blockOpen_of_empty hleft]
    split
    · rename_i hend
      exact ⟨nofun, fun h => absurd ((h.2 hleft).1 hend.1) (by simp [hend.2])⟩
    · rename_i hgo
      have hloop (hend : V.hdrEnd = true) : V.hdrLoop = true := Bool.eq_true_of_not_eq_false fun h => hgo ⟨hend, h⟩
      constructor
      · rintro ⟨⟩
        exact ⟨fun h => absurd hleft h, fun _ => ⟨hloop, _, rfl, rfl⟩⟩
      · intro h
        obtain ⟨-, a, rfl, rfl⟩ := h.2 hleft
        rfl
  · rw [blockOpen_of_left hleft]
    exact ⟨fun h => ⟨fun _ => (Option.some.inj h).symm, fun h => absurd h hleft⟩,
      fun h => congrArg some (h.1 hleft).symm⟩

/-- Opening a block leaves the history. -/
theorem BlockOpened.hist_eq (h : BlockOpened c ram V B) : B.hist = V.hist := by
  by_cases hleft : V.nibblesLeft = 0
  · obtain ⟨-, a, -, rfl⟩ := h.2 hleft
    rfl
  · rw [h.1 hleft]

/-! ## One nibble (R284, R285) -/

theorem sextN_toNat (n : BitVec 4) : sextN 4 n.toNat = n.toInt := by revert n; decide

theorem nibbleOf_eq_toInt (c : Config) (first : Bool) (d : Byte) :
    nibbleOf c first d = (if first = c.highNibbleFirst then d.extractLsb' 4 4 else d.extractLsb' 0 4).toInt := by
  unfold nibbleOf
  rw [← sextN_toNat]
  split <;> rfl

theorem shiftedNibble_eq (c : Config) (shift : Fin 16) (n : Int) :
    shiftedNibble c shift n =
      if shift.val ≤ 12 then n * 2 ^ shift.val / 2 ^ c.brrPreshift else c.brrSignOnly (decide (n < 0)) := by
  simp only [shiftedNibble, sarN, shlN, Nat.cast_pow, Nat.cast_ofNat]

theorem brrFilter_eq (c : Config) (f : Fin 4) (p1 p2 : Int) :
    brrFilter c f p1 p2 = if f = 0 then 0
      else if f.val = c.brrOneTapLess.val + 1 then c.brrFilterOne p1 else c.brrFilterTwo f.val p1 p2 := by
  simp only [brrFilter, Fin.ext_iff, Fin.val_zero]

/-- The nibble taken from an open block is the one R284 and R285 describe. -/
theorem nibbleDecoded_takeNibble (hopen : BlockOpened c ram V B) (hearly : c.earlyEnd B ram = false) :
    NibbleDecoded c ram V (takeNibble c ram B) := by
  refine ⟨B, _, _, _, _, hopen, hearly, rfl, rfl, rfl, rfl, ?_⟩
  simp only [takeNibble, nibbleOf_eq_toInt, shiftedNibble_eq, brrFilter_eq, blockNibbles_eq]
  rfl

/-- Where DECODE_NIBBLE answers ok, a block is open, EARLY_END does not hold of it, and its nibble is taken. -/
theorem decodeNibble_ok (h : (decodeNibble c ram V).2 = true) :
    ∃ B, BlockOpened c ram V B ∧ c.earlyEnd B ram = false ∧ (decodeNibble c ram V).1 = takeNibble c ram B := by
  unfold decodeNibble at h ⊢
  cases hopen : blockOpen c ram V with
  | none => simp [hopen] at h
  | some B =>
    cases hearly : c.earlyEnd B ram with
    | true => simp [hopen, hearly] at h
    | false => exact ⟨B, blockOpen_eq_some_iff.mp hopen, hearly, by simp [hearly]⟩

theorem decodeNibble_of_open (hopen : BlockOpened c ram V B) (hearly : c.earlyEnd B ram = false) :
    decodeNibble c ram V = (takeNibble c ram B, true) := by
  simp [decodeNibble, blockOpen_eq_some_iff.mpr hopen, hearly]

/-! ## The nibbles of a sample period (R273) -/

theorem decodeNibbles_succ_of_ok (n : Nat) (h : (decodeNibble c ram V).2 = true) :
    decodeNibbles c ram (n + 1) V = decodeNibbles c ram n (decodeNibble c ram V).1 := if_pos h

theorem decodeNibbles_succ_of_end (n : Nat) (h : (decodeNibble c ram V).2 = false) :
    decodeNibbles c ram (n + 1) V = decodeNibble c ram V := if_neg (by simp [h])

/-- A decoding that was ok throughout has decoded its nibbles one after the other. -/
theorem nibblesDecoded_of_ok (n : Nat) : ∀ {V : Voice}, (decodeNibbles c ram n V).2 = true →
    NibblesDecoded c ram n V (decodeNibbles c ram n V).1 := by
  induction n with
  | zero => intro V _; rfl
  | succ n ih =>
    intro V h
    cases hfirst : (decodeNibble c ram V).2 with
    | false =>
      rw [decodeNibbles_succ_of_end n hfirst, hfirst] at h
      cases h
    | true =>
      obtain ⟨B, hopen, hearly, htake⟩ := decodeNibble_ok hfirst
      rw [decodeNibbles_succ_of_ok n hfirst, htake] at h ⊢
      exact ⟨_, nibbleDecoded_takeNibble hopen hearly, ih h⟩

/-- A stream goes on for `n` nibbles: they are left in the open block, or the next block can be opened. -/
def GoesOn (n : Nat) (V : Voice) : Prop := n ≤ V.nibblesLeft ∨ V.hdrEnd = false ∨ V.hdrLoop = true

/-- A voice whose stream goes on has an open block or opens one, and its stream goes on after the nibble taken. -/
theorem GoesOn.takeNibble {n : Nat} (h : GoesOn (n + 1) V) (hn : n + 1 ≤ 16) (c : Config) (ram : Nat → Byte) :
    ∃ B, BlockOpened c ram V B ∧ GoesOn n (takeNibble c ram B) := by
  by_cases hleft : V.nibblesLeft = 0
  · have hgo : V.hdrEnd = true → V.hdrLoop = true := by
      obtain hle | hend | hloop := h
      · omega
      · simp [hend]
      · exact fun _ => hloop
    refine ⟨_, ⟨fun hne => absurd hleft hne, fun _ => ⟨hgo, _, rfl, rfl⟩⟩, .inl ?_⟩
    show n ≤ 16 - 1
    omega
  · refine ⟨V, ⟨fun _ => rfl, fun hzero => absurd hzero hleft⟩, h.imp_left fun hle => ?_⟩
    show n ≤ V.nibblesLeft - 1
    omega

/-- Without EARLY_END, up to a block's worth of nibbles of a stream that goes on are decoded. -/
theorem decodeNibbles_ok_of_goesOn (hearly : ∀ U, c.earlyEnd U ram = false) (n : Nat) : ∀ {V : Voice}, n ≤ 16 →
    GoesOn n V → (decodeNibbles c ram n V).2 = true := by
  induction n with
  | zero => intro V _ _; rfl
  | succ n ih =>
    intro V hn hgo
    obtain ⟨B, hopen, hrest⟩ := hgo.takeNibble hn c ram
    have htake := decodeNibble_of_open hopen (hearly B)
    rw [decodeNibbles_succ_of_ok n (by rw [htake]), htake]
    exact ih (by omega) hrest

/-- A stream ends: no block is left, or EARLY_END holds of every voice with this history (R288). -/
def StreamEnded (c : Config) (ram : Nat → Byte) (V : Voice) : Prop :=
  (V.nibblesLeft = 0 ∧ V.hdrEnd = true ∧ V.hdrLoop = false) ∨ ∀ U : Voice, U.hist = V.hist → c.earlyEnd U ram = true

/-- At the end of a stream the first nibble asked for ends the decoding. -/
theorem decodeNibbles_of_ended (hend : StreamEnded c ram V) {n : Nat} (hn : n ≠ 0) :
    (decodeNibbles c ram n V).2 = false := by
  obtain ⟨n, rfl⟩ := Nat.exists_eq_succ_of_ne_zero hn
  have hfirst : (decodeNibble c ram V).2 = false := by
    refine Bool.eq_false_iff.mpr fun hok => ?_
    obtain ⟨B, hopen, hearly, -⟩ := decodeNibble_ok hok
    obtain ⟨hleft, hflag, hloop⟩ | hquirk := hend
    · have := (hopen.2 hleft).1 hflag
      simp [hloop] at this
    · simp [hquirk B hopen.hist_eq] at hearly
  rw [decodeNibbles_succ_of_end n hfirst, hfirst]

/-! ## What a tick leaves of the voice -/

/-- Decoding leaves start address, loop address and GAIN mode. -/
theorem decodeAndOutput_keeps (c : Config) (regs : List Byte) (ram : Nat → Byte) (V : Voice) :
    (decodeAndOutput c regs ram V).startAddr = V.startAddr ∧ (decodeAndOutput c regs ram V).loopAddr = V.loopAddr ∧
      (decodeAndOutput c regs ram V).gainMode = V.gainMode := by
  cases hok : (periodNibbles c regs ram V).2 with
  | true =>
    rw [decodeAndOutput_of_ok hok, periodNibbles, (decodeNibbles_frame c ram _ _).rest]
    exact ⟨rfl, rfl, rfl⟩
  | false =>
    rw [decodeAndOutput_of_end hok, periodNibbles, (decodeNibbles_frame c ram _ _).rest]
    exact ⟨rfl, rfl, rfl⟩

/-- A tick leaves start address, loop address and GAIN mode. -/
theorem tickVoice_keeps (c : Config) (simple : Bool) (regs : List Byte) (ram : Nat → Byte) (V : Voice) :
    (tickVoice c simple regs ram V).startAddr = V.startAddr ∧ (tickVoice c simple regs ram V).loopAddr = V.loopAddr ∧
      (tickVoice c simple regs ram V).gainMode = V.gainMode := by
  have hupdate := (envelopeUpdate_frame c simple regs V).rest
  by_cases hoff : V.envStage = .off
  · rw [tickVoice_of_off hoff]; exact ⟨rfl, rfl, rfl⟩
  cases hperiod : c.period0Silence V regs with
  | true => rw [tickVoice_of_period0 hoff hperiod]; exact ⟨rfl, rfl, rfl⟩
  | false =>
    by_cases hended : (envelopeUpdate c simple regs V).envStage = .off
    · rw [tickVoice_of_ended hoff hperiod hended, hupdate]; exact ⟨rfl, rfl, rfl⟩
    · obtain ⟨hstart, hloop, hmode⟩ := decodeAndOutput_keeps c regs ram (envelopeUpdate c simple regs V)
      rw [tickVoice_of_sounding hoff hperiod hended, hstart, hloop, hmode, hupdate]
      exact ⟨rfl, rfl, rfl⟩

/-- A voice that ends its tick sounding has decoded the nibbles of its period from its updated envelope on, and gives
the output sample of what it then holds. -/
theorem tickVoice_decodes (h : (tickVoice c simple regs ram V).envStage ≠ .off) :
    ∃ D, NibblesDecoded c ram ((V.fraction + (c.pitchOf regs).toNat) / 4096)
        { envelopeUpdate c simple regs V with fraction := (V.fraction + (c.pitchOf regs).toNat) % 4096 } D ∧
      tickVoice c simple regs ram V =
        { D with out := voiceOut c (c.gaussInterp D.fraction D.hist c.gauss) D.envValue regs } := by
  obtain ⟨-, -, -, htick⟩ := tickVoice_sounding h
  rw [htick] at h ⊢
  have hok := periodNibbles_ok_of_sounding h
  have hfraction : (envelopeUpdate c simple regs V).fraction = V.fraction := by
    rw [(envelopeUpdate_frame c simple regs V).rest]
  refine ⟨_, ?_, decodeAndOutput_of_ok hok⟩
  rw [← hfraction]
  exact nibblesDecoded_of_ok _ hok

/-- A voice that is not silenced, not released, and whose stream goes on ends its tick sounding. -/
theorem tickVoice_of_goesOn (hoff : V.envStage ≠ .off) (hrelease : V.envStage ≠ .release)
    (hperiod : c.period0Silence V regs = false) (hearly : ∀ U, c.earlyEnd U ram = false)
    (hn : (V.fraction + (c.pitchOf regs).toNat) / 4096 ≤ 16)
    (hgo : GoesOn ((V.fraction + (c.pitchOf regs).toNat) / 4096) V) :
    (tickVoice c simple regs ram V).envStage ≠ .off := by
  have hupdate := envelopeUpdate_sounding c simple regs hoff hrelease
  have hok : (periodNibbles c regs ram (envelopeUpdate c simple regs V)).2 = true := by
    rw [periodNibbles, (envelopeUpdate_frame c simple regs V).rest]
    exact decodeNibbles_ok_of_goesOn hearly _ hn hgo
  rwa [tickVoice_of_sounding hoff hperiod hupdate, (decodeAndOutput_envelope hok).1]

/-- A voice whose stream has ended is in Off after a tick that asks for a nibble. -/
theorem tickVoice_of_ended_stream (hstep : 4096 ≤ V.fraction + (c.pitchOf regs).toNat)
    (hend : StreamEnded c ram V) : (tickVoice c simple regs ram V).envStage = .off := by
  by_contra hsounds
  obtain ⟨-, -, -, htick⟩ := tickVoice_sounding hsounds
  have hok := periodNibbles_ok_of_sounding (htick ▸ hsounds)
  rw [periodNibbles, (envelopeUpdate_frame c simple regs V).rest] at hok
  have hsteps := Nat.div_pos hstep (by decide)
  refine absurd hok (Bool.eq_false_iff.mp (decodeNibbles_of_ended ?_ (Nat.ne_of_gt hsteps)))
  exact hend

/-! ## The statements -/

/-- Settles O44: a tick changes its voice alone; a voice that ends it sounding has decoded its nibbles, and one that
neither quirk silences and whose stream goes on ends it sounding. -/
theorem tickRule : Obligations.TickRule := by
  refine ⟨fun v s V hV => ?_, ?_⟩
  · exact ⟨_, exec_eq_next (execWith_voiceTick hV), tickVoice_of_off, tickVoice_keeps _ _ _ _ _⟩
  rintro c v s V W regs f hV rfl rfl hW
  obtain rfl := eq_tickedVoice hV hW
  refine ⟨fun hoff => ?_, fun hsounds => ?_, fun hperiod hearly hoff hrelease hn hgo => ?_⟩
  · by_cases hV' : V.envStage = .off
    · rw [tickedVoice, tickVoice_of_off hV']
    · exact (tickVoice_silenced hV' hoff).2
  · obtain ⟨hstage, hvalue, hcounter⟩ := tickVoice_envelope hsounds
    obtain ⟨D, hdecoded, hout⟩ := tickVoice_decodes hsounds
    rw [(envelopeUpdate_frame c _ _ V).rest, ← hstage, ← hvalue, ← hcounter] at hdecoded
    exact ⟨D, hdecoded, hout⟩
  · exact tickVoice_of_goesOn hoff hrelease (hperiod _) hearly hn hgo

/-- Settles O47: the first nibble asked for, or the period-0 quirk, ends the voice, and a voice that a tick ends is
silenced. -/
theorem endOfStreamSilences : Obligations.EndOfStreamSilences := by
  rintro c v s V regs hV hoff rfl
  refine ⟨fun hperiod => ?_, fun hstep hend => ?_⟩
  · have htick : tickedVoice c v s V = enterSilence V := tickVoice_of_period0 hoff hperiod
    rw [execWith_voiceTick hV, htick]
    rfl
  · have hended : (tickedVoice c v s V).envStage = .off := tickVoice_of_ended_stream hstep hend
    obtain ⟨hvalue, hout⟩ := tickVoice_silenced hoff hended
    refine ⟨_, ?_, hended, hvalue, hout⟩
    rw [execWith_voiceTick hV, tickedVoice, hout]
    rfl

end Sys2Proof.Machine
end

section
/-! PROOF. The CHIP commands that take no time (44_chip_sequencer_ops.md R320 to R322, R334 to R337): each changes the
units of its chip one by one, and as a chip lists each of them once, all of them at once. -/

namespace Sys2Proof.Machine

variable {c : Config} {s : State} {ci : Byte} {C : Chip}

/-! ## One change for each member of a list -/

/-- Changing each unit of a list without repetitions changes exactly those units, each once. -/
theorem foldl_modify_eq_mapIdx {α : Type} (f : Nat → α → α) {l : List Nat} (hl : l.Nodup) (units : List α) :
    l.foldl (fun m i => m.modify i (f i)) units = units.mapIdx fun i a => if i ∈ l then f i a else a := by
  induction l generalizing units with
  | nil => exact List.ext_getElem? fun j => by simp
  | cons i l ih =>
    obtain ⟨hi, hl⟩ := List.nodup_cons.mp hl
    rw [List.foldl_cons, ih hl]
    refine List.ext_getElem? fun j => ?_
    simp only [List.getElem?_mapIdx, List.getElem?_modify]
    by_cases hj : i = j
    · subst hj; simp [hi, Function.comp_def]
    · simp [hj, Ne.symm hj]

/-- Commands that each change one slot, over a list without repetitions. -/
theorem foldl_modOsc (f : Nat → Osc → Osc) {l : List Nat} (hl : l.Nodup) (s : State) :
    l.foldl (fun t o => t.modOsc o (f o)) s =
      { s with oscs := s.oscs.mapIdx fun o O => if o ∈ l then f o O else O } := by
  rw [← foldl_modify_eq_mapIdx f hl]
  clear hl
  induction l generalizing s with
  | nil => rfl
  | cons o l ih => exact ih (s.modOsc o (f o))

/-- Commands that each change one synthesizer, over a list without repetitions. -/
theorem foldl_modSyn (f : Nat → Syn → Syn) {l : List Nat} (hl : l.Nodup) (s : State) :
    l.foldl (fun t y => t.modSyn y (f y)) s =
      { s with syns := s.syns.mapIdx fun y S => if y ∈ l then f y S else S } := by
  rw [← foldl_modify_eq_mapIdx f hl]
  clear hl
  induction l generalizing s with
  | nil => rfl
  | cons y l ih => exact ih (s.modSyn y (f y))

/-- A list without repetitions, each member with its position, is each member with the position it is found at. -/
theorem zipIdx_eq_map_idxOf {l : List Nat} (hl : l.Nodup) : l.zipIdx = l.map fun o => (o, l.idxOf o) := by
  refine List.ext_getElem (by simp) fun i _ h => ?_
  have hi : i < l.length := by simpa using h
  simp [hl.idxOf_getElem i hi]

/-! ## The command on its unit (30_encoding.md R125) -/

theorem hasChip_eq_true (hci : ci.toNat < s.chips.length) : hasChip s ci = true := by simpa [hasChip] using hci

theorem lt_length_of_chip {k : Nat} (hC : s.chips[k]? = some C) : k < s.chips.length :=
  (List.getElem?_eq_some_iff.mp hC).1

theorem State.modChip_eq_set {k : Nat} (hC : s.chips[k]? = some C) (f : Chip → Chip) :
    s.modChip k f = { s with chips := s.chips.set k (f C) } := by
  rw [State.modChip, modify_eq_set _ _ _ C hC]

/-! ## CHIP.RESET (R320) -/

/-- The voices the oscillators of a list wrap are the ones reset with them (10_state.md R45). -/
theorem foldl_resetWrapped (c : Config) (l : List Nat) (voices : List Voice) :
    l.foldl (fun vs o => resetWrapped c o vs) voices =
      voices.mapIdx fun v V => if l.any (fun o => voiceOf c o == some v) then resetVoice else V := by
  induction l generalizing voices with
  | nil => exact List.ext_getElem? fun j => by simp
  | cons o l ih =>
    rw [List.foldl_cons, ih, resetWrapped_eq_mapIdx, List.mapIdx_mapIdx]
    congr 1
    funext v V
    by_cases hv : voiceOf c o = some v <;> simp [hv]

/-- Resetting oscillators at given positions changes the slots and the voices they wrap. -/
theorem foldl_resetOwned (c : Config) (ci : Nat) (position : Nat → Nat) (l : List Nat) (s : State) :
    l.foldl (fun t o => resetOwned c ci t (o, position o)) s = { s with
      oscs := l.foldl (fun m o => m.modify o (ownedSlot c ci (position o) o)) s.oscs
      voices := l.foldl (fun vs o => resetWrapped c o vs) s.voices } := by
  induction l generalizing s with
  | nil => rfl
  | cons o l ih => rw [List.foldl_cons, ih, resetOwned_eq]; rfl

theorem resetAllOwned_eq (c : Config) (ci : Nat) (s : State) :
    resetAllOwned c ci s = { s with
      oscs := s.oscs.mapIdx fun o O =>
        if o ∈ chipOscs c ci then ownedSlot c ci ((chipOscs c ci).idxOf o) o O else O
      voices := s.voices.mapIdx fun v V =>
        if (chipOscs c ci).any (fun o => voiceOf c o == some v) then resetVoice else V } := by
  rw [resetAllOwned, zipIdx_eq_map_idxOf (chipOscs_nodup c ci), List.foldl_map, foldl_resetOwned,
    foldl_modify_eq_mapIdx _ (chipOscs_nodup c ci), foldl_resetWrapped]

theorem execWith_chipReset (hci : ci.toNat < s.chips.length) (variant : Bool) :
    execWith c (.chipReset ci variant) s =
      resetAllOwned c ci.toNat { s with chips := s.chips.set ci.toNat (resetChip c ci.toNat variant) } := by
  rw [execWith, cmdChipReset, hasChip_eq_true hci, whenInRange_true, chipReset,
    State.modChip_eq_set (List.getElem?_eq_getElem hci)]
  rfl

/-! ## Routing and buffer-cleared (R321, R322, R337) -/

theorem joinWord_zero_zab (op u v : Byte) : joinWord ⟨op, u, v, 0, 0, 0⟩ = op ++ (u ++ (v ++ 0#72)) := by
  have hzero : (0#8 ++ (0#32 ++ 0#32) : BitVec 72) = 0#72 := by decide
  exact congrArg (fun x : BitVec 72 => op ++ (u ++ (v ++ x))) hzero

/-- A sink operand that is null or a BUF index passes the index check. -/
theorem hasSink_sinkOperand {v : Byte} (h : v = 0xFF ∨ v.toNat < s.bufs.length) : hasSink s (sinkOperand v) = true := by
  unfold sinkOperand
  split
  next => rfl
  next hv => simpa [hasSink] using h.resolve_left hv

theorem sinkIndex_sinkOperand (v : Byte) : sinkIndex (sinkOperand v) = if v = 0xFF then none else some v.toNat := by
  by_cases hv : v = 0xFF#8 <;> simp [sinkOperand, sinkIndex, hv]

theorem chipOutput_eq (c : Config) (ci : Nat) (sink : Option Nat) (s : State) :
    chipOutput c ci sink s = { s with
      oscs := s.oscs.mapIdx fun o O => if o ∈ chipOscs c ci then { O with output := sink } else O } :=
  foldl_modOsc (fun _ O => { O with output := sink }) (chipOscs_nodup c ci) s

theorem chipBufclr_eq (c : Config) (ci : Nat) (s : State) :
    chipBufclr c ci s = { s with
      oscs := s.oscs.mapIdx fun o O => if o ∈ chipOscs c ci then { O with lastAmp := 0 } else O } :=
  foldl_modOsc (fun _ O => { O with lastAmp := 0 }) (chipOscs_nodup c ci) s

theorem execWith_chipOutput {sink : Option Byte} (hci : ci.toNat < s.chips.length) (hsink : hasSink s sink = true) :
    execWith c (.chipOutput ci sink) s = chipOutput c ci.toNat (sinkIndex sink) s := by
  rw [execWith, cmdChipOutput, hasChip_eq_true hci, hsink, Bool.and_self, whenInRange_true]

theorem execWith_chipOutput_of_no_sink {sink : Option Byte} (hsink : hasSink s sink = false) :
    execWith c (.chipOutput ci sink) s = raiseFault 0x51 .unitIndexOutOfRange s := by
  rw [execWith, cmdChipOutput, hsink, Bool.and_false, whenInRange_false]

theorem execWith_chipOscout {sink : Option Byte} (hci : ci.toNat < s.chips.length) (hsink : hasSink s sink = true)
    (index : Word32) :
    execWith c (.chipOscout ci sink index) s =
      ((chipOscs c ci.toNat)[index.toNat]?).elim (raiseFault 0x52 .unitIndexOutOfRange s)
        (setSink (sinkIndex sink) s) := by
  rw [execWith, cmdChipOscout, hasChip_eq_true hci, hsink, Bool.and_self, whenInRange_true, chipOscout]
  cases (chipOscs c ci.toNat)[index.toNat]? <;> rfl

theorem execWith_chipBufclr (hci : ci.toNat < s.chips.length) :
    execWith c (.chipBufclr ci) s = chipBufclr c ci.toNat s := by
  rw [execWith, cmdChipBufclr, hasChip_eq_true hci, whenInRange_true]

/-! ## Calibration (R334, R335) -/

theorem chipSyns_nodup (c : Config) (ci : Nat) : (chipSyns c ci).Nodup := List.nodup_range.filter _

theorem mem_chipSyns {ci y : Nat} :
    y ∈ chipSyns c ci ↔ y < numSyn c ∧ (chipOscs c ci).any (fun o => oscSyn c o == y) = true := by
  rw [chipSyns, List.mem_filter, List.mem_range]

/-- A change of every SYN of the chip, on an engine with the SYNs the parameters say, is one of every SYN an oscillator
of the chip uses. -/
theorem foldl_modSyn_chipSyns (f : Nat → Syn → Syn) (ci : Nat) (hsyns : ∀ y S, s.syns[y]? = some S → y < numSyn c) :
    (chipSyns c ci).foldl (fun t y => t.modSyn y (f y)) s = { s with
      syns := s.syns.mapIdx fun y S => if (chipOscs c ci).any (fun o => oscSyn c o == y) then f y S else S } := by
  have hmap : (s.syns.mapIdx fun y S => if y ∈ chipSyns c ci then f y S else S) =
      s.syns.mapIdx fun y S => if (chipOscs c ci).any (fun o => oscSyn c o == y) then f y S else S := by
    refine List.ext_getElem? fun y => ?_
    cases hS : s.syns[y]? with
    | none => simp [hS]
    | some S => simp only [List.getElem?_mapIdx, hS, Option.map_some, mem_chipSyns, hsyns y S hS, true_and]
  rw [foldl_modSyn f (chipSyns_nodup c ci), hmap]

theorem execWith_chipVolume (hci : ci.toNat < s.chips.length) (level : Word32) :
    execWith c (.chipVolume ci level) s = (chipSyns c ci.toNat).foldl
      (fun t y => t.modSyn y (withVolume c (c.chipVolUnit (c.chipKind ci.toNat) level y))) s := by
  rw [execWith, cmdChipVolume, hasChip_eq_true hci, whenInRange_true]
  rfl

theorem execWith_chipTreble (hci : ci.toNat < s.chips.length) (eq : Word32) :
    execWith c (.chipTreble ci eq) s = (chipSyns c ci.toNat).foldl (fun t y => t.modSyn y (withTreble c eq)) s := by
  rw [execWith, cmdChipTreble, hasChip_eq_true hci, whenInRange_true]
  rfl

/-! ## Read-back (R336) -/

theorem execWith_chipRead (hC : s.chips[ci.toNat]? = some C) (addr : Word32) :
    execWith c (.chipRead ci addr) s =
      if readSupported c (c.chipKind ci.toNat) = true ∧ inWindow c (c.chipKind ci.toNat) addr.toNat = true then
        s.respond ((registerRead c ci.toNat addr.toNat C s).setWidth 32)
      else raiseFault 0x58 .readUnsupported s := by
  rw [execWith, cmdChipRead, hasChip_eq_true (lt_length_of_chip hC), whenInRange_true]
  simp only [chipRead, hC, Bool.and_eq_true]
  split <;> rfl

/-! ## The statements -/

/-- Settles O48: the chip lists each oscillator once, so each is reset once, at its position, its voice with it. -/
theorem chipResetRule : Obligations.ChipResetRule := by
  intro ci variant s hci
  rw [exec_eq_next (execWith_chipReset hci variant), resetAllOwned_eq]
  rfl

/-- Settles O50: a sink that is null or a BUF index goes to each oscillator of the chip, any other faults. -/
theorem outputRule : Obligations.OutputRule := by
  intro ci v s hci
  refine ⟨?_, fun hv => exec_eq_next ?_, fun hfault hnull hv => exec_eq_next ?_⟩
  · have hdec := decodeOfEncode (.chipOutput ci (sinkOperand v)) (sinkWellFormed_sinkOperand v)
    rw [← joinWord_zero_zab]
    rwa [encode, encodeFields, sinkField_sinkOperand] at hdec
  · rw [← sinkIndex_sinkOperand]
    exact (execWith_chipOutput hci (hasSink_sinkOperand hv)).trans (chipOutput_eq _ _ _ _)
  · rw [execWith_chipOutput_of_no_sink (by simpa [hasSink] using hv), raiseFault_of_clear _ _ _ hfault]
    rfl

/-- Settles O51: the index names one oscillator of the chip, or faults. -/
theorem oscoutRule : Obligations.OscoutRule := by
  intro ci v index s hci hfault
  refine ⟨?_, fun hv => exec_eq_next ?_⟩
  · have hdec := decodeOfEncode (.chipOscout ci (sinkOperand v) index) (sinkWellFormed_sinkOperand v)
    rwa [encode, encodeFields, sinkField_sinkOperand] at hdec
  · rw [← sinkIndex_sinkOperand]
    refine (execWith_chipOscout hci (hasSink_sinkOperand hv) index).trans ?_
    cases (chipOscs Config.impl ci.toNat)[index.toNat]? with
    | some o => rfl
    | none => exact raiseFault_of_clear _ _ _ hfault

/-- Settles O56: the chip's synthesizers are those its oscillators use, each once. -/
theorem calibrationRule : Obligations.CalibrationRule := by
  intro ci code s hci hsyns
  rw [← joinWord_zero_vzb, ← joinWord_zero_vzb]
  refine ⟨decodeOfEncode (.chipVolume ci code) rfl, decodeOfEncode (.chipTreble ci code) rfl, exec_eq_next ?_,
    exec_eq_next ?_⟩
  · exact (execWith_chipVolume hci code).trans (foldl_modSyn_chipSyns _ _ hsyns)
  · exact (execWith_chipTreble hci code).trans (foldl_modSyn_chipSyns _ _ hsyns)

/-- Settles O57: a supported read answers the byte DISPATCH finds, any other faults. -/
theorem readBackRule : Obligations.ReadBackRule := by
  refine ⟨?_, rfl⟩
  rintro ci addr s C k byte hC hfault rfl rfl
  refine exec_eq_next ((execWith_chipRead hC addr).trans ?_)
  rw [raiseFault_of_clear _ _ _ hfault]
  rfl

/-- Settles O59: each oscillator of the chip has its committed amplitude cleared. -/
theorem bufclrRule : Obligations.BufclrRule := by
  intro ci s hci
  rw [← joinWord_zero_vzab]
  exact ⟨decodeOfEncode (.chipBufclr ci) rfl,
    exec_eq_next ((execWith_chipBufclr hci).trans (chipBufclr_eq _ _ _))⟩

end Sys2Proof.Machine
end

section
/-! PROOF. The timed commands of a chip (44_chip_sequencer_ops.md R323 to R325): what advancing it keeps, that they
complete where no slot can run out of ring, and that CHIP.ENDFRAME is CHIP.RUNUNTIL and a rebase to 0. -/

namespace Sys2Proof.Machine

variable {c : Config} {s t : State} {ci : Nat} {C D : Chip}

/-! ## The command and the operation -/

/-- A timed command whose time does not go back and whose body completes is its body. -/
theorem timedCommand_of_ok {op : Byte} {time : Nat} {body : State → Attempt} (hC : s.chips[ci]? = some C)
    (hle : C.lastTime ≤ time) (h : body s = .ok t) : timedCommand c op ci time body s = t := by
  simp only [timedCommand, hC, if_neg (Nat.not_lt.mpr hle), h, settleImprecise_ok]

/-- A timed command on a chip that is there ends without a fault only by its body. -/
theorem whenInRange_timedCommand_no_fault {op ci : Byte} {time : Nat} {body : State → Attempt}
    (h : whenInRange op (hasChip s ci) s (timedCommand c op ci.toNat time body s) = t)
    (hfault : t.global.fault = false) :
    ∃ C, s.chips[ci.toNat]? = some C ∧ C.lastTime ≤ time ∧ body s = .ok t := by
  subst h
  have hci := whenInRange_no_fault hfault
  have hC := List.getElem?_eq_getElem (of_decide_eq_true hci)
  rw [hci, whenInRange_true] at hfault ⊢
  exact ⟨_, hC, timedCommand_no_fault hC hfault⟩

theorem execWith_chipRununtil_of_ok {ci : Byte} {e : Word32} (hC : s.chips[ci.toNat]? = some C)
    (hle : C.lastTime ≤ e.toNat) (h : advanceChip c ci.toNat e.toNat s = .ok t) :
    execWith c (.chipRununtil ci e) s = t := by
  rw [execWith, cmdChipRununtil, hasChip_eq_true (lt_length_of_chip hC), whenInRange_true, timedCommand_of_ok hC hle h]

theorem execWith_chipEndframe_of_ok {ci : Byte} {e : Word32} (hC : s.chips[ci.toNat]? = some C)
    (hle : C.lastTime ≤ e.toNat) (h : advanceAndRebase c ci.toNat e.toNat s = .ok t) :
    execWith c (.chipEndframe ci e) s = t := by
  rw [execWith, cmdChipEndframe, hasChip_eq_true (lt_length_of_chip hC), whenInRange_true, timedCommand_of_ok hC hle h]

theorem execWith_chipWrite_of_ok {ci : Byte} {time : Word32} {addr : BitVec 16} {data : Byte}
    (hC : s.chips[ci.toNat]? = some C) (hle : C.lastTime ≤ time.toNat)
    (h : advanceAndWrite c ci.toNat time.toNat addr.toNat data s = .ok t) :
    execWith c (.chipWrite ci time addr data) s = t := by
  rw [execWith, cmdChipWrite, hasChip_eq_true (lt_length_of_chip hC), whenInRange_true, timedCommand_of_ok hC hle h]

/-- A CHIP.RUNUNTIL that ends without a fault advances a chip that is there to a time not before its own. -/
theorem advanceChip_of_no_fault {ci : Byte} {e : Word32} (h : execWith c (.chipRununtil ci e) s = t)
    (hfault : t.global.fault = false) :
    ∃ C, s.chips[ci.toNat]? = some C ∧ C.lastTime ≤ e.toNat ∧ advanceChip c ci.toNat e.toNat s = .ok t :=
  whenInRange_timedCommand_no_fault h hfault

/-! ## What advancing a chip keeps -/

/-- The enable, mode and latch bits, the variant and the register bytes are no part of time. -/
theorem SameButTime.kept (h : SameButTime C D) :
    D.variant = C.variant ∧ D.gregs = C.gregs ∧ D.toGlobalBits = C.toGlobalBits := by
  rw [SameButTime] at h
  rw [h]
  exact ⟨rfl, rfl, rfl⟩

/-- Running or clocking a slot of the chip, and changing the chip's own record, keep `K`. -/
structure AdvanceKeeps (c : Config) (ci : Nat) (K : State → Prop) : Prop where
  slot : ∀ s t o, o ∈ chipOscs c ci → SlotFrame c o s t → K s → K t
  chip : ∀ s f, K s → K (s.modChip ci f)

variable {K : State → Prop}

theorem AdvanceKeeps.runOscs (hK : AdvanceKeeps c ci K) {a e : Nat} {l : List Nat} (hl : ∀ o ∈ l, o ∈ chipOscs c ci)
    (h : runOscs c a e l s = .ok t) (hs : K s) : K t := by
  induction l generalizing s with
  | nil => cases h; exact hs
  | cons o l ih =>
    simp only [Machine.runOscs] at h
    split at h
    · cases h
    next r hr =>
      exact ih (fun p hp => hl p (List.mem_cons_of_mem o hp)) h
        (hK.slot _ _ o (hl o List.mem_cons_self) (.oscRun hr) hs)

theorem AdvanceKeeps.runPass (hK : AdvanceKeeps c ci K) {time : Nat} (h : runPass c ci time C s = .ok t) (hs : K s) :
    K t := by
  simp only [Machine.runPass] at h
  split at h
  · cases h
  next r hr =>
    cases h
    exact hK.chip _ _ (hK.runOscs (fun _ ho => ho) hr (hK.chip _ _ hs))

theorem AdvanceKeeps.performPlan (hK : AdvanceKeeps c ci K) {p : FramePlan} (hp : p.within (chipOscs c ci)) (hs : K s) :
    K (performPlan c ci p s) := by
  refine foldl_keeps K _ _ _ (hK.chip _ _ (foldl_keeps K _ _ _ hs ?_)) ?_
  · exact fun u x hx hu => hK.slot _ _ x.1 (hp x (List.mem_append_left _ hx)) (clockOsc_frame c u x) hu
  · exact fun u x hx hu => hK.slot _ _ x.1 (hp x (List.mem_append_right _ hx)) (clockOsc_frame c u x) hu

theorem AdvanceKeeps.frameEvent (hK : AdvanceKeeps c ci K) (hs : K s) : K (frameEvent c ci s) := by
  unfold Machine.frameEvent
  split
  · exact hs
  · split
    · exact hs
    · exact hK.performPlan (quadPlan_within _ _ _ _) hs
    · exact hK.performPlan (otherPlan_within _ _ _ _ _) hs

theorem AdvanceKeeps.runUntilLoop (hK : AdvanceKeeps c ci K) {e fuel : Nat} (h : runUntilLoop c ci e fuel s = .ok t)
    (hs : K s) : K t := by
  induction fuel generalizing s with
  | zero => cases h; exact hs
  | succ fuel ih =>
    simp only [Machine.runUntilLoop] at h
    split at h
    · cases h; exact hs
    · split at h
      · cases h
      next r hr =>
        split at h
        · cases h; exact hK.runPass hr hs
        · exact ih h (hK.frameEvent (hK.runPass hr hs))

theorem AdvanceKeeps.advanceChip (hK : AdvanceKeeps c ci K) {e : Nat} (h : advanceChip c ci e s = .ok t) (hs : K s) :
    K t := by
  unfold Machine.advanceChip at h
  split at h
  · cases h; exact hs
  · exact hK.runUntilLoop h hs

/-- The register images of the chip's oscillators keep their lengths as it is advanced. -/
theorem RegsReady.advanceKeeps (c : Config) (ci : Nat) : AdvanceKeeps c ci fun s => RegsReady c s ci where
  slot := by
    intro s t o _ hframe hs p hp P hP
    obtain ⟨O, hO⟩ := getElem?_of_length hframe.oscs.length hP
    by_cases hpo : p = o
    · subst hpo
      obtain ⟨Q, hQ, hlen, -⟩ := hframe.slot O hO
      obtain rfl := Option.some.inj (hP.symm.trans hQ)
      exact hlen.trans (hs p hp O hO)
    · rw [hframe.oscs.others p hpo] at hP
      exact hs p hp P hP
  chip := fun _ _ hs => hs

/-! ## Rebasing (R325) -/

/-- A chip that stands at the end time is rebased to 0. -/
theorem rebaseChip_of_end (hD : t.chips[ci]? = some D) :
    rebaseChip ci D.lastTime t = .ok { t with chips := t.chips.set ci { D with lastTime := 0 } } := by
  simp only [rebaseChip, hD, if_neg (Nat.lt_irrefl _), State.modChip_eq_set hD, Nat.sub_self]

theorem advanceAndRebase_of_ok {e : Nat} (h : advanceChip c ci e s = .ok t) (hD : t.chips[ci]? = some D)
    (he : D.lastTime = e) :
    advanceAndRebase c ci e s = .ok { t with chips := t.chips.set ci { D with lastTime := 0 } } := by
  subst he
  simp only [advanceAndRebase, h, rebaseChip_of_end hD]

/-- A change of the chip's record, written as the record put there. -/
theorem ChipFrame.setChip (hD : t.chips[ci]? = some D) (E : Chip) :
    ChipFrame c ci t { t with chips := t.chips.set ci E } := by
  rw [← State.modChip_eq_set hD fun _ => E]
  exact .modChip c ci t _

/-! ## The statements -/

/-- Settles O52: the ready chip advances, and neither the rebase nor the register write can fault after it. -/
theorem timedCommandsComplete : Obligations.TimedCommandsComplete := by
  intro ci time s C hready
  obtain ⟨t, hadv⟩ := advanceChip_completes hready
  obtain ⟨hframe, D, hD, hsame, htime⟩ := advanceChip_ok hready.here hready.order hadv
  obtain ⟨hvariant, hgregs, hbits⟩ := hsame.kept
  refine ⟨?_, ?_, fun hregs addr data => ?_⟩
  · exact ⟨t, D, exec_eq_next (execWith_chipRununtil_of_ok hready.here hready.order hadv), hframe, hD, htime, hvariant,
      hgregs, hbits⟩
  · exact ⟨_, { D with lastTime := 0 },
      exec_eq_next (execWith_chipEndframe_of_ok hready.here hready.order (advanceAndRebase_of_ok hadv hD htime)),
      hframe.trans (.setChip hD _), List.getElem?_set_self (lt_length_of_chip hD), rfl, hvariant, hgregs, hbits⟩
  · have hregs' := (RegsReady.advanceKeeps _ _).advanceChip hadv hregs
    obtain ⟨u, hwrite⟩ := registerWrite_completes Config.impl ci.toNat addr.toNat data t hregs'
    obtain ⟨hframe', E, hE, htime', hvariant'⟩ := registerWrite_ok hD hwrite
    have hbody : advanceAndWrite Config.impl ci.toNat time.toNat addr.toNat data s = .ok u := by
      simp only [advanceAndWrite, hadv, hwrite]
    exact ⟨u, E, exec_eq_next (execWith_chipWrite_of_ok hready.here hready.order hbody), hframe.trans hframe', hE,
      htime'.trans htime, hvariant'.trans hvariant⟩

/-- Settles O53: CHIP.RUNUNTIL leaves the chip at the end time, so the rebase is to 0. -/
theorem endframeRebases : Obligations.EndframeRebases := by
  intro ci time s t D h hfault hD
  rw [exec_eq_next_execWith] at h
  obtain ⟨C, hC, hle, hadv⟩ := advanceChip_of_no_fault (Host.Outcome.next.inj h) hfault
  obtain ⟨-, D', hD', -, htime⟩ := advanceChip_ok hC hle hadv
  obtain rfl := Option.some.inj (hD.symm.trans hD')
  exact exec_eq_next (execWith_chipEndframe_of_ok hC hle (advanceAndRebase_of_ok hadv hD htime))

end Sys2Proof.Machine
end

section
/-! PROOF. CHIP.RUNUNTIL event by event (44_chip_sequencer_ops.md R324, R329 to R331): a run is OSC.RUN of each
oscillator up to the first frame event, that event, and the run from there. -/

namespace Sys2Proof.Machine

variable {c : Config} {s t : State} {ci : Nat} {C D : Chip}

/-! ## A run of a slot does not touch the chips' records -/

theorem waveStep_withChips (c : Config) (o : Nat) (s : State) (chips : List Chip) :
    waveStep c o { s with chips := chips } = { waveStep c o s with chips := chips } := by
  unfold waveStep; split <;> rfl

theorem synOffset_withChips (y b k : Nat) (d : Int) (s : State) (chips : List Chip) :
    synOffset c y b k d { s with chips := chips } =
      (synOffset c y b k d s).map fun t => { t with chips := chips } := by
  unfold synOffset
  cases s.bufs[b]? with
  | none => rfl
  | some B =>
    cases s.syns[y]? with
    | none => rfl
    | some S =>
      dsimp only
      split
      · rfl
      · split <;> rfl

theorem emit_withChips (o k : Nat) (amp : Int) (s : State) (chips : List Chip) :
    emit c o k amp { s with chips := chips } = (emit c o k amp s).map fun t => { t with chips := chips } := by
  unfold emit
  cases s.oscs[o]? with
  | none => rfl
  | some O =>
    cases hb : O.output with
    | none => simp only [hb]; rfl
    | some b =>
      simp only [hb]
      split
      · rfl
      · rw [synOffset_withChips]
        cases synOffset c (oscSyn c o) b k (emittedDelta c (amp - O.lastAmp)) s <;> rfl

theorem runLoop_withChips (o e : Nat) (chips : List Chip) (fuel k : Nat) (s : State) :
    runLoop c o e fuel k { s with chips := chips } =
      (runLoop c o e fuel k s).map fun r => ({ r.1 with chips := chips }, r.2) := by
  induction fuel generalizing k s with
  | zero => rfl
  | succ fuel ih =>
    have hamp : ampOf c o { waveStep c o s with chips := chips } = ampOf c o (waveStep c o s) := ampOf_congr rfl rfl
    simp only [runLoop, waveStep_withChips, emit_withChips, hamp]
    split
    · cases emit c o k (ampOf c o (waveStep c o s)) (waveStep c o s) with
      | error x => rfl
      | ok s' => exact ih (k + wavePeriod c o s') s'
    · rfl

theorem oscRun_withChips (o a e : Nat) (s : State) (chips : List Chip) :
    oscRun c o a e { s with chips := chips } = (oscRun c o a e s).map fun t => { t with chips := chips } := by
  have hamp : ampOf c o { s with chips := chips } = ampOf c o s := ampOf_congr rfl rfl
  unfold oscRun
  split
  · rfl
  · rw [hamp, emit_withChips]
    cases emit c o a (ampOf c o s) s with
    | error x => rfl
    | ok s' =>
      simp only [Except.map, runTransitions]
      cases s'.oscs[o]? with
      | none => rfl
      | some O =>
        simp only [runLoop_withChips]
        cases runLoop c o e (e - a) (a + O.delay) s' <;> rfl

theorem runOscs_withChips (a e : Nat) (l : List Nat) (s : State) (chips : List Chip) :
    runOscs c a e l { s with chips := chips } = (runOscs c a e l s).map fun t => { t with chips := chips } := by
  induction l generalizing s with
  | nil => rfl
  | cons o l ih =>
    simp only [runOscs, oscRun_withChips]
    cases oscRun c o a e s with
    | error x => rfl
    | ok t => exact ih t

/-! ## One pass of the loop (R324) -/

/-- The chip's record after a pass to `time`. -/
def advancedTo (time : Nat) (C : Chip) : Chip :=
  { C with lastTime := time, frameDelay := C.frameDelay - (time - C.lastTime) }

/-- A pass is the run of each oscillator, and the chip's record moved on. -/
theorem runPass_runs {time : Nat} (hC : s.chips[ci]? = some C) (h : runPass c ci time C s = .ok t) :
    ∃ u, runOscs c C.lastTime time (chipOscs c ci) s = .ok u ∧
      t = { u with chips := s.chips.set ci (advancedTo time C) } := by
  simp only [runPass, State.modChip, runOscs_withChips] at h
  cases hu : runOscs c C.lastTime time (chipOscs c ci) s with
  | error x => rw [hu] at h; cases h
  | ok u =>
    rw [hu] at h
    cases h
    refine ⟨u, rfl, ?_⟩
    simp only [modify_modify]
    simp only [modify_eq_set _ _ _ C hC]
    rfl

theorem getElem?_runPass {time : Nat} (hC : s.chips[ci]? = some C) (h : runPass c ci time C s = .ok t) :
    t.chips[ci]? = some (advancedTo time C) := by
  obtain ⟨u, -, rfl⟩ := runPass_runs hC h
  exact List.getElem?_set_self (lt_length_of_chip hC)

/-- With no frame event before its end, advancing a chip is one pass. -/
theorem advanceChip_of_no_event {e : Nat} (hC : s.chips[ci]? = some C) (hend : passEnd c (c.chipKind ci) e C = e) :
    advanceChip c ci e s = runPass c ci e C s := by
  simp only [advanceChip, hC, passFuel, runUntilLoop, hend, if_true]
  cases runPass c ci e C s <;> rfl

theorem passEnd_of_le {k : ChipKind} {e : Nat} (h : nframes c k = 0 ∨ e ≤ C.lastTime + C.frameDelay) :
    passEnd c k e C = e := by
  unfold passEnd
  split
  next => rfl
  next hn => exact Nat.min_eq_left (h.resolve_left hn)

/-- After a frame event there is fuel left for the rest of the run (log 36). -/
theorem passesLeft_frameEvent {e : Nat} (hC : t.chips[ci]? = some C) (hD : (frameEvent c ci t).chips[ci]? = some D)
    (hn : nframes c (c.chipKind ci) ≠ 0) : passesLeft e D ≤ 3 * (e - D.lastTime) + 2 := by
  unfold passesLeft
  split
  next hzero =>
    obtain ⟨hframe, -⟩ := frameEvent_wait hC hD hn hzero
    simp [hframe]
  next => omega

/-- With a frame event before its end, advancing a chip is advancing it to the event, the event, and advancing it from
there. -/
theorem advanceChip_of_event {e : Nat} (hC : s.chips[ci]? = some C) (hn : nframes c (c.chipKind ci) ≠ 0)
    (hm : C.lastTime + C.frameDelay < e) (h : advanceChip c ci e s = .ok t) :
    ∃ r, runPass c ci (C.lastTime + C.frameDelay) C s = .ok r ∧ advanceChip c ci e (frameEvent c ci r) = .ok t := by
  have hend : passEnd c (c.chipKind ci) e C = C.lastTime + C.frameDelay := by
    rw [passEnd, if_neg hn, Nat.min_eq_right (Nat.le_of_lt hm)]
  obtain ⟨fuel, hfuel, hspan⟩ :
      ∃ fuel, passFuel (e - C.lastTime) = fuel + 1 ∧ 3 * (e - C.lastTime) + 2 ≤ fuel := ⟨_, rfl, Nat.le_refl _⟩
  simp only [advanceChip, hC, hfuel, runUntilLoop, hend, if_neg (Nat.ne_of_lt hm)] at h
  split at h
  · cases h
  next r hr =>
    obtain ⟨D, hD, -, htime⟩ := runPass_frameEvent hC hr
    have hleft := passesLeft_frameEvent (e := e) (getElem?_runPass hC hr) hD hn
    refine ⟨r, hr, ?_⟩
    simp only [advanceChip, hD]
    rw [← h]
    exact runUntilLoop_fuel _ _ hD (by omega) (passesLeft_le e D) (by omega)

/-- The frame event of the schedule of R330. -/
theorem frameEvent_of_quad (hC : t.chips[ci]? = some C) (hquad : frameSchedule c (c.chipKind ci) = .quad) :
    frameEvent c ci t = performPlan c ci (quadPlan c (c.chipKind ci) (chipOscs c ci) C) t := by
  simp only [frameEvent, hC, hquad]

theorem nframes_of_quad {k : ChipKind} (hquad : frameSchedule c k = .quad) : nframes c k = 4 := by
  simp only [nframes, hquad]

/-! ## The commands a chip issues (R324, R330) -/

/-- NUM_OSC fits the operand, so an oscillator of the engine is the unit its command names. -/
theorem toNat_ofNat_of_lt_numOsc {o : Nat} (ho : o < numOsc c) : (BitVec.ofNat 8 o).toNat = o :=
  Nat.mod_eq_of_lt (Nat.lt_trans ho (numOsc_lt c))

/-- Runs of oscillators that complete are the commands OSC.RUN. -/
theorem runOscs_as_commands {a e : Word32} {l : List Nat} (hl : ∀ o ∈ l, o < numOsc c)
    (hlen : numOsc c ≤ s.oscs.length) (h : runOscs c a.toNat e.toNat l s = .ok t) :
    l.foldl (fun u o => execWith c (.oscRun (BitVec.ofNat 8 o) a e) u) s = t := by
  induction l generalizing s with
  | nil => exact Except.ok.inj h
  | cons o l ih =>
    have ho := hl o List.mem_cons_self
    have hoNat := toNat_ofNat_of_lt_numOsc ho
    simp only [runOscs] at h
    split at h
    · cases h
    next r hr =>
      have hrun : execWith c (.oscRun (BitVec.ofNat 8 o) a e) s = r :=
        execWith_oscRun_of_ok (by omega) (by rw [hoNat, hr])
      rw [List.foldl_cons, hrun]
      exact ih (fun p hp => hl p (List.mem_cons_of_mem o hp)) (by rw [(SlotFrame.oscRun hr).oscs.length]; exact hlen) h

/-- The command of a clock of the frame sequencer. -/
def FrameClock.command : FrameClock → Byte → Instr
  | .env => .oscClkenv
  | .len => .oscClklen
  | .swp => .oscClkswp
  | .lin => .oscClklin

/-- A clock of an oscillator of the engine is its command (R330). -/
theorem clockOsc_eq_execWith {o : Nat} (ho : o < numOsc c) (hlen : numOsc c ≤ s.oscs.length) (k : FrameClock) :
    clockOsc c s (o, k) = execWith c (k.command (BitVec.ofNat 8 o)) s := by
  have hoNat := toNat_ofNat_of_lt_numOsc ho
  have hin : (BitVec.ofNat 8 o).toNat < s.oscs.length := by omega
  cases k with
  | env => rw [FrameClock.command, execWith_oscClkenv hin, hoNat]; rfl
  | len => rw [FrameClock.command, execWith_oscClklen hin, hoNat]; rfl
  | swp => rw [FrameClock.command, execWith_oscClkswp hin, hoNat]; rfl
  | lin => rw [FrameClock.command, execWith_oscClklin hin, hoNat]; rfl

theorem foldl_clockEach {l : List Nat} (hl : ∀ o ∈ l, o < numOsc c) (hlen : numOsc c ≤ s.oscs.length)
    (k1 k2 : FrameClock) :
    (clockEach k1 k2 l).foldl (clockOsc c) s = l.foldl (fun u o =>
      [k1.command (BitVec.ofNat 8 o), k2.command (BitVec.ofNat 8 o)].foldl (fun w i => execWith c i w) u) s := by
  induction l generalizing s with
  | nil => rfl
  | cons o l ih =>
    have ho := hl o List.mem_cons_self
    have hlen1 : numOsc c ≤ (clockOsc c s (o, k1)).oscs.length := by
      rw [(clockOsc_frame c s (o, k1)).oscs.length]; exact hlen
    have hlen2 : numOsc c ≤ (clockOsc c (clockOsc c s (o, k1)) (o, k2)).oscs.length := by
      rw [(clockOsc_frame c _ (o, k2)).oscs.length]; exact hlen1
    simp only [clockEach, List.flatMap_cons, List.foldl_append, List.foldl_cons, List.foldl_nil]
    rw [← clockOsc_eq_execWith ho hlen, ← clockOsc_eq_execWith ho hlen1]
    exact ih (fun p hp => hl p (List.mem_cons_of_mem o hp)) hlen2

theorem chipOscs_lt_numOsc {o : Nat} (ho : o ∈ chipOscs c ci) : o < numOsc c := ((mem_chipOscs c ci o).mp ho).1

/-- The clock commands of a frame event, each on each oscillator of the chip, are commands a chip issues. -/
theorem clockEach_as_commands (hlen : numOsc c ≤ s.oscs.length) (k1 k2 : FrameClock) :
    (clockEach k1 k2 (chipOscs c ci)).foldl (clockOsc c) s =
      eachOsc c ci (fun o => [k1.command o, k2.command o]) s :=
  foldl_clockEach (fun _ => chipOscs_lt_numOsc) hlen k1 k2

theorem foldl_clockOsc_oscs_length (l : List (Nat × FrameClock)) (s : State) :
    (l.foldl (clockOsc c) s).oscs.length = s.oscs.length :=
  foldl_keeps (fun u : State => u.oscs.length = s.oscs.length) _ l s rfl fun u x _ hu =>
    (clockOsc_frame c u x).oscs.length.trans hu

/-- A frame event of R330 as the commands it issues, with the sequencer's new place between them. -/
theorem frameEvent_as_commands (hC : t.chips[ci]? = some C) (hquad : frameSchedule c (c.chipKind ci) = .quad)
    (hlen : numOsc c ≤ t.oscs.length) {v : State}
    (hv : v = if C.frame = 0 ∨ C.frame = 2 then eachOsc c ci (fun o => [.oscClklen o, .oscClkswp o]) t else t) :
    frameEvent c ci t = eachOsc c ci (fun o => [.oscClkenv o, .oscClklin o]) { v with
      chips := t.chips.set ci { C with
        frameDelay := (quadPlan c (c.chipKind ci) (chipOscs c ci) C).delay
        frame := (C.frame + 1) % 4 } } := by
  rw [frameEvent_of_quad hC hquad]
  have hbefore : (quadPlan c (c.chipKind ci) (chipOscs c ci) C).before.foldl (clockOsc c) t = v := by
    rw [hv, quadPlan]
    split
    · exact clockEach_as_commands hlen .len .swp
    · rfl
  have hchips : v.chips = t.chips := by rw [← hbefore, foldl_clockOsc_chips]
  have hvlen : numOsc c ≤ v.oscs.length := by rw [← hbefore, foldl_clockOsc_oscs_length]; exact hlen
  rw [performPlan, hbefore, State.modChip_eq_set (hchips ▸ hC), hchips]
  exact clockEach_as_commands (by exact hvlen) .env .lin

/-! ## The frame sequencer of an NES chip (R331) -/

/-- The time of frame event `i` of an NES chip in 4-step mode, from reset. -/
def nesEvent : Nat → Nat
  | 0 => 7458
  | 1 => 14916
  | 2 => 22372
  | 3 => 29830
  | _ => 37288

/-- After one event and up to the next, that next one is pending. -/
theorem nesFramePosition_eq {i e : Nat} (hi : i ≤ 4) (hprev : i = 0 ∨ nesEvent (i - 1) < e) (hle : e ≤ nesEvent i) :
    nesFramePosition e = (i % 4, nesEvent i - e) := by
  unfold nesFramePosition
  interval_cases i <;> simp only [nesEvent] at hprev hle ⊢ <;> grind

/-- The record of an NES chip in 4-step mode whose next frame event is event `i`. -/
structure NesPending (i : Nat) (C : Chip) : Prop where
  frame : C.frame = i % 4
  event : C.lastTime + C.frameDelay = nesEvent i
  variant : C.variant = false
  fourStep : C.frameMode.getLsbD 7 = false

theorem framePeriod_nes (c : Config) : framePeriod c .nes2a03 false = 7458 := rfl

/-- What a frame event of R330 makes of the chip's record. -/
theorem getElem?_frameEvent_of_quad (hC : t.chips[ci]? = some C) (hquad : frameSchedule c (c.chipKind ci) = .quad) :
    (frameEvent c ci t).chips[ci]? = some { C with
      frameDelay := (quadPlan c (c.chipKind ci) (chipOscs c ci) C).delay
      frame := (C.frame + 1) % 4 } := by
  rw [frameEvent_of_quad hC hquad, performPlan_chips, modify_eq_set _ _ _ C hC]
  exact List.getElem?_set_self (lt_length_of_chip hC)

/-- The wait of the NES sequencer in 4-step mode: 7458 cycles, two less after frame 1. -/
theorem nesEvent_succ {i : Nat} (hi : i < 4) (oscs : List Nat) (hframe : C.frame = i % 4) (hvariant : C.variant = false)
    (hmode : C.frameMode.getLsbD 7 = false) : nesEvent i + (quadPlan c .nes2a03 oscs C).delay = nesEvent (i + 1) := by
  have hmode' : fiveStep C.frameMode = false := hmode
  simp only [quadPlan, hframe, hvariant, framePeriod_nes, hmode', frame1Shortening_eq]
  interval_cases i <;> rfl

/-- A run from where event `i` is pending ends before it with the sequencer counting down, or goes on from after it. -/
theorem NesPending.advanceChip {i e : Nat} (hkind : c.chipKind ci = .nes2a03) (hC : s.chips[ci]? = some C)
    (h : NesPending i C) (hle : C.lastTime ≤ e) (hrun : advanceChip c ci e s = .ok t) :
    (e ≤ nesEvent i ∧ ∃ D, t.chips[ci]? = some D ∧ D.lastTime = e ∧ (D.frame, D.frameDelay) = (i % 4, nesEvent i - e)) ∨
    (nesEvent i < e ∧ (i < 4 → ∃ r D, r.chips[ci]? = some D ∧ NesPending (i + 1) D ∧ D.lastTime = nesEvent i ∧
      advanceChip c ci e r = .ok t)) := by
  obtain ⟨hframe, hevent, hvariant, hmode⟩ := h
  by_cases he : e ≤ nesEvent i
  · rw [advanceChip_of_no_event hC (passEnd_of_le (.inr (hevent ▸ he)))] at hrun
    refine .inl ⟨he, _, getElem?_runPass hC hrun, rfl, ?_⟩
    simp only [advancedTo, hframe, Prod.mk.injEq, true_and]
    omega
  · have hquad : frameSchedule c (c.chipKind ci) = .quad := by rw [hkind]; rfl
    have hn : nframes c (c.chipKind ci) ≠ 0 := by rw [nframes_of_quad hquad]; decide
    refine .inr ⟨by omega, fun hi => ?_⟩
    obtain ⟨r, hr, hrest⟩ := advanceChip_of_event hC hn (by omega) hrun
    refine ⟨_, _, getElem?_frameEvent_of_quad (getElem?_runPass hC hr) hquad, ⟨?_, ?_, hvariant, hmode⟩, hevent, hrest⟩
    · simp only [advancedTo, hframe]
      omega
    · rw [hkind, ← nesEvent_succ (C := advancedTo (C.lastTime + C.frameDelay) C) hi (chipOscs c ci)
        hframe hvariant hmode, ← hevent]
      rfl

/-- From where event `i` is pending, the run to any time up to `4 * 7458` stands where the events put it. -/
theorem NesPending.position {s : State} {C : Chip} {i e : Nat} (hkind : c.chipKind ci = .nes2a03)
    (hC : s.chips[ci]? = some C) (h : NesPending i C) (hi : i ≤ 4) (hprev : i = 0 ∨ nesEvent (i - 1) < e)
    (hle : C.lastTime ≤ e) (hend : e ≤ 4 * 7458) (hrun : Machine.advanceChip c ci e s = .ok t) :
    ∃ D, t.chips[ci]? = some D ∧ D.lastTime = e ∧ (D.frame, D.frameDelay) = nesFramePosition e := by
  obtain ⟨he, D, hD, htime, hstands⟩ | ⟨he, hnext⟩ := h.advanceChip hkind hC hle hrun
  · exact ⟨D, hD, htime, hstands.trans (nesFramePosition_eq hi hprev he).symm⟩
  · have hi4 : i < 4 := by
      have hlast : nesEvent 4 = 37288 := rfl
      refine Nat.lt_of_le_of_ne hi fun hfour => ?_
      rw [hfour] at he
      omega
    obtain ⟨r, D, hD, hpending, htime, hrest⟩ := hnext hi4
    exact hpending.position hkind hD hi4 (.inr he) (by omega) hend hrest
termination_by 4 - i

/-! ## The statements -/

/-- Settles O60: the run up to the first frame event is one pass, and what is left of the loop after the event is the
run from there. -/
theorem rununtilRule : Obligations.RununtilRule := by
  rintro c ci e s t C k hC rfl hlen hle hrun hfault
  obtain ⟨C', hC', -, hadv⟩ := advanceChip_of_no_fault hrun hfault
  obtain rfl := Option.some.inj (hC.symm.trans hC')
  have hlast : (BitVec.ofNat 32 C.lastTime).toNat = C.lastTime := Nat.mod_eq_of_lt (Nat.lt_of_le_of_lt hle e.isLt)
  refine ⟨fun hend => ?_, fun hquad m hm hme => ?_⟩
  · rw [advanceChip_of_no_event hC (passEnd_of_le hend)] at hadv
    obtain ⟨u, hu, rfl⟩ := runPass_runs hC hadv
    rw [← hlast] at hu
    exact ⟨u, runOscs_as_commands (fun _ => chipOscs_lt_numOsc) hlen hu, rfl⟩
  · have hn : nframes c (c.chipKind ci.toNat) ≠ 0 := by rw [nframes_of_quad hquad]; decide
    obtain ⟨r, hr, hrest⟩ := advanceChip_of_event hC hn (hm ▸ hme) hadv
    rw [← hm] at hr
    have hfirst : execWith c (.chipRununtil ci m) s = r := by
      refine execWith_chipRununtil_of_ok hC (by omega) ?_
      rw [advanceChip_of_no_event hC (passEnd_of_le (.inr (Nat.le_of_eq hm))), hr]
    have hrlen : numOsc c ≤ r.oscs.length := by rw [(runPass_ok hr).1.oscs.length]; exact hlen
    have hevent := frameEvent_as_commands (getElem?_runPass hC hr) hquad hrlen rfl
    obtain ⟨u, -, hchips⟩ := runPass_runs hC hr
    obtain ⟨D, hD, -, htime⟩ := runPass_frameEvent hC hr
    have hmle : D.lastTime ≤ e.toNat := by rw [htime]; exact Nat.le_of_lt hme
    refine ⟨r, _, hfirst, rfl, (execWith_chipRununtil_of_ok hD hmle hrest).symm.trans (congrArg _ (hevent.trans ?_))⟩
    rw [congrArg State.chips hchips, List.set_set]
    rfl

/-- Settles O55: from reset event 0 is pending, and each event makes the next one pending. -/
theorem nesFrameCount : Obligations.NesFrameCount := by
  intro c ci time s t C D hkind hC hlast hframe hdelay hvariant hmode hend hrun hfault hD
  obtain ⟨C', hC', hle, hadv⟩ := advanceChip_of_no_fault hrun hfault
  obtain rfl := Option.some.inj (hC.symm.trans hC')
  have hpending : NesPending 0 C := ⟨hframe, by rw [hlast, hdelay]; rfl, hvariant, hmode⟩
  obtain ⟨D', hD', hstands⟩ := hpending.position hkind hC (Nat.zero_le 4) (.inl rfl) hle hend hadv
  obtain rfl := Option.some.inj (hD.symm.trans hD')
  exact hstands

end Sys2Proof.Machine
end
section
/-! PROOF. A timed write (44_chip_sequencer_ops.md R323, R327, R328): it is CHIP.RUNUNTIL and then the register write,
which DISPATCH sends to a slot, to a global register or to an address with no function. -/

namespace Sys2Proof.Machine

variable {c : Config} {s t : State} {ci addr : Nat} {data : Byte} {C : Chip}

/-! ## The register write after time has advanced (R323) -/

theorem registerWrite_of_outside (hC : s.chips[ci]? = some C) (hwin : inWindow c (c.chipKind ci) addr = false) :
    registerWrite c ci addr data s = .ok s := by
  simp [registerWrite, hC, hwin]

theorem registerWrite_of_osc (hC : s.chips[ci]? = some C) (hwin : inWindow c (c.chipKind ci) addr = true) {i r o : Nat}
    (hd : dispatch c ci addr C.latch = .osc i r) (ho : (chipOscs c ci)[i]? = some o) :
    registerWrite c ci addr data s = oscWrite c o r data s := by
  simp only [registerWrite, hC, if_pos hwin, hd, ho]

theorem registerWrite_of_global (hC : s.chips[ci]? = some C) (hwin : inWindow c (c.chipKind ci) addr = true)
    {slot : Nat} (hd : dispatch c ci addr C.latch = .global slot) :
    registerWrite c ci addr data s = .ok (globalWrite c ci slot data s) := by
  simp only [registerWrite, hC, if_pos hwin, hd]

theorem registerWrite_of_none (hC : s.chips[ci]? = some C) (hwin : inWindow c (c.chipKind ci) addr = true)
    (hd : dispatch c ci addr C.latch = .none) :
    registerWrite c ci addr data s =
      .ok { s with chips := s.chips.set ci (gregWrite c (c.chipKind ci) C addr data) } := by
  simp only [registerWrite, hC, if_pos hwin, hd, State.modChip_eq_set hC]

/-- CHIP.WRITE after a CHIP.RUNUNTIL to its time that does not fault is the register write. -/
theorem execWith_chipWrite_after {ci : Byte} {time : Word32} {addr : BitVec 16} {u : State}
    (hrun : execWith c (.chipRununtil ci time) s = t) (hfault : t.global.fault = false)
    (hwrite : registerWrite c ci.toNat addr.toNat data t = .ok u) :
    execWith c (.chipWrite ci time addr data) s = u := by
  obtain ⟨C, hC, hle, hadv⟩ := advanceChip_of_no_fault hrun hfault
  exact execWith_chipWrite_of_ok hC hle (by simp only [advanceAndWrite, hadv, hwrite])

/-- A write of a register the slot has is the command OSC.WRITE. -/
theorem oscWrite_as_command {o r : Nat} {O : Osc} (ho : o < numOsc c) (hO : s.oscs[o]? = some O)
    (hr : r < O.regs.length) (hr32 : r < 2 ^ 32) :
    oscWrite c o r data s = .ok (execWith c (.oscWrite (BitVec.ofNat 8 o) (BitVec.ofNat 32 r) data) s) := by
  have hoNat := toNat_ofNat_of_lt_numOsc ho
  have hrNat : (BitVec.ofNat 32 r).toNat = r := Nat.mod_eq_of_lt hr32
  rw [execWith_oscWrite (hoNat.symm ▸ hO) (hrNat.symm ▸ hr), hoNat, hrNat]
  simp only [oscWrite, hO, if_neg (Nat.not_le.mpr hr), State.modOsc_eq_set hO]

/-! ## The printed effects of a global write (R328) -/

/-- The enable, mode and latch state as the table of R328 leaves it. -/
def printedBits (c : Config) (ci slot : Nat) (data : Byte) (g : GlobalBits) : GlobalBits where
  oscEnables := if c.chipKind ci = .nes2a03 ∧ slot = 0x4015 then data else g.oscEnables
  frameMode := if c.chipKind ci = .nes2a03 ∧ slot = 0x4017 then data else g.frameMode
  latch :=
    if c.chipKind ci = .pcePsg ∧ slot = pceLatchReg c then c.pceChannelRaw data % max (chipOscs c ci).length 1
    else g.latch

theorem globalBits_nes (hk : c.chipKind ci = .nes2a03) (slot : Nat) (g rest : GlobalBits) :
    globalBits c ci slot data g rest = printedBits c ci slot data g := by
  simp only [globalBits, printedBits, hk, true_and, reduceCtorEq, false_and, if_false]
  rfl

theorem globalBits_eq_printedBits (slot : Nat) (g : GlobalBits) :
    globalBits c ci slot data g g = printedBits c ci slot data g := by
  cases hk : c.chipKind ci with
  | nes2a03 => exact globalBits_nes hk slot g g
  | _ => simp [globalBits, printedBits, hk, pceChannel]

theorem printedBits_printedBits (slot : Nat) (g : GlobalBits) :
    printedBits c ci slot data (printedBits c ci slot data g) = printedBits c ci slot data g := by
  simp only [printedBits]
  congr 1 <;> split <;> rfl

/-- The latch is the printed one whatever the remainder makes of it (log 40). -/
theorem globalBits_latch_eq (slot : Nat) (g rest : GlobalBits) :
    (globalBits c ci slot data g rest).latch = (printedBits c ci slot data g).latch := by
  by_cases hk : c.chipKind ci = .pcePsg
  · simp [globalBits, printedBits, hk, pceChannel]
  · rw [globalBits_latch hk, printedBits]
    simp [hk]

theorem globalWritten_bits (slot : Nat) (C : Chip) :
    (globalWritten c ci slot data C).toGlobalBits = printedBits c ci slot data C.toGlobalBits :=
  globalBits_eq_printedBits slot C.toGlobalBits

theorem putChip_bits (slot : Nat) (r : GlobalView) (C : Chip) :
    (putChip c ci slot data r (globalWritten c ci slot data C)).toGlobalBits =
      globalBits c ci slot data (printedBits c ci slot data C.toGlobalBits) r.bits := by
  rw [putChip, globalWritten_bits]

theorem putChip_latch (slot : Nat) (r : GlobalView) (C : Chip) :
    (putChip c ci slot data r (globalWritten c ci slot data C)).latch =
      (printedBits c ci slot data C.toGlobalBits).latch := by
  rw [putChip_bits, globalBits_latch_eq, printedBits_printedBits]

/-- On the NES the remainder takes back none of the printed effects. -/
theorem putChip_bits_nes (hk : c.chipKind ci = .nes2a03) (slot : Nat) (r : GlobalView) (C : Chip) :
    (putChip c ci slot data r (globalWritten c ci slot data C)).toGlobalBits =
      printedBits c ci slot data C.toGlobalBits := by
  rw [putChip_bits, globalBits_nes hk, printedBits_printedBits]

/-! ## The key registers (R328) -/

/-- Whether global register `slot` keys voices on, or off. -/
def keyAction (c : Config) (ci slot : Nat) : Option Bool :=
  if c.chipKind ci = .spc700Dsp then c.spcKeyReg slot else none

theorem keyWrite_of_no_key {slot : Nat} (h : keyAction c ci slot = none) : keyWrite c ci slot data s = s := by
  unfold keyAction at h
  unfold keyWrite
  split
  next hk => rw [if_pos hk] at h; simp only [h]
  next => rfl

/-- Key-on or key-off of voice `v`. -/
def keyVoice (c : Config) : Bool → Nat → State → State
  | true => voiceKeyon c
  | false => voiceKeyoff

theorem keyWrite_of_key {slot : Nat} {on : Bool} (h : keyAction c ci slot = some on) :
    keyWrite c ci slot data s = (selectedVoices c ci data).foldl (fun t v => keyVoice c on v t) s := by
  unfold keyAction at h
  split at h
  next hk => cases on <;> simp [keyWrite, keyVoice, hk, h]
  next => cases h

theorem lt_numVoice_of_mem_selectedVoices {v : Nat} (h : v ∈ selectedVoices c ci data) : v < numVoice c := by
  obtain ⟨i, -, hi⟩ := List.mem_filterMap.mp h
  obtain ⟨o, -, hv⟩ := Option.bind_eq_some_iff.mp hi
  exact voiceOf_lt hv

/-- VOICE.KEYON or VOICE.KEYOFF. -/
def keyCommand : Bool → Byte → Instr
  | true => .voiceKeyon
  | false => .voiceKeyoff

theorem keyVoice_voices_length (on : Bool) (v : Nat) (s : State) :
    (keyVoice c on v s).voices.length = s.voices.length := by
  cases on <;> exact List.length_modify ..

theorem execWith_keyCommand {v : Byte} (hv : v.toNat < s.voices.length) (on : Bool) :
    execWith c (keyCommand on v) s = keyVoice c on v.toNat s := by
  have hhas : hasVoice s v = true := by simpa [hasVoice] using hv
  cases on
  · rw [keyCommand, execWith, cmdVoiceKeyoff, hhas, whenInRange_true, keyVoice]
  · rw [keyCommand, execWith, cmdVoiceKeyon, hhas, whenInRange_true, keyVoice]

/-- Key-on and key-off of voices of the engine are commands (R328). -/
theorem foldl_key_as_commands (on : Bool) {l : List Nat} (hl : ∀ v ∈ l, v < numVoice c)
    (hlen : numVoice c ≤ s.voices.length) :
    l.foldl (fun t v => keyVoice c on v t) s =
      (l.map (BitVec.ofNat 8)).foldl (fun t v => execWith c (keyCommand on v) t) s := by
  induction l generalizing s with
  | nil => rfl
  | cons v l ih =>
    have hv := hl v List.mem_cons_self
    have hvNat : (BitVec.ofNat 8 v).toNat = v :=
      Nat.mod_eq_of_lt (Nat.lt_of_lt_of_le hv (Nat.le_trans (numVoice_le c) (Nat.le_of_lt (numOsc_lt c))))
    rw [List.foldl_cons, List.map_cons, List.foldl_cons, execWith_keyCommand (by omega), hvNat]
    exact ih (fun w hw => hl w (List.mem_cons_of_mem v hw)) (by rw [keyVoice_voices_length]; exact hlen)

theorem keyWrite_as_commands {slot : Nat} {on : Bool} (hlen : numVoice c ≤ s.voices.length)
    (h : keyAction c ci slot = some on) :
    keyWrite c ci slot data s =
      ((selectedVoices c ci data).map (BitVec.ofNat 8)).foldl (fun t v => execWith c (keyCommand on v) t) s :=
  (keyWrite_of_key h).trans (foldl_key_as_commands on (fun _ => lt_numVoice_of_mem_selectedVoices) hlen)

/-! ## DISPATCH (R327) -/

theorem slotRegs_eq {i o : Nat} (ho : (chipOscs c ci)[i]? = some o) : slotRegs c ci i = nregs c (oscKind c o) := by
  rw [slotRegs, ho]
  rfl

/-- DISPATCH gives only oscillators and registers the chip has (42_oscillator_ops.md R236). -/
theorem lt_nregs_of_dispatch_osc {latch i r : Nat} (h : dispatch c ci addr latch = .osc i r) :
    ∃ o, (chipOscs c ci)[i]? = some o ∧ r < nregs c (oscKind c o) := by
  obtain ⟨o, ho⟩ := chipOscs_of_dispatch_osc h
  refine ⟨o, ho, ?_⟩
  rw [← slotRegs_eq ho]
  unfold dispatch validTarget at h
  split at h
  · split at h
    · cases h; assumption
    · cases h
  · simp_all

theorem dispatch_of_osc {latch i r o : Nat} (h : dispatchTarget c ci addr latch = .osc i r)
    (ho : (chipOscs c ci)[i]? = some o) (hr : r < nregs c (oscKind c o)) : dispatch c ci addr latch = .osc i r := by
  rw [dispatch, h, validTarget, slotRegs_eq ho, if_pos hr]

theorem dispatch_of_global {latch slot : Nat} (h : dispatchTarget c ci addr latch = .global slot) :
    dispatch c ci addr latch = .global slot := by
  simp only [dispatch, h, validTarget]

/-! ### NES -/

theorem inWindow_nes (c : Config) (addr : Nat) : inWindow c .nes2a03 addr = true ↔ 0x4000 ≤ addr ∧ addr ≤ 0x4017 := by
  simp [inWindow, nesWindow]

theorem dispatch_nesSquare (hk : c.chipKind ci = .nes2a03) {r o : Nat} (hr : r < 4)
    (ho : (chipOscs c ci)[0]? = some o) (hsquare : oscKind c o = .nesSquare) (latch : Nat) :
    dispatch c ci (0x4000 + r) latch = .osc 0 r := by
  refine dispatch_of_osc ?_ ho (by rw [hsquare, nregs]; omega)
  simp only [dispatchTarget, hk]
  rw [if_pos (by omega), Nat.add_sub_cancel_left]

theorem dispatch_nesEnable (hk : c.chipKind ci = .nes2a03) (latch : Nat) :
    dispatch c ci 0x4015 latch = .global 0x4015 :=
  dispatch_of_global (by simp [dispatchTarget, hk, nesEnableReg])

theorem dispatch_nesFrameMode (hk : c.chipKind ci = .nes2a03) (latch : Nat) :
    dispatch c ci 0x4017 latch = .global 0x4017 :=
  dispatch_of_global (by simp [dispatchTarget, hk, nesEnableReg, nesFrameModeReg])

/-! ### PC-Engine -/

theorem inWindow_pce (c : Config) (addr : Nat) : inWindow c .pcePsg addr = true ↔ 0x0800 ≤ addr ∧ addr ≤ 0x0809 := by
  simp [inWindow, pceWindow]

theorem pceLatchReg_mem (c : Config) : 0x0800 ≤ pceLatchReg c ∧ pceLatchReg c ≤ 0x0809 := by
  have hlatch : pceLatchReg c = 0x0800 + c.pceLatchRaw % 10 := rfl
  omega

theorem dispatch_pceLatch (hk : c.chipKind ci = .pcePsg) (latch : Nat) :
    dispatch c ci (pceLatchReg c) latch = .global (pceLatchReg c) :=
  dispatch_of_global (by simp [dispatchTarget, hk])

/-- Every other address is one register of the latched oscillator. -/
theorem dispatch_pceChannel (hk : c.chipKind ci = .pcePsg) {latch o : Nat} (haddr : addr ≠ pceLatchReg c)
    (ho : (chipOscs c ci)[latch]? = some o) (hn : 1 ≤ nregs c (oscKind c o)) :
    dispatch c ci addr latch = .osc latch (c.pceRegRaw addr latch % nregs c (oscKind c o)) := by
  refine dispatch_of_osc ?_ ho (Nat.mod_lt _ hn)
  simp only [dispatchTarget, hk, if_neg haddr, slotRegs_eq ho, Nat.max_eq_left hn]

/-! ### SPC700 -/

theorem mem_spcBlocks (base stride : Nat) (field : Fin 8 → Nat) (v f : Fin 8) :
    (base + v.val * stride + field f, v.val, f.val) ∈ spcBlocks base stride field :=
  List.mem_flatMap.mpr ⟨v.val, List.mem_range.mpr v.isLt, List.mem_map.mpr ⟨f, List.mem_finRange f, rfl⟩⟩

/-- In a list of pairs of which no two have the same key, a member is the one its key finds. -/
theorem find?_of_mem_of_nodup_keys {α : Type} {l : List (Nat × α)} (hl : (l.map Prod.fst).Nodup) {x : Nat × α}
    (hx : x ∈ l) : l.find? (fun y => y.1 == x.1) = some x := by
  cases hfind : l.find? fun y => y.1 == x.1 with
  | none => exact absurd (beq_self_eq_true x.1) (List.find?_eq_none.mp hfind x hx)
  | some y =>
    have hkey : y.1 = x.1 := by simpa using List.find?_some hfind
    rw [List.inj_on_of_nodup_map hl (List.mem_of_find?_eq_some hfind) hx hkey]

theorem spcVoiceField_of_mem {v f : Nat} (h : (addr, v, f) ∈ spcVoiceAddrs c) :
    spcVoiceField c addr = some (v, f) := by
  obtain ⟨-, -, -, -, hnodup⟩ := spcVoiceAddrs_spaced c
  rw [spcVoiceField, find?_of_mem_of_nodup_keys hnodup h]
  rfl

theorem dispatch_spcVoice (hk : c.chipKind ci = .spc700Dsp) {o : Nat} {v f : Fin 8}
    (hfield : spcVoiceField c addr = some (v.val, f.val)) (ho : (chipOscs c ci)[v.val]? = some o)
    (hvoice : oscKind c o = .brrVoice) (latch : Nat) : dispatch c ci addr latch = .osc v.val f.val := by
  refine dispatch_of_osc ?_ ho (by rw [hvoice]; exact f.isLt)
  simp only [dispatchTarget, hk, hfield]

/-- The 64 voice addresses, no two the same, each in the window and each a field of a voice (20_memory.md R82). -/
theorem spcVoices_mapped (hk : c.chipKind ci = .spc700Dsp) : ∃ (base stride : Nat) (field : Fin 8 → Nat),
    (∀ (v v' : Fin 8) (f f' : Fin 8), base + v.val * stride + field f = base + v'.val * stride + field f' →
      v = v' ∧ f = f') ∧
    ∀ (v f : Fin 8), inWindow c .spc700Dsp (base + v.val * stride + field f) = true ∧
      ∀ latch o, (chipOscs c ci)[v.val]? = some o → oscKind c o = .brrVoice →
        dispatch c ci (base + v.val * stride + field f) latch = .osc v.val f.val := by
  obtain ⟨base, stride, field, haddrs, -⟩ := spcVoiceAddrs_spaced c
  have hfield : ∀ v f : Fin 8, spcVoiceField c (base + v.val * stride + field f) = some (v.val, f.val) := fun v f =>
    spcVoiceField_of_mem (haddrs ▸ mem_spcBlocks base stride field v f)
  refine ⟨base, stride, field, fun v v' f f' h => ?_, fun v f => ⟨?_, fun latch o ho hvoice => ?_⟩⟩
  · have hsame := hfield v f
    rw [h, hfield v' f'] at hsame
    simp only [Option.some.injEq, Prod.mk.injEq] at hsame
    exact ⟨Fin.ext hsame.1.symm, Fin.ext hsame.2.symm⟩
  · simp only [inWindow, hfield v f, Option.isSome_some, Bool.true_or]
  · exact dispatch_spcVoice hk (hfield v f) ho hvoice latch

/-! ## The statement -/

/-- Settles O54: after the run the write is the register write, which goes where DISPATCH sends it. -/
theorem writeAfterRun : Obligations.WriteAfterRun := by
  refine ⟨?_, fun c ci => ⟨fun a latch i r => lt_nregs_of_dispatch_osc, fun hk => ?_, fun hk => ?_, spcVoices_mapped⟩⟩
  · rintro c ci time addr data s t u C k target hrun hfault hC rfl rfl hvoices rfl
    have hafter := fun u => execWith_chipWrite_after (c := c) (data := data) (addr := addr) (u := u) hrun hfault
    refine ⟨fun hwin => hafter _ (registerWrite_of_outside hC hwin), fun hwin => ⟨?_, fun hd => ?_, ?_⟩⟩
    · intro i r o O hd ho hO hr hr32
      refine hafter _ ((registerWrite_of_osc hC hwin hd ho).trans (oscWrite_as_command ?_ hO hr hr32))
      exact chipOscs_lt_numOsc (List.mem_of_getElem? ho)
    · exact hafter _ (registerWrite_of_none hC hwin hd)
    · rintro slot hd D rfl
      obtain ⟨w, r, hkey, hframe, hw, hrest, hdefault⟩ := globalWrite_eq (c := c) (slot := slot) (data := data) hC
      have hu := hafter _ (registerWrite_of_global hC hwin hd)
      rw [hkey] at hu
      refine ⟨w, _, hw, rfl, rfl, rfl, fun hk => ?_, putChip_latch slot r C, hframe, hrest, fun hr => ?_, ?_⟩
      · have hbits := putChip_bits_nes (data := data) hk slot r C
        exact ⟨congrArg GlobalBits.oscEnables hbits, congrArg GlobalBits.frameMode hbits⟩
      · rw [hdefault hr, State.modChip_eq_set hC, globalWritten, globalBits_eq_printedBits]
        rfl
      · rintro voices rfl
        rw [hu]
        have hlen : numVoice c ≤ w.voices.length := by rw [hrest.voices]; exact hvoices
        split
        next hact => exact keyWrite_of_no_key hact
        next hact => exact keyWrite_as_commands hlen hact
        next hact => exact keyWrite_as_commands hlen hact
  · exact ⟨inWindow_nes c, fun latch => ⟨fun r hr o ho hsquare => dispatch_nesSquare hk hr ho hsquare latch,
      dispatch_nesEnable hk latch, dispatch_nesFrameMode hk latch⟩⟩
  · obtain ⟨hlow, hhigh⟩ := pceLatchReg_mem c
    refine ⟨inWindow_pce c, hlow, hhigh, fun latch => ⟨dispatch_pceLatch hk latch, ?_⟩⟩
    rintro a o n haddr ho rfl hn
    exact dispatch_pceChannel hk haddr ho hn

end Sys2Proof.Machine
end

section
/-! PROOF. Faults (60_exceptions.md R378, R379, R382): what each event does to an engine, with and without a fault, and how
a command that faults ends. -/

namespace Sys2Proof.Machine

variable {c : Config} {s t : State}

/-! ## One step on each event -/

theorem step_of_no_event (hin : s.input = []) : step s = .next s := by
  simp only [step, stepBy, hin]

theorem step_of_hardwareReset {rest : List HostEvent} (hin : s.input = .hardwareReset :: rest) :
    step s = .next (hardwareReset Config.impl { s with input := rest }) := by
  simp only [step, stepBy, hin]

theorem step_of_loadRam {a : Nat} {v : Byte} {rest : List HostEvent} (hin : s.input = .loadRam a v :: rest) :
    step s = .next (loadRam Config.impl a v { s with input := rest }) := by
  simp only [step, stepBy, hin]

/-- After a fault a command word is taken and dropped (R378). -/
theorem step_of_command_of_fault {w : CmdWord} {rest : List HostEvent} (hf : s.global.fault = true)
    (hin : s.input = .command w :: rest) : step s = .next { s with input := rest } := by
  rw [step_of_command hin]
  exact if_pos hf

/-! ## Operations that keep GLOBAL -/

theorem global_foldl {α : Type} (f : State → α → State) (l : List α) (h : ∀ s a, (f s a).global = s.global) :
    (l.foldl f s).global = s.global :=
  foldl_keeps (fun t => t.global = s.global) f l s rfl fun t a _ ht => (h t a).trans ht

theorem SlotFrame.global {o : Nat} (h : SlotFrame c o s t) : t.global = s.global := by rw [h.rest]

theorem ChipFrame.global {ci : Nat} (h : ChipFrame c ci s t) : t.global = s.global := by rw [h.rest]

theorem global_bufEndframe {b : Nat} {time : Word32} (h : bufEndframe c b time s = .ok t) : t.global = s.global := by
  obtain rfl | ⟨-, -, -, -, -, rfl⟩ := bufEndframe_ok h <;> rfl

theorem global_bufMix {b : Nat} {count : Word32} (h : bufMix c b count s = .ok t) : t.global = s.global := by
  obtain rfl | ⟨-, -, -, rfl⟩ | ⟨-, -, -, -, rfl⟩ := bufMix_ok h <;> rfl

theorem global_bufRmsil {b : Nat} {count : Word32} (h : bufRmsil c b count s = .ok t) : t.global = s.global := by
  obtain rfl | ⟨-, -, -, -, rfl⟩ := bufRmsil_ok h <;> rfl

theorem global_synOffset {y b time : Nat} {d : Int} (h : synOffset c y b time d s = .ok t) : t.global = s.global := by
  obtain ⟨-, -, -, -, ⟨-, rfl⟩ | ⟨-, -, rfl⟩⟩ := synOffset_ok h <;> rfl

theorem global_oscReset (c : Config) (o : Nat) (s : State) : (oscReset c o s).global = s.global := by
  rw [oscReset_eq]

theorem global_chipReset (c : Config) (ci : Nat) (variant : Bool) (s : State) :
    (chipReset c ci variant s).global = s.global :=
  global_foldl (s := s.modChip ci fun _ => resetChip c ci variant) _ _ fun _ oi => global_oscReset c oi.1 _

theorem global_chipOscout {ci index : Nat} {sink : Option Nat} (h : chipOscout c ci sink index s = .ok t) :
    t.global = s.global := by
  unfold chipOscout at h
  split at h
  · cases h
  · cases h; rfl

theorem global_chipRead {ci addr : Nat} (h : chipRead c ci addr s = .ok t) : t.global = s.global := by
  obtain rfl | ⟨v, rfl⟩ := chipRead_ok h <;> rfl

theorem global_advanceAndWrite {ci e addr : Nat} {data : Byte} {C : Chip} (hC : s.chips[ci]? = some C)
    (hle : C.lastTime ≤ e) (h : advanceAndWrite c ci e addr data s = .ok t) : t.global = s.global := by
  unfold advanceAndWrite at h
  split at h
  · cases h
  · next u hu =>
    obtain ⟨hadvance, D, hD, -⟩ := advanceChip_ok hC hle hu
    exact (hadvance.trans (registerWrite_ok hD h).1).global

theorem global_advanceAndRebase {ci e : Nat} {C : Chip} (hC : s.chips[ci]? = some C) (hle : C.lastTime ≤ e)
    (h : advanceAndRebase c ci e s = .ok t) : t.global = s.global := by
  unfold advanceAndRebase at h
  split at h
  · cases h
  · next u hu =>
    refine Eq.trans ?_ (advanceChip_ok hC hle hu).1.global
    obtain rfl | rfl := rebaseChip_ok h <;> rfl

/-! ## How a command ends (R378) -/

/-- How the command with opcode `op` can end from `s`: with GLOBAL as it was, by a fault taken on `s`, or, only if it may
fault `inside`, by a fault taken on a state that keeps GLOBAL. -/
inductive Ends (op : Byte) (s : State) : Bool → State → Prop
  | completes {inside : Bool} {t : State} (h : t.global = s.global) : Ends op s inside t
  | faults {inside : Bool} (x : FaultCause) : Ends op s inside (raiseFault op x s)
  | faultsInside {w : State} (x : FaultCause) (h : w.global = s.global) : Ends op s true (raiseFault op x w)

section
variable {op : Byte} {inside : Bool}

theorem Ends.whenInRange {b : Bool} (h : b = true → Ends op s inside t) :
    Ends op s inside (whenInRange op b s t) := by
  cases b with
  | true => exact h rfl
  | false => exact .faults _

theorem Ends.settle {r : Attempt} (h : ∀ t, r = .ok t → t.global = s.global) : Ends op s inside (settle op s r) := by
  cases r with
  | ok t => exact .completes (h t rfl)
  | error x => exact .faults x

theorem Ends.settleImprecise {w : State} {r : Attempt} (hw : w.global = s.global)
    (h : ∀ t, r = .ok t → t.global = s.global) : Ends op s true (settleImprecise op w r) := by
  cases r with
  | ok t => exact .completes (h t rfl)
  | error x => exact .faultsInside x hw

theorem Ends.runCommand (c : Config) (o a e : Nat) (s : State) : Ends 0x32 s true (runCommand c o a e s) := by
  unfold Machine.runCommand
  split
  · exact .faults _
  · split
    · exact .faults _
    · next u hu =>
      exact .settleImprecise (by rw [wreckSlot_frame]) fun t ht =>
        ((SlotFrame.emit hu).trans (.runTransitions ht)).global

theorem Ends.timedCommand {ci e : Nat} {body : State → Attempt}
    (hbody : ∀ C t, s.chips[ci]? = some C → C.lastTime ≤ e → body s = .ok t → t.global = s.global) :
    Ends op s true (timedCommand c op ci e body s) := by
  unfold Machine.timedCommand
  split
  · exact .completes rfl
  · next C hC =>
    split
    · exact .faults _
    · next hle =>
      exact .settleImprecise (by rw [wreckChip_frame]) fun t => hbody C t hC (Nat.le_of_not_lt hle)

/-- The state a command ends in, where it ends with a fault. -/
theorem Ends.eq_of_fault (h : Ends op s inside t) (hs : s.global.fault = false) (ht : t.global.fault = true) :
    t.global.faultOp = op ∧ (inside = false → t = { s with global := t.global }) := by
  cases h with
  | completes h => simp [h, hs] at ht
  | faults x =>
    rw [raiseFault_of_clear op x s hs]
    exact ⟨rfl, fun _ => rfl⟩
  | @faultsInside w x hw =>
    rw [raiseFault_of_clear op x w (by rw [hw, hs])]
    exact ⟨rfl, nofun⟩

end

/-- Every command completes with GLOBAL as it was, or faults under its own opcode. -/
theorem execWith_ends (c : Config) (i : Instr) (s : State) :
    Ends i.opcode s (mayFaultInside i) (execWith c i s) := by
  cases i with
  | bufSetrate => exact .whenInRange fun _ => .settle fun _ h => (SendsOne.bufSetrate h).1
  | bufEndframe => exact .whenInRange fun _ => .settle fun _ => global_bufEndframe
  | bufRead => exact .whenInRange fun hb => .completes (SendsOne.bufRead (of_decide_eq_true hb) _ _).1
  | bufMix => exact .whenInRange fun _ => .settle fun _ => global_bufMix
  | bufRmsil => exact .whenInRange fun _ => .settle fun _ => global_bufRmsil
  | bufAvail | bufGetsr | bufGetcr =>
    exact .whenInRange fun hb => .completes (SendsOne.bufAnswer (of_decide_eq_true hb) _).1
  | synOffset => exact .whenInRange fun _ => .settle fun _ => global_synOffset
  | bufClear | synVolume | synTreble | oscClkenv | oscClklen | oscClkswp | oscClklin | voiceKeyon | voiceKeyoff
  | voiceTick => exact .whenInRange fun _ => .completes rfl
  | oscReset => exact .whenInRange fun _ => .completes (global_oscReset _ _ _)
  | oscWrite => exact .whenInRange fun _ => .settle fun _ h => (SlotFrame.oscWrite h).global
  | oscRun => exact .whenInRange fun _ => .runCommand _ _ _ _ _
  | chipReset => exact .whenInRange fun _ => .completes (global_chipReset _ _ _ _)
  | chipOutput | chipVolume | chipTreble | chipBufclr =>
    exact .whenInRange fun _ => .completes (global_foldl _ _ fun _ _ => rfl)
  | chipOscout => exact .whenInRange fun _ => .settle fun _ => global_chipOscout
  | chipWrite => exact .whenInRange fun _ => .timedCommand fun _ _ => global_advanceAndWrite
  | chipRununtil =>
    exact .whenInRange fun _ => .timedCommand fun _ _ hC hle h => (advanceChip_ok hC hle h).1.global
  | chipEndframe => exact .whenInRange fun _ => .timedCommand fun _ _ => global_advanceAndRebase
  | chipRead => exact .whenInRange fun _ => .settle fun _ => global_chipRead

/-! ## The statements -/

/-- Settles O16: how the command ends gives FAULT_OP and the precision; the ports of the four imprecise commands come from
the statements on responses and spaces. -/
theorem faultEntryIsPrecise : Obligations.FaultEntryIsPrecise := by
  intro i s t hs h ht
  have hend : Ends i.opcode s (mayFaultInside i) t := by
    rw [exec_eq_next_execWith] at h
    cases h
    exact execWith_ends _ i s
  obtain ⟨hop, hprecise⟩ := hend.eq_of_fault hs ht
  have hrsp : t.rsp = s.rsp := (oneResponseWord i s t hs h).2 (.inr ht)
  obtain ⟨hdout, hdin⟩ : t.dout = s.dout ∧ t.din = s.din := by
    cases hin : mayFaultInside i with
    | false =>
      rw [hprecise hin]
      exact ⟨rfl, rfl⟩
    | true =>
      obtain ⟨-, -, -, hdin, hdout⟩ := spacesReachedOnlyAsListed i s t h
      exact ⟨hdout (by rintro b st m rfl; cases hin), hdin (by rintro b n rfl; cases hin)⟩
  exact ⟨hop, hrsp, hdout, hdin, hprecise⟩

/-- Settles O7: event by event; in an engine with a fault, hardware reset alone writes GLOBAL. -/
theorem faultIsSticky : Obligations.FaultIsSticky := by
  intro s hf
  refine ⟨fun w rest => step_of_command_of_fault hf, fun t h hne => ?_⟩
  match hin : s.input with
  | [] =>
    rw [step_of_no_event hin] at h
    cases h; exact absurd rfl hne
  | .hardwareReset :: rest =>
    rw [step_of_hardwareReset hin] at h
    cases h; exact ⟨⟨rest, rfl⟩, hardwareReset_global _ _⟩
  | .loadRam a v :: rest =>
    rw [step_of_loadRam hin] at h
    cases h; exact absurd rfl hne
  | .command w :: rest =>
    rw [step_of_command_of_fault hf hin] at h
    cases h; exact absurd rfl hne

/-- Settles O9: the next state after a load is `loadRam`, and what that makes of every address is a law of the RAM. -/
theorem idleAndRamLoad : Obligations.IdleAndRamLoad := by
  refine ⟨fun s => step_of_no_event, fun s a v rest hin => ⟨_, step_of_loadRam hin, fun x => ?_⟩⟩
  exact ramRead_loadRam Config.impl a x v { s with input := rest }

end Sys2Proof.Machine
end

section
/-! PROOF. Hardware reset as a step (70_reset_and_hazards.md R410): of the state before it, only what the host has
presented, what the engine has sent and the two counters of draws reach the state after it. -/

namespace Sys2Proof.Machine

/-- Hardware reset of the engine at hand, as an update of the machine's reset state (R410; the ports kept: log 10). -/
theorem hardwareReset_impl (s : State) :
    hardwareReset Config.impl s =
      { State.reset with ramEpoch := s.ramEpoch + 1, input := s.input, din := s.din, rsp := s.rsp, dout := s.dout,
                         draws := s.draws } := rfl

/-- Settles O8: the step takes the event off the queue and resets what is left, and taking it off touches nothing that
the reset keeps but the queue itself. -/
theorem hardwareResetStep : Obligations.HardwareResetStep := by
  intro s rest hin
  exact ⟨_, step_of_hardwareReset hin, hardwareReset_impl { s with input := rest }⟩

end Sys2Proof.Machine
end
